-- ==== Sys2Proof/Word.lean ====
section
/-! DEFINITION. The bit vectors the spec speaks of: command words, raw values, bytes, register numbers. -/

namespace Sys2Proof

/-- A word of the command port: 32 bits (00_scope.md R9, 20_memory.md R51). -/
abbrev Word := BitVec 32

/-- A raw value: a natural below 2^256, as a command's payload carries it (00_scope.md R9). -/
abbrev Raw := BitVec 256

/-- The 256-bit pattern a field element occupies in a register, its stored form (41_field.md R142). -/
abbrev Fe := BitVec 256

/-- One byte of an encoding or of the output stream (20_memory.md R52, R55). -/
abbrev Byte := BitVec 8

/-- A register number, 0 to 15 in every file (10_state.md R30, 30_encoding.md R75). -/
abbrev RegNo := Fin 16

end Sys2Proof
end

