-- ==== Sys2Proof/Config.lean ====
section
/-! DEFINITION. The parameters of the block (00_scope.md R6): the fixed numbers, and the one function the spec leaves to the
implementation. -/

namespace Sys2Proof.Config

/-- `Hash256`: any total function from byte strings to 32 bytes (00_scope.md R6, 92_eei_decisions.md D38). The model assumes
nothing of it but that its result depends on the input bytes alone, so it has no body. DESIGN CHOICE, safe: log entry 3. -/
opaque hash256 : List Byte → Vector Byte 32

/-- `RADIX`, the Montgomery radix 2^256 (00_scope.md R6). -/
def radix : Nat := 2 ^ 256

/-- `W`: bits of a field value and of a raw value (00_scope.md R6). -/
def width : Nat := 256

/-- `WB`: bytes of an encoded scalar (00_scope.md R6). -/
def scalarBytes : Nat := 32

/-- `WNAF_W`: the window of scalar multiplication (00_scope.md R6). -/
def wnafWindow : Nat := 5

/-- `POW_W`: the window of windowed exponentiation (00_scope.md R6). -/
def powWindow : Nat := 5

/-- The base-2 logarithm of `NMAX`'s default value 256 (00_scope.md R6); `NMAX` itself is a field of State: log entry 2. -/
def nmaxLogDefault : Fin 12 := 8

end Sys2Proof.Config
end

