-- ==== Sys2Proof/Syntax.lean ====
section
/-! DEFINITION. The commands of PFE-CS version 1 (30_encoding.md R77): one constructor per row of spec/opcode_table.json, each a
whole command, its header's operands and its payload, in the operand order of R82. -/

namespace Sys2Proof

/-- A field context: 0 the curve's coordinate field, 1 the scalar (order) field (10_state.md R21, 30_encoding.md R75). -/
inductive Ctx where
  | coord
  | order
deriving DecidableEq, Repr

/-- A reduction strategy: 0 naive, 1 Montgomery (10_state.md R21, 30_encoding.md R75). -/
inductive Strat where
  | naive
  | mont
deriving DecidableEq, Repr

/-- A point as a payload carries it: two raw values, x then y (20_memory.md R53, R54). -/
structure RawPoint where
  x : Raw
  y : Raw
deriving DecidableEq, Repr

/-- An inner-product proof as a payload carries it (20_memory.md R63): the `L` points, the `R` points, then `a` and `b`. -/
structure RawProof where
  ls : List RawPoint
  rs : List RawPoint
  a : Raw
  b : Raw
deriving DecidableEq, Repr

/-- The 50 commands (30_encoding.md R77). A destination is written first, as the assembler writes it (R71, R82). -/
inductive Instr where
  -- configuration and transfer (40_config_transfer.md R100 to R112)
  | nop
  | fsetup (ctx : Ctx) (strat : Strat) (modulus : Raw)
  | csetup (a b : Raw)
  | sts
  | lde (ed : RegNo) (ctx : Ctx) (raw : Raw)
  | ste (es : RegNo)
  | lda (ad : RegNo) (pt : RawPoint)
  | ldainf (ad : RegNo)
  | sta (sa : RegNo)
  | ldv (vd : RegNo) (ctx : Ctx) (raws : List Raw)
  | stv (vs : RegNo)
  | ldg (gd : RegNo) (pts : List RawPoint)
  | stg (gs : RegNo)
  -- field unit (41_field.md R150 to R159)
  | fadd (ed es1 es2 : RegNo)
  | fsub (ed es1 es2 : RegNo)
  | fmul (ed es1 es2 : RegNo)
  | fneg (ed es : RegNo)
  | finv (ed es : RegNo)
  | fpow (ed es : RegNo) (expo : Raw)
  | fpoww (ed es : RegNo) (expo : Raw)
  | fsqrt (ed es : RegNo)
  | feq (es1 es2 : RegNo)
  | fmov (ed es : RegNo)
  -- curve unit (42_curve.md R190 to R200)
  | pchk (sa : RegNo)
  | ptoj (jd sa : RegNo)
  | ptoa (ad js : RegNo)
  | padd (jd js1 js2 : RegNo)
  | pmadd (jd js1 sa2 : RegNo)
  | pdbl (jd js : RegNo)
  | pneg (jd js : RegNo)
  | pmul (jd es js : RegNo)
  | peq (sa1 sa2 : RegNo)
  | gsetup (pt : RawPoint)
  | agen (ad : RegNo)
  -- vector unit (43_vector.md R223 to R234)
  | vadd (vd vs1 vs2 : RegNo)
  | vsub (vd vs1 vs2 : RegNo)
  | vhad (vd vs1 vs2 : RegNo)
  | vscl (vd vs es : RegNo)
  | vip (ed vs1 vs2 : RegNo)
  | vslice (vd vs : RegNo) (start len : Fin 65536)
  | vpow (vd es : RegNo) (n : Fin 4096)
  | vget (ed vs : RegNo) (idx : Fin 4096)
  | vrev (vd vs : RegNo)
  | gmsm (jd gs vs : RegNo)
  | gslice (gd gs : RegNo) (start len : Fin 65536)
  | gget (ad gs : RegNo) (idx : Fin 4096)
  -- inner-product unit (44_ipa.md R250 to R253)
  | ipach (ed aL aC aR : RegNo)
  | ipasv (vd vs : RegNo)
  | ipavfy (gs hs au aP : RegNo) (proof : RawProof)
  | ipaprv (gs hs au aP va vb : RegNo)
deriving DecidableEq, Repr

/-- The four pseudo-instructions of the assembler (30_encoding.md R83). -/
inductive Pseudo where
  | fsqr (ed es : RegNo)
  | lde1 (ed : RegNo) (ctx : Ctx)
  | lde0 (ed : RegNo) (ctx : Ctx)
  | psuba (jd js1 sa2 jt : RegNo)
deriving DecidableEq, Repr

end Sys2Proof
end

