-- ==== Sys2Proof/WellFormed.lean ====
section
/-! DEFINITION. Which terms of `Instr` are commands: the lengths a header can state (30_encoding.md R72 to R74). The types of the
operands say the rest (register numbers, selectors, immediates, 256-bit payload values). -/

namespace Sys2Proof

/-- A proof fits IPAVFY: as many `R` points as `L` points, and a round count that `imm8` can hold (20_memory.md R63,
30_encoding.md R73). -/
def RawProof.wf (p : RawProof) : Bool :=
  p.ls.length == p.rs.length && decide (p.ls.length < 256)

/-- A command that some words encode: a vector's length is `imm12` (30_encoding.md R72), a proof's round count `imm8` (R73). -/
def Instr.wf : Instr → Bool
  | .ldv _ _ raws => decide (raws.length < 4096)
  | .ldg _ pts => decide (pts.length < 4096)
  | .ipavfy _ _ _ _ proof => proof.wf
  | .nop | .fsetup _ _ _ | .csetup _ _ | .sts | .lde _ _ _ | .ste _ | .lda _ _ | .ldainf _ | .sta _ | .stv _ | .stg _ => true
  | .fadd _ _ _ | .fsub _ _ _ | .fmul _ _ _ | .fneg _ _ | .finv _ _ | .fpow _ _ _ | .fpoww _ _ _ | .fsqrt _ _ => true
  | .feq _ _ | .fmov _ _ => true
  | .pchk _ | .ptoj _ _ | .ptoa _ _ | .padd _ _ _ | .pmadd _ _ _ | .pdbl _ _ | .pneg _ _ | .pmul _ _ _ | .peq _ _ => true
  | .gsetup _ | .agen _ => true
  | .vadd _ _ _ | .vsub _ _ _ | .vhad _ _ _ | .vscl _ _ _ | .vip _ _ _ | .vslice _ _ _ _ | .vpow _ _ _ | .vget _ _ _ => true
  | .vrev _ _ | .gmsm _ _ _ | .gslice _ _ _ _ | .gget _ _ _ => true
  | .ipach _ _ _ _ | .ipasv _ _ | .ipaprv _ _ _ _ _ _ => true

end Sys2Proof
end

