-- ==== Sys2Proof/Decode.lean ====
section
/-! DEFINITION. Decoding and encoding of PFE-CS version 1 (30_encoding.md R70 to R83): the opcode map, the header fields, the
payload layout, the total decoder that rejects by name, and the encoder, both written from the table of R77. -/

namespace Sys2Proof

/-! ## The opcode map (30_encoding.md R77) -/

/-- The 50 values of the header's `op` field, by mnemonic (30_encoding.md R77). -/
inductive Opcode where
  | nop | fsetup | csetup | sts | lde | ste | lda | ldainf | sta | ldv | stv | ldg | stg | fadd | fsub | fmul | fneg
  | finv | fpow | fpoww | fsqrt | feq | fmov | pchk | ptoj | ptoa | padd | pmadd | pdbl | pneg | pmul | peq | gsetup
  | agen | vadd | vsub | vhad | vscl | vip | vslice | vpow | vget | vrev | gmsm | gslice | gget | ipach | ipasv
  | ipavfy | ipaprv
deriving DecidableEq, Repr

/-- The `op` value of a mnemonic, bits 31:24 of its header (30_encoding.md R77). -/
def Opcode.code : Opcode → Nat
  | .nop => 0x00 | .fsetup => 0x01 | .csetup => 0x02 | .sts => 0x04
  | .lde => 0x08 | .ste => 0x09 | .lda => 0x0A | .ldainf => 0x0B
  | .sta => 0x0C | .ldv => 0x0D | .stv => 0x0E | .ldg => 0x0F
  | .stg => 0x10 | .fadd => 0x20 | .fsub => 0x21 | .fmul => 0x22
  | .fneg => 0x23 | .finv => 0x24 | .fpow => 0x25 | .fpoww => 0x26
  | .fsqrt => 0x27 | .feq => 0x28 | .fmov => 0x29 | .pchk => 0x30
  | .ptoj => 0x31 | .ptoa => 0x32 | .padd => 0x33 | .pmadd => 0x34
  | .pdbl => 0x35 | .pneg => 0x36 | .pmul => 0x37 | .peq => 0x38
  | .gsetup => 0x39 | .agen => 0x3A | .vadd => 0x40 | .vsub => 0x41
  | .vhad => 0x42 | .vscl => 0x43 | .vip => 0x44 | .vslice => 0x45
  | .vpow => 0x46 | .vget => 0x47 | .vrev => 0x48 | .gmsm => 0x49
  | .gslice => 0x4A | .gget => 0x4B | .ipach => 0x50 | .ipasv => 0x51
  | .ipavfy => 0x52 | .ipaprv => 0x53

/-- Every row of the opcode map. -/
def Opcode.all : List Opcode :=
  [.nop, .fsetup, .csetup, .sts, .lde, .ste, .lda, .ldainf, .sta, .ldv, .stv, .ldg, .stg, .fadd, .fsub, .fmul, .fneg,
   .finv, .fpow, .fpoww, .fsqrt, .feq, .fmov, .pchk, .ptoj, .ptoa, .padd, .pmadd, .pdbl, .pneg, .pmul, .peq, .gsetup,
   .agen, .vadd, .vsub, .vhad, .vscl, .vip, .vslice, .vpow, .vget, .vrev, .gmsm, .gslice, .gget, .ipach, .ipasv,
   .ipavfy, .ipaprv]

/-- The mnemonic an `op` value selects; every other value is unassigned (30_encoding.md R78 a). -/
def Opcode.ofCode (n : Nat) : Option Opcode :=
  Opcode.all.find? fun o => o.code == n

/-- The header formats R, I and K (30_encoding.md R71 to R73); `used` register-sized fields hold operands, from `f5`
downwards, and the register-sized fields below them are unused. -/
inductive Format where
  | r (used : Nat)
  | i (used : Nat)
  | k
deriving DecidableEq, Repr

/-- The format of each command and how many of its fields it uses (30_encoding.md R77). -/
def Opcode.format : Opcode → Format
  | .nop | .csetup | .sts | .gsetup => .r 0
  | .ste | .lda | .ldainf | .sta | .stv | .stg | .pchk | .agen => .r 1
  | .fsetup | .lde | .fneg | .finv | .fpow | .fpoww | .fsqrt | .feq | .fmov => .r 2
  | .ptoj | .ptoa | .pdbl | .pneg | .peq | .vslice | .vrev | .gslice | .ipasv => .r 2
  | .fadd | .fsub | .fmul | .padd | .pmadd | .pmul | .vadd | .vsub | .vhad | .vscl | .vip | .gmsm => .r 3
  | .ipach => .r 4
  | .ipaprv => .r 6
  | .ldg => .i 1
  | .ldv | .vpow | .vget | .gget => .i 2
  | .ipavfy => .k

/-! ## Header fields -/

/-- The four header bits that begin at bit `lo`, as a register number (30_encoding.md R75). -/
def nibble (h : Word) (lo : Nat) : RegNo :=
  ⟨h.toNat / 2 ^ lo % 16, Nat.mod_lt _ (by decide)⟩

/-- Header field `f5`, bits 23:20 (30_encoding.md R71). -/
def f5 (h : Word) : RegNo := nibble h 20
/-- Header field `f4`, bits 19:16. -/
def f4 (h : Word) : RegNo := nibble h 16
/-- Header field `f3`, bits 15:12. -/
def f3 (h : Word) : RegNo := nibble h 12
/-- Header field `f2`, bits 11:8. -/
def f2 (h : Word) : RegNo := nibble h 8
/-- Header field `f1`, bits 7:4. -/
def f1 (h : Word) : RegNo := nibble h 4
/-- Header field `f0`, bits 3:0. -/
def f0 (h : Word) : RegNo := nibble h 0

/-- The header's `op` field, bits 31:24. -/
def opField (h : Word) : Nat := h.toNat / 2 ^ 24

/-- The unsigned immediate of format I, bits 11:0 (30_encoding.md R72). -/
def imm12 (h : Word) : Fin 4096 := ⟨h.toNat % 4096, Nat.mod_lt _ (by decide)⟩

/-- The unsigned immediate of format K, bits 7:0 (30_encoding.md R73). -/
def imm8 (h : Word) : Fin 256 := ⟨h.toNat % 256, Nat.mod_lt _ (by decide)⟩

/-- The context a selector field names: 0 the coordinate field, 1 the order field (30_encoding.md R75). A value above 1 is
illegal and is refused before this is asked. -/
def ctxOf (n : RegNo) : Ctx := if n.val = 0 then .coord else .order

/-- The strategy a selector field names: 0 naive, 1 Montgomery (30_encoding.md R75). -/
def stratOf (n : RegNo) : Strat := if n.val = 0 then .naive else .mont

/-- The field value of a context operand (30_encoding.md R75). -/
def Ctx.toNat : Ctx → Nat
  | .coord => 0
  | .order => 1

/-- The field value of a strategy operand (30_encoding.md R75). -/
def Strat.toNat : Strat → Nat
  | .naive => 0
  | .mont => 1

/-! ## Legal headers (30_encoding.md R78, R79) -/

/-- Why the decoder gives no command. The first three are the illegal headers of 30_encoding.md R78. -/
inductive DecodeError where
  /-- The stream holds no word. -/
  | noWord
  /-- R78 (a): `op` is not one of the 50 values. -/
  | unassignedOpcode
  /-- R78 (b): a field marked "-" is not 0. -/
  | unusedFieldNotZero
  /-- R78 (c): a ctx or strat field holds a value above 1. -/
  | selectorAboveOne
  /-- The stream ends before the command's last payload word (20_memory.md R57). -/
  | incomplete
deriving DecidableEq, Repr

/-- The fields a format leaves unused are 0 (30_encoding.md R78 b). -/
def Format.unusedZero (h : Word) : Format → Bool
  | .r used => h.toNat % 16 ^ (6 - used) == 0
  | .i used => h.toNat / 4096 % 16 ^ (3 - used) == 0
  | .k => true

/-- The ctx and strat fields of a command hold 0 or 1 (30_encoding.md R78 c). -/
def Opcode.selectorsOk (h : Word) : Opcode → Bool
  | .fsetup => decide ((f5 h).val ≤ 1) && decide ((f4 h).val ≤ 1)
  | .lde | .ldv => decide ((f4 h).val ≤ 1)
  | _ => true

/-- The header checks of 30_encoding.md R78: the command a header word begins, or why it is illegal. -/
def checkHeader (h : Word) : Except DecodeError Opcode :=
  match Opcode.ofCode (opField h) with
  | none => .error .unassignedOpcode
  | some o =>
    if !o.format.unusedZero h then .error .unusedFieldNotZero
    else if !o.selectorsOk h then .error .selectorAboveOne
    else .ok o

/-! ## Payload (30_encoding.md R74, 20_memory.md R54, R63) -/

/-- The number of payload words of a command, a function of its header alone (30_encoding.md R70, R74). -/
def Opcode.payloadWords (h : Word) : Opcode → Nat
  | .fsetup | .lde | .fpow | .fpoww => 8
  | .csetup | .gsetup | .lda => 16
  | .ldv => 8 * (imm12 h).val
  | .ldg => 16 * (imm12 h).val
  | .vslice | .gslice => 1
  | .ipavfy => 32 * (imm8 h).val + 16
  | _ => 0

/-- The natural some words spell, the most significant first (20_memory.md R54). -/
def wordsNat (ws : List Word) : Nat :=
  ws.foldl (fun acc w => acc * 2 ^ 32 + w.toNat) 0

/-- The 256-bit value in the next eight words (20_memory.md R54). -/
def rawOf (ws : List Word) : Raw :=
  BitVec.ofNat 256 (wordsNat (ws.take 8))

/-- The point in the next sixteen words: x then y (20_memory.md R54). -/
def pointOf (ws : List Word) : RawPoint :=
  ⟨rawOf ws, rawOf (ws.drop 8)⟩

/-- The next `n` 256-bit values, element 0 first (20_memory.md R54). -/
def rawsOf : Nat → List Word → List Raw
  | 0, _ => []
  | n + 1, ws => rawOf ws :: rawsOf n (ws.drop 8)

/-- The next `n` points, point 0 first (20_memory.md R54). -/
def pointsOf : Nat → List Word → List RawPoint
  | 0, _ => []
  | n + 1, ws => pointOf ws :: pointsOf n (ws.drop 16)

/-- The proof of `k` rounds in the next `32k + 16` words (20_memory.md R63). -/
def proofOf (k : Nat) (ws : List Word) : RawProof :=
  let tail := ws.drop (32 * k)
  ⟨pointsOf k ws, pointsOf k (ws.drop (16 * k)), rawOf tail, rawOf (tail.drop 8)⟩

/-- `start`, bits 31:16 of an extension word (30_encoding.md R74). -/
def extStart (ws : List Word) : Fin 65536 :=
  ⟨wordsNat (ws.take 1) / 65536 % 65536, Nat.mod_lt _ (by decide)⟩

/-- `len`, bits 15:0 of an extension word (30_encoding.md R74). -/
def extLen (ws : List Word) : Fin 65536 :=
  ⟨wordsNat (ws.take 1) % 65536, Nat.mod_lt _ (by decide)⟩

/-! ## The decoder -/

/-- The command of a legal header `h` and the words `ws` that follow it (the operand columns of 30_encoding.md R77). -/
def build (h : Word) (ws : List Word) : Opcode → Instr
  | .nop => .nop
  | .fsetup => .fsetup (ctxOf (f5 h)) (stratOf (f4 h)) (rawOf ws)
  | .csetup => .csetup (rawOf ws) (rawOf (ws.drop 8))
  | .sts => .sts
  | .lde => .lde (f5 h) (ctxOf (f4 h)) (rawOf ws)
  | .ste => .ste (f5 h)
  | .lda => .lda (f5 h) (pointOf ws)
  | .ldainf => .ldainf (f5 h)
  | .sta => .sta (f5 h)
  | .ldv => .ldv (f5 h) (ctxOf (f4 h)) (rawsOf (imm12 h).val ws)
  | .stv => .stv (f5 h)
  | .ldg => .ldg (f5 h) (pointsOf (imm12 h).val ws)
  | .stg => .stg (f5 h)
  | .fadd => .fadd (f5 h) (f4 h) (f3 h)
  | .fsub => .fsub (f5 h) (f4 h) (f3 h)
  | .fmul => .fmul (f5 h) (f4 h) (f3 h)
  | .fneg => .fneg (f5 h) (f4 h)
  | .finv => .finv (f5 h) (f4 h)
  | .fpow => .fpow (f5 h) (f4 h) (rawOf ws)
  | .fpoww => .fpoww (f5 h) (f4 h) (rawOf ws)
  | .fsqrt => .fsqrt (f5 h) (f4 h)
  | .feq => .feq (f5 h) (f4 h)
  | .fmov => .fmov (f5 h) (f4 h)
  | .pchk => .pchk (f5 h)
  | .ptoj => .ptoj (f5 h) (f4 h)
  | .ptoa => .ptoa (f5 h) (f4 h)
  | .padd => .padd (f5 h) (f4 h) (f3 h)
  | .pmadd => .pmadd (f5 h) (f4 h) (f3 h)
  | .pdbl => .pdbl (f5 h) (f4 h)
  | .pneg => .pneg (f5 h) (f4 h)
  | .pmul => .pmul (f5 h) (f4 h) (f3 h)
  | .peq => .peq (f5 h) (f4 h)
  | .gsetup => .gsetup (pointOf ws)
  | .agen => .agen (f5 h)
  | .vadd => .vadd (f5 h) (f4 h) (f3 h)
  | .vsub => .vsub (f5 h) (f4 h) (f3 h)
  | .vhad => .vhad (f5 h) (f4 h) (f3 h)
  | .vscl => .vscl (f5 h) (f4 h) (f3 h)
  | .vip => .vip (f5 h) (f4 h) (f3 h)
  | .vslice => .vslice (f5 h) (f4 h) (extStart ws) (extLen ws)
  | .vpow => .vpow (f5 h) (f4 h) (imm12 h)
  | .vget => .vget (f5 h) (f4 h) (imm12 h)
  | .vrev => .vrev (f5 h) (f4 h)
  | .gmsm => .gmsm (f5 h) (f4 h) (f3 h)
  | .gslice => .gslice (f5 h) (f4 h) (extStart ws) (extLen ws)
  | .gget => .gget (f5 h) (f4 h) (imm12 h)
  | .ipach => .ipach (f5 h) (f4 h) (f3 h) (f2 h)
  | .ipasv => .ipasv (f5 h) (f4 h)
  | .ipavfy => .ipavfy (f5 h) (f4 h) (f3 h) (f2 h) (proofOf (imm8 h).val ws)
  | .ipaprv => .ipaprv (f5 h) (f4 h) (f3 h) (f2 h) (f1 h) (f0 h)

/-- The decoder: the first command of a word stream and the words after it, or why there is none. It is total, and the cut into
commands depends on no state (30_encoding.md R70, R78). -/
def decode : List Word → Except DecodeError (Instr × List Word)
  | [] => .error .noWord
  | h :: ws =>
    match checkHeader h with
    | .error err => .error err
    | .ok o =>
      if ws.length < o.payloadWords h then .error .incomplete
      else .ok (build h ws o, ws.drop (o.payloadWords h))

/-- The header range checks of 30_encoding.md R80, made before any payload word is awaited: `imm12 > NMAX` in LDV, LDG and VPOW,
`2^imm8 > NMAX` in IPAVFY. -/
def Opcode.outOfRange (nmax : Nat) (h : Word) : Opcode → Bool
  | .ldv | .ldg | .vpow => decide (nmax < (imm12 h).val)
  | .ipavfy => decide (nmax < 2 ^ (imm8 h).val)
  | _ => false

/-! ## The encoder -/

/-- The mnemonic of a command. -/
def Instr.opcode : Instr → Opcode
  | .nop => .nop | .fsetup _ _ _ => .fsetup | .csetup _ _ => .csetup
  | .sts => .sts | .lde _ _ _ => .lde | .ste _ => .ste
  | .lda _ _ => .lda | .ldainf _ => .ldainf | .sta _ => .sta
  | .ldv _ _ _ => .ldv | .stv _ => .stv | .ldg _ _ => .ldg
  | .stg _ => .stg | .fadd _ _ _ => .fadd | .fsub _ _ _ => .fsub
  | .fmul _ _ _ => .fmul | .fneg _ _ => .fneg | .finv _ _ => .finv
  | .fpow _ _ _ => .fpow | .fpoww _ _ _ => .fpoww | .fsqrt _ _ => .fsqrt
  | .feq _ _ => .feq | .fmov _ _ => .fmov | .pchk _ => .pchk
  | .ptoj _ _ => .ptoj | .ptoa _ _ => .ptoa | .padd _ _ _ => .padd
  | .pmadd _ _ _ => .pmadd | .pdbl _ _ => .pdbl | .pneg _ _ => .pneg
  | .pmul _ _ _ => .pmul | .peq _ _ => .peq | .gsetup _ => .gsetup
  | .agen _ => .agen | .vadd _ _ _ => .vadd | .vsub _ _ _ => .vsub
  | .vhad _ _ _ => .vhad | .vscl _ _ _ => .vscl | .vip _ _ _ => .vip
  | .vslice _ _ _ _ => .vslice | .vpow _ _ _ => .vpow | .vget _ _ _ => .vget
  | .vrev _ _ => .vrev | .gmsm _ _ _ => .gmsm | .gslice _ _ _ _ => .gslice
  | .gget _ _ _ => .gget | .ipach _ _ _ _ => .ipach | .ipasv _ _ => .ipasv
  | .ipavfy _ _ _ _ _ => .ipavfy | .ipaprv _ _ _ _ _ _ => .ipaprv

/-- A format R header from its six fields (30_encoding.md R71). -/
def packR (o : Opcode) (a5 a4 a3 a2 a1 a0 : Nat) : Word :=
  BitVec.ofNat 32 (o.code * 2 ^ 24 + a5 * 2 ^ 20 + a4 * 2 ^ 16 + a3 * 2 ^ 12 + a2 * 2 ^ 8 + a1 * 2 ^ 4 + a0)

/-- A format I header from its three fields and `imm12` (30_encoding.md R72). -/
def packI (o : Opcode) (a5 a4 a3 imm : Nat) : Word :=
  BitVec.ofNat 32 (o.code * 2 ^ 24 + a5 * 2 ^ 20 + a4 * 2 ^ 16 + a3 * 2 ^ 12 + imm)

/-- A format K header from its four fields and `imm8` (30_encoding.md R73). -/
def packK (o : Opcode) (a5 a4 a3 a2 imm : Nat) : Word :=
  BitVec.ofNat 32 (o.code * 2 ^ 24 + a5 * 2 ^ 20 + a4 * 2 ^ 16 + a3 * 2 ^ 12 + a2 * 2 ^ 8 + imm)

/-- The header word of a command (30_encoding.md R77). -/
def encodeHeader (i : Instr) : Word :=
  let o := i.opcode
  match i with
  | .nop | .csetup _ _ | .sts | .gsetup _ => packR o 0 0 0 0 0 0
  | .fsetup ctx strat _ => packR o ctx.toNat strat.toNat 0 0 0 0
  | .lde ed ctx _ => packR o ed ctx.toNat 0 0 0 0
  | .ste r | .ldainf r | .sta r | .stv r | .stg r | .pchk r | .agen r => packR o r 0 0 0 0 0
  | .lda r _ => packR o r 0 0 0 0 0
  | .ldv vd ctx raws => packI o vd ctx.toNat 0 raws.length
  | .ldg gd pts => packI o gd 0 0 pts.length
  | .fneg d r | .finv d r | .fsqrt d r | .feq d r | .fmov d r | .ptoj d r | .ptoa d r => packR o d r 0 0 0 0
  | .pdbl d r | .pneg d r | .peq d r | .vrev d r | .ipasv d r => packR o d r 0 0 0 0
  | .fpow d r _ | .fpoww d r _ => packR o d r 0 0 0 0
  | .vslice d r _ _ | .gslice d r _ _ => packR o d r 0 0 0 0
  | .fadd d r1 r2 | .fsub d r1 r2 | .fmul d r1 r2 | .padd d r1 r2 | .pmadd d r1 r2 | .pmul d r1 r2 => packR o d r1 r2 0 0 0
  | .vadd d r1 r2 | .vsub d r1 r2 | .vhad d r1 r2 | .vscl d r1 r2 | .vip d r1 r2 | .gmsm d r1 r2 => packR o d r1 r2 0 0 0
  | .vpow d r imm | .vget d r imm | .gget d r imm => packI o d r 0 imm
  | .ipach d r1 r2 r3 => packR o d r1 r2 r3 0 0
  | .ipavfy gs hs au aP proof => packK o gs hs au aP proof.ls.length
  | .ipaprv gs hs au aP va vb => packR o gs hs au aP va vb

/-- The `n` words of a natural below 2^(32n), most significant first (`words256` of 00_scope.md R9 when `n` is 8). -/
def natWords : Nat → Nat → List Word
  | 0, _ => []
  | n + 1, v => BitVec.ofNat 32 (v / 2 ^ (32 * n)) :: natWords n v

/-- `words256`: the eight words of a raw value (00_scope.md R9). -/
def words256 (v : Raw) : List Word := natWords 8 v.toNat

/-- The sixteen words of a point (20_memory.md R54). -/
def wordsPoint (q : RawPoint) : List Word := words256 q.x ++ words256 q.y

/-- The words of a proof in its wire layout (20_memory.md R63). -/
def wordsProof (p : RawProof) : List Word :=
  p.ls.flatMap wordsPoint ++ p.rs.flatMap wordsPoint ++ words256 p.a ++ words256 p.b

/-- The extension word of VSLICE and GSLICE: `start` above `len` (30_encoding.md R74). -/
def wordExt (start len : Fin 65536) : List Word :=
  [BitVec.ofNat 32 (start.val * 65536 + len.val)]

/-- The payload of a command (30_encoding.md R74). -/
def encodePayload : Instr → List Word
  | .fsetup _ _ m => words256 m
  | .csetup a b => words256 a ++ words256 b
  | .lde _ _ raw => words256 raw
  | .lda _ q | .gsetup q => wordsPoint q
  | .ldv _ _ raws => raws.flatMap words256
  | .ldg _ pts => pts.flatMap wordsPoint
  | .fpow _ _ e | .fpoww _ _ e => words256 e
  | .vslice _ _ start len | .gslice _ _ start len => wordExt start len
  | .ipavfy _ _ _ _ proof => wordsProof proof
  | .nop | .sts | .ste _ | .ldainf _ | .sta _ | .stv _ | .stg _ | .fadd _ _ _ | .fsub _ _ _ | .fmul _ _ _ | .fneg _ _ => []
  | .finv _ _ | .fsqrt _ _ | .feq _ _ | .fmov _ _ | .pchk _ | .ptoj _ _ | .ptoa _ _ | .padd _ _ _ | .pmadd _ _ _ => []
  | .pdbl _ _ | .pneg _ _ | .pmul _ _ _ | .peq _ _ | .agen _ | .vadd _ _ _ | .vsub _ _ _ | .vhad _ _ _ | .vscl _ _ _ => []
  | .vip _ _ _ | .vpow _ _ _ | .vget _ _ _ | .vrev _ _ | .gmsm _ _ _ | .gget _ _ _ | .ipach _ _ _ _ | .ipasv _ _ => []
  | .ipaprv _ _ _ _ _ _ => []

/-- The words of a command: its header, then its payload (30_encoding.md R70). -/
def encode (i : Instr) : List Word := encodeHeader i :: encodePayload i

/-! ## The pseudo-instructions (30_encoding.md R83) -/

/-- The commands a pseudo-instruction stands for (30_encoding.md R83). -/
def Pseudo.expand : Pseudo → List Instr
  | .fsqr ed es => [.fmul ed es es]
  | .lde1 ed ctx => [.lde ed ctx 1]
  | .lde0 ed ctx => [.lde ed ctx 0]
  | .psuba jd js1 sa2 jt => [.ptoj jt sa2, .pneg jt jt, .padd jd js1 jt]

/-! ## The table's words -/

/-- The `n` words of `w` as spec/opcode_table.json numbers bits: bits 31:0 are the first word. -/
def lowWords : Nat → Nat → List Word
  | 0, _ => []
  | n + 1, w => BitVec.ofNat 32 w :: lowWords n (w / 2 ^ 32)

/-- The words of the instruction whose low `nbits` bits are `w` and whose further bits are 0: as many as its header asks for. -/
def tableWords (nbits w : Nat) : List Word :=
  let given := lowWords ((nbits + 31) / 32) (w % 2 ^ nbits)
  match given with
  | [] => []
  | h :: _ =>
    match checkHeader h with
    | .error _ => given
    | .ok o => given ++ List.replicate (1 + o.payloadWords h - given.length) 0

/-- The instruction the decoder reads from an instruction whose bits are `w`, numbered as spec/opcode_table.json numbers them;
bits above `nbits` are 0. `tableWords` gives every payload word the header asks for, so of `decode` only the header check and
`build` are left to ask. -/
def decodeTableWord (nbits w : Nat) : Option Instr :=
  match tableWords nbits w with
  | [] => none
  | h :: ws =>
    match checkHeader h with
    | .error _ => none
    | .ok o => some (build h ws o)

end Sys2Proof
end

