-- ==== Sys2Proof/Machine/State.lean ====
section
/-! DEFINITION. The state of the block (10_state.md R20 to R38) as plain data, the causes of its faults (60_exceptions.md R271), the
ways a step of the model can stop, and the state after reset (R37). -/

namespace Sys2Proof.Machine

/-- A field context `FLD[c]` (10_state.md R21). -/
structure FieldCtx where
  /-- The context has been set up. -/
  ok : Bool
  /-- The modulus: `p` for context 0, `q` for context 1. -/
  mod : Raw
  /-- How the multiplier reduces a product. -/
  strat : Strat
  /-- `mont_r`: 2^256 mod `mod` under Montgomery, else 0 (41_field.md R141). -/
  montR : Raw
  /-- `mont_rinv`: the inverse of 2^256 mod `mod` under Montgomery, else 0. -/
  montRinv : Raw
  /-- `mont_k`: (2^256 * `mont_rinv` - 1) div `mod` under Montgomery, else 0. -/
  montK : Raw
deriving DecidableEq, Repr

/-- The curve record `CRV` (10_state.md R22); the coefficients are stored forms of context 0. -/
structure CurveRec where
  ok : Bool
  a : Fe
  b : Fe
  azero : Bool
  bzero : Bool
deriving DecidableEq, Repr

/-- The generator record `GEN` (10_state.md R23); the coordinates are stored forms of context 0. -/
structure GenRec where
  ok : Bool
  x : Fe
  y : Fe
deriving DecidableEq, Repr

/-- What a written `E` register holds: the context it is tied to and the stored form (10_state.md R24). -/
structure Elem where
  ctx : Ctx
  s : Fe
deriving DecidableEq, Repr

/-- An affine point (10_state.md R25): infinity, or two coordinates of context 0. Coordinates at infinity are meaningless and are
not kept: log entry 20. -/
inductive Affine where
  | inf
  | pt (x y : Fe)
deriving DecidableEq, Repr

/-- A Jacobian point (10_state.md R27): coordinates of context 0, infinity exactly when `Z` is 0. -/
structure Jac where
  X : Fe
  Y : Fe
  Z : Fe
deriving DecidableEq, Repr

/-- What a written `V` register holds: a context and element stored forms, index 0 first; `len` is the list's length
(10_state.md R28). -/
structure FVec where
  ctx : Ctx
  elems : List Fe
deriving DecidableEq, Repr

/-- What a written `G` register holds: its points, index 0 first (10_state.md R29). -/
abbrev GVec := List Affine

/-- A register file of 16 registers (10_state.md R20). `none` is a register whose `w` bit is 0: it has no value until a command
writes it, and the spec forbids giving it one (10_state.md R26, 93_implementation_defined.md X1). DEDUCED, safe: log entry 4. -/
abbrev RegFile (α : Type) := Vector (Option α) 16

/-- The causes of a fault of the block, in the order of their codes (60_exceptions.md R271). A command that raises one takes a next
state (R274). -/
inductive Cause where
  /-- Code 1: the header is not a legal encoding (30_encoding.md R78). -/
  | illegalCommand
  /-- Code 2: a source register whose `w` bit is 0 is read (10_state.md R26). -/
  | unwrittenRegister
  /-- Code 3: a command needs a field context that is not set up. -/
  | fieldNotReady
  /-- Code 4: FSETUP or CSETUP of what is set up already. -/
  | reconfig
  /-- Code 5: FSETUP's modulus is even or below 3. -/
  | badModulus
  /-- Code 6: operands under different moduli. -/
  | modulusMismatch
  /-- Code 7: vector operands of different lengths, or a round count that does not fit the base. -/
  | lengthMismatch
  /-- Code 8: a base length that is 0 or no power of two. -/
  | notPowerOfTwo
  /-- Code 9: inversion of a non-unit. -/
  | noInverse
  /-- Code 10: a square root under a modulus that is not 3 mod 4. -/
  | sqrtUnimplemented
  /-- Code 11: a curve, point or inner-product command before CSETUP. -/
  | curveNotReady
  /-- Code 12: a point at infinity is to be serialized. -/
  | infinityEncode
  /-- Code 13: a length above `NMAX`, or an index or subrange outside a vector. -/
  | rangeError
  /-- Code 14: AGEN with no generator stored. -/
  | noGenerator
deriving DecidableEq, Repr

/-- The whole state: the spec's (10_state.md R20), then two fields of the model's own (`cmdIn`, `nmaxLog`). -/
structure State where
  /-- `FLD[0]`, the coordinate field (R21). -/
  fld0 : FieldCtx
  /-- `FLD[1]`, the order field (R21). -/
  fld1 : FieldCtx
  /-- `CRV` (R22). -/
  crv : CurveRec
  /-- `GEN` (R23). -/
  gen : GenRec
  /-- `E[0..15]` (R24). -/
  e : RegFile Elem
  /-- `A[0..15]` (R25). -/
  a : RegFile Affine
  /-- `J[0..15]` (R27). -/
  j : RegFile Jac
  /-- `V[0..15]` (R28). -/
  v : RegFile FVec
  /-- `G[0..15]` (R29). -/
  g : RegFile GVec
  /-- `CSEQ`, the count of completed commands (R31). -/
  cseq : BitVec 32
  /-- `FSEQ`, the index of the faulting command (R32). -/
  fseq : BitVec 32
  /-- `STATUS` (R33); its fields are named in Machine/Flags.lean. -/
  status : BitVec 32
  /-- `DOUT`, the output bytes in order (R35). -/
  dout : List Byte
  /-- The model's own: the words offered on the command port that no command has consumed (20_memory.md R51, 10_state.md R38).
  DESIGN CHOICE, safe: log entry 1. -/
  cmdIn : List Word
  /-- The model's own: the parameter `NMAX` is 2^nmaxLog (00_scope.md R6); no command changes it. DESIGN CHOICE: log entry 2. -/
  nmaxLog : Fin 12
deriving DecidableEq, Repr

/-- Why a step of the model has no next state. Neither is a fault of the block (those are `Cause`, and take a next state): the block
has no step until the host acts (60_exceptions.md R285, 20_memory.md R57). Log entry 9. -/
inductive Fault where
  /-- Raised by `step` when no word has been offered: between commands, the run so far is complete (60_exceptions.md R285). Safe:
  the model stops where the block waits. -/
  | awaitingCommand
  /-- Raised by `step` when the stream ends inside a command's payload: the block is stuck, its state unchanged (20_memory.md R57).
  Safe: the model stops where the block waits. -/
  | awaitingPayload
deriving DecidableEq, Repr

/-- The refusals of the model. No meaning answers with one: every command of the opcode table is modelled. -/
inductive Refusal where
  /-- Raised by an arm of `exec` for an instruction that has no meaning yet; no arm does. Safe: the model stops. -/
  | notModelled (mnemonic : String)
deriving DecidableEq, Repr

/-- The outcome of a step of this machine. -/
abbrev Result := Host.Outcome State Fault Refusal

/-- A field context after reset: `ok` is 0 (R37); the other contents, which R37 leaves unspecified and R301 lets a model choose,
are 0. DESIGN CHOICE, unsafe: log entry 5. -/
def FieldCtx.reset : FieldCtx :=
  { ok := false, mod := 0, strat := .naive, montR := 0, montRinv := 0, montK := 0 }

/-- `CRV` after reset: `ok` is 0 (R37), the unspecified rest 0. DESIGN CHOICE, unsafe: log entry 5. -/
def CurveRec.reset : CurveRec :=
  { ok := false, a := 0, b := 0, azero := false, bzero := false }

/-- `GEN` after reset: `ok` is 0 (R37), the unspecified rest 0. DESIGN CHOICE, unsafe: log entry 5. -/
def GenRec.reset : GenRec :=
  { ok := false, x := 0, y := 0 }

/-- A register file after reset: every `w` bit is 0 (R37). -/
def RegFile.reset {α : Type} : RegFile α := Vector.replicate 16 none

/-- The state after reset (10_state.md R37, 70_reset_and_hazards.md R301). No word has been offered yet (R302): log entry 1. -/
def State.reset : State :=
  { fld0 := FieldCtx.reset, fld1 := FieldCtx.reset, crv := CurveRec.reset, gen := GenRec.reset,
    e := RegFile.reset, a := RegFile.reset, j := RegFile.reset, v := RegFile.reset, g := RegFile.reset,
    cseq := 0, fseq := 0, status := 0, dout := [], cmdIn := [], nmaxLog := Config.nmaxLogDefault }

end Sys2Proof.Machine
end

