-- ==== Sys2Proof/Machine/Flags.lean ====
section
/-! DEFINITION. The status word (10_state.md R33): its one-bit fields by name, the cause field, how each is read and written, and
the code of every cause (60_exceptions.md R271). No command computes a zero, carry or overflow flag; there is none (10_state.md
R34). -/

namespace Sys2Proof.Machine

/-- The one-bit fields of `STATUS` (10_state.md R33). -/
inductive Flag where
  | eq | onc | sqok | vfy | genok | curveok | fld0ok | fld1ok | fault
deriving DecidableEq, Repr

/-- The bit a flag stands at (10_state.md R33). -/
def Flag.bit : Flag → Nat
  | .eq => 0
  | .onc => 1
  | .sqok => 2
  | .vfy => 3
  | .genok => 4
  | .curveok => 5
  | .fld0ok => 6
  | .fld1ok => 7
  | .fault => 8

/-- A flag of a status word. -/
def getFlag (st : BitVec 32) (f : Flag) : Bool := st.getLsbD f.bit

/-- A status word with one flag written and every other bit as it was. -/
def setFlag (st : BitVec 32) (f : Flag) (b : Bool) : BitVec 32 :=
  (st &&& ~~~(1#32 <<< f.bit)) ||| (if b then 1#32 <<< f.bit else 0#32)

/-- `FCODE`, bits 23:16 of a status word. -/
def getFcode (st : BitVec 32) : BitVec 8 := st.extractLsb' 16 8

/-- A status word with `FCODE` written and every other bit as it was. -/
def setFcode (st : BitVec 32) (c : BitVec 8) : BitVec 32 :=
  (st &&& 0xFF00FFFF#32) ||| (c.setWidth 32 <<< 16)

/-- The code of a cause, the value fault entry writes to `FCODE` (60_exceptions.md R271). -/
def Cause.code : Cause → BitVec 8
  | .illegalCommand => 1
  | .unwrittenRegister => 2
  | .fieldNotReady => 3
  | .reconfig => 4
  | .badModulus => 5
  | .modulusMismatch => 6
  | .lengthMismatch => 7
  | .notPowerOfTwo => 8
  | .noInverse => 9
  | .sqrtUnimplemented => 10
  | .curveNotReady => 11
  | .infinityEncode => 12
  | .rangeError => 13
  | .noGenerator => 14

/-- A flag of the machine's status word. -/
def State.flag (s : State) (f : Flag) : Bool := getFlag s.status f

/-- `STATUS.<flag> <- b` (00_scope.md R10). -/
def State.putFlag (s : State) (f : Flag) (b : Bool) : State :=
  { s with status := setFlag s.status f b }

/-- The flag that copies a context's `ok` bit (10_state.md R33). -/
def okFlag : Ctx → Flag
  | .coord => .fld0ok
  | .order => .fld1ok

end Sys2Proof.Machine
end

