-- ==== Sys2Proof/Machine/Ops.lean ====
section
/-! DEFINITION. The named operations over the state: reading and writing the registers and records, emitting bytes, completing a
command, TAKING A FAULT (60_exceptions.md R274) and, beside it, what leaves one (only reset, R278, R283), and fetching the next
command from the word stream. -/

namespace Sys2Proof.Machine

/-! ## Records and parameters -/

/-- `NMAX` (00_scope.md R6), read from the model's own field: log entry 2. -/
def State.nmax (s : State) : Nat := 2 ^ s.nmaxLog.val

/-- `FLD[c]` (10_state.md R21). -/
def State.fld (s : State) : Ctx → FieldCtx
  | .coord => s.fld0
  | .order => s.fld1

/-- `FLD[c] <- f`. -/
def State.putFld (s : State) (c : Ctx) (f : FieldCtx) : State :=
  match c with
  | .coord => { s with fld0 := f }
  | .order => { s with fld1 := f }

/-- The block is halted: it has faulted and has not been reset (60_exceptions.md R277). -/
def State.halted (s : State) : Bool := s.flag .fault

/-- `require cond else c` (00_scope.md R10). -/
def require (cond : Bool) (c : Cause) : Except Cause Unit :=
  if cond then .ok () else .error c

/-! ## Registers -/

/-- Reading a register: `UnwrittenRegister` when its `w` bit is 0 (10_state.md R26). Reading changes nothing (20_memory.md R58). -/
def readReg {α : Type} (r : RegFile α) (i : RegNo) : Except Cause α :=
  match r.get i with
  | some x => .ok x
  | none => .error .unwrittenRegister

/-- Writing a register sets its `w` bit and leaves the other fifteen as they were (00_scope.md R10). -/
def writeReg {α : Type} (r : RegFile α) (i : RegNo) (x : α) : RegFile α :=
  r.set i.val (some x) i.isLt

/-- `E[i] <- (c, stored form s)`. -/
def State.putE (s : State) (i : RegNo) (x : Elem) : State := { s with e := writeReg s.e i x }
/-- `A[i] <- q`. -/
def State.putA (s : State) (i : RegNo) (q : Affine) : State := { s with a := writeReg s.a i q }
/-- `J[i] <- p`. -/
def State.putJ (s : State) (i : RegNo) (p : Jac) : State := { s with j := writeReg s.j i p }
/-- `V[i] <- (c, len, elements)`. -/
def State.putV (s : State) (i : RegNo) (x : FVec) : State := { s with v := writeReg s.v i x }
/-- `G[i] <- (len, points)`. -/
def State.putG (s : State) (i : RegNo) (qs : GVec) : State := { s with g := writeReg s.g i qs }

/-- `Emit(bytes)`: the bytes are appended to `DOUT` (20_memory.md R55). -/
def State.emit (s : State) (bytes : List Byte) : State := { s with dout := s.dout ++ bytes }

/-- `require CRV.ok = 1 else CurveNotReady` (42_curve.md, before R190). -/
def State.needCurve (s : State) : Except Cause Unit := require s.crv.ok .curveNotReady

/-! ## Completing a command, taking a fault, leaving one -/

/-- A command completes: `CSEQ` counts it, modulo 2^32 (10_state.md R31). -/
def State.complete (s : State) : State := { s with cseq := s.cseq + 1 }

/-- Fault entry (60_exceptions.md R274): `FSEQ`, `FCODE` and `FAULT` are written, `VFY` is cleared, nothing else changes. -/
def State.enterFault (s : State) (c : Cause) : State :=
  { s with
    fseq := s.cseq
    status := setFlag (setFlag (setFcode s.status c.code) .fault true) .vfy false }

/-- The reset input (70_reset_and_hazards.md R300, R301), the only way out of a fault or of a stuck command (60_exceptions.md R278,
R283): the reset state, whatever the state was. The parameter `NMAX` stays (R301) and words not yet consumed are dropped: log
entry 14. -/
def State.assertReset (s : State) : State := { State.reset with nmaxLog := s.nmaxLog }

/-- What a command does with the result of its pseudocode: all of its writes and the count, or fault entry on the state before it
(60_exceptions.md R275). -/
def finish (s : State) (r : Except Cause State) : Result :=
  match r with
  | .ok t => .next t.complete
  | .error c => .next (s.enterFault c)

/-! ## Fetching a command from the word stream -/

/-- What the next words of the stream make the block do. -/
inductive Fetched where
  /-- It waits for the host. -/
  | wait (r : Fault)
  /-- It takes a word without running a command: a halted block discards it, an illegal or out-of-range header faults. -/
  | absorb (t : State)
  /-- It runs a command, in the state whose stream begins after the command's words. -/
  | run (i : Instr) (t : State)

/-- Fetch, in the order of 60_exceptions.md R273: a halted block discards a word without decoding it (R277); the header checks
(30_encoding.md R78, then R80); the payload, for which the block waits (20_memory.md R57). Log entries 8 and 10. -/
def State.fetch (s : State) : Fetched :=
  match s.cmdIn with
  | [] => .wait .awaitingCommand
  | h :: rest =>
    if s.halted then .absorb { s with cmdIn := rest }
    else
      match checkHeader h with
      | .error _ => .absorb (State.enterFault { s with cmdIn := rest } .illegalCommand)
      | .ok o =>
        if o.outOfRange s.nmax h then .absorb (State.enterFault { s with cmdIn := rest } .rangeError)
        else
          match decode (h :: rest) with
          | .ok (i, rest') => .run i { s with cmdIn := rest' }
          | .error _ => .wait .awaitingPayload

end Sys2Proof.Machine
end

