-- ==== Sys2Proof/Machine/FieldArith.lean ====
section
/-! DEFINITION. The field functions (41_field.md R130 to R149), written once on stored forms: under the naive strategy a stored form
is the value (R136), under Montgomery it is `v * 2^256 mod m` (R142). Every function is total; the rules state it for operands below
the modulus, and outside them (in no reachable state) it is what the formula gives: log entry 18. -/

namespace Sys2Proof.Machine

namespace FieldCtx

/-- The modulus of a context as a natural (41_field.md R130). -/
def m (f : FieldCtx) : Nat := f.mod.toNat

/-! ## Reduction and stored forms -/

/-- `NaiveReduce(m, T)`: the remainder of the full product (41_field.md R136). -/
def naiveReduce (f : FieldCtx) (t : Nat) : Nat := t % f.m

/-- `REDC(m, T)` (41_field.md R143). The sum is a natural, so its 513th bit is kept. -/
def redc (f : FieldCtx) (t : Nat) : Nat :=
  let u := ((t % Config.radix) * f.montK.toNat) % Config.radix
  let r := (t + u * f.m) / Config.radix
  if f.m ≤ r then r - f.m else r

/-- `enc(v)`: the stored form of a value (41_field.md R136, R142, R145). -/
def enc (f : FieldCtx) (v : Nat) : Fe :=
  match f.strat with
  | .naive => BitVec.ofNat 256 v
  | .mont => BitVec.ofNat 256 (f.naiveReduce (v * f.montR.toNat))

/-- `val(s)`: the value of a stored form (41_field.md R136, R142, R145). -/
def val (f : FieldCtx) (s : Fe) : Nat :=
  match f.strat with
  | .naive => s.toNat
  | .mont => f.naiveReduce (s.toNat * f.montRinv.toNat)

/-- The stored form of `fromValue(raw) = raw mod m` (41_field.md R131, R145; 20_memory.md R52). -/
def ofRaw (f : FieldCtx) (raw : Raw) : Fe := f.enc (raw.toNat % f.m)

/-- The stored form of a small natural reduced mod `m`, such as the constants 2, 3, 4, 8 of 42_curve.md. -/
def small (f : FieldCtx) (n : Nat) : Fe := f.enc (n % f.m)

/-- The stored form of 1: `mont_r` under Montgomery (41_field.md R146). -/
def one (f : FieldCtx) : Fe :=
  match f.strat with
  | .naive => BitVec.ofNat 256 (1 % f.m)
  | .mont => f.montR

/-! ## The functions -/

/-- `fadd` (41_field.md R132, R146). -/
def add (f : FieldCtx) (a b : Fe) : Fe := BitVec.ofNat 256 ((a.toNat + b.toNat) % f.m)

/-- `fsub` by its datapath (41_field.md R133, R146). -/
def sub (f : FieldCtx) (a b : Fe) : Fe :=
  BitVec.ofNat 256 (if b.toNat ≤ a.toNat then a.toNat - b.toNat else a.toNat + f.m - b.toNat)

/-- `fneg` (41_field.md R134, R146): 0 stays 0. -/
def neg (f : FieldCtx) (a : Fe) : Fe := BitVec.ofNat 256 ((f.m - a.toNat) % f.m)

/-- `fmul` by the strategy of the context: the remainder of the product (41_field.md R135, R136), or `MontMul` (R144). -/
def mul (f : FieldCtx) (a b : Fe) : Fe :=
  match f.strat with
  | .naive => BitVec.ofNat 256 (f.naiveReduce (a.toNat * b.toNat))
  | .mont => BitVec.ofNat 256 (f.redc (a.toNat * b.toNat))

end FieldCtx

/-- The extended Euclidean division steps on remainders `r0`, `r1` with coefficients `t0`, `t1` mod `m`. DESIGN CHOICE, safe:
log entry 13. -/
def modinvLoop (m : Nat) : Nat → Nat → Nat → Nat → Nat → Nat
  | 0, _, _, t0, _ => t0
  | fuel + 1, r0, r1, t0, t1 =>
    if r1 = 0 then t0
    else modinvLoop m fuel r1 (r0 % r1) t1 ((t0 + (m - (r0 / r1 * t1) % m)) % m)

/-- `modinv(a, m)` (00_scope.md R8): the inverse of `a` modulo `m` when they are coprime, within the 2 * W + 2 division steps of
70_reset_and_hazards.md R306. -/
def modinv (a m : Nat) : Nat := modinvLoop m (2 * Config.width + 2) m (a % m) 0 (1 % m)

/-- The constants of a Montgomery context (41_field.md R141; 40_config_transfer.md R101). -/
def FieldCtx.setup (strat : Strat) (modulus : Raw) : FieldCtx :=
  match strat with
  | .naive => { ok := true, mod := modulus, strat := .naive, montR := 0, montRinv := 0, montK := 0 }
  | .mont =>
    let m := modulus.toNat
    let rinv := modinv (Config.radix % m) m
    { ok := true, mod := modulus, strat := .mont,
      montR := BitVec.ofNat 256 (Config.radix % m),
      montRinv := BitVec.ofNat 256 rinv,
      montK := BitVec.ofNat 256 ((Config.radix * rinv - 1) / m) }

namespace FieldCtx

/-- `finv` (41_field.md R137, R146): `NoInverse` on a non-unit, never a sentinel (90_conflicts.md C4). -/
def inv (f : FieldCtx) (a : Fe) : Except Cause Fe :=
  if Nat.gcd (f.val a) f.m = 1 then .ok (f.enc (modinv (f.val a) f.m)) else .error .noInverse

/-- The loop of `fpow` over the exponent bits `i - 1` down to 0 (41_field.md R138). -/
def powLoop (f : FieldCtx) (a : Fe) (e : Nat) : Nat → Fe → Fe
  | 0, r => r
  | i + 1, r =>
    let r2 := f.mul r r
    powLoop f a e i (if e.testBit i then f.mul r2 a else r2)

/-- `fpow(m, a, e)`: bit-serial square and multiply from bit 255 (41_field.md R138, R146). -/
def pow (f : FieldCtx) (a : Fe) (e : Nat) : Fe := f.powLoop a e Config.width f.one

/-- `cur, cur * a, cur * a^2, ...`: `n` entries. -/
def mulChain (f : FieldCtx) (a : Fe) : Nat → Fe → List Fe
  | 0, _ => []
  | n + 1, cur => cur :: mulChain f a n (f.mul cur a)

/-- The loop of `fpoww` over the windows `j - 1` down to 0 (41_field.md R139); bits above 255 of the exponent read as 0. -/
def powwLoop (f : FieldCtx) (tab : List Fe) (e : Nat) : Nat → Fe → Fe
  | 0, r => r
  | j + 1, r =>
    let r2 := f.mul r r
    let r4 := f.mul r2 r2
    let r8 := f.mul r4 r4
    let r16 := f.mul r8 r8
    let r32 := f.mul r16 r16
    let d := e / 2 ^ (Config.powWindow * j) % 2 ^ Config.powWindow
    powwLoop f tab e j (f.mul r32 (tab.getD d f.one))

/-- `fpoww(m, a, e)`: 52 windows of 5 bits over a table of a^0 to a^31 (41_field.md R139, R146). -/
def poww (f : FieldCtx) (a : Fe) (e : Nat) : Fe :=
  f.powwLoop (f.mulChain a (2 ^ Config.powWindow) f.one) e 52 f.one

/-- `fsqrt` (41_field.md R140): the candidate root and whether it squares back; `SqrtUnimplemented` unless `m` mod 4 is 3, whatever
the operand (90_conflicts.md C5). -/
def sqrt (f : FieldCtx) (a : Fe) : Except Cause (Fe × Bool) :=
  if f.m % 4 = 3 then
    let r := f.pow a ((f.m + 1) / 4)
    .ok (r, f.mul r r == a)
  else .error .sqrtUnimplemented

/-! ## Vectors of one context (43_vector.md R212 to R216) -/

/-- `vadd` (43_vector.md R212). -/
def vadd (f : FieldCtx) (a b : List Fe) : List Fe := List.zipWith f.add a b

/-- `vsub` (43_vector.md R212). -/
def vsub (f : FieldCtx) (a b : List Fe) : List Fe := List.zipWith f.sub a b

/-- `vhad`, the Hadamard product (43_vector.md R212). -/
def vhad (f : FieldCtx) (a b : List Fe) : List Fe := List.zipWith f.mul a b

/-- `vscl`, every element times `s` on the left (43_vector.md R212). -/
def vscl (f : FieldCtx) (s : Fe) (a : List Fe) : List Fe := a.map (f.mul s)

/-- The accumulation of `vip` from the left (43_vector.md R213). -/
def vipFrom (f : FieldCtx) (acc : Fe) : List Fe → List Fe → Fe
  | a :: as', b :: bs => vipFrom f (f.add acc (f.mul a b)) as' bs
  | _, _ => acc

/-- `vip`, the inner product; 0 for two empty vectors (43_vector.md R213). -/
def vip (f : FieldCtx) (a b : List Fe) : Fe := f.vipFrom 0 a b

/-- `vpowers(m, k, n)`: 1, k, k^2, ..., `n` entries (43_vector.md R214). -/
def vpowers (f : FieldCtx) (k : Fe) (n : Nat) : List Fe := f.mulChain k n f.one

end FieldCtx

/-- `slice(a, start, len)` (43_vector.md R215). -/
def slice {α : Type} (a : List α) (start len : Nat) : List α := (a.drop start).take len

/-- `rev(a)` (43_vector.md R216). -/
def rev {α : Type} (a : List α) : List α := a.reverse

end Sys2Proof.Machine
end

