-- ==== Sys2Proof/Machine/CurveArith.lean ====
section
/-! DEFINITION. The curve functions (42_curve.md R170 to R186) and the vector commitment (43_vector.md R222) on stored forms of the
coordinate field. They are total on all triples and pairs, on the curve or not (R170), and follow the formulas literally (R179). -/

namespace Sys2Proof.Machine

/-- What the curve functions read: the coordinate field `FLD[0]`, the order field `FLD[1]` and `CRV` (42_curve.md, opening). -/
structure Curve where
  fp : FieldCtx
  fq : FieldCtx
  crv : CurveRec
deriving DecidableEq, Repr

/-- The curve of a state. -/
def State.curve (s : State) : Curve := ⟨s.fld0, s.fld1, s.crv⟩

namespace Curve

/-- `INF_J` = (0, 1, 0), the representative the block writes for infinity (42_curve.md R170). -/
def infJ (c : Curve) : Jac := ⟨0, c.fp.one, 0⟩

/-- `toJ` (42_curve.md R171). -/
def toJ (c : Curve) : Affine → Jac
  | .inf => c.infJ
  | .pt x y => ⟨x, y, c.fp.one⟩

/-- `toA` (42_curve.md R172): one inversion, which fails only for a composite `p`. -/
def toA (c : Curve) (P : Jac) : Except Cause Affine :=
  if P.Z = 0 then .ok .inf
  else do
    let zi ← c.fp.inv P.Z
    let zi2 := c.fp.mul zi zi
    .ok (.pt (c.fp.mul P.X zi2) (c.fp.mul P.Y (c.fp.mul zi2 zi)))

/-- `oncurve` (42_curve.md R173), skipping the terms that the fast-path flags say are 0 (R180). -/
def oncurve (c : Curve) : Affine → Bool
  | .inf => false
  | .pt x y =>
    let f := c.fp
    let x3 := f.mul (f.mul x x) x
    let t := if c.crv.azero then x3 else f.add x3 (f.mul c.crv.a x)
    let rhs := if c.crv.bzero then t else f.add t c.crv.b
    f.mul y y == rhs

/-- `pneg` (42_curve.md R175). -/
def pneg (c : Curve) (P : Jac) : Jac := ⟨P.X, c.fp.neg P.Y, P.Z⟩

/-- `pdbl` (42_curve.md R176), skipping the `A` term when `CRV.azero` is set (R180). -/
def pdbl (c : Curve) (P : Jac) : Jac :=
  if P.Z = 0 then c.infJ
  else
    let f := c.fp
    let yy := f.mul P.Y P.Y
    let s := f.mul (f.small 4) (f.mul P.X yy)
    let zz := f.mul P.Z P.Z
    let m3 := f.mul (f.small 3) (f.mul P.X P.X)
    let m := if c.crv.azero then m3 else f.add m3 (f.mul c.crv.a (f.mul zz zz))
    let x3 := f.sub (f.mul m m) (f.add s s)
    let y3 := f.sub (f.mul m (f.sub s x3)) (f.mul (f.small 8) (f.mul yy yy))
    let z3 := f.mul (f.small 2) (f.mul P.Y P.Z)
    ⟨x3, y3, z3⟩

/-- The general case that `padd` and `pmadd` share once `U1`, `U2`, `S1`, `S2` are known; `zz` is the product that scales `Z3`, and
equal points double `P1` (42_curve.md R177, R178). -/
def addTail (c : Curve) (P1 : Jac) (u1 u2 s1 s2 zz : Fe) : Jac :=
  let f := c.fp
  if u1 = u2 then
    if s1 = s2 then c.pdbl P1 else c.infJ
  else
    let h := f.sub u2 u1
    let r := f.sub s2 s1
    let hh := f.mul h h
    let hhh := f.mul h hh
    let v := f.mul u1 hh
    let x3 := f.sub (f.sub (f.mul r r) hhh) (f.add v v)
    let y3 := f.sub (f.mul r (f.sub v x3)) (f.mul s1 hhh)
    let z3 := f.mul h zz
    ⟨x3, y3, z3⟩

/-- `padd` (42_curve.md R177). -/
def padd (c : Curve) (P1 P2 : Jac) : Jac :=
  if P1.Z = 0 then P2
  else if P2.Z = 0 then P1
  else
    let f := c.fp
    let z1z1 := f.mul P1.Z P1.Z
    let z2z2 := f.mul P2.Z P2.Z
    let u1 := f.mul P1.X z2z2
    let u2 := f.mul P2.X z1z1
    let s1 := f.mul P1.Y (f.mul P2.Z z2z2)
    let s2 := f.mul P2.Y (f.mul P1.Z z1z1)
    c.addTail P1 u1 u2 s1 s2 (f.mul P1.Z P2.Z)

/-- `pmadd` (42_curve.md R178). -/
def pmadd (c : Curve) (P1 : Jac) : Affine → Jac
  | .inf => P1
  | .pt x2 y2 =>
    if P1.Z = 0 then ⟨x2, y2, c.fp.one⟩
    else
      let f := c.fp
      let z1z1 := f.mul P1.Z P1.Z
      let u2 := f.mul x2 z1z1
      let s2 := f.mul y2 (f.mul P1.Z z1z1)
      c.addTail P1 P1.X u2 P1.Y s2 P1.Z

/-- The entries `P, P + T, P + 2T, ...` of the table of odd multiples, `T` being `2P` (42_curve.md R181). -/
def oddChain (c : Curve) (twoP : Jac) : Nat → Jac → List Jac
  | 0, _ => []
  | n + 1, cur => cur :: oddChain c twoP n (c.padd cur twoP)

/-- The table of the 2^(w-2) = 8 odd multiples `P, 3P, ..., 15P` (42_curve.md R181). -/
def oddTable (c : Curve) (P : Jac) : List Jac :=
  c.oddChain (c.pdbl P) (2 ^ (Config.wnafWindow - 2)) P

end Curve

/-- One digit of the recoding: 0 for an even `k`, else `k mod 32` brought to the range -15 to 15 (42_curve.md R183). -/
def wnafDigit (k : Nat) : Int :=
  if k % 2 = 1 then
    let t := k % 2 ^ Config.wnafWindow
    if 2 ^ (Config.wnafWindow - 1) ≤ t then (t : Int) - 2 ^ Config.wnafWindow else (t : Int)
  else 0

/-- The recoding loop; the first argument bounds the number of digits (42_curve.md R183). -/
def wnafLoop : Nat → Nat → List Int
  | 0, _ => []
  | fuel + 1, k =>
    if k = 0 then []
    else wnafDigit k :: wnafLoop fuel (((k : Int) - wnafDigit k).toNat / 2)

/-- `wnaf(k)` for `k` < 2^256, least significant digit first: at most 257 digits (42_curve.md R183, 70_reset_and_hazards.md R306). -/
def wnaf (k : Nat) : List Int := wnafLoop 257 k

namespace Curve

/-- One digit of the scan: double, then add or subtract the table's multiple (42_curve.md R184). -/
def mulStep (c : Curve) (tab : List Jac) (acc : Jac) (t : Int) : Jac :=
  let acc2 := c.pdbl acc
  if 0 < t then c.padd acc2 (tab.getD (t.toNat / 2) c.infJ)
  else if t < 0 then c.padd acc2 (c.pneg (tab.getD ((-t).toNat / 2) c.infJ))
  else acc2

/-- `pmul_raw(k, P)`, most significant digit first; 0 and infinity short-circuit (42_curve.md R184). -/
def pmulRaw (c : Curve) (k : Nat) (P : Jac) : Jac :=
  if k = 0 ∨ P.Z = 0 then c.infJ
  else (wnaf k).reverse.foldl (c.mulStep (c.oddTable P)) c.infJ

/-- `pmul(k, P) = pmul_raw(k mod q, P)` (42_curve.md R185). -/
def pmul (c : Curve) (k : Nat) (P : Jac) : Jac := c.pmulRaw (k % c.fq.m) P

/-- The accumulation of `msm` in index order, accumulator on the left (43_vector.md R222). -/
def msmFrom (c : Curve) (acc : Jac) : List Affine → List Nat → Jac
  | q :: qs, k :: ks => msmFrom c (c.padd acc (c.pmul k (c.toJ q))) qs ks
  | _, _ => acc

/-- `msm(gs, a)`, the vector commitment, from `INF_J` (43_vector.md R222). -/
def msm (c : Curve) (qs : List Affine) (ks : List Nat) : Jac := c.msmFrom c.infJ qs ks

end Curve

/-- `peq` (42_curve.md R174): both infinity, or the same coordinates; equality of stored forms is equality of values (41_field.md
R146). -/
def peq : Affine → Affine → Bool
  | .inf, .inf => true
  | .pt x1 y1, .pt x2 y2 => x1 == x2 && y1 == y2
  | .inf, .pt _ _ => false
  | .pt _ _, .inf => false

end Sys2Proof.Machine
end

