-- ==== Sys2Proof/Machine/Operands.lean ====
section
/-! DEFINITION. The forms operands take on their way in and out: the wire encodings of scalars and points (20_memory.md R52, R53),
raw payload values made elements (R54, 41_field.md R145), and operands of two contexts under one modulus (41_field.md R149). -/

namespace Sys2Proof.Machine

/-! ## Byte strings -/

/-- The `n` low bytes of a natural, most significant first (00_scope.md R9). -/
def beBytes : Nat → Nat → List Byte
  | 0, _ => []
  | n + 1, v => BitVec.ofNat 8 (v / 256 ^ n) :: beBytes n v

/-- `BE32(v)`, the wire encoding of a scalar: 32 bytes, big-endian (00_scope.md R9, 20_memory.md R52). -/
def be32 (v : Nat) : List Byte := beBytes Config.scalarBytes v

/-- `BEint(s)`: the natural a byte string spells, first byte most significant (00_scope.md R9). -/
def beInt (s : List Byte) : Nat := s.foldl (fun acc x => acc * 256 + x.toNat) 0

/-- `{STATUS} ‖ CSEQ`, four bytes each, most significant first (40_config_transfer.md R103). -/
def State.statusBytes (s : State) : List Byte := beBytes 4 s.status.toNat ++ beBytes 4 s.cseq.toNat

/-! ## Points and scalars on the wire -/

/-- `ser(Q)`, the wire encoding of a point on coordinate values; a point at infinity has none (20_memory.md R53, 44_ipa.md R241). -/
def ser (f : FieldCtx) : Affine → Except Cause (List Byte)
  | .inf => .error .infinityEncode
  | .pt x y => .ok (be32 (f.val x) ++ be32 (f.val y))

/-- The wire encodings of some points, in order; the first point at infinity decides the fault. -/
def serAll (f : FieldCtx) : List Affine → Except Cause (List Byte)
  | [] => .ok []
  | q :: qs => do
    let bytes ← ser f q
    let rest ← serAll f qs
    .ok (bytes ++ rest)

/-- The wire encodings of some elements, in order (40_config_transfer.md R110). -/
def serScalars (f : FieldCtx) (xs : List Fe) : List Byte := xs.flatMap fun x => be32 (f.val x)

/-- A payload point becomes an affine point that is never infinity; both coordinates are reduced (20_memory.md R53). -/
def pointOfRaw (f : FieldCtx) (q : RawPoint) : Affine := .pt (f.ofRaw q.x) (f.ofRaw q.y)

/-! ## Operands of two contexts -/

/-- `require FLD[c1].mod = FLD[c2].mod else ModulusMismatch`: moduli are compared, not context numbers (41_field.md R149). -/
def State.sameField (s : State) (c1 c2 : Ctx) : Except Cause Unit :=
  require ((s.fld c1).mod == (s.fld c2).mod) .modulusMismatch

/-- A stored form of context `src` as a stored form of context `dst` of the same modulus, through `val` and `enc` (41_field.md
R149). DEDUCED, safe: log entry 7. -/
def State.convert (s : State) (src dst : Ctx) (x : Fe) : Fe :=
  if src = dst then x else (s.fld dst).enc ((s.fld src).val x)

/-- The value of a register's element (10_state.md R24). -/
def State.valOf (s : State) (x : Elem) : Nat := (s.fld x.ctx).val x.s

/-- A nonzero power of two, the lengths of an inner-product base (44_ipa.md R252, R253). -/
def isPow2 (n : Nat) : Bool := n != 0 && 2 ^ Nat.log2 n == n

end Sys2Proof.Machine
end

