-- ==== Sys2Proof/Machine/CurveUnit.lean ====
section
/-! DEFINITION. The meanings of the curve commands (42_curve.md R190 to R200). Each first requires the curve, then reads its
registers in operand order. -/

namespace Sys2Proof.Machine

/-- PCHK as (R190). -/
def execPchk (sa : RegNo) (s : State) : Result :=
  finish s do
    s.needCurve
    let q ← readReg s.a sa
    return s.putFlag .onc (s.curve.oncurve q)

/-- PTOJ jd, as (R191). -/
def execPtoj (jd sa : RegNo) (s : State) : Result :=
  finish s do
    s.needCurve
    let q ← readReg s.a sa
    return s.putJ jd (s.curve.toJ q)

/-- PTOA ad, js (R192). -/
def execPtoa (ad js : RegNo) (s : State) : Result :=
  finish s do
    s.needCurve
    let p ← readReg s.j js
    let q ← s.curve.toA p
    return s.putA ad q

/-- PADD jd, js1, js2 (R193). -/
def execPadd (jd js1 js2 : RegNo) (s : State) : Result :=
  finish s do
    s.needCurve
    let p1 ← readReg s.j js1
    let p2 ← readReg s.j js2
    return s.putJ jd (s.curve.padd p1 p2)

/-- PMADD jd, js1, as2 (R194). -/
def execPmadd (jd js1 sa2 : RegNo) (s : State) : Result :=
  finish s do
    s.needCurve
    let p1 ← readReg s.j js1
    let q ← readReg s.a sa2
    return s.putJ jd (s.curve.pmadd p1 q)

/-- PDBL jd, js (R195). -/
def execPdbl (jd js : RegNo) (s : State) : Result :=
  finish s do
    s.needCurve
    let p ← readReg s.j js
    return s.putJ jd (s.curve.pdbl p)

/-- PNEG jd, js (R196). -/
def execPneg (jd js : RegNo) (s : State) : Result :=
  finish s do
    s.needCurve
    let p ← readReg s.j js
    return s.putJ jd (s.curve.pneg p)

/-- PMUL jd, es, js (R197): the value of the scalar register as a natural, whatever its context. -/
def execPmul (jd es js : RegNo) (s : State) : Result :=
  finish s do
    s.needCurve
    let k ← readReg s.e es
    let p ← readReg s.j js
    return s.putJ jd (s.curve.pmul (s.valOf k) p)

/-- PEQ as1, as2 (R198). -/
def execPeq (sa1 sa2 : RegNo) (s : State) : Result :=
  finish s do
    s.needCurve
    let q1 ← readReg s.a sa1
    let q2 ← readReg s.a sa2
    return s.putFlag .eq (peq q1 q2)

/-- The two validations of GSETUP: on the curve, and `q` times the point is infinity, by `pmul_raw` with the unreduced `q` (R199,
90_conflicts.md C3). -/
def Curve.generatorOk (c : Curve) (q : Affine) : Bool :=
  c.oncurve q && (c.pmulRaw c.fq.m (c.toJ q)).Z == 0

/-- `GEN <- (ok = 1, Q)`, or `GEN.ok <- 0` for a point that fails its validation (R199). Log entry 12. -/
def State.putGen (s : State) (pt : RawPoint) (ok : Bool) : State :=
  if ok then { s with gen := { ok := true, x := s.fld0.ofRaw pt.x, y := s.fld0.ofRaw pt.y } }
  else { s with gen := { s.gen with ok := false } }

/-- GSETUP (#x, #y) (R199): a failed validation is no fault (60_exceptions.md R280). -/
def execGsetup (pt : RawPoint) (s : State) : Result :=
  finish s do
    s.needCurve
    let ok := s.curve.generatorOk (pointOfRaw s.fld0 pt)
    return (s.putGen pt ok).putFlag .genok ok

/-- AGEN ad (R200). -/
def execAgen (ad : RegNo) (s : State) : Result :=
  finish s do
    s.needCurve
    require s.gen.ok .noGenerator
    return s.putA ad (.pt s.gen.x s.gen.y)

end Sys2Proof.Machine
end

