-- ==== Sys2Proof/Machine/FieldUnit.lean ====
section
/-! DEFINITION. The meanings of the field commands (41_field.md R150 to R159). -/

namespace Sys2Proof.Machine

/-- The shape FADD, FSUB and FMUL share (41_field.md R150 to R152): both sources read, the moduli compared, the second source taken
to the first one's context, which the result keeps (R149). -/
def fieldBinary (op : FieldCtx → Fe → Fe → Fe) (ed es1 es2 : RegNo) (s : State) : Result :=
  finish s do
    let x ← readReg s.e es1
    let y ← readReg s.e es2
    s.sameField x.ctx y.ctx
    return s.putE ed ⟨x.ctx, op (s.fld x.ctx) x.s (s.convert y.ctx x.ctx y.s)⟩

/-- FADD ed, es1, es2 (R150). -/
def execFadd (ed es1 es2 : RegNo) (s : State) : Result := fieldBinary FieldCtx.add ed es1 es2 s

/-- FSUB ed, es1, es2 (R151). -/
def execFsub (ed es1 es2 : RegNo) (s : State) : Result := fieldBinary FieldCtx.sub ed es1 es2 s

/-- FMUL ed, es1, es2 (R152). -/
def execFmul (ed es1 es2 : RegNo) (s : State) : Result := fieldBinary FieldCtx.mul ed es1 es2 s

/-- FNEG ed, es (R153). -/
def execFneg (ed es : RegNo) (s : State) : Result :=
  finish s do
    let x ← readReg s.e es
    return s.putE ed ⟨x.ctx, (s.fld x.ctx).neg x.s⟩

/-- FINV ed, es (R154). -/
def execFinv (ed es : RegNo) (s : State) : Result :=
  finish s do
    let x ← readReg s.e es
    let r ← (s.fld x.ctx).inv x.s
    return s.putE ed ⟨x.ctx, r⟩

/-- FPOW ed, es, #e (R155): the exponent is not reduced. -/
def execFpow (ed es : RegNo) (expo : Raw) (s : State) : Result :=
  finish s do
    let x ← readReg s.e es
    return s.putE ed ⟨x.ctx, (s.fld x.ctx).pow x.s expo.toNat⟩

/-- FPOWW ed, es, #e (R156): by the windowed algorithm. -/
def execFpoww (ed es : RegNo) (expo : Raw) (s : State) : Result :=
  finish s do
    let x ← readReg s.e es
    return s.putE ed ⟨x.ctx, (s.fld x.ctx).poww x.s expo.toNat⟩

/-- FSQRT ed, es (R157): a non-residue writes the candidate and clears `SQOK` (60_exceptions.md R280). -/
def execFsqrt (ed es : RegNo) (s : State) : Result :=
  finish s do
    let x ← readReg s.e es
    let r ← (s.fld x.ctx).sqrt x.s
    return (s.putE ed ⟨x.ctx, r.1⟩).putFlag .sqok r.2

/-- FEQ es1, es2 (R158): values are compared, under equal moduli. -/
def execFeq (es1 es2 : RegNo) (s : State) : Result :=
  finish s do
    let x ← readReg s.e es1
    let y ← readReg s.e es2
    s.sameField x.ctx y.ctx
    return s.putFlag .eq (s.valOf x == s.valOf y)

/-- FMOV ed, es (R159). -/
def execFmov (ed es : RegNo) (s : State) : Result :=
  finish s do
    let x ← readReg s.e es
    return s.putE ed x

end Sys2Proof.Machine
end

