-- ==== Sys2Proof/Machine/IpaArith.lean ====
section
/-! DEFINITION. The inner-product functions (44_ipa.md R241 to R248). Scalars are stored forms of the order field; the hash is an
argument, so that a test can supply the test hash of 95_test_vectors.md (the commands supply `Config.hash256`). -/

namespace Sys2Proof.Machine

/-- The type of the hash parameter (00_scope.md R6). -/
abbrev Hash := List Byte → Vector Byte 32

/-- A parsed inner-product proof (44_ipa.md R240, R248). -/
structure Proof where
  ls : List Affine
  rs : List Affine
  a : Fe
  b : Fe
deriving DecidableEq, Repr

/-- What a prover round works on: the current bases, witness vectors and commitment point (44_ipa.md R246). -/
structure ProverState where
  gs : List Affine
  hs : List Affine
  a : List Fe
  b : List Fe
  P : Affine
deriving DecidableEq, Repr

/-- `chal(L, C, R)`: the hash of the three points, in this order, as a big-endian natural modulo `q` (44_ipa.md R242). -/
def chal (H : Hash) (c : Curve) (L C R : Affine) : Except Cause Fe := do
  let bl ← ser c.fp L
  let bc ← ser c.fp C
  let br ← ser c.fp R
  .ok (c.fq.enc (beInt (H (bl ++ bc ++ br)).toList % c.fq.m))

/-- The coefficient vector doubles once per challenge, from the last challenge to the first: the new upper half is the old vector
times the challenge squared (44_ipa.md R243: `s[j] = s[j - 2^m] * x[k-1-m]^2`). Log entry 23. -/
def svDouble (f : FieldCtx) (s : List Fe) (x : Fe) : List Fe :=
  s ++ s.map fun y => f.mul y (f.mul x x)

/-- `ipasv(x)`: `s[0]` is the INVERSE of the product of the challenges (44_ipa.md R243, 90_conflicts.md C1). -/
def ipasv (f : FieldCtx) (xs : List Fe) : Except Cause (List Fe) := do
  let s0 ← f.inv (xs.foldl f.mul f.one)
  .ok (xs.reverse.foldl (svDouble f) [s0])

/-- The weighted sum `(x^2 * L + xi^2 * R)`, the first addition of a round (44_ipa.md R244, R246). -/
def roundSum (c : Curve) (x xi : Fe) (L R : Affine) : Jac :=
  c.padd (c.pmul (c.fq.val (c.fq.mul x x)) (c.toJ L)) (c.pmul (c.fq.val (c.fq.mul xi xi)) (c.toJ R))

/-- One round of the running commitment (44_ipa.md R244): the new commitment and the challenge. -/
def ipaRound (H : Hash) (c : Curve) (C : Jac) (L R : Affine) : Except Cause (Jac × Fe) := do
  let ca ← c.toA C
  let x ← chal H c L ca R
  let xi ← c.fq.inv x
  .ok (c.padd (roundSum c x xi L R) C, x)

/-- The rounds of the verifier, in order: the last running commitment and the challenges (44_ipa.md R245). -/
def ipaRounds (H : Hash) (c : Curve) : Jac → List Affine → List Affine → Except Cause (Jac × List Fe)
  | C, L :: ls, R :: rs => do
    let (C1, x) ← ipaRound H c C L R
    let (C2, xs) ← ipaRounds H c C1 ls rs
    .ok (C2, x :: xs)
  | C, _, _ => .ok (C, [])

/-- `ipa_verify` (44_ipa.md R245). Every `toA` may fail for a composite `p`: log entry 11. -/
def ipaVerify (H : Hash) (c : Curve) (gs hs : List Affine) (u P : Affine) (pf : Proof) : Except Cause Bool := do
  let (C, xs) ← ipaRounds H c (c.toJ P) pf.ls pf.rs
  let s ← ipasv c.fq xs
  let Gs := c.msm gs (s.map c.fq.val)
  let Hs := c.msm hs ((rev s).map c.fq.val)
  let ab := c.fq.val (c.fq.mul pf.a pf.b)
  let rhs := c.padd (c.padd (c.pmul (c.fq.val pf.a) Gs) (c.pmul (c.fq.val pf.b) Hs)) (c.pmul ab (c.toJ u))
  let left ← c.toA C
  let right ← c.toA rhs
  .ok (peq left right)

/-- `toA(x * l_i + y * r_i)` for the points of two halves, in index order (44_ipa.md R246). -/
def foldBase (c : Curve) (x y : Nat) : List Affine → List Affine → Except Cause (List Affine)
  | l :: ls, r :: rs => do
    let q ← c.toA (c.padd (c.pmul x (c.toJ l)) (c.pmul y (c.toJ r)))
    let qs ← foldBase c x y ls rs
    .ok (q :: qs)
  | _, _ => .ok []

/-- `x * l_i + y * r_i` for the elements of two halves (44_ipa.md R246). -/
def foldWitness (f : FieldCtx) (x y : Fe) (ls rs : List Fe) : List Fe :=
  List.zipWith (fun l r => f.add (f.mul x l) (f.mul y r)) ls rs

/-- One point `L` or `R` of a round: `msm(gs, a) + msm(hs, b) + cross * u` (44_ipa.md R246). -/
def crossPoint (c : Curve) (u : Affine) (gs : List Affine) (a : List Fe) (hs : List Affine) (b : List Fe) (cross : Fe) :
    Except Cause Affine :=
  c.toA (c.padd (c.padd (c.msm gs (a.map c.fq.val)) (c.msm hs (b.map c.fq.val))) (c.pmul (c.fq.val cross) (c.toJ u)))

/-- One prover round on vectors of length `2h` (44_ipa.md R246): `L`, `R` and what the next round works on. -/
def proveRound (H : Hash) (c : Curve) (u : Affine) (h : Nat) (st : ProverState) :
    Except Cause (Affine × Affine × ProverState) := do
  let f := c.fq
  let aL := slice st.a 0 h
  let aR := slice st.a h h
  let bL := slice st.b 0 h
  let bR := slice st.b h h
  let gL := slice st.gs 0 h
  let gR := slice st.gs h h
  let hL := slice st.hs 0 h
  let hR := slice st.hs h h
  let L ← crossPoint c u gR aL hL bR (f.vip aL bR)
  let R ← crossPoint c u gL aR hR bL (f.vip aR bL)
  let x ← chal H c L st.P R
  let xi ← f.inv x
  let gs ← foldBase c (f.val xi) (f.val x) gL gR
  let hs ← foldBase c (f.val x) (f.val xi) hL hR
  let P ← c.toA (c.padd (roundSum c x xi L R) (c.toJ st.P))
  .ok (L, R, { gs := gs, hs := hs, a := foldWitness f x xi aL aR, b := foldWitness f xi x bL bR, P := P })

/-- The rounds of the prover on vectors of length 2^k: the `L` list, the `R` list and the final state (44_ipa.md R247). -/
def proveRounds (H : Hash) (c : Curve) (u : Affine) : Nat → ProverState →
    Except Cause (List Affine × List Affine × ProverState)
  | 0, st => .ok ([], [], st)
  | k + 1, st => do
    let (L, R, st1) ← proveRound H c u (2 ^ k) st
    let (ls, rs, last) ← proveRounds H c u k st1
    .ok (L :: ls, R :: rs, last)

/-- `ipa_prove` for a length 2^k: `L` values in the `L` list (44_ipa.md R247, 90_conflicts.md C7), then `a[0]` and `b[0]`. -/
def ipaProve (H : Hash) (c : Curve) (u : Affine) (k : Nat) (st : ProverState) : Except Cause Proof := do
  let (ls, rs, last) ← proveRounds H c u k st
  .ok { ls := ls, rs := rs, a := last.a.getD 0 0, b := last.b.getD 0 0 }

/-- `proof_bytes` (44_ipa.md R248, 20_memory.md R63). -/
def proofBytes (c : Curve) (pf : Proof) : Except Cause (List Byte) := do
  let bl ← serAll c.fp pf.ls
  let br ← serAll c.fp pf.rs
  .ok (bl ++ br ++ be32 (c.fq.val pf.a) ++ be32 (c.fq.val pf.b))

/-- `proof_parse` (44_ipa.md R248): coordinates reduced modulo `p`, `a` and `b` modulo `q`. -/
def proofParse (c : Curve) (p : RawProof) : Proof :=
  { ls := p.ls.map (pointOfRaw c.fp), rs := p.rs.map (pointOfRaw c.fp), a := c.fq.ofRaw p.a, b := c.fq.ofRaw p.b }

end Sys2Proof.Machine
end

