-- ==== Sys2Proof/Machine/IpaUnit.lean ====
section
/-! DEFINITION. The meanings of the inner-product commands (44_ipa.md R250 to R253). A meaning that hashes is one call of a form that
takes the hash as an argument, given `Config.hash256`: log entry 3. -/

namespace Sys2Proof.Machine

/-- IPACH under a given hash (R250). -/
def ipachWith (H : Hash) (ed aL aC aR : RegNo) (s : State) : Result :=
  finish s do
    s.needCurve
    let L ← readReg s.a aL
    let C ← readReg s.a aC
    let R ← readReg s.a aR
    let x ← chal H s.curve L C R
    return s.putE ed ⟨.order, x⟩

/-- IPACH ed, aL, aC, aR (R250). -/
def execIpach (ed aL aC aR : RegNo) (s : State) : Result := ipachWith Config.hash256 ed aL aC aR s

/-- IPASV vd, vs (R251): in the context of its operand. It does not require the curve: R251 and 60_exceptions.md R272 give it no such
check, while R271 and 70_reset_and_hazards.md R302 speak of every IPA command. DESIGN CHOICE, unsafe: log entry 25. -/
def execIpasv (vd vs : RegNo) (s : State) : Result :=
  finish s do
    let x ← readReg s.v vs
    require (decide (2 ^ x.elems.length ≤ s.nmax)) .rangeError
    let sv ← ipasv (s.fld x.ctx) x.elems
    return s.putV vd ⟨x.ctx, sv⟩

/-- IPAVFY under a given hash (R252): the range check of the header, then the rule's checks in order. -/
def ipavfyWith (H : Hash) (gs hs au aP : RegNo) (proof : RawProof) (s : State) : Result :=
  finish s do
    let k := proof.ls.length
    require (decide (2 ^ k ≤ s.nmax)) .rangeError
    s.needCurve
    let gsv ← readReg s.g gs
    let hsv ← readReg s.g hs
    let u ← readReg s.a au
    let P ← readReg s.a aP
    require (gsv.length == hsv.length) .lengthMismatch
    require (isPow2 gsv.length) .notPowerOfTwo
    require (2 ^ k == gsv.length) .lengthMismatch
    let valid ← ipaVerify H s.curve gsv hsv u P (proofParse s.curve proof)
    return s.putFlag .vfy valid

/-- IPAVFY gs, hs, au, aP, k, proof (R252). An invalid proof is no fault (60_exceptions.md R280). -/
def execIpavfy (gs hs au aP : RegNo) (proof : RawProof) (s : State) : Result :=
  ipavfyWith Config.hash256 gs hs au aP proof s

/-- IPAPRV under a given hash (R253). The witness elements are taken to context 1, whose modulus theirs equals (41_field.md R149):
log entry 7. -/
def ipaprvWith (H : Hash) (gs hs au aP va vb : RegNo) (s : State) : Result :=
  finish s do
    s.needCurve
    let gsv ← readReg s.g gs
    let hsv ← readReg s.g hs
    let u ← readReg s.a au
    let P ← readReg s.a aP
    let a ← readReg s.v va
    let b ← readReg s.v vb
    s.sameField a.ctx .order
    s.sameField b.ctx .order
    let n := gsv.length
    require (n == hsv.length && n == a.elems.length && n == b.elems.length) .lengthMismatch
    require (isPow2 n) .notPowerOfTwo
    let st : ProverState :=
      { gs := gsv, hs := hsv, a := a.elems.map (s.convert a.ctx .order), b := b.elems.map (s.convert b.ctx .order), P := P }
    let pf ← ipaProve H s.curve u (Nat.log2 n) st
    let bytes ← proofBytes s.curve pf
    return s.emit bytes

/-- IPAPRV gs, hs, au, aP, va, vb (R253): writes no register and no flag. -/
def execIpaprv (gs hs au aP va vb : RegNo) (s : State) : Result :=
  ipaprvWith Config.hash256 gs hs au aP va vb s

end Sys2Proof.Machine
end

