-- ==== Sys2Proof/Machine/Transfer.lean ====
section
/-! DEFINITION. The meanings of the configuration and transfer commands (40_config_transfer.md R100 to R112). Each is its rule's
pseudocode, with the checks in the rule's order, given to `finish`. -/

namespace Sys2Proof.Machine

/-- NOP (R100). -/
def execNop (s : State) : Result := finish s (.ok s)

/-- FSETUP ctx, strat, #modulus (R101). -/
def execFsetup (ctx : Ctx) (strat : Strat) (modulus : Raw) (s : State) : Result :=
  finish s do
    require (!(s.fld ctx).ok) .reconfig
    require (decide (3 ≤ modulus.toNat) && modulus.toNat % 2 == 1) .badModulus
    return (s.putFld ctx (FieldCtx.setup strat modulus)).putFlag (okFlag ctx) true

/-- CSETUP #A, #B (R102). -/
def execCsetup (a b : Raw) (s : State) : Result :=
  finish s do
    require s.fld0.ok .fieldNotReady
    require s.fld1.ok .fieldNotReady
    require (!s.crv.ok) .reconfig
    let ea := s.fld0.ofRaw a
    let eb := s.fld0.ofRaw b
    let crv : CurveRec := { ok := true, a := ea, b := eb, azero := ea == 0, bzero := eb == 0 }
    return State.putFlag { s with crv := crv } .curveok true

/-- STS (R103): the status word, then the index of this command. -/
def execSts (s : State) : Result := finish s (.ok (s.emit s.statusBytes))

/-- LDE ed, ctx, #raw (R104). -/
def execLde (ed : RegNo) (ctx : Ctx) (raw : Raw) (s : State) : Result :=
  finish s do
    require (s.fld ctx).ok .fieldNotReady
    return s.putE ed ⟨ctx, (s.fld ctx).ofRaw raw⟩

/-- STE es (R105). -/
def execSte (es : RegNo) (s : State) : Result :=
  finish s do
    let x ← readReg s.e es
    return s.emit (be32 (s.valOf x))

/-- LDA ad, (#x, #y) (R106): reduced, never infinity, not tested to be on the curve. -/
def execLda (ad : RegNo) (pt : RawPoint) (s : State) : Result :=
  finish s do
    s.needCurve
    return s.putA ad (pointOfRaw s.fld0 pt)

/-- LDAINF ad (R107). -/
def execLdainf (ad : RegNo) (s : State) : Result :=
  finish s do
    s.needCurve
    return s.putA ad .inf

/-- STA as (R108). -/
def execSta (sa : RegNo) (s : State) : Result :=
  finish s do
    s.needCurve
    let q ← readReg s.a sa
    let bytes ← ser s.fld0 q
    return s.emit bytes

/-- LDV vd, ctx, n, [#raw...] (R109). The range check of the header (30_encoding.md R80) is the rule's first line: log entry 15. -/
def execLdv (vd : RegNo) (ctx : Ctx) (raws : List Raw) (s : State) : Result :=
  finish s do
    require (decide (raws.length ≤ s.nmax)) .rangeError
    require (s.fld ctx).ok .fieldNotReady
    return s.putV vd ⟨ctx, raws.map (s.fld ctx).ofRaw⟩

/-- STV vs (R110). -/
def execStv (vs : RegNo) (s : State) : Result :=
  finish s do
    let x ← readReg s.v vs
    return s.emit (serScalars (s.fld x.ctx) x.elems)

/-- LDG gd, n, [(#x, #y)...] (R111). -/
def execLdg (gd : RegNo) (pts : List RawPoint) (s : State) : Result :=
  finish s do
    require (decide (pts.length ≤ s.nmax)) .rangeError
    s.needCurve
    return s.putG gd (pts.map (pointOfRaw s.fld0))

/-- STG gs (R112). -/
def execStg (gs : RegNo) (s : State) : Result :=
  finish s do
    s.needCurve
    let qs ← readReg s.g gs
    let bytes ← serAll s.fld0 qs
    return s.emit bytes

end Sys2Proof.Machine
end

