-- ==== Sys2Proof/Machine/VectorUnit.lean ====
section
/-! DEFINITION. The meanings of the vector commands (43_vector.md R223 to R234). -/

namespace Sys2Proof.Machine

/-- The two source vectors of a command, the second in the first one's context, after the checks of 43_vector.md R211: moduli, then
lengths. -/
def State.vecPair (s : State) (vs1 vs2 : RegNo) : Except Cause (FVec × List Fe) := do
  let x ← readReg s.v vs1
  let y ← readReg s.v vs2
  s.sameField x.ctx y.ctx
  require (x.elems.length == y.elems.length) .lengthMismatch
  return (x, y.elems.map (s.convert y.ctx x.ctx))

/-- The shape VADD, VSUB and VHAD share (43_vector.md R223 to R225). -/
def vecBinary (op : FieldCtx → List Fe → List Fe → List Fe) (vd vs1 vs2 : RegNo) (s : State) : Result :=
  finish s do
    let xy ← s.vecPair vs1 vs2
    return s.putV vd ⟨xy.1.ctx, op (s.fld xy.1.ctx) xy.1.elems xy.2⟩

/-- VADD vd, vs1, vs2 (R223). -/
def execVadd (vd vs1 vs2 : RegNo) (s : State) : Result := vecBinary FieldCtx.vadd vd vs1 vs2 s

/-- VSUB vd, vs1, vs2 (R224). -/
def execVsub (vd vs1 vs2 : RegNo) (s : State) : Result := vecBinary FieldCtx.vsub vd vs1 vs2 s

/-- VHAD vd, vs1, vs2, the Hadamard product (R225). -/
def execVhad (vd vs1 vs2 : RegNo) (s : State) : Result := vecBinary FieldCtx.vhad vd vs1 vs2 s

/-- VSCL vd, vs, es (R226). -/
def execVscl (vd vs es : RegNo) (s : State) : Result :=
  finish s do
    let x ← readReg s.v vs
    let k ← readReg s.e es
    s.sameField x.ctx k.ctx
    return s.putV vd ⟨x.ctx, (s.fld x.ctx).vscl (s.convert k.ctx x.ctx k.s) x.elems⟩

/-- VIP ed, vs1, vs2, the inner product (R227). -/
def execVip (ed vs1 vs2 : RegNo) (s : State) : Result :=
  finish s do
    let xy ← s.vecPair vs1 vs2
    return s.putE ed ⟨xy.1.ctx, (s.fld xy.1.ctx).vip xy.1.elems xy.2⟩

/-- VSLICE vd, vs, start, len (R228). -/
def execVslice (vd vs : RegNo) (start len : Fin 65536) (s : State) : Result :=
  finish s do
    let x ← readReg s.v vs
    require (decide (start.val + len.val ≤ x.elems.length)) .rangeError
    return s.putV vd ⟨x.ctx, slice x.elems start.val len.val⟩

/-- VPOW vd, es, n (R229). -/
def execVpow (vd es : RegNo) (n : Fin 4096) (s : State) : Result :=
  finish s do
    require (decide (n.val ≤ s.nmax)) .rangeError
    let k ← readReg s.e es
    return s.putV vd ⟨k.ctx, (s.fld k.ctx).vpowers k.s n.val⟩

/-- The entry of a vector at an index, `RangeError` outside it (43_vector.md R230, R234). -/
def entry {α : Type} (xs : List α) (idx : Nat) : Except Cause α :=
  match xs[idx]? with
  | some x => .ok x
  | none => .error .rangeError

/-- VGET ed, vs, idx (R230). -/
def execVget (ed vs : RegNo) (idx : Fin 4096) (s : State) : Result :=
  finish s do
    let x ← readReg s.v vs
    let y ← entry x.elems idx.val
    return s.putE ed ⟨x.ctx, y⟩

/-- VREV vd, vs (R231). -/
def execVrev (vd vs : RegNo) (s : State) : Result :=
  finish s do
    let x ← readReg s.v vs
    return s.putV vd ⟨x.ctx, rev x.elems⟩

/-- GMSM jd, gs, vs, the vector commitment (R232): the scalars are values, whatever their context. -/
def execGmsm (jd gs vs : RegNo) (s : State) : Result :=
  finish s do
    s.needCurve
    let qs ← readReg s.g gs
    let x ← readReg s.v vs
    require (qs.length == x.elems.length) .lengthMismatch
    return s.putJ jd (s.curve.msm qs (x.elems.map (s.fld x.ctx).val))

/-- GSLICE gd, gs, start, len (R233). -/
def execGslice (gd gs : RegNo) (start len : Fin 65536) (s : State) : Result :=
  finish s do
    s.needCurve
    let qs ← readReg s.g gs
    require (decide (start.val + len.val ≤ qs.length)) .rangeError
    return s.putG gd (slice qs start.val len.val)

/-- GGET ad, gs, idx (R234). -/
def execGget (ad gs : RegNo) (idx : Fin 4096) (s : State) : Result :=
  finish s do
    s.needCurve
    let qs ← readReg s.g gs
    let q ← entry qs idx.val
    return s.putA ad q

end Sys2Proof.Machine
end

