-- ==== Sys2Proof/Machine/Dispatch.lean ====
section
/-! DEFINITION. The dispatch of commands to their meanings: one arm per row of spec/opcode_table.json. -/

namespace Sys2Proof.Machine

def exec (i : Instr) (s : State) : Host.Outcome State Fault Refusal :=
  match i with
  -- configuration and transfer (40_config_transfer.md)
  | .nop => Sys2Proof.Machine.execNop s
  | .fsetup ctx strat modulus => Sys2Proof.Machine.execFsetup ctx strat modulus s
  | .csetup a b => Sys2Proof.Machine.execCsetup a b s
  | .sts => Sys2Proof.Machine.execSts s
  | .lde ed ctx raw => Sys2Proof.Machine.execLde ed ctx raw s
  | .ste es => Sys2Proof.Machine.execSte es s
  | .lda ad pt => Sys2Proof.Machine.execLda ad pt s
  | .ldainf ad => Sys2Proof.Machine.execLdainf ad s
  | .sta sa => Sys2Proof.Machine.execSta sa s
  | .ldv vd ctx raws => Sys2Proof.Machine.execLdv vd ctx raws s
  | .stv vs => Sys2Proof.Machine.execStv vs s
  | .ldg gd pts => Sys2Proof.Machine.execLdg gd pts s
  | .stg gs => Sys2Proof.Machine.execStg gs s
  -- field unit (41_field.md)
  | .fadd ed es1 es2 => Sys2Proof.Machine.execFadd ed es1 es2 s
  | .fsub ed es1 es2 => Sys2Proof.Machine.execFsub ed es1 es2 s
  | .fmul ed es1 es2 => Sys2Proof.Machine.execFmul ed es1 es2 s
  | .fneg ed es => Sys2Proof.Machine.execFneg ed es s
  | .finv ed es => Sys2Proof.Machine.execFinv ed es s
  | .fpow ed es expo => Sys2Proof.Machine.execFpow ed es expo s
  | .fpoww ed es expo => Sys2Proof.Machine.execFpoww ed es expo s
  | .fsqrt ed es => Sys2Proof.Machine.execFsqrt ed es s
  | .feq es1 es2 => Sys2Proof.Machine.execFeq es1 es2 s
  | .fmov ed es => Sys2Proof.Machine.execFmov ed es s
  -- curve unit (42_curve.md)
  | .pchk sa => Sys2Proof.Machine.execPchk sa s
  | .ptoj jd sa => Sys2Proof.Machine.execPtoj jd sa s
  | .ptoa ad js => Sys2Proof.Machine.execPtoa ad js s
  | .padd jd js1 js2 => Sys2Proof.Machine.execPadd jd js1 js2 s
  | .pmadd jd js1 sa2 => Sys2Proof.Machine.execPmadd jd js1 sa2 s
  | .pdbl jd js => Sys2Proof.Machine.execPdbl jd js s
  | .pneg jd js => Sys2Proof.Machine.execPneg jd js s
  | .pmul jd es js => Sys2Proof.Machine.execPmul jd es js s
  | .peq sa1 sa2 => Sys2Proof.Machine.execPeq sa1 sa2 s
  | .gsetup pt => Sys2Proof.Machine.execGsetup pt s
  | .agen ad => Sys2Proof.Machine.execAgen ad s
  -- vector unit (43_vector.md)
  | .vadd vd vs1 vs2 => Sys2Proof.Machine.execVadd vd vs1 vs2 s
  | .vsub vd vs1 vs2 => Sys2Proof.Machine.execVsub vd vs1 vs2 s
  | .vhad vd vs1 vs2 => Sys2Proof.Machine.execVhad vd vs1 vs2 s
  | .vscl vd vs es => Sys2Proof.Machine.execVscl vd vs es s
  | .vip ed vs1 vs2 => Sys2Proof.Machine.execVip ed vs1 vs2 s
  | .vslice vd vs start len => Sys2Proof.Machine.execVslice vd vs start len s
  | .vpow vd es n => Sys2Proof.Machine.execVpow vd es n s
  | .vget ed vs idx => Sys2Proof.Machine.execVget ed vs idx s
  | .vrev vd vs => Sys2Proof.Machine.execVrev vd vs s
  | .gmsm jd gs vs => Sys2Proof.Machine.execGmsm jd gs vs s
  | .gslice gd gs start len => Sys2Proof.Machine.execGslice gd gs start len s
  | .gget ad gs idx => Sys2Proof.Machine.execGget ad gs idx s
  -- inner-product unit (44_ipa.md)
  | .ipach ed aL aC aR => Sys2Proof.Machine.execIpach ed aL aC aR s
  | .ipasv vd vs => Sys2Proof.Machine.execIpasv vd vs s
  | .ipavfy gs hs au aP proof => Sys2Proof.Machine.execIpavfy gs hs au aP proof s
  | .ipaprv gs hs au aP va vb => Sys2Proof.Machine.execIpaprv gs hs au aP va vb s

end Sys2Proof.Machine
end

