-- ==== Sys2Proof/Machine/Step.lean ====
section
/-! DEFINITION. One step of the block: fetch the next command and run it (00_scope.md R7, 20_memory.md R60). -/

namespace Sys2Proof.Machine

/-- One step: a command run, a word discarded or faulted on, or no step while the block waits for the host. -/
def step (s : State) : Host.Outcome State Fault Refusal :=
  match s.fetch with
  | .wait r => .fault r
  | .absorb t => .next t
  | .run i t => exec i t

/-- The state in which the host has offered exactly the words of one instruction: its bits `w` as spec/opcode_table.json numbers
them, the bits above `nbits` 0, as many payload words as its header asks for. It stands for the host's offering of a program: log
entry 1. A halted block stays halted and discards the words: log entry 16. -/
def State.withFetchWord (s : State) (nbits w : Nat) : State :=
  { s with cmdIn := tableWords nbits w }

end Sys2Proof.Machine
end

