-- ==== Sys2Proof/Machine/HostPort.lean ====
section
/-! DEFINITION. What the host may do and see (60_exceptions.md R279, R282, R285): its moves, the status port, the fault line, and the
outcome of a run over a finite word stream. -/

namespace Sys2Proof.Machine

/-- What a read of the status port returns: `STATUS`, `CSEQ`, `FSEQ` (60_exceptions.md R282). -/
structure PortView where
  status : BitVec 32
  cseq : BitVec 32
  fseq : BitVec 32
deriving DecidableEq, Repr

/-- The host reads the status port: no side effect. -/
def State.statusPort (s : State) : PortView := ⟨s.status, s.cseq, s.fseq⟩

/-- The host reads `DOUT`: the bytes emitted so far, nothing is consumed. -/
def State.readDout (s : State) : List Byte := s.dout

/-- The level-sensitive line to the host: equal to `STATUS.FAULT` (60_exceptions.md R279). -/
def State.faultLine (s : State) : Bool := s.flag .fault

/-- The host offers words on the command port, in order (20_memory.md R51). -/
def State.offer (s : State) (ws : List Word) : State := { s with cmdIn := s.cmdIn ++ ws }

/-- The moves of the host that change the block (60_exceptions.md R282); its reads change nothing. -/
inductive HostMove where
  | offerWord (w : Word)
  | reset
deriving DecidableEq, Repr

/-- The effect of a move of the host, allowed at any time (60_exceptions.md R282, R283). -/
def State.hostMove (s : State) : HostMove → State
  | .offerWord w => s.offer [w]
  | .reset => s.assertReset

/-- How a run ends (60_exceptions.md R285). -/
inductive RunEnd where
  | complete
  | fault
  | stuck
deriving DecidableEq, Repr

/-- At most `fuel` steps of the block, until it waits for the host. -/
def runSteps : Nat → State → State
  | 0, s => s
  | fuel + 1, s =>
    match step s with
    | .next t => runSteps fuel t
    | .fault _ => s
    | .refused _ => s

/-- The block after the host has offered the words `ws` and it has taken all it can: a step takes at least one word. -/
def State.runWords (s : State) (ws : List Word) : State :=
  let t := s.offer ws
  runSteps t.cmdIn.length t

/-- The outcome of a run that left the block in `s` (60_exceptions.md R285): faulted, stuck inside a command's payload, or
complete. -/
def State.runEnd (s : State) : RunEnd :=
  if s.halted then .fault
  else
    match s.cmdIn with
    | [] => .complete
    | _ :: _ => .stuck

/-- The commands of a stream one after the other; after a fault the rest is discarded (60_exceptions.md R277). -/
def runCommands : List Instr → State → State
  | [], s => s
  | i :: is, s =>
    if s.halted then s
    else
      match exec i s with
      | .next t => runCommands is t
      | .fault _ => s
      | .refused _ => s

end Sys2Proof.Machine
end

