-- ==== Sys2Proof/Machine/ValueView.lean ====
section
/-! DEFINITION. The value view (00_scope.md R11): the functions of 41_field.md, 42_curve.md and 43_vector.md on naturals below the
modulus, transcribed a second time from their rules and free of stored forms, strategies and fast-path flags. No meaning uses them;
claims compare the machine with them. -/

namespace Sys2Proof.Machine

namespace Values

/-- `fadd(m, a, b)` (41_field.md R132). -/
def fadd (m a b : Nat) : Nat := (a + b) % m

/-- `fsub(m, a, b)` (41_field.md R133). -/
def fsub (m a b : Nat) : Nat := if b ≤ a then a - b else a + m - b

/-- `fneg(m, a)` (41_field.md R134). -/
def fneg (m a : Nat) : Nat := (m - a) % m

/-- `fmul(m, a, b)` (41_field.md R135). -/
def fmul (m a b : Nat) : Nat := a * b % m

/-- `vip(m, a, b)` computed in the naturals and reduced once (43_vector.md R213). -/
def vip (m : Nat) (a b : List Nat) : Nat := (List.zipWith (· * ·) a b).sum % m

/-- A Jacobian point as values (42_curve.md R170). -/
structure JacV where
  X : Nat
  Y : Nat
  Z : Nat
deriving DecidableEq, Repr

/-- An affine point as values; `none` is `INF_A` (42_curve.md R170). -/
abbrev AffV := Option (Nat × Nat)

/-- The numbers a curve function reads: `p`, `q`, and the values of `A` and `B` (42_curve.md, opening). -/
structure CurveV where
  p : Nat
  q : Nat
  A : Nat
  B : Nat
deriving DecidableEq, Repr

/-- `INF_J` (42_curve.md R170). -/
def infJ : JacV := ⟨0, 1, 0⟩

/-- `toJ` (42_curve.md R171). -/
def toJ : AffV → JacV
  | none => infJ
  | some (x, y) => ⟨x, y, 1⟩

/-- `oncurve` (42_curve.md R173). -/
def oncurve (c : CurveV) : AffV → Prop
  | none => False
  | some (x, y) =>
    fmul c.p y y = fadd c.p (fadd c.p (fmul c.p (fmul c.p x x) x) (fmul c.p c.A x)) c.B

/-- `pneg` (42_curve.md R175). -/
def pneg (c : CurveV) (P : JacV) : JacV := ⟨P.X, fneg c.p P.Y, P.Z⟩

/-- `pdbl` (42_curve.md R176). -/
def pdbl (c : CurveV) (P : JacV) : JacV :=
  if P.Z = 0 then infJ
  else
    let yy := fmul c.p P.Y P.Y
    let s := fmul c.p (4 % c.p) (fmul c.p P.X yy)
    let zz := fmul c.p P.Z P.Z
    let m := fadd c.p (fmul c.p (3 % c.p) (fmul c.p P.X P.X)) (fmul c.p c.A (fmul c.p zz zz))
    let x3 := fsub c.p (fmul c.p m m) (fadd c.p s s)
    let y3 := fsub c.p (fmul c.p m (fsub c.p s x3)) (fmul c.p (8 % c.p) (fmul c.p yy yy))
    let z3 := fmul c.p (2 % c.p) (fmul c.p P.Y P.Z)
    ⟨x3, y3, z3⟩

/-- `padd` (42_curve.md R177). -/
def padd (c : CurveV) (P1 P2 : JacV) : JacV :=
  if P1.Z = 0 then P2
  else if P2.Z = 0 then P1
  else
    let z1z1 := fmul c.p P1.Z P1.Z
    let z2z2 := fmul c.p P2.Z P2.Z
    let u1 := fmul c.p P1.X z2z2
    let u2 := fmul c.p P2.X z1z1
    let s1 := fmul c.p P1.Y (fmul c.p P2.Z z2z2)
    let s2 := fmul c.p P2.Y (fmul c.p P1.Z z1z1)
    if u1 = u2 then
      if s1 = s2 then pdbl c P1 else infJ
    else
      let h := fsub c.p u2 u1
      let r := fsub c.p s2 s1
      let hh := fmul c.p h h
      let hhh := fmul c.p h hh
      let v := fmul c.p u1 hh
      let x3 := fsub c.p (fsub c.p (fmul c.p r r) hhh) (fadd c.p v v)
      let y3 := fsub c.p (fmul c.p r (fsub c.p v x3)) (fmul c.p s1 hhh)
      let z3 := fmul c.p h (fmul c.p P1.Z P2.Z)
      ⟨x3, y3, z3⟩

/-- `pmadd` (42_curve.md R178). -/
def pmadd (c : CurveV) (P1 : JacV) : AffV → JacV
  | none => P1
  | some (x2, y2) =>
    if P1.Z = 0 then ⟨x2, y2, 1⟩
    else
      let z1z1 := fmul c.p P1.Z P1.Z
      let u1 := P1.X
      let u2 := fmul c.p x2 z1z1
      let s1 := P1.Y
      let s2 := fmul c.p y2 (fmul c.p P1.Z z1z1)
      if u1 = u2 then
        if s1 = s2 then pdbl c P1 else infJ
      else
        let h := fsub c.p u2 u1
        let r := fsub c.p s2 s1
        let hh := fmul c.p h h
        let hhh := fmul c.p h hh
        let v := fmul c.p u1 hh
        let x3 := fsub c.p (fsub c.p (fmul c.p r r) hhh) (fadd c.p v v)
        let y3 := fsub c.p (fmul c.p r (fsub c.p v x3)) (fmul c.p s1 hhh)
        let z3 := fmul c.p h P1.Z
        ⟨x3, y3, z3⟩

/-- Entry `i` of the table of odd multiples, `(2i + 1) * P` (42_curve.md R181). -/
def oddMultiple (c : CurveV) (P : JacV) : Nat → JacV
  | 0 => P
  | i + 1 => padd c (oddMultiple c P i) (pdbl c P)

/-- One digit of the scan of `pmul_raw` (42_curve.md R184). -/
def mulStep (c : CurveV) (P : JacV) (acc : JacV) (t : Int) : JacV :=
  let acc2 := pdbl c acc
  if 0 < t then padd c acc2 (oddMultiple c P (t.toNat / 2))
  else if t < 0 then padd c acc2 (pneg c (oddMultiple c P ((-t).toNat / 2)))
  else acc2

/-- `pmul_raw(k, P)`: the digits of `wnaf(k)`, most significant first (42_curve.md R184). -/
def pmulRaw (c : CurveV) (k : Nat) (P : JacV) : JacV :=
  if k = 0 ∨ P.Z = 0 then infJ else (wnaf k).reverse.foldl (mulStep c P) infJ

/-- `pmul(k, P)` (42_curve.md R185). -/
def pmul (c : CurveV) (k : Nat) (P : JacV) : JacV := pmulRaw c (k % c.q) P

/-- `msm(gs, a)`: the terms added in index order, from `INF_J` (43_vector.md R222). -/
def msm (c : CurveV) (qs : List AffV) (ks : List Nat) : JacV :=
  (List.zip qs ks).foldl (fun acc qk => padd c acc (pmul c qk.2 (toJ qk.1))) infJ

end Values

/-- The values of a Jacobian point. -/
def Jac.vals (f : FieldCtx) (P : Jac) : Values.JacV := ⟨f.val P.X, f.val P.Y, f.val P.Z⟩

/-- The values of an affine point. -/
def Affine.vals (f : FieldCtx) : Affine → Values.AffV
  | .inf => none
  | .pt x y => some (f.val x, f.val y)

/-- The numbers of a curve. -/
def Curve.vals (c : Curve) : Values.CurveV := ⟨c.fp.m, c.fq.m, c.fp.val c.crv.a, c.fp.val c.crv.b⟩

end Sys2Proof.Machine
end

