-- ==== Sys2Proof/Safety.lean ====
section
/-! DEFINITION. The terms claims are made in: the invariant of the block's state, values behind stored forms, what a command reads,
writes and may raise (tables read off the rules, not off the meanings), and when two states hold the same values. -/

namespace Sys2Proof.Machine

/-! ## Well-formed contexts and canonical elements -/

/-- A context that FSETUP can have written: an odd modulus of at least 3 and the constants of its strategy (10_state.md R21,
40_config_transfer.md R101, 41_field.md R141). -/
abbrev FieldCtx.WF (f : FieldCtx) : Prop :=
  3 ≤ f.m ∧ f.m % 2 = 1 ∧
  (f.strat = .naive → f.montR = 0 ∧ f.montRinv = 0 ∧ f.montK = 0) ∧
  (f.strat = .mont →
    f.montR.toNat = Config.radix % f.m ∧ f.montRinv.toNat < f.m ∧ f.montR.toNat * f.montRinv.toNat % f.m = 1 ∧
    f.montK.toNat * f.m + 1 = Config.radix * f.montRinv.toNat)

/-- A stored form below the modulus: the only ones a register holds (41_field.md R130). -/
abbrev FieldCtx.Canon (f : FieldCtx) (x : Fe) : Prop := x.toNat < f.m

/-- Whether an affine point has canonical coordinates; infinity has none. -/
def Affine.canonical (f : FieldCtx) : Affine → Bool
  | .inf => true
  | .pt x y => decide (f.Canon x) && decide (f.Canon y)

/-- An affine point with canonical coordinates. -/
abbrev Affine.Canon (f : FieldCtx) (q : Affine) : Prop := q.canonical f = true

/-- A Jacobian point with canonical coordinates. -/
abbrev Jac.Canon (f : FieldCtx) (p : Jac) : Prop := f.Canon p.X ∧ f.Canon p.Y ∧ f.Canon p.Z

/-- The value of a stored form in the ring of residues: the arithmetic of the rules is that ring's. -/
def FieldCtx.toZ (f : FieldCtx) (x : Fe) : ZMod f.m := (f.val x : ZMod f.m)

/-- A curve that CSETUP can have written, over contexts that FSETUP can have written (40_config_transfer.md R101, R102). -/
structure Curve.WF (c : Curve) : Prop where
  fp : c.fp.WF
  fq : c.fq.WF
  a : c.fp.Canon c.crv.a
  b : c.fp.Canon c.crv.b
  azero : c.crv.azero = (c.crv.a == 0)
  bzero : c.crv.bzero = (c.crv.b == 0)

/-! ## The invariant -/

/-- The configuration records: what is set up is well formed, and CRV and GEN only stand on what they need (40_config_transfer.md
R101, R102; 42_curve.md R199). -/
structure State.SetupInv (s : State) : Prop where
  fld : ∀ c, (s.fld c).ok = true → (s.fld c).WF
  crv : s.crv.ok = true → s.fld0.ok = true ∧ s.fld1.ok = true ∧ s.fld0.Canon s.crv.a ∧ s.fld0.Canon s.crv.b ∧
    s.crv.azero = (s.crv.a == 0) ∧ s.crv.bzero = (s.crv.b == 0)
  gen : s.gen.ok = true → s.crv.ok = true ∧ s.fld0.Canon s.gen.x ∧ s.fld0.Canon s.gen.y

/-- The registers: a written one belongs to what is set up, holds canonical elements and no more than `NMAX` of them, and a `G`
register holds no point at infinity (10_state.md R24 to R29, 41_field.md R130). -/
structure State.RegInv (s : State) : Prop where
  e : ∀ i, ∀ x ∈ s.e.get i, (s.fld x.ctx).ok = true ∧ (s.fld x.ctx).Canon x.s
  a : ∀ i, ∀ q ∈ s.a.get i, s.crv.ok = true ∧ q.Canon s.fld0
  j : ∀ i, ∀ p ∈ s.j.get i, s.crv.ok = true ∧ p.Canon s.fld0
  v : ∀ i, ∀ x ∈ s.v.get i,
    (s.fld x.ctx).ok = true ∧ x.elems.length ≤ s.nmax ∧ ∀ y ∈ x.elems, (s.fld x.ctx).Canon y
  g : ∀ i, ∀ qs ∈ s.g.get i, s.crv.ok = true ∧ qs.length ≤ s.nmax ∧ ∀ q ∈ qs, q ≠ .inf ∧ q.Canon s.fld0

/-- The status word: reserved bits read as 0, four bits copy the `ok` bits, and the fault record is all or nothing and excludes
`VFY` (10_state.md R33, 60_exceptions.md R271, R274). -/
structure State.StatusInv (s : State) : Prop where
  reserved : s.status &&& 0xFF00FE00#32 = 0
  genok : s.flag .genok = s.gen.ok
  curveok : s.flag .curveok = s.crv.ok
  fld0ok : s.flag .fld0ok = s.fld0.ok
  fld1ok : s.flag .fld1ok = s.fld1.ok
  running : s.flag .fault = false → getFcode s.status = 0 ∧ s.fseq = 0
  faulted : s.flag .fault = true →
    1 ≤ (getFcode s.status).toNat ∧ (getFcode s.status).toNat ≤ 14 ∧ s.flag .vfy = false

/-- The invariant of every reachable state. -/
structure State.Inv (s : State) : Prop where
  setup : s.SetupInv
  regs : s.RegInv
  stat : s.StatusInv

/-! ## What a command reads, writes and may raise -/

/-- A register by its file and number. -/
inductive RegName where
  | e (i : RegNo)
  | a (i : RegNo)
  | j (i : RegNo)
  | v (i : RegNo)
  | g (i : RegNo)
deriving DecidableEq, Repr

/-- The `w` bit of a register (10_state.md R26). -/
def State.written (s : State) : RegName → Bool
  | .e i => (s.e.get i).isSome
  | .a i => (s.a.get i).isSome
  | .j i => (s.j.get i).isSome
  | .v i => (s.v.get i).isSome
  | .g i => (s.g.get i).isSome

/-- Two states hold the same in a register, its `w` bit included. -/
def State.sameReg (s t : State) : RegName → Prop
  | .e i => s.e.get i = t.e.get i
  | .a i => s.a.get i = t.a.get i
  | .j i => s.j.get i = t.j.get i
  | .v i => s.v.get i = t.v.get i
  | .g i => s.g.get i = t.g.get i

end Sys2Proof.Machine

namespace Sys2Proof

open Machine

/-- The register sources of a command, in operand order (the operand columns of 30_encoding.md R77). -/
def Instr.sources : Instr → List RegName
  | .nop | .fsetup _ _ _ | .csetup _ _ | .sts | .lde _ _ _ | .lda _ _ | .ldainf _ | .ldv _ _ _ | .ldg _ _ => []
  | .gsetup _ | .agen _ => []
  | .ste es => [.e es]
  | .sta sa | .pchk sa => [.a sa]
  | .stv vs => [.v vs]
  | .stg gs => [.g gs]
  | .fadd _ r1 r2 | .fsub _ r1 r2 | .fmul _ r1 r2 | .feq r1 r2 => [.e r1, .e r2]
  | .fneg _ es | .finv _ es | .fpow _ es _ | .fpoww _ es _ | .fsqrt _ es | .fmov _ es | .vpow _ es _ => [.e es]
  | .ptoj _ sa => [.a sa]
  | .ptoa _ js | .pdbl _ js | .pneg _ js => [.j js]
  | .padd _ r1 r2 => [.j r1, .j r2]
  | .pmadd _ r1 r2 => [.j r1, .a r2]
  | .pmul _ es js => [.e es, .j js]
  | .peq r1 r2 => [.a r1, .a r2]
  | .vadd _ r1 r2 | .vsub _ r1 r2 | .vhad _ r1 r2 | .vip _ r1 r2 => [.v r1, .v r2]
  | .vscl _ vs es => [.v vs, .e es]
  | .vslice _ vs _ _ | .vget _ vs _ | .vrev _ vs | .ipasv _ vs => [.v vs]
  | .gmsm _ gs vs => [.g gs, .v vs]
  | .gslice _ gs _ _ | .gget _ gs _ => [.g gs]
  | .ipach _ aL aC aR => [.a aL, .a aC, .a aR]
  | .ipavfy gs hs au aP _ => [.g gs, .g hs, .a au, .a aP]
  | .ipaprv gs hs au aP va vb => [.g gs, .g hs, .a au, .a aP, .v va, .v vb]

/-- The destination register of a command, if it has one (30_encoding.md R77). -/
def Instr.dest : Instr → Option RegName
  | .nop | .fsetup _ _ _ | .csetup _ _ | .sts | .ste _ | .sta _ | .stv _ | .stg _ | .feq _ _ | .pchk _ | .peq _ _ => none
  | .gsetup _ | .ipavfy _ _ _ _ _ | .ipaprv _ _ _ _ _ _ => none
  | .lde d _ _ | .fadd d _ _ | .fsub d _ _ | .fmul d _ _ | .fneg d _ | .finv d _ | .fpow d _ _ | .fpoww d _ _ => some (.e d)
  | .fsqrt d _ | .fmov d _ | .vip d _ _ | .vget d _ _ | .ipach d _ _ _ => some (.e d)
  | .lda d _ | .ldainf d | .ptoa d _ | .agen d | .gget d _ _ => some (.a d)
  | .ptoj d _ | .padd d _ _ | .pmadd d _ _ | .pdbl d _ | .pneg d _ | .pmul d _ _ | .gmsm d _ _ => some (.j d)
  | .ldv d _ _ | .vadd d _ _ | .vsub d _ _ | .vhad d _ _ | .vscl d _ _ | .vslice d _ _ _ | .vpow d _ _ => some (.v d)
  | .vrev d _ | .ipasv d _ => some (.v d)
  | .ldg d _ | .gslice d _ _ _ => some (.g d)

/-- The flags a completed command may write (10_state.md R33, R34). -/
def Instr.flags : Instr → List Flag
  | .feq _ _ | .peq _ _ => [.eq]
  | .pchk _ => [.onc]
  | .fsqrt _ _ => [.sqok]
  | .ipavfy _ _ _ _ _ => [.vfy]
  | .gsetup _ => [.genok]
  | .csetup _ _ => [.curveok]
  | .fsetup .coord _ _ => [.fld0ok]
  | .fsetup .order _ _ => [.fld1ok]
  | _ => []

/-- The commands that append to `DOUT` (20_memory.md R58, R59). -/
def Instr.stores : Instr → Bool
  | .sts | .ste _ | .sta _ | .stv _ | .stg _ | .ipaprv _ _ _ _ _ _ => true
  | _ => false

/-- The commands that require the curve (42_curve.md, before R190; the rules of R106 to R112, R232 to R234, R250, R252, R253). IPASV
is not among them, the model's choice: log entry 25. -/
def Instr.needsCurve : Instr → Bool
  | .lda _ _ | .ldainf _ | .sta _ | .ldg _ _ | .stg _ => true
  | .pchk _ | .ptoj _ _ | .ptoa _ _ | .padd _ _ _ | .pmadd _ _ _ | .pdbl _ _ | .pneg _ _ | .pmul _ _ _ | .peq _ _ => true
  | .gsetup _ | .agen _ | .gmsm _ _ _ | .gslice _ _ _ _ | .gget _ _ _ => true
  | .ipach _ _ _ _ | .ipavfy _ _ _ _ _ | .ipaprv _ _ _ _ _ _ => true
  | _ => false

/-- A command's lengths pass the header range checks (30_encoding.md R80). -/
def Instr.inRange (nmax : Nat) : Instr → Prop
  | .ldv _ _ raws => raws.length ≤ nmax
  | .ldg _ pts => pts.length ≤ nmax
  | .vpow _ _ n => n.val ≤ nmax
  | .ipavfy _ _ _ _ pf => 2 ^ pf.ls.length ≤ nmax
  | _ => True

/-- The causes each command can raise once its header is legal: the table of 60_exceptions.md R272 without `IllegalCommand`. -/
def Instr.causes : Instr → List Cause
  | .nop | .sts => []
  | .fsetup _ _ _ => [.reconfig, .badModulus]
  | .csetup _ _ => [.fieldNotReady, .reconfig]
  | .lde _ _ _ => [.fieldNotReady]
  | .ldv _ _ _ => [.rangeError, .fieldNotReady]
  | .ste _ | .stv _ | .fneg _ _ | .fmov _ _ | .vrev _ _ => [.unwrittenRegister]
  | .lda _ _ | .ldainf _ | .gsetup _ => [.curveNotReady]
  | .ldg _ _ => [.rangeError, .curveNotReady]
  | .sta _ | .stg _ => [.curveNotReady, .unwrittenRegister, .infinityEncode]
  | .fadd _ _ _ | .fsub _ _ _ | .fmul _ _ _ | .feq _ _ | .vscl _ _ _ => [.unwrittenRegister, .modulusMismatch]
  | .finv _ _ => [.unwrittenRegister, .noInverse]
  | .fpow _ _ _ | .fpoww _ _ _ => [.unwrittenRegister]
  | .fsqrt _ _ => [.unwrittenRegister, .sqrtUnimplemented]
  | .pchk _ | .ptoj _ _ | .padd _ _ _ | .pmadd _ _ _ | .pdbl _ _ | .pneg _ _ => [.curveNotReady, .unwrittenRegister]
  | .pmul _ _ _ | .peq _ _ => [.curveNotReady, .unwrittenRegister]
  | .ptoa _ _ => [.curveNotReady, .unwrittenRegister, .noInverse]
  | .agen _ => [.curveNotReady, .noGenerator]
  | .vadd _ _ _ | .vsub _ _ _ | .vhad _ _ _ | .vip _ _ _ => [.unwrittenRegister, .modulusMismatch, .lengthMismatch]
  | .vslice _ _ _ _ | .vget _ _ _ => [.unwrittenRegister, .rangeError]
  | .vpow _ _ _ => [.rangeError, .unwrittenRegister]
  | .gmsm _ _ _ => [.curveNotReady, .unwrittenRegister, .lengthMismatch]
  | .gslice _ _ _ _ | .gget _ _ _ => [.curveNotReady, .unwrittenRegister, .rangeError]
  | .ipach _ _ _ _ => [.curveNotReady, .unwrittenRegister, .infinityEncode]
  | .ipasv _ _ => [.unwrittenRegister, .rangeError, .noInverse]
  | .ipavfy _ _ _ _ _ =>
    [.rangeError, .curveNotReady, .unwrittenRegister, .lengthMismatch, .notPowerOfTwo, .infinityEncode, .noInverse]
  | .ipaprv _ _ _ _ _ _ =>
    [.curveNotReady, .unwrittenRegister, .modulusMismatch, .lengthMismatch, .notPowerOfTwo, .infinityEncode, .noInverse]

end Sys2Proof

namespace Sys2Proof

/-! ## The opcode table -/

/-- The row of a command in spec/opcode_table.json (30_encoding.md R77 to R79), its mask and its match: the mask covers `op`, every
unused field, and the three high bits of a ctx or strat field. -/
def Opcode.row : Opcode → Word × Word
  | .nop => (0xFFFFFFFF#32, 0x00000000#32) | .fsetup => (0xFFEEFFFF#32, 0x01000000#32)
  | .csetup => (0xFFFFFFFF#32, 0x02000000#32) | .sts => (0xFFFFFFFF#32, 0x04000000#32)
  | .lde => (0xFF0EFFFF#32, 0x08000000#32) | .ste => (0xFF0FFFFF#32, 0x09000000#32)
  | .lda => (0xFF0FFFFF#32, 0x0A000000#32) | .ldainf => (0xFF0FFFFF#32, 0x0B000000#32)
  | .sta => (0xFF0FFFFF#32, 0x0C000000#32) | .ldv => (0xFF0EF000#32, 0x0D000000#32)
  | .stv => (0xFF0FFFFF#32, 0x0E000000#32) | .ldg => (0xFF0FF000#32, 0x0F000000#32)
  | .stg => (0xFF0FFFFF#32, 0x10000000#32) | .fadd => (0xFF000FFF#32, 0x20000000#32)
  | .fsub => (0xFF000FFF#32, 0x21000000#32) | .fmul => (0xFF000FFF#32, 0x22000000#32)
  | .fneg => (0xFF00FFFF#32, 0x23000000#32) | .finv => (0xFF00FFFF#32, 0x24000000#32)
  | .fpow => (0xFF00FFFF#32, 0x25000000#32) | .fpoww => (0xFF00FFFF#32, 0x26000000#32)
  | .fsqrt => (0xFF00FFFF#32, 0x27000000#32) | .feq => (0xFF00FFFF#32, 0x28000000#32)
  | .fmov => (0xFF00FFFF#32, 0x29000000#32) | .pchk => (0xFF0FFFFF#32, 0x30000000#32)
  | .ptoj => (0xFF00FFFF#32, 0x31000000#32) | .ptoa => (0xFF00FFFF#32, 0x32000000#32)
  | .padd => (0xFF000FFF#32, 0x33000000#32) | .pmadd => (0xFF000FFF#32, 0x34000000#32)
  | .pdbl => (0xFF00FFFF#32, 0x35000000#32) | .pneg => (0xFF00FFFF#32, 0x36000000#32)
  | .pmul => (0xFF000FFF#32, 0x37000000#32) | .peq => (0xFF00FFFF#32, 0x38000000#32)
  | .gsetup => (0xFFFFFFFF#32, 0x39000000#32) | .agen => (0xFF0FFFFF#32, 0x3A000000#32)
  | .vadd => (0xFF000FFF#32, 0x40000000#32) | .vsub => (0xFF000FFF#32, 0x41000000#32)
  | .vhad => (0xFF000FFF#32, 0x42000000#32) | .vscl => (0xFF000FFF#32, 0x43000000#32)
  | .vip => (0xFF000FFF#32, 0x44000000#32) | .vslice => (0xFF00FFFF#32, 0x45000000#32)
  | .vpow => (0xFF00F000#32, 0x46000000#32) | .vget => (0xFF00F000#32, 0x47000000#32)
  | .vrev => (0xFF00FFFF#32, 0x48000000#32) | .gmsm => (0xFF000FFF#32, 0x49000000#32)
  | .gslice => (0xFF00FFFF#32, 0x4A000000#32) | .gget => (0xFF00F000#32, 0x4B000000#32)
  | .ipach => (0xFF0000FF#32, 0x50000000#32) | .ipasv => (0xFF00FFFF#32, 0x51000000#32)
  | .ipavfy => (0xFF000000#32, 0x52000000#32) | .ipaprv => (0xFF000000#32, 0x53000000#32)

/-- A header word is a row's when its bits under the row's mask are the row's match. -/
def Opcode.matches (o : Opcode) (h : Word) : Prop := h &&& o.row.1 = o.row.2

end Sys2Proof

namespace Sys2Proof.Machine

/-! ## The group of the curve (42_curve.md R186) -/

/-- The short Weierstrass curve of a `CRV` over the residues modulo `p` (42_curve.md R170). -/
def Curve.weierstrass (c : Curve) : WeierstrassCurve.Affine (ZMod c.fp.m) :=
  { a₁ := 0, a₂ := 0, a₃ := 0, a₄ := c.fp.toZ c.crv.a, a₆ := c.fp.toZ c.crv.b }

/-- An affine point stands for a point of the group. -/
def Curve.StandsFor (c : Curve) (Q : Affine) : c.weierstrass.Point → Prop
  | .zero => Q = .inf
  | .some x y _ => ∃ x' y', Q = .pt x' y' ∧ c.fp.toZ x' = x ∧ c.fp.toZ y' = y

/-- The affine image of a Jacobian point stands for a point of the group. -/
def Curve.JacStandsFor (c : Curve) (P : Jac) (pt : c.weierstrass.Point) : Prop :=
  ∃ Q, c.toA P = .ok Q ∧ c.StandsFor Q pt

/-! ## What a command emits -/

/-- A 32-bit word as four bytes, most significant first (40_config_transfer.md R103, 20_memory.md R54). -/
def wordBytes (w : Word) : List Byte :=
  [w.extractLsb' 24 8, w.extractLsb' 16 8, w.extractLsb' 8 8, w.extractLsb' 0 8]

/-- The payload words of a proof as the bytes IPAPRV emits (20_memory.md R63). -/
def proofWordBytes (pf : RawProof) : List Byte := (wordsProof pf).flatMap wordBytes

/-- A flag written as a bit of the status word, every other bit as it was: the status after a command that writes one flag. -/
abbrev State.statusWith (s : State) (f : Flag) (b : Bool) : BitVec 32 := setFlag s.status f b

end Sys2Proof.Machine

namespace Sys2Proof.Machine

/-! ## The same values under any strategies (41_field.md R147) -/

/-- Two contexts that may differ only in their strategy and its constants. -/
def FieldCtx.sameField (f h : FieldCtx) : Prop := f.ok = h.ok ∧ f.mod = h.mod

/-- Two affine points with the same values. -/
def sameAffine (f h : FieldCtx) : Affine → Affine → Prop
  | .inf, .inf => True
  | .pt x y, .pt x' y' => f.val x = h.val x' ∧ f.val y = h.val y'
  | .inf, .pt _ _ => False
  | .pt _ _, .inf => False

/-- Two Jacobian points with the same values. -/
def sameJac (f h : FieldCtx) (p q : Jac) : Prop :=
  f.val p.X = h.val q.X ∧ f.val p.Y = h.val q.Y ∧ f.val p.Z = h.val q.Z

/-- Two registers that are both unwritten, or both written with related contents. -/
def sameSlot {α : Type} (r : α → α → Prop) : Option α → Option α → Prop
  | none, none => True
  | some x, some y => r x y
  | none, some _ => False
  | some _, none => False

/-- Two states that agree in all that can be observed and in the value of every register, and may differ in the strategies of their
field contexts and so in stored forms (41_field.md R147). -/
structure SameValues (s t : State) : Prop where
  fld : ∀ c, (s.fld c).sameField (t.fld c)
  crvOk : s.crv.ok = t.crv.ok
  crv : s.crv.ok = true → s.fld0.val s.crv.a = t.fld0.val t.crv.a ∧ s.fld0.val s.crv.b = t.fld0.val t.crv.b
  genOk : s.gen.ok = t.gen.ok
  gen : s.gen.ok = true → s.fld0.val s.gen.x = t.fld0.val t.gen.x ∧ s.fld0.val s.gen.y = t.fld0.val t.gen.y
  e : ∀ i, sameSlot (fun x y => x.ctx = y.ctx ∧ s.valOf x = t.valOf y) (s.e.get i) (t.e.get i)
  a : ∀ i, sameSlot (sameAffine s.fld0 t.fld0) (s.a.get i) (t.a.get i)
  j : ∀ i, sameSlot (sameJac s.fld0 t.fld0) (s.j.get i) (t.j.get i)
  v : ∀ i, sameSlot (fun x y => x.ctx = y.ctx ∧ x.elems.map (s.fld x.ctx).val = y.elems.map (t.fld y.ctx).val)
    (s.v.get i) (t.v.get i)
  g : ∀ i, sameSlot (List.Forall₂ (sameAffine s.fld0 t.fld0)) (s.g.get i) (t.g.get i)
  cseq : s.cseq = t.cseq
  fseq : s.fseq = t.fseq
  status : s.status = t.status
  dout : s.dout = t.dout
  cmdIn : s.cmdIn = t.cmdIn
  nmaxLog : s.nmaxLog = t.nmaxLog

/-- Two commands that are the same but for the `strat` operand of an FSETUP (41_field.md R147). -/
def SameButStrat (i i' : Instr) : Prop :=
  i = i' ∨ ∃ c st st' m, i = .fsetup c st m ∧ i' = .fsetup c st' m

end Sys2Proof.Machine
end

