-- ==== Sys2Proof/Certificates/Slice0/Obligations.lean ====
section
/-! DEFINITION. The statements for the provers, from the numbered rules of spec/. A command's result is stated on values (00_scope.md
R11) and as one whole next state, so each such statement is also its command's frame and its completion. -/

section

open Sys2Proof Sys2Proof.Machine

/-! ## Encoding (30_encoding.md) -/

/-- Every well-formed command decodes from its own words, whatever follows them (30_encoding.md R70 to R77). -/
def Obligations.DecodeOfEncodeIsTheCommand : Prop :=
  ∀ (i : Instr) (rest : List Word), i.wf = true → decode (encode i ++ rest) = .ok (i, rest)

/-- What the decoder reads is a well-formed command, and the words it took are exactly that command's encoding: no bit is ignored
(30_encoding.md R77 to R79). -/
def Obligations.DecodedWordsAreTheEncoding : Prop :=
  ∀ (ws rest : List Word) (i : Instr), decode ws = .ok (i, rest) → i.wf = true ∧ encode i ++ rest = ws

/-- A header word is accepted as a command exactly when it matches that command's row of the opcode table, and it matches at most one
row (30_encoding.md R77, R78). -/
def Obligations.HeaderAcceptedIffTableRow : Prop :=
  (∀ (h : Word) (o : Opcode), checkHeader h = .ok o ↔ o.matches h) ∧
  (∀ (h : Word) (o o' : Opcode), o.matches h → o'.matches h → o = o')

/-- Words written out from the examples of the command rules decode to the commands they stand for. -/
def Obligations.ExampleWordsDecode : Prop :=
  decode [0x00000000#32] = .ok (.nop, []) ∧
  decode [0x01110000#32, 0, 0, 0, 0, 0, 0, 0, 0x2B#32] = .ok (.fsetup .order .mont 43, []) ∧
  decode [0x08100000#32, 0, 0, 0, 0, 0, 0, 0, 0x28#32] = .ok (.lde 1 .coord 40, []) ∧
  decode [0x20312000#32] = .ok (.fadd 3 1 2, []) ∧
  decode [0x34312000#32] = .ok (.pmadd 3 1 2, []) ∧
  decode [0x45200000#32, 0x00010002#32] = .ok (.vslice 2 0 1 2, []) ∧
  decode [0x46120005#32] = .ok (.vpow 1 2 5, []) ∧
  decode [0x50123400#32] = .ok (.ipach 1 2 3 4, []) ∧
  decode [0x53010101#32] = .ok (.ipaprv 0 1 0 1 0 1, [])

/-! ## Steps -/

/-- When the offered words begin with a command whose lengths pass the header range checks, a step of a block that has not faulted is
that command's meaning, in the state whose stream begins after the command's words. That the stream is held in State is the model's
choice: log entry 1. -/
def Obligations.StepRunsTheDecodedCommand : Prop :=
  ∀ (s : State) (i : Instr) (rest : List Word),
    s.halted = false → decode s.cmdIn = .ok (i, rest) → i.inRange s.nmax → step s = exec i { s with cmdIn := rest }

/-- A block that has faulted takes every word offered without decoding it and changes nothing else; no step leaves this condition, and
the reset input does (60_exceptions.md R277). -/
def Obligations.HaltedBlockDiscardsEveryWord : Prop :=
  ∀ s : State, s.halted = true →
    (∀ t, step s = .next t → ∃ rest, rest <:+ s.cmdIn ∧ t = { s with cmdIn := rest }) ∧
    (∀ ws, s.runWords ws = { s with cmdIn := [] }) ∧
    (s.hostMove .reset).halted = false

/-- A header word that matches no row of the opcode table faults `IllegalCommand`, code 1, and takes no payload word
(30_encoding.md R78). -/
def Obligations.IllegalHeaderFaults : Prop :=
  Cause.code .illegalCommand = 1 ∧
  ∀ (s : State) (h : Word) (rest : List Word),
    s.halted = false → s.cmdIn = h :: rest → (∀ o : Opcode, ¬ o.matches h) →
    step s = .next (State.enterFault { s with cmdIn := rest } .illegalCommand)

/-- A length above `NMAX` in the header of LDV, LDG, VPOW or IPAVFY faults `RangeError`, code 13, from the header alone
(30_encoding.md R80). -/
def Obligations.OversizedHeaderFaultsBeforePayload : Prop :=
  Cause.code .rangeError = 13 ∧
  ∀ (s : State) (h : Word) (rest : List Word),
    s.halted = false → s.cmdIn = h :: rest →
    ((Opcode.ldv.matches h ∨ Opcode.ldg.matches h ∨ Opcode.vpow.matches h) ∧ s.nmax < h.toNat % 4096) ∨
      (Opcode.ipavfy.matches h ∧ s.nmax < 2 ^ (h.toNat % 256)) →
    step s = .next (State.enterFault { s with cmdIn := rest } .rangeError)

/-- While payload words are missing the block has no step (the stop by which `step` says so is named in log entry 9); sending them or
resetting lifts this (20_memory.md R57). -/
def Obligations.IncompletePayloadIsStuck : Prop :=
  ∀ (s : State) (h : Word) (ws : List Word) (o : Opcode),
    s.halted = false → s.cmdIn = h :: ws → checkHeader h = .ok o → o.outOfRange s.nmax h = false →
    ws.length < o.payloadWords h →
    step s = .fault .awaitingPayload ∧ s.runEnd = .stuck ∧
    (∀ more, o.payloadWords h ≤ (ws ++ more).length → ∃ t, step (s.offer more) = .next t) ∧
    (s.hostMove .reset).runEnd = .complete

/-- What a step does depends on the words of its command alone: words offered behind them only stay offered (20_memory.md R51, R60;
30_encoding.md R70). -/
def Obligations.LaterWordsDoNotMatter : Prop :=
  ∀ (s t : State) (ws : List Word), step s = .next t → step (s.offer ws) = .next (t.offer ws)

/-- Every finite word stream is taken as far as it goes, and the run then ends in one of three ways: after a fault, with every word
taken; complete; or stuck inside a payload (60_exceptions.md R285). -/
def Obligations.EveryRunEnds : Prop :=
  ∀ (s : State) (ws : List Word),
    (s.runWords ws).cmdIn <:+ s.cmdIn ++ ws ∧
    match (s.runWords ws).runEnd with
    | .fault => (s.runWords ws).halted = true ∧ (s.runWords ws).cmdIn = []
    | .complete => (s.runWords ws).halted = false ∧ (s.runWords ws).cmdIn = []
    | .stuck => (s.runWords ws).halted = false ∧ step (s.runWords ws) = .fault .awaitingPayload

/-! ## Faults, frames, completion (60_exceptions.md) -/

/-- Fault entry writes `FSEQ`, `FCODE` and `FAULT`, clears `VFY`, raises the fault line and changes nothing else (60_exceptions.md
R274, R279). -/
def Obligations.FaultEntryWritesOnlyTheRecord : Prop :=
  ∀ (s : State) (c : Cause),
    s.enterFault c = { s with fseq := s.cseq, status := (s.enterFault c).status } ∧
    getFcode (s.enterFault c).status = c.code ∧ (s.enterFault c).flag .fault = true ∧ (s.enterFault c).flag .vfy = false ∧
    (∀ f : Flag, f ≠ .fault → f ≠ .vfy → (s.enterFault c).flag f = s.flag f) ∧
    (s.enterFault c).status &&& 0xFF00FE00#32 = s.status &&& 0xFF00FE00#32 ∧
    (s.enterFault c).faultLine = true

/-- A command either faults, with fault entry as its only effect, or completes and is counted once, with the fault record as it was
(60_exceptions.md R275, 10_state.md R31). -/
def Obligations.CommandsFaultPreciselyOrComplete : Prop :=
  ∀ (i : Instr) (s : State),
    (∃ c, exec i s = .next (s.enterFault c)) ∨
    (∃ t, exec i s = .next t ∧ t.cseq = s.cseq + 1 ∧ t.fseq = s.fseq ∧ t.flag .fault = s.flag .fault ∧
      getFcode t.status = getFcode s.status)

/-- No command raises a cause that the table does not list for it, and PTOA raises `NoInverse` under a composite `p` only
(60_exceptions.md R272). -/
def Obligations.CommandsRaiseOnlyListedCauses : Prop :=
  (∀ (i : Instr) (s : State) (c : Cause), exec i s = .next (s.enterFault c) → c ∈ i.causes) ∧
  (∀ (ad js : RegNo) (s : State), s.Inv → Nat.Prime s.fld0.m → exec (.ptoa ad js) s ≠ .next (s.enterFault .noInverse))

/-- The frame of every command that completes: it writes no register but its destination, which it does write; no flag but those
listed for it; no context, curve or generator unless it is the command that sets it up; and it appends to `DOUT` if it is a store
command and leaves it alone otherwise (10_state.md R24 to R35, 20_memory.md R58). -/
def Obligations.CompletedCommandsChangeOnlyWhatTheyName : Prop :=
  ∀ (i : Instr) (s t : State), exec i s = .next t → t.cseq = s.cseq + 1 →
    (∀ r, i.dest ≠ some r → t.sameReg s r) ∧ (∀ r, i.dest = some r → t.written r = true) ∧
    (∀ f, f ∉ i.flags → t.flag f = s.flag f) ∧ t.status &&& 0xFFFFFE00#32 = s.status &&& 0xFFFFFE00#32 ∧
    (∀ c, (∀ st m, i ≠ .fsetup c st m) → t.fld c = s.fld c) ∧
    ((∀ a b, i ≠ .csetup a b) → t.crv = s.crv) ∧ ((∀ q, i ≠ .gsetup q) → t.gen = s.gen) ∧
    (∃ bytes, t.dout = s.dout ++ bytes) ∧ (i.stores = false → t.dout = s.dout) ∧
    t.fseq = s.fseq ∧ t.cmdIn = s.cmdIn ∧ t.nmaxLog = s.nmaxLog

/-- A curve, point, generator or inner-product command other than IPASV, before CSETUP, faults `CurveNotReady`, and does so before any
register is read (42_curve.md, before R190; 70_reset_and_hazards.md R302; 60_exceptions.md R273). That IPASV does not is the model's
choice: log entry 25. -/
def Obligations.CurveCommandsNeedTheCurve : Prop :=
  ∀ (i : Instr) (s : State), i.needsCurve = true → i.inRange s.nmax → s.crv.ok = false →
    exec i s = .next (s.enterFault .curveNotReady)

/-- After reset no register is written, and reading an unwritten register faults `UnwrittenRegister`, code 2, before any check on what
registers hold and, for a command that needs the curve, after the check that it is set up (10_state.md R26, 60_exceptions.md R273). IPASV
with an unwritten source faults so before CSETUP too (44_ipa.md R251): that it does not need the curve is the model's choice, log
entry 25. -/
def Obligations.UnwrittenSourceFaults : Prop :=
  (∀ r, State.reset.written r = false) ∧ Cause.code .unwrittenRegister = 2 ∧
  ∀ (i : Instr) (s : State) (r : RegName), r ∈ i.sources → s.written r = false → i.inRange s.nmax →
    (i.needsCurve = true → s.crv.ok = true) → exec i s = .next (s.enterFault .unwrittenRegister)

/-- `VFY` is set to 1 only by an IPAVFY that found its proof valid, so it fails closed (10_state.md R33). -/
def Obligations.OnlyAValidProofSetsVfy : Prop :=
  ∀ s t : State, step s = .next t → t.flag .vfy = true → s.flag .vfy = true ∨
    ∃ gs hs au aP pf rest gsv hsv u P, decode s.cmdIn = .ok (.ipavfy gs hs au aP pf, rest) ∧
      s.g.get gs = some gsv ∧ s.g.get hs = some hsv ∧ s.a.get au = some u ∧ s.a.get aP = some P ∧
      gsv.length = 2 ^ pf.ls.length ∧ hsv.length = 2 ^ pf.ls.length ∧
      ipaVerify Config.hash256 s.curve gsv hsv u P (proofParse s.curve pf) = .ok true

/-! ## Reset and invariants -/

/-- The reset input gives the reset state from any state: nothing set up, every register unwritten, counters and `STATUS` 0, `DOUT`
empty; `NMAX` is a parameter and stays (10_state.md R37, 70_reset_and_hazards.md R300, R301). -/
def Obligations.ResetGivesTheResetTable : Prop :=
  ∀ s : State,
    (∀ c, ((s.hostMove .reset).fld c).ok = false) ∧ (s.hostMove .reset).crv.ok = false ∧ (s.hostMove .reset).gen.ok = false ∧
    (∀ r, (s.hostMove .reset).written r = false) ∧ (s.hostMove .reset).cseq = 0 ∧ (s.hostMove .reset).fseq = 0 ∧
    (s.hostMove .reset).status = 0 ∧ (s.hostMove .reset).dout = [] ∧ (s.hostMove .reset).nmax = s.nmax ∧
    State.reset.hostMove .reset = State.reset

/-- The reset state meets the invariant. -/
def Obligations.ResetMeetsTheInvariant : Prop := State.reset.Inv

/-- Every step keeps the invariant: contexts well formed, CRV and GEN standing only on what they need, every written register under a
context that is set up with canonical elements and at most `NMAX` of them, no `G` entry at infinity, the status word's reserved bits
0, its copies true and its fault record all or nothing. -/
def Obligations.StepKeepsTheInvariant : Prop :=
  ∀ s t : State, s.Inv → step s = .next t → t.Inv

/-- A context that is set up, and the curve once set up, never change again before reset: a second FSETUP or CSETUP faults `Reconfig`
(10_state.md R21, R22). -/
def Obligations.ConfigurationIsWrittenOnce : Prop :=
  (∀ s t : State, step s = .next t →
    (∀ c, (s.fld c).ok = true → t.fld c = s.fld c) ∧ (s.crv.ok = true → t.crv = s.crv)) ∧
  (∀ (s : State) (c : Ctx) (st : Strat) (m : Raw), (s.fld c).ok = true →
    exec (.fsetup c st m) s = .next (s.enterFault .reconfig)) ∧
  (∀ (s : State) (a b : Raw), s.fld0.ok = true → s.fld1.ok = true → s.crv.ok = true →
    exec (.csetup a b) s = .next (s.enterFault .reconfig))

/-! ## Strategies (41_field.md) -/

/-- One command in two states of the same values leads to two states of the same values, whatever the strategies of the two states and
whatever strategy an FSETUP names (41_field.md R147). -/
def Obligations.StrategiesAreInterchangeable : Prop :=
  ∀ (s t : State) (i i' : Instr), s.Inv → t.Inv → SameValues s t → SameButStrat i i' →
    ∃ s' t', exec i s = .next s' ∧ exec i' t = .next t' ∧ SameValues s' t'

/-- Two runs of one command stream from reset that differ only in the `strat` operands of their FSETUP commands end in the same
`DOUT`, `STATUS`, `CSEQ` and `FSEQ`, and in the same value in every register (41_field.md R147). -/
def Obligations.RunsAreBlindToStrategies : Prop :=
  ∀ is is' : List Instr, List.Forall₂ SameButStrat is is' →
    SameValues (runCommands is State.reset) (runCommands is' State.reset)

/-- Under Montgomery the value of a stored form is its reduction `REDC` (41_field.md R145). -/
def Obligations.MontgomeryValueIsRedc : Prop :=
  ∀ (f : FieldCtx) (x : Fe), f.WF → f.strat = .mont → f.Canon x → f.val x = f.redc x.toNat

/-- A command that is no store, FSETUP or CSETUP and whose destination is none of its sources gives the same state when executed twice
in a row, apart from `CSEQ` (20_memory.md R59; where destination and source are one register, 70_reset_and_hazards.md R304 decides:
log entry 17). -/
def Obligations.RepeatedCommandGivesTheSameState : Prop :=
  ∀ (i : Instr) (s t : State), exec i s = .next t → t.cseq = s.cseq + 1 → i.stores = false →
    (∀ c st m, i ≠ .fsetup c st m) → (∀ a b, i ≠ .csetup a b) → (∀ r, i.dest = some r → r ∉ i.sources) →
    exec i t = .next { t with cseq := t.cseq + 1 }

/-! ## Configuration and transfer (40_config_transfer.md) -/

/-- NOP only counts; STS appends the status word and the index of the STS itself, four bytes each, most significant first
(40_config_transfer.md R100, R103). -/
def Obligations.NopAndStsResults : Prop :=
  ∀ s : State,
    exec .nop s = .next { s with cseq := s.cseq + 1 } ∧
    exec .sts s = .next { s with dout := s.dout ++ (wordBytes s.status ++ wordBytes s.cseq), cseq := s.cseq + 1 }

/-- FSETUP writes the context, its constants and its flag, or faults `Reconfig`, then `BadModulus` (40_config_transfer.md R101,
41_field.md R141). -/
def Obligations.FsetupResult : Prop :=
  ∀ (s : State) (c : Ctx) (st : Strat) (m : Raw),
    ((s.fld c).ok = true → exec (.fsetup c st m) s = .next (s.enterFault .reconfig)) ∧
    ((s.fld c).ok = false → (m.toNat < 3 ∨ m.toNat % 2 = 0) → exec (.fsetup c st m) s = .next (s.enterFault .badModulus)) ∧
    ((s.fld c).ok = false → 3 ≤ m.toNat → m.toNat % 2 = 1 →
      ∃ f : FieldCtx, exec (.fsetup c st m) s =
          .next { s.putFld c f with status := s.statusWith (okFlag c) true, cseq := s.cseq + 1 } ∧
        f.ok = true ∧ f.mod = m ∧ f.strat = st ∧
        (st = .naive → f.montR = 0 ∧ f.montRinv = 0 ∧ f.montK = 0) ∧
        (st = .mont → f.montR.toNat = 2 ^ 256 % m.toNat ∧
          f.montRinv.toNat < m.toNat ∧ f.montR.toNat * f.montRinv.toNat % m.toNat = 1 ∧
          f.montK.toNat = (2 ^ 256 * f.montRinv.toNat - 1) / m.toNat ∧
          f.montK.toNat * m.toNat + 1 = 2 ^ 256 * f.montRinv.toNat))

/-- CSETUP stores the reduced coefficients and the fast-path flags, or faults `FieldNotReady`, then `Reconfig` (40_config_transfer.md
R102). -/
def Obligations.CsetupResult : Prop :=
  ∀ (s : State) (rawA rawB : Raw), s.Inv →
    ((s.fld0.ok = false ∨ s.fld1.ok = false) → exec (.csetup rawA rawB) s = .next (s.enterFault .fieldNotReady)) ∧
    (s.fld0.ok = true → s.fld1.ok = true → s.crv.ok = true → exec (.csetup rawA rawB) s = .next (s.enterFault .reconfig)) ∧
    (s.fld0.ok = true → s.fld1.ok = true → s.crv.ok = false →
      ∃ a b : Fe, exec (.csetup rawA rawB) s = .next { s with
          crv := { ok := true, a := a, b := b, azero := decide (rawA.toNat % s.fld0.m = 0),
                   bzero := decide (rawB.toNat % s.fld0.m = 0) },
          status := s.statusWith .curveok true, cseq := s.cseq + 1 } ∧
        s.fld0.Canon a ∧ s.fld0.Canon b ∧ s.fld0.val a = rawA.toNat % s.fld0.m ∧ s.fld0.val b = rawB.toNat % s.fld0.m)

/-- LDE reduces its raw value into a register; STE appends the canonical residue as 32 big-endian bytes (40_config_transfer.md R104,
R105; 20_memory.md R52). -/
def Obligations.LdeAndSteResults : Prop :=
  ∀ s : State, s.Inv →
    (∀ (ed : RegNo) (c : Ctx) (raw : Raw),
      ((s.fld c).ok = false → exec (.lde ed c raw) s = .next (s.enterFault .fieldNotReady)) ∧
      ((s.fld c).ok = true → ∃ r : Fe,
        exec (.lde ed c raw) s = .next { s with e := writeReg s.e ed ⟨c, r⟩, cseq := s.cseq + 1 } ∧
        (s.fld c).Canon r ∧ (s.fld c).val r = raw.toNat % (s.fld c).m)) ∧
    (∀ (es : RegNo) (x : Elem), s.e.get es = some x → ∃ bytes,
      exec (.ste es) s = .next { s with dout := s.dout ++ bytes, cseq := s.cseq + 1 } ∧
      bytes.length = 32 ∧ beInt bytes = s.valOf x ∧ s.valOf x < (s.fld x.ctx).m)

/-- LDA reduces both coordinates and never gives infinity; LDAINF gives infinity; STA appends both coordinates, and faults
`InfinityEncode` at infinity (40_config_transfer.md R106 to R108). -/
def Obligations.PointTransferResults : Prop :=
  ∀ s : State, s.Inv → s.crv.ok = true →
    (∀ (ad : RegNo) (q : RawPoint), ∃ x y : Fe,
      exec (.lda ad q) s = .next { s with a := writeReg s.a ad (.pt x y), cseq := s.cseq + 1 } ∧
      s.fld0.Canon x ∧ s.fld0.Canon y ∧ s.fld0.val x = q.x.toNat % s.fld0.m ∧ s.fld0.val y = q.y.toNat % s.fld0.m) ∧
    (∀ ad : RegNo, exec (.ldainf ad) s = .next { s with a := writeReg s.a ad .inf, cseq := s.cseq + 1 }) ∧
    (∀ (sa : RegNo) (x y : Fe), s.a.get sa = some (.pt x y) →
      exec (.sta sa) s =
        .next { s with dout := s.dout ++ (be32 (s.fld0.val x) ++ be32 (s.fld0.val y)), cseq := s.cseq + 1 }) ∧
    (∀ sa : RegNo, s.a.get sa = some .inf → exec (.sta sa) s = .next (s.enterFault .infinityEncode))

/-- LDV reduces `n` raw values into a vector, the empty one included; STV appends the elements, element 0 first, with no length
(40_config_transfer.md R109, R110). -/
def Obligations.VectorTransferResults : Prop :=
  ∀ s : State, s.Inv →
    (∀ (vd : RegNo) (c : Ctx) (raws : List Raw),
      (s.nmax < raws.length → exec (.ldv vd c raws) s = .next (s.enterFault .rangeError)) ∧
      (raws.length ≤ s.nmax → (s.fld c).ok = false → exec (.ldv vd c raws) s = .next (s.enterFault .fieldNotReady)) ∧
      (raws.length ≤ s.nmax → (s.fld c).ok = true → ∃ xs : List Fe,
        exec (.ldv vd c raws) s = .next { s with v := writeReg s.v vd ⟨c, xs⟩, cseq := s.cseq + 1 } ∧
        (∀ x ∈ xs, (s.fld c).Canon x) ∧ xs.map (s.fld c).val = raws.map (fun r => r.toNat % (s.fld c).m))) ∧
    (∀ (vs : RegNo) (x : FVec), s.v.get vs = some x →
      exec (.stv vs) s = .next { s with
        dout := s.dout ++ ((x.elems.map (s.fld x.ctx).val).map be32).flatten, cseq := s.cseq + 1 })

/-- LDG reduces `n` points into a generator vector; STG appends their coordinates, point 0 first, and faults `InfinityEncode` if a
point is infinity, which no reachable vector holds (40_config_transfer.md R111, R112). -/
def Obligations.GeneratorTransferResults : Prop :=
  ∀ s : State, s.crv.ok = true →
    (∀ (gd : RegNo) (qs : List RawPoint), s.Inv → qs.length ≤ s.nmax → ∃ ps : List Affine,
      exec (.ldg gd qs) s = .next { s with g := writeReg s.g gd ps, cseq := s.cseq + 1 } ∧ (∀ p ∈ ps, p.Canon s.fld0) ∧
      ps.map (Affine.vals s.fld0) = qs.map (fun q => some (q.x.toNat % s.fld0.m, q.y.toNat % s.fld0.m))) ∧
    (∀ (gd : RegNo) (qs : List RawPoint), s.nmax < qs.length → exec (.ldg gd qs) s = .next (s.enterFault .rangeError)) ∧
    (∀ (gs : RegNo) (xys : List (Fe × Fe)), s.g.get gs = some (xys.map fun xy => Affine.pt xy.1 xy.2) →
      exec (.stg gs) s = .next { s with
        dout := s.dout ++ (xys.map fun xy => be32 (s.fld0.val xy.1) ++ be32 (s.fld0.val xy.2)).flatten, cseq := s.cseq + 1 }) ∧
    (∀ (gs : RegNo) (qs : GVec), s.g.get gs = some qs → .inf ∈ qs → exec (.stg gs) s = .next (s.enterFault .infinityEncode))

/-- What is loaded is what is stored: a store right after the load of the same register appends the loaded values, each reduced
(20_memory.md R52, R53). -/
def Obligations.StoreAfterLoadEmitsReducedValues : Prop :=
  ∀ s : State, s.Inv →
    (∀ (r : RegNo) (c : Ctx) (raw : Raw), (s.fld c).ok = true → ∃ t u, exec (.lde r c raw) s = .next t ∧
      exec (.ste r) t = .next u ∧ u.dout = s.dout ++ be32 (raw.toNat % (s.fld c).m)) ∧
    (∀ (r : RegNo) (q : RawPoint), s.crv.ok = true → ∃ t u, exec (.lda r q) s = .next t ∧
      exec (.sta r) t = .next u ∧ u.dout = s.dout ++ (be32 (q.x.toNat % s.fld0.m) ++ be32 (q.y.toNat % s.fld0.m))) ∧
    (∀ (r : RegNo) (c : Ctx) (raws : List Raw), (s.fld c).ok = true → raws.length ≤ s.nmax →
      ∃ t u, exec (.ldv r c raws) s = .next t ∧ exec (.stv r) t = .next u ∧
        u.dout = s.dout ++ (raws.map fun raw => be32 (raw.toNat % (s.fld c).m)).flatten) ∧
    (∀ (r : RegNo) (qs : List RawPoint), s.crv.ok = true → qs.length ≤ s.nmax →
      ∃ t u, exec (.ldg r qs) s = .next t ∧ exec (.stg r) t = .next u ∧
        u.dout = s.dout ++ (qs.map fun q => be32 (q.x.toNat % s.fld0.m) ++ be32 (q.y.toNat % s.fld0.m)).flatten)

/-! ## Field unit (41_field.md) -/

/-- FADD, FSUB and FMUL compute modulo the modulus of the first source and keep its context; under different moduli they fault
`ModulusMismatch` (41_field.md R132, R133, R135, R149 to R152). -/
def Obligations.FaddFsubFmulResults : Prop :=
  ∀ (s : State) (ed es1 es2 : RegNo) (x y : Elem), s.Inv → s.e.get es1 = some x → s.e.get es2 = some y →
    ((s.fld x.ctx).mod = (s.fld y.ctx).mod →
      (∃ r : Fe, exec (.fadd ed es1 es2) s = .next { s with e := writeReg s.e ed ⟨x.ctx, r⟩, cseq := s.cseq + 1 } ∧
        (s.fld x.ctx).Canon r ∧ (s.fld x.ctx).val r = (s.valOf x + s.valOf y) % (s.fld x.ctx).m) ∧
      (∃ r : Fe, exec (.fsub ed es1 es2) s = .next { s with e := writeReg s.e ed ⟨x.ctx, r⟩, cseq := s.cseq + 1 } ∧
        (s.fld x.ctx).Canon r ∧
        (s.fld x.ctx).val r = (if s.valOf y ≤ s.valOf x then s.valOf x - s.valOf y else s.valOf x + (s.fld x.ctx).m - s.valOf y)) ∧
      (∃ r : Fe, exec (.fmul ed es1 es2) s = .next { s with e := writeReg s.e ed ⟨x.ctx, r⟩, cseq := s.cseq + 1 } ∧
        (s.fld x.ctx).Canon r ∧ (s.fld x.ctx).val r = s.valOf x * s.valOf y % (s.fld x.ctx).m)) ∧
    ((s.fld x.ctx).mod ≠ (s.fld y.ctx).mod →
      exec (.fadd ed es1 es2) s = .next (s.enterFault .modulusMismatch) ∧
      exec (.fsub ed es1 es2) s = .next (s.enterFault .modulusMismatch) ∧
      exec (.fmul ed es1 es2) s = .next (s.enterFault .modulusMismatch))

/-- FNEG gives `m - a`, and 0 for 0; FMOV copies context and value (41_field.md R134, R153, R159). -/
def Obligations.FnegAndFmovResults : Prop :=
  ∀ (s : State) (ed es : RegNo) (x : Elem), s.Inv → s.e.get es = some x →
    (∃ r : Fe, exec (.fneg ed es) s = .next { s with e := writeReg s.e ed ⟨x.ctx, r⟩, cseq := s.cseq + 1 } ∧
      (s.fld x.ctx).Canon r ∧ (s.fld x.ctx).val r = if s.valOf x = 0 then 0 else (s.fld x.ctx).m - s.valOf x) ∧
    exec (.fmov ed es) s = .next { s with e := writeReg s.e ed x, cseq := s.cseq + 1 }

/-- FINV gives the inverse of a unit and faults `NoInverse` on anything else, for a prime modulus on 0 alone (41_field.md R137). -/
def Obligations.FinvResult : Prop :=
  ∀ (s : State) (ed es : RegNo) (x : Elem), s.Inv → s.e.get es = some x →
    (Nat.gcd (s.valOf x) (s.fld x.ctx).m = 1 → ∃ r : Fe,
      exec (.finv ed es) s = .next { s with e := writeReg s.e ed ⟨x.ctx, r⟩, cseq := s.cseq + 1 } ∧
      (s.fld x.ctx).Canon r ∧ s.valOf x * (s.fld x.ctx).val r % (s.fld x.ctx).m = 1) ∧
    (Nat.gcd (s.valOf x) (s.fld x.ctx).m ≠ 1 → exec (.finv ed es) s = .next (s.enterFault .noInverse)) ∧
    (Nat.Prime (s.fld x.ctx).m → (exec (.finv ed es) s = .next (s.enterFault .noInverse) ↔ s.valOf x = 0))

/-- FPOW and FPOWW give the power, with an exponent that is not reduced; the power 0 of 0 is 1 (41_field.md R138, R155, R156). -/
def Obligations.FpowAndFpowwResults : Prop :=
  ∀ (s : State) (ed es : RegNo) (expo : Raw) (x : Elem), s.Inv → s.e.get es = some x →
    (∃ r : Fe, exec (.fpow ed es expo) s = .next { s with e := writeReg s.e ed ⟨x.ctx, r⟩, cseq := s.cseq + 1 } ∧
      (s.fld x.ctx).Canon r ∧ (s.fld x.ctx).val r = s.valOf x ^ expo.toNat % (s.fld x.ctx).m) ∧
    (∃ r : Fe, exec (.fpoww ed es expo) s = .next { s with e := writeReg s.e ed ⟨x.ctx, r⟩, cseq := s.cseq + 1 } ∧
      (s.fld x.ctx).Canon r ∧ (s.fld x.ctx).val r = s.valOf x ^ expo.toNat % (s.fld x.ctx).m)

/-- The windowed exponentiation yields the result of the bit-serial one for every operand and exponent (41_field.md R139, R156). -/
def Obligations.WindowedPowerEqualsBitSerial : Prop :=
  (∀ (f : FieldCtx) (a : Fe) (e : Nat), f.WF → f.Canon a → e < 2 ^ 256 → f.poww a e = f.pow a e) ∧
  (∀ (s : State) (ed es : RegNo) (expo : Raw), s.Inv → exec (.fpoww ed es expo) s = exec (.fpow ed es expo) s)

/-- FSQRT writes the candidate root `a^((m+1)/4)` and in `SQOK` whether it squares back; under a modulus that is not 3 mod 4 it faults
`SqrtUnimplemented` for every operand (41_field.md R140, R157). -/
def Obligations.FsqrtResult : Prop :=
  ∀ (s : State) (ed es : RegNo) (x : Elem), s.Inv → s.e.get es = some x →
    ((s.fld x.ctx).m % 4 = 3 → ∃ r : Fe,
      exec (.fsqrt ed es) s = .next { s with
        e := writeReg s.e ed ⟨x.ctx, r⟩,
        status := s.statusWith .sqok (decide ((s.fld x.ctx).val r * (s.fld x.ctx).val r % (s.fld x.ctx).m = s.valOf x)),
        cseq := s.cseq + 1 } ∧
      (s.fld x.ctx).Canon r ∧ (s.fld x.ctx).val r = s.valOf x ^ (((s.fld x.ctx).m + 1) / 4) % (s.fld x.ctx).m) ∧
    ((s.fld x.ctx).m % 4 ≠ 3 → exec (.fsqrt ed es) s = .next (s.enterFault .sqrtUnimplemented))

/-- FEQ compares values under equal moduli and faults `ModulusMismatch` otherwise (41_field.md R158). -/
def Obligations.FeqResult : Prop :=
  ∀ (s : State) (es1 es2 : RegNo) (x y : Elem), s.e.get es1 = some x → s.e.get es2 = some y →
    ((s.fld x.ctx).mod = (s.fld y.ctx).mod →
      exec (.feq es1 es2) s =
        .next { s with status := s.statusWith .eq (decide (s.valOf x = s.valOf y)), cseq := s.cseq + 1 }) ∧
    ((s.fld x.ctx).mod ≠ (s.fld y.ctx).mod → exec (.feq es1 es2) s = .next (s.enterFault .modulusMismatch))

/-! ## Curve unit (42_curve.md) -/

/-- PCHK writes whether the point satisfies the curve equation, false for infinity; PEQ writes whether two points have the same values
(42_curve.md R173, R174, R190, R198). -/
def Obligations.PchkAndPeqResults : Prop :=
  ∀ s : State, s.Inv → s.crv.ok = true →
    (∀ (sa : RegNo) (Q : Affine), s.a.get sa = some Q → ∃ b : Bool,
      exec (.pchk sa) s = .next { s with status := s.statusWith .onc b, cseq := s.cseq + 1 } ∧
      (b = true ↔ Values.oncurve s.curve.vals (Q.vals s.fld0))) ∧
    (∀ (sa1 sa2 : RegNo) (Q1 Q2 : Affine), s.a.get sa1 = some Q1 → s.a.get sa2 = some Q2 →
      exec (.peq sa1 sa2) s =
        .next { s with status := s.statusWith .eq (decide (Q1.vals s.fld0 = Q2.vals s.fld0)), cseq := s.cseq + 1 })

/-- PTOJ embeds a point with `Z = 1`; PTOA divides by the powers of `Z`, gives infinity for `Z = 0`, and faults `NoInverse` when `Z` is
no unit; PTOA after PTOJ gives every affine point back (42_curve.md R171, R172, R191, R192). -/
def Obligations.PtojAndPtoaResults : Prop :=
  ∀ s : State, s.Inv → s.crv.ok = true →
    (∀ (jd sa : RegNo) (Q : Affine), s.a.get sa = some Q → ∃ P : Jac,
      exec (.ptoj jd sa) s = .next { s with j := writeReg s.j jd P, cseq := s.cseq + 1 } ∧ P.Canon s.fld0 ∧
      P.vals s.fld0 = Values.toJ (Q.vals s.fld0)) ∧
    (∀ (ad js : RegNo) (P : Jac), s.j.get js = some P →
      (P.Z = 0 → exec (.ptoa ad js) s = .next { s with a := writeReg s.a ad .inf, cseq := s.cseq + 1 }) ∧
      (P.Z ≠ 0 → Nat.gcd (s.fld0.val P.Z) s.fld0.m = 1 → ∃ (x y : Fe) (zi : Nat),
        exec (.ptoa ad js) s = .next { s with a := writeReg s.a ad (.pt x y), cseq := s.cseq + 1 } ∧
        s.fld0.Canon x ∧ s.fld0.Canon y ∧ zi < s.fld0.m ∧ s.fld0.val P.Z * zi % s.fld0.m = 1 ∧
        s.fld0.val x = s.fld0.val P.X * zi ^ 2 % s.fld0.m ∧ s.fld0.val y = s.fld0.val P.Y * zi ^ 3 % s.fld0.m) ∧
      (P.Z ≠ 0 → Nat.gcd (s.fld0.val P.Z) s.fld0.m ≠ 1 → exec (.ptoa ad js) s = .next (s.enterFault .noInverse))) ∧
    (∀ (jd sa ad : RegNo) (Q : Affine), s.a.get sa = some Q →
      ∃ t u, exec (.ptoj jd sa) s = .next t ∧ exec (.ptoa ad jd) t = .next u ∧ u.a.get ad = some Q)

/-- PNEG negates `Y`; PDBL evaluates the doubling formulas, with infinity for infinity (42_curve.md R175, R176, R195, R196). -/
def Obligations.PnegAndPdblResults : Prop :=
  ∀ (s : State) (jd js : RegNo) (P : Jac), s.Inv → s.crv.ok = true → s.j.get js = some P →
    (∃ R : Jac, exec (.pneg jd js) s = .next { s with j := writeReg s.j jd R, cseq := s.cseq + 1 } ∧ R.Canon s.fld0 ∧
      R.vals s.fld0 = Values.pneg s.curve.vals (P.vals s.fld0)) ∧
    (∃ R : Jac, exec (.pdbl jd js) s = .next { s with j := writeReg s.j jd R, cseq := s.cseq + 1 } ∧ R.Canon s.fld0 ∧
      R.vals s.fld0 = Values.pdbl s.curve.vals (P.vals s.fld0))

/-- PADD and PMADD evaluate the addition formulas with all their special cases, on the curve or not; PMADD gives the very triple that
PADD gives for the embedded point, unless both operands are infinity, where PMADD keeps its first operand and PADD gives the second
(42_curve.md R177, R178, R193, R194; log entry 24). -/
def Obligations.PaddAndPmaddResults : Prop :=
  ∀ (s : State) (jd js1 : RegNo) (P : Jac), s.Inv → s.crv.ok = true → s.j.get js1 = some P →
    (∀ (js2 : RegNo) (Q : Jac), s.j.get js2 = some Q → ∃ R : Jac,
      exec (.padd jd js1 js2) s = .next { s with j := writeReg s.j jd R, cseq := s.cseq + 1 } ∧ R.Canon s.fld0 ∧
      R.vals s.fld0 = Values.padd s.curve.vals (P.vals s.fld0) (Q.vals s.fld0)) ∧
    (∀ (sa2 : RegNo) (Q : Affine), s.a.get sa2 = some Q → ∃ R : Jac,
      exec (.pmadd jd js1 sa2) s = .next { s with j := writeReg s.j jd R, cseq := s.cseq + 1 } ∧ R.Canon s.fld0 ∧
      R.vals s.fld0 = Values.pmadd s.curve.vals (P.vals s.fld0) (Q.vals s.fld0) ∧
      (P.Z ≠ 0 ∨ Q ≠ .inf → R.vals s.fld0 = Values.padd s.curve.vals (P.vals s.fld0) (Values.toJ (Q.vals s.fld0))))

/-- The recoding `wnaf(k)` spells `k` in at most 257 signed digits; every non-zero digit is odd, at most 15 in size, and followed by at
least four zeros (42_curve.md R183). -/
def Obligations.WnafSpellsTheScalar : Prop :=
  wnaf 0 = [] ∧
  ∀ k : Nat, k < 2 ^ 256 →
    (wnaf k).foldr (fun t acc => t + 2 * acc) 0 = (k : Int) ∧ (wnaf k).length ≤ 257 ∧
    ∀ (i : Nat) (t : Int), (wnaf k)[i]? = some t → t ≠ 0 →
      t % 2 = 1 ∧ -15 ≤ t ∧ t ≤ 15 ∧ ∀ j, i < j → j ≤ i + 4 → (wnaf k).getD j 0 = 0

/-- PMUL reduces the scalar's value modulo `q`, whatever its context, and scans its digits; 0 and infinity give infinity, 1 gives the
point itself, 2 its double (42_curve.md R184, R185, R197). -/
def Obligations.PmulResult : Prop :=
  ∀ (s : State) (jd es js : RegNo) (k : Elem) (P : Jac), s.Inv → s.crv.ok = true → s.e.get es = some k → s.j.get js = some P →
    ∃ R : Jac, exec (.pmul jd es js) s = .next { s with j := writeReg s.j jd R, cseq := s.cseq + 1 } ∧ R.Canon s.fld0 ∧
      R.vals s.fld0 = Values.pmul s.curve.vals (s.valOf k) (P.vals s.fld0) ∧
      (s.valOf k % s.fld1.m = 0 ∨ P.Z = 0 → R.vals s.fld0 = Values.infJ) ∧
      (s.valOf k % s.fld1.m = 1 → P.Z ≠ 0 → R = P) ∧
      (s.valOf k % s.fld1.m = 2 → P.Z ≠ 0 → R.vals s.fld0 = Values.pdbl s.curve.vals (P.vals s.fld0))

/-- Over a prime field, on a curve with `4A^3 + 27B^2` not 0, the functions of the curve unit are the group: the affine images of
`padd`, `pmadd`, `pdbl`, `pneg` and `pmul_raw` stand for the sum, the double, the inverse and the multiple, and every point that
satisfies the equation stands for a group element (42_curve.md R186). -/
def Obligations.CurveFunctionsAreTheGroup : Prop :=
  ∀ (c : Curve) [Fact (Nat.Prime c.fp.m)], c.WF → 4 * c.fp.toZ c.crv.a ^ 3 + 27 * c.fp.toZ c.crv.b ^ 2 ≠ 0 →
    (∀ Q : Affine, Q.Canon c.fp → c.oncurve Q = true → ∃ pt, c.StandsFor Q pt ∧ c.JacStandsFor (c.toJ Q) pt) ∧
    ∀ (P : Jac) (pt : c.weierstrass.Point), P.Canon c.fp → c.JacStandsFor P pt →
      c.JacStandsFor (c.pdbl P) (pt + pt) ∧ c.JacStandsFor (c.pneg P) (-pt) ∧
      (∀ k : Nat, k < 2 ^ 256 → c.JacStandsFor (c.pmulRaw k P) (k • pt)) ∧
      (∀ (P' : Jac) (pt' : c.weierstrass.Point), P'.Canon c.fp → c.JacStandsFor P' pt' →
        c.JacStandsFor (c.padd P P') (pt + pt')) ∧
      (∀ (Q : Affine) (pt' : c.weierstrass.Point), Q.Canon c.fp → c.StandsFor Q pt' →
        c.JacStandsFor (c.pmadd P Q) (pt + pt'))

/-- GSETUP stores the reduced point if it is on the curve and the unreduced order times it is infinity, and otherwise drops the stored
generator, without a fault; AGEN copies the generator and faults `NoGenerator` when there is none (42_curve.md R199, R200). -/
def Obligations.GsetupAndAgenResults : Prop :=
  ∀ s : State, s.Inv → s.crv.ok = true →
    (∀ q : RawPoint, ∃ (x y : Fe) (b : Bool),
      exec (.gsetup q) s = .next { s with
        gen := if b then { ok := true, x := x, y := y } else { s.gen with ok := false },
        status := s.statusWith .genok b, cseq := s.cseq + 1 } ∧
      s.fld0.Canon x ∧ s.fld0.Canon y ∧ s.fld0.val x = q.x.toNat % s.fld0.m ∧ s.fld0.val y = q.y.toNat % s.fld0.m ∧
      (b = true ↔ Values.oncurve s.curve.vals (some (s.fld0.val x, s.fld0.val y)) ∧
        (Values.pmulRaw s.curve.vals s.fld1.m ⟨s.fld0.val x, s.fld0.val y, 1⟩).Z = 0)) ∧
    (∀ ad : RegNo,
      (s.gen.ok = true →
        exec (.agen ad) s = .next { s with a := writeReg s.a ad (.pt s.gen.x s.gen.y), cseq := s.cseq + 1 }) ∧
      (s.gen.ok = false → exec (.agen ad) s = .next (s.enterFault .noGenerator)))

/-! ## Vector unit (43_vector.md) -/

/-- VADD, VSUB and VHAD are pointwise in the first source's context; they fault `ModulusMismatch`, then `LengthMismatch`
(43_vector.md R211, R212, R223 to R225). -/
def Obligations.VaddVsubVhadResults : Prop :=
  ∀ (s : State) (vd vs1 vs2 : RegNo) (x y : FVec), s.Inv → s.v.get vs1 = some x → s.v.get vs2 = some y →
    ((s.fld x.ctx).mod ≠ (s.fld y.ctx).mod → ∀ i ∈ [Instr.vadd vd vs1 vs2, .vsub vd vs1 vs2, .vhad vd vs1 vs2],
      exec i s = .next (s.enterFault .modulusMismatch)) ∧
    ((s.fld x.ctx).mod = (s.fld y.ctx).mod → x.elems.length ≠ y.elems.length →
      ∀ i ∈ [Instr.vadd vd vs1 vs2, .vsub vd vs1 vs2, .vhad vd vs1 vs2], exec i s = .next (s.enterFault .lengthMismatch)) ∧
    ((s.fld x.ctx).mod = (s.fld y.ctx).mod → x.elems.length = y.elems.length →
      ∀ p ∈ [(Instr.vadd vd vs1 vs2, Values.fadd), (.vsub vd vs1 vs2, Values.fsub), (.vhad vd vs1 vs2, Values.fmul)],
        ∃ rs : List Fe, exec p.1 s = .next { s with v := writeReg s.v vd ⟨x.ctx, rs⟩, cseq := s.cseq + 1 } ∧
          (∀ r ∈ rs, (s.fld x.ctx).Canon r) ∧
          rs.map (s.fld x.ctx).val =
            List.zipWith (p.2 (s.fld x.ctx).m) (x.elems.map (s.fld x.ctx).val) (y.elems.map (s.fld y.ctx).val))

/-- VSCL multiplies every element by the scalar; VIP gives the sum of the products modulo `m`, 0 for empty vectors; each faults on
different moduli, VIP also on different lengths (43_vector.md R212, R213, R226, R227). -/
def Obligations.VsclAndVipResults : Prop :=
  ∀ (s : State) (vs1 : RegNo) (x : FVec), s.Inv → s.v.get vs1 = some x →
    (∀ (vd es : RegNo) (k : Elem), s.e.get es = some k →
      ((s.fld x.ctx).mod ≠ (s.fld k.ctx).mod → exec (.vscl vd vs1 es) s = .next (s.enterFault .modulusMismatch)) ∧
      ((s.fld x.ctx).mod = (s.fld k.ctx).mod → ∃ rs : List Fe,
        exec (.vscl vd vs1 es) s = .next { s with v := writeReg s.v vd ⟨x.ctx, rs⟩, cseq := s.cseq + 1 } ∧
        (∀ r ∈ rs, (s.fld x.ctx).Canon r) ∧
        rs.map (s.fld x.ctx).val = x.elems.map (fun a => s.valOf k * (s.fld x.ctx).val a % (s.fld x.ctx).m))) ∧
    (∀ (ed vs2 : RegNo) (y : FVec), s.v.get vs2 = some y →
      ((s.fld x.ctx).mod ≠ (s.fld y.ctx).mod → exec (.vip ed vs1 vs2) s = .next (s.enterFault .modulusMismatch)) ∧
      ((s.fld x.ctx).mod = (s.fld y.ctx).mod → x.elems.length ≠ y.elems.length →
        exec (.vip ed vs1 vs2) s = .next (s.enterFault .lengthMismatch)) ∧
      ((s.fld x.ctx).mod = (s.fld y.ctx).mod → x.elems.length = y.elems.length → ∃ r : Fe,
        exec (.vip ed vs1 vs2) s = .next { s with e := writeReg s.e ed ⟨x.ctx, r⟩, cseq := s.cseq + 1 } ∧
        (s.fld x.ctx).Canon r ∧ (s.fld x.ctx).val r =
          Values.vip (s.fld x.ctx).m (x.elems.map (s.fld x.ctx).val) (y.elems.map (s.fld y.ctx).val)))

/-- VSLICE copies a subrange and VGET one element, each faulting `RangeError` past the end; VREV reverses (43_vector.md R215, R216,
R228, R230, R231). -/
def Obligations.VsliceVgetVrevResults : Prop :=
  ∀ (s : State) (vs : RegNo) (x : FVec), s.v.get vs = some x →
    (∀ (vd : RegNo) (start len : Fin 65536),
      (start.val + len.val ≤ x.elems.length → ∃ rs : List Fe,
        exec (.vslice vd vs start len) s = .next { s with v := writeReg s.v vd ⟨x.ctx, rs⟩, cseq := s.cseq + 1 } ∧
        rs.length = len.val ∧ ∀ i, i < len.val → rs[i]? = x.elems[start.val + i]?) ∧
      (x.elems.length < start.val + len.val → exec (.vslice vd vs start len) s = .next (s.enterFault .rangeError))) ∧
    (∀ (ed : RegNo) (idx : Fin 4096),
      (∀ y, x.elems[idx.val]? = some y →
        exec (.vget ed vs idx) s = .next { s with e := writeReg s.e ed ⟨x.ctx, y⟩, cseq := s.cseq + 1 }) ∧
      (x.elems.length ≤ idx.val → exec (.vget ed vs idx) s = .next (s.enterFault .rangeError))) ∧
    (∀ vd : RegNo, ∃ rs : List Fe,
      exec (.vrev vd vs) s = .next { s with v := writeReg s.v vd ⟨x.ctx, rs⟩, cseq := s.cseq + 1 } ∧
      rs.length = x.elems.length ∧ ∀ i, i < x.elems.length → rs[i]? = x.elems[x.elems.length - 1 - i]?)

/-- VPOW gives the powers of a scalar from the power 0 on, and faults `RangeError` for more than `NMAX` of them (43_vector.md R214,
R229). -/
def Obligations.VpowResult : Prop :=
  ∀ (s : State) (vd es : RegNo) (n : Fin 4096) (k : Elem), s.Inv → s.e.get es = some k →
    (n.val ≤ s.nmax → ∃ rs : List Fe,
      exec (.vpow vd es n) s = .next { s with v := writeReg s.v vd ⟨k.ctx, rs⟩, cseq := s.cseq + 1 } ∧
      (∀ r ∈ rs, (s.fld k.ctx).Canon r) ∧
      rs.map (s.fld k.ctx).val = (List.range n.val).map (fun i => s.valOf k ^ i % (s.fld k.ctx).m)) ∧
    (s.nmax < n.val → exec (.vpow vd es n) s = .next (s.enterFault .rangeError))

/-- GMSM gives the linear combination of points and scalars and faults `LengthMismatch`; GSLICE copies a subrange and GGET one point,
each faulting `RangeError` past the end (43_vector.md R222, R232 to R234). -/
def Obligations.GmsmGsliceGgetResults : Prop :=
  ∀ (s : State) (gs : RegNo) (qs : GVec), s.Inv → s.crv.ok = true → s.g.get gs = some qs →
    (∀ (jd vs : RegNo) (x : FVec), s.v.get vs = some x →
      (qs.length = x.elems.length → ∃ R : Jac,
        exec (.gmsm jd gs vs) s = .next { s with j := writeReg s.j jd R, cseq := s.cseq + 1 } ∧ R.Canon s.fld0 ∧
        R.vals s.fld0 = Values.msm s.curve.vals (qs.map (Affine.vals s.fld0)) (x.elems.map (s.fld x.ctx).val)) ∧
      (qs.length ≠ x.elems.length → exec (.gmsm jd gs vs) s = .next (s.enterFault .lengthMismatch))) ∧
    (∀ (gd : RegNo) (start len : Fin 65536),
      (start.val + len.val ≤ qs.length → ∃ rs : List Affine,
        exec (.gslice gd gs start len) s = .next { s with g := writeReg s.g gd rs, cseq := s.cseq + 1 } ∧
        rs.length = len.val ∧ ∀ i, i < len.val → rs[i]? = qs[start.val + i]?) ∧
      (qs.length < start.val + len.val → exec (.gslice gd gs start len) s = .next (s.enterFault .rangeError))) ∧
    (∀ (ad : RegNo) (idx : Fin 4096),
      (∀ q, qs[idx.val]? = some q →
        exec (.gget ad gs idx) s = .next { s with a := writeReg s.a ad q, cseq := s.cseq + 1 }) ∧
      (qs.length ≤ idx.val → exec (.gget ad gs idx) s = .next (s.enterFault .rangeError)))

/-! ## Inner-product unit (44_ipa.md) -/

/-- IPACH gives, in the order field, the hash of the three points' 192 bytes read as a big-endian natural modulo `q`; a point at
infinity faults `InfinityEncode` (44_ipa.md R241, R242, R250). -/
def Obligations.IpachResult : Prop :=
  ∀ (s : State) (ed aL aC aR : RegNo) (L C R : Affine), s.Inv → s.crv.ok = true →
    s.a.get aL = some L → s.a.get aC = some C → s.a.get aR = some R →
    ((L = .inf ∨ C = .inf ∨ R = .inf) → exec (.ipach ed aL aC aR) s = .next (s.enterFault .infinityEncode)) ∧
    (∀ xL yL xC yC xR yR, L = .pt xL yL → C = .pt xC yC → R = .pt xR yR → ∃ r : Fe,
      exec (.ipach ed aL aC aR) s = .next { s with e := writeReg s.e ed ⟨.order, r⟩, cseq := s.cseq + 1 } ∧
      s.fld1.Canon r ∧
      s.fld1.val r = beInt (Config.hash256 (([xL, yL, xC, yC, xR, yR].map s.fld0.val).map be32).flatten).toList % s.fld1.m)

/-- IPASV gives the `2^k` coefficients of `k` challenges: entry 0 is the inverse of their product, and every other entry is a lower one
times the square of one challenge; it faults `RangeError` above `NMAX` entries and `NoInverse` when the product is no unit
(44_ipa.md R243, R251). It says so before CSETUP too: that IPASV needs no curve is the model's choice, log entry 25. -/
def Obligations.IpasvResult : Prop :=
  ∀ (s : State) (vd vs : RegNo) (x : FVec), s.Inv → s.v.get vs = some x →
    let m := (s.fld x.ctx).m
    let ch := x.elems.map (s.fld x.ctx).val
    let k := ch.length
    (s.nmax < 2 ^ k → exec (.ipasv vd vs) s = .next (s.enterFault .rangeError)) ∧
    (2 ^ k ≤ s.nmax → Nat.gcd ch.prod m ≠ 1 → exec (.ipasv vd vs) s = .next (s.enterFault .noInverse)) ∧
    (2 ^ k ≤ s.nmax → Nat.gcd ch.prod m = 1 → ∃ rs : List Fe,
      exec (.ipasv vd vs) s = .next { s with v := writeReg s.v vd ⟨x.ctx, rs⟩, cseq := s.cseq + 1 } ∧
      rs.length = 2 ^ k ∧ (∀ r ∈ rs, (s.fld x.ctx).Canon r) ∧
      (s.fld x.ctx).val (rs.getD 0 0) * ch.prod % m = 1 ∧
      ∀ j, 1 ≤ j → j < 2 ^ k →
        (s.fld x.ctx).val (rs.getD j 0) =
          (s.fld x.ctx).val (rs.getD (j - 2 ^ Nat.log2 j) 0) * ch.getD (k - 1 - Nat.log2 j) 0 ^ 2 % m)

/-- IPAVFY writes the verifier's answer to `VFY`, faults where the verifier faults, and before it faults `LengthMismatch`,
`NotPowerOfTwo`, `LengthMismatch` in this order; with no rounds the answer is whether `P = a*g + b*h + (a*b)*u` (44_ipa.md R245,
R252). -/
def Obligations.IpavfyResult : Prop :=
  ∀ (s : State) (gs hs au aP : RegNo) (pf : RawProof) (gsv hsv : GVec) (u P : Affine), s.Inv → s.crv.ok = true →
    2 ^ pf.ls.length ≤ s.nmax →
    s.g.get gs = some gsv → s.g.get hs = some hsv → s.a.get au = some u → s.a.get aP = some P →
    (gsv.length ≠ hsv.length → exec (.ipavfy gs hs au aP pf) s = .next (s.enterFault .lengthMismatch)) ∧
    (gsv.length = hsv.length → (∀ k, gsv.length ≠ 2 ^ k) →
      exec (.ipavfy gs hs au aP pf) s = .next (s.enterFault .notPowerOfTwo)) ∧
    (∀ k, gsv.length = 2 ^ k → hsv.length = 2 ^ k → k ≠ pf.ls.length →
      exec (.ipavfy gs hs au aP pf) s = .next (s.enterFault .lengthMismatch)) ∧
    (gsv.length = 2 ^ pf.ls.length → hsv.length = 2 ^ pf.ls.length →
      (∀ b, ipaVerify Config.hash256 s.curve gsv hsv u P (proofParse s.curve pf) = .ok b →
        exec (.ipavfy gs hs au aP pf) s = .next { s with status := s.statusWith .vfy b, cseq := s.cseq + 1 }) ∧
      (∀ c, ipaVerify Config.hash256 s.curve gsv hsv u P (proofParse s.curve pf) = .error c →
        exec (.ipavfy gs hs au aP pf) s = .next (s.enterFault c))) ∧
    (∀ g h : Affine, Nat.Prime s.fld0.m → gsv = [g] → hsv = [h] → pf.ls = [] → pf.rs = [] → ∃ Q,
      exec (.ipavfy gs hs au aP pf) s =
        .next { s with status := s.statusWith .vfy (decide (Q = P)), cseq := s.cseq + 1 } ∧
      s.curve.toA (s.curve.padd (s.curve.padd
          (s.curve.pmul (pf.a.toNat % s.fld1.m) (s.curve.msm [g] [1])) (s.curve.pmul (pf.b.toNat % s.fld1.m) (s.curve.msm [h] [1])))
        (s.curve.pmul (pf.a.toNat * pf.b.toNat % s.fld1.m) (s.curve.toJ u))) = .ok Q)

/-- IPAPRV appends the bytes of the proof that the prover's rounds give, `128k + 64` of them, and writes no register and no flag; a base
of one point gives the 64 bytes of the two witness values; its checks come in the rule's order (44_ipa.md R247, R248, R253). -/
def Obligations.IpaprvResult : Prop :=
  ∀ (s : State) (gs hs au aP va vb : RegNo) (gsv hsv : GVec) (u P : Affine) (a b : FVec), s.Inv → s.crv.ok = true →
    s.g.get gs = some gsv → s.g.get hs = some hsv → s.a.get au = some u → s.a.get aP = some P →
    s.v.get va = some a → s.v.get vb = some b →
    ((s.fld a.ctx).mod ≠ s.fld1.mod ∨ (s.fld b.ctx).mod ≠ s.fld1.mod →
      exec (.ipaprv gs hs au aP va vb) s = .next (s.enterFault .modulusMismatch)) ∧
    ((s.fld a.ctx).mod = s.fld1.mod → (s.fld b.ctx).mod = s.fld1.mod →
      (¬ (gsv.length = hsv.length ∧ gsv.length = a.elems.length ∧ gsv.length = b.elems.length) →
        exec (.ipaprv gs hs au aP va vb) s = .next (s.enterFault .lengthMismatch)) ∧
      (gsv.length = hsv.length → gsv.length = a.elems.length → gsv.length = b.elems.length →
        ((∀ k, gsv.length ≠ 2 ^ k) → exec (.ipaprv gs hs au aP va vb) s = .next (s.enterFault .notPowerOfTwo)) ∧
        (∀ k, gsv.length = 2 ^ k →
          ∃ as bs : List Fe, as.map s.fld1.val = a.elems.map (s.fld a.ctx).val ∧ bs.map s.fld1.val = b.elems.map (s.fld b.ctx).val ∧
            (∀ c, ipaProve Config.hash256 s.curve u k { gs := gsv, hs := hsv, a := as, b := bs, P := P } = .error c →
              exec (.ipaprv gs hs au aP va vb) s = .next (s.enterFault c)) ∧
            (∀ pf, ipaProve Config.hash256 s.curve u k { gs := gsv, hs := hsv, a := as, b := bs, P := P } = .ok pf →
              ∃ bytes, proofBytes s.curve pf = .ok bytes ∧ bytes.length = 128 * k + 64 ∧
                exec (.ipaprv gs hs au aP va vb) s = .next { s with dout := s.dout ++ bytes, cseq := s.cseq + 1 })) ∧
        (gsv.length = 1 → exec (.ipaprv gs hs au aP va vb) s = .next { s with
          dout := s.dout ++ (be32 ((s.fld a.ctx).val (a.elems.getD 0 0)) ++ be32 ((s.fld b.ctx).val (b.elems.getD 0 0))),
          cseq := s.cseq + 1 })))

/-- The prover's new commitment in a round is the affine image of the verifier's running commitment for that round's two points, and
both derive the same challenge (44_ipa.md R244, R246). -/
def Obligations.ProverRoundIsTheVerifierRound : Prop :=
  ∀ (H : Hash) (c : Curve) (u : Affine) (h : Nat) (st st' : ProverState) (L R : Affine), c.WF → st.P.Canon c.fp →
    proveRound H c u h st = .ok (L, R, st') →
    ∃ C x, chal H c L st.P R = .ok x ∧ ipaRound H c (c.toJ st.P) L R = .ok (C, x) ∧ c.toA C = .ok st'.P ∧
      st'.a = foldWitness c.fq x (c.fq.enc (modinv (c.fq.val x) c.fq.m)) (slice st.a 0 h) (slice st.a h h) ∧
      st'.b = foldWitness c.fq (c.fq.enc (modinv (c.fq.val x) c.fq.m)) x (slice st.b 0 h) (slice st.b h h)

/-- Completeness of the argument, for every hash: over a prime field, on a nonsingular curve, with base points on the curve of order
dividing `q`, and with `P` the commitment of the two witness vectors and their inner product, whatever IPAPRV emits is a proof that
IPAVFY, given those bytes as its payload, finds valid (44_ipa.md R249). -/
def Obligations.EmittedProofVerifies : Prop :=
  ∀ (H : Hash) (s t : State) (gs hs au aP va vb : RegNo) (gsv hsv : GVec) (u P : Affine) (a b : FVec),
    s.Inv → s.crv.ok = true → Nat.Prime s.fld0.m → 4 * s.fld0.toZ s.crv.a ^ 3 + 27 * s.fld0.toZ s.crv.b ^ 2 ≠ 0 →
    s.g.get gs = some gsv → s.g.get hs = some hsv → s.a.get au = some u → s.a.get aP = some P →
    s.v.get va = some a → s.v.get vb = some b →
    (∀ Q ∈ u :: (gsv ++ hsv), s.curve.generatorOk Q = true) →
    s.curve.toA (s.curve.padd
      (s.curve.padd (s.curve.msm gsv (a.elems.map (s.fld a.ctx).val)) (s.curve.msm hsv (b.elems.map (s.fld b.ctx).val)))
      (s.curve.pmul (Values.vip s.fld1.m (a.elems.map (s.fld a.ctx).val) (b.elems.map (s.fld b.ctx).val)) (s.curve.toJ u))) =
      .ok P →
    ipaprvWith H gs hs au aP va vb s = .next t → t.cseq = s.cseq + 1 →
    ∃ (pf : RawProof) (v : State), pf.wf = true ∧ t.dout = s.dout ++ proofWordBytes pf ∧
      ipavfyWith H gs hs au aP pf t = .next v ∧ v.cseq = t.cseq + 1 ∧ v.flag .vfy = true

end
end

