-- ==== Sys2Proof/Laws/Field.lean ====
section
/-! SUPPORT. One specification lemma per field function (41_field.md R130 to R146): under a well-formed context, on canonical stored
forms, each function gives a canonical stored form whose value is the rule's, stated in the ring of residues (`toZ`) and in naturals
(`val`). Provers cite these and never unfold the functions. -/

namespace Sys2Proof.Machine

/-! ## The inverse (00_scope.md R8, 70_reset_and_hazards.md R306) -/

theorem modinvLoop_spec {m a : Nat} (hm : 0 < m) :
    ∀ fuel r0 r1 t0 t1 : Nat, r1 < r0 → r0 * r1 < 2 ^ fuel → t0 < m → t1 < m →
      ((t0 : ZMod m) * a = r0) → ((t1 : ZMod m) * a = r1) →
      modinvLoop m fuel r0 r1 t0 t1 < m ∧ ((modinvLoop m fuel r0 r1 t0 t1 : ZMod m) * a = (Nat.gcd r0 r1 : Nat)) := by
  intro fuel
  induction fuel with
  | zero =>
    intro r0 r1 t0 t1 hlt hprod ht0 _ h0 _
    have hr1 : r1 = 0 := by
      rcases Nat.eq_zero_or_pos r1 with h | h
      · exact h
      · have := Nat.mul_pos (Nat.zero_lt_of_lt hlt) h
        simp at hprod; omega
    subst hr1
    simpa [modinvLoop] using ⟨ht0, h0⟩
  | succ fuel ih =>
    intro r0 r1 t0 t1 hlt hprod ht0 ht1 h0 h1
    unfold modinvLoop
    by_cases hr : r1 = 0
    · subst hr
      simpa using ⟨ht0, h0⟩
    · have hpos : 0 < r1 := Nat.pos_of_ne_zero hr
      have hdm : r1 * (r0 / r1) + r0 % r1 = r0 := Nat.div_add_mod r0 r1
      have hq : 1 ≤ r0 / r1 := (Nat.one_le_div_iff hpos).2 hlt.le
      have hge : r1 + r0 % r1 ≤ r0 := by nlinarith
      have hsmall : r0 % r1 < r1 := Nat.mod_lt _ hpos
      have hprod' : r1 * (r0 % r1) < 2 ^ fuel := by
        have h2 : 2 * (r1 * (r0 % r1)) ≤ r0 * r1 := by nlinarith
        rw [pow_succ] at hprod
        omega
      simp only [hr, if_false]
      have hcoef : (((t0 + (m - (r0 / r1 * t1) % m)) % m : Nat) : ZMod m) = (t0 : ZMod m) - (r0 / r1 : Nat) * t1 := by
        have hle : (r0 / r1 * t1) % m ≤ m := (Nat.mod_lt _ hm).le
        rw [ZMod.natCast_mod, Nat.cast_add, Nat.cast_sub hle, ZMod.natCast_self, ZMod.natCast_mod, Nat.cast_mul]
        ring
      have := ih r1 (r0 % r1) t1 ((t0 + (m - (r0 / r1 * t1) % m)) % m) hsmall hprod' ht1 (Nat.mod_lt _ hm) h1 (by
        rw [hcoef, sub_mul, h0, mul_assoc, h1]
        have : (r0 : ZMod m) = (r1 * (r0 / r1) + r0 % r1 : Nat) := by rw [hdm]
        rw [this]; push_cast; ring)
      refine ⟨this.1, ?_⟩
      rw [this.2, Nat.gcd_comm r0 r1, Nat.gcd_rec r1 r0, Nat.gcd_comm]

/-- `modinv(a, m)` is the inverse below `m` of a unit `a` (00_scope.md R8). -/
theorem modinv_spec {a m : Nat} (hm : 2 ≤ m) (hm256 : m < 2 ^ 256) (hg : Nat.gcd a m = 1) :
    modinv a m < m ∧ ((modinv a m : ZMod m) * a = 1) := by
  have h0 : 0 < m := by omega
  have hlt : a % m < m := Nat.mod_lt _ h0
  have hprod : m * (a % m) < 2 ^ (2 * Config.width + 2) := by
    have h1 : m * (a % m) < 2 ^ Config.width * 2 ^ Config.width := Nat.mul_lt_mul'' hm256 (lt_trans hlt hm256)
    rw [← pow_add] at h1
    exact lt_of_lt_of_le h1 (Nat.pow_le_pow_right (by decide) (by decide))
  have := modinvLoop_spec (a := a) h0 (2 * Config.width + 2) m (a % m) 0 (1 % m) hlt hprod h0 (Nat.mod_lt _ h0)
    (by simp) (by simp)
  refine ⟨this.1, ?_⟩
  have hgcd : Nat.gcd m (a % m) = 1 := by
    rw [Nat.gcd_comm, ← Nat.gcd_rec, Nat.gcd_comm, hg]
  have h2 := this.2
  rw [hgcd, Nat.cast_one] at h2
  exact h2

namespace FieldCtx

/-! ## Well-formed contexts -/

theorem WF.two_le {f : FieldCtx} (h : f.WF) : 2 ≤ f.m := by have := h.1; omega

theorem WF.pos {f : FieldCtx} (h : f.WF) : 0 < f.m := by have := h.1; omega

theorem m_lt (f : FieldCtx) : f.m < 2 ^ 256 := f.mod.isLt

/-- The factor between a stored form and its value: 1, or `mont_rinv`. -/
def factor (f : FieldCtx) : ZMod f.m :=
  match f.strat with
  | .naive => 1
  | .mont => (f.montRinv.toNat : ZMod f.m)

/-- The factor between a value and its stored form: 1, or `mont_r`. -/
def unfactor (f : FieldCtx) : ZMod f.m :=
  match f.strat with
  | .naive => 1
  | .mont => (f.montR.toNat : ZMod f.m)

theorem WF.unfactor_mul_factor {f : FieldCtx} (h : f.WF) : f.unfactor * f.factor = 1 := by
  obtain ⟨hm, -, -, hmont⟩ := h
  unfold unfactor factor
  cases hs : f.strat with
  | naive => simp
  | mont =>
    have h1 := (hmont hs).2.2.1
    simp only
    rw [← Nat.cast_mul, ← ZMod.natCast_mod, h1, Nat.cast_one]

theorem toZ_eq (f : FieldCtx) (x : Fe) : f.toZ x = (x.toNat : ZMod f.m) * f.factor := by
  unfold toZ val factor naiveReduce
  cases f.strat <;> simp

/-- A natural below the modulus is a 256-bit pattern. -/
theorem toNat_ofNat_lt (f : FieldCtx) {v : Nat} (h : v < f.m) : (BitVec.ofNat 256 v).toNat = v := by
  rw [BitVec.toNat_ofNat, Nat.mod_eq_of_lt (lt_trans h f.m_lt)]

theorem WF.toNat_mod {f : FieldCtx} (h : f.WF) (v : Nat) : (BitVec.ofNat 256 (v % f.m)).toNat = v % f.m :=
  f.toNat_ofNat_lt (Nat.mod_lt _ h.pos)

theorem WF.val_lt {f : FieldCtx} (h : f.WF) {x : Fe} (hx : f.Canon x) : f.val x < f.m := by
  unfold val naiveReduce
  cases f.strat
  · exact hx
  · exact Nat.mod_lt _ h.pos

/-- Two naturals below the modulus with the same residue are equal. -/
theorem natCast_inj_of_lt {m a b : Nat} (ha : a < m) (hb : b < m) (h : (a : ZMod m) = b) : a = b := by
  have := (ZMod.natCast_eq_natCast_iff a b m).1 h
  exact Nat.ModEq.eq_of_lt_of_lt this ha hb

/-- The value of a canonical stored form is determined by its residue. -/
theorem WF.val_eq_of_toZ {f : FieldCtx} (h : f.WF) {x : Fe} (hx : f.Canon x) {v : Nat} (hv : v < f.m)
    (e : f.toZ x = (v : ZMod f.m)) : f.val x = v :=
  natCast_inj_of_lt (h.val_lt hx) hv e

theorem WF.val_eq_mod_of_toZ {f : FieldCtx} (h : f.WF) {x : Fe} (hx : f.Canon x) {v : Nat}
    (e : f.toZ x = (v : ZMod f.m)) : f.val x = v % f.m :=
  h.val_eq_of_toZ hx (Nat.mod_lt _ h.pos) (by rw [ZMod.natCast_mod]; exact e)

theorem WF.toZ_inj {f : FieldCtx} (h : f.WF) {x y : Fe} (hx : f.Canon x) (hy : f.Canon y) : f.toZ x = f.toZ y ↔ x = y := by
  refine ⟨fun e => ?_, fun e => by rw [e]⟩
  rw [toZ_eq, toZ_eq] at e
  have e2 := congrArg (· * f.unfactor) e
  simp only [mul_assoc, mul_comm f.factor, h.unfactor_mul_factor, mul_one] at e2
  exact BitVec.eq_of_toNat_eq (natCast_inj_of_lt hx hy e2)

theorem WF.val_inj {f : FieldCtx} (h : f.WF) {x y : Fe} (hx : f.Canon x) (hy : f.Canon y) : f.val x = f.val y ↔ x = y := by
  refine ⟨fun e => (h.toZ_inj hx hy).1 ?_, fun e => by rw [e]⟩
  simp only [toZ, e]

@[simp] theorem toZ_zero (f : FieldCtx) : f.toZ 0 = 0 := by simp [toZ_eq]

theorem WF.canon_zero {f : FieldCtx} (h : f.WF) : f.Canon 0 := by simpa using h.pos

@[simp] theorem val_zero (f : FieldCtx) : f.val 0 = 0 := by
  unfold val naiveReduce; cases f.strat <;> simp

theorem WF.toZ_eq_zero {f : FieldCtx} (h : f.WF) {x : Fe} (hx : f.Canon x) : f.toZ x = 0 ↔ x = 0 := by
  rw [← f.toZ_zero, h.toZ_inj hx h.canon_zero]

theorem WF.val_eq_zero {f : FieldCtx} (h : f.WF) {x : Fe} (hx : f.Canon x) : f.val x = 0 ↔ x = 0 := by
  rw [← f.val_zero, h.val_inj hx h.canon_zero]

/-! ## Stored forms (41_field.md R142, R145) -/

theorem WF.canon_enc {f : FieldCtx} (h : f.WF) {v : Nat} (hv : v < f.m) : f.Canon (f.enc v) := by
  unfold Canon enc naiveReduce
  cases f.strat
  · simpa [f.toNat_ofNat_lt hv] using hv
  · simpa [h.toNat_mod] using Nat.mod_lt _ h.pos

theorem WF.toZ_enc {f : FieldCtx} (h : f.WF) {v : Nat} (hv : v < f.m) : f.toZ (f.enc v) = (v : ZMod f.m) := by
  have hu := h.unfactor_mul_factor
  rw [toZ_eq]
  unfold enc naiveReduce
  unfold unfactor factor at *
  cases hs : f.strat with
  | naive => simp [f.toNat_ofNat_lt hv]
  | mont =>
    simp only [hs] at hu ⊢
    rw [h.toNat_mod, ZMod.natCast_mod, Nat.cast_mul, mul_assoc, hu, mul_one]

theorem WF.val_enc {f : FieldCtx} (h : f.WF) {v : Nat} (hv : v < f.m) : f.val (f.enc v) = v :=
  h.val_eq_of_toZ (h.canon_enc hv) hv (h.toZ_enc hv)

theorem WF.enc_val {f : FieldCtx} (h : f.WF) {x : Fe} (hx : f.Canon x) : f.enc (f.val x) = x :=
  (h.val_inj (h.canon_enc (h.val_lt hx)) hx).1 (h.val_enc (h.val_lt hx))

theorem WF.canon_ofRaw {f : FieldCtx} (h : f.WF) (r : Raw) : f.Canon (f.ofRaw r) := h.canon_enc (Nat.mod_lt _ h.pos)

theorem WF.val_ofRaw {f : FieldCtx} (h : f.WF) (r : Raw) : f.val (f.ofRaw r) = r.toNat % f.m :=
  h.val_enc (Nat.mod_lt _ h.pos)

theorem WF.canon_small {f : FieldCtx} (h : f.WF) (n : Nat) : f.Canon (f.small n) := h.canon_enc (Nat.mod_lt _ h.pos)

theorem WF.toZ_small {f : FieldCtx} (h : f.WF) (n : Nat) : f.toZ (f.small n) = (n : ZMod f.m) := by
  rw [small, h.toZ_enc (Nat.mod_lt _ h.pos), ZMod.natCast_mod]

theorem WF.canon_one {f : FieldCtx} (h : f.WF) : f.Canon f.one := by
  have hm := h.pos
  have hmont := h.2.2.2
  unfold Canon one
  cases hs : f.strat with
  | naive => simpa [h.toNat_mod] using Nat.mod_lt _ hm
  | mont => simp only [(hmont hs).1]; exact Nat.mod_lt _ hm

theorem WF.toZ_one {f : FieldCtx} (h : f.WF) : f.toZ f.one = 1 := by
  have hu := h.unfactor_mul_factor
  rw [toZ_eq]
  unfold one
  unfold unfactor factor at *
  cases hs : f.strat with
  | naive =>
    simp only [h.toNat_mod, ZMod.natCast_mod, Nat.cast_one, mul_one]
  | mont =>
    simpa only [hs] using hu

theorem WF.val_one {f : FieldCtx} (h : f.WF) : f.val f.one = 1 :=
  h.val_eq_of_toZ h.canon_one (by have := h.1; omega) (by rw [h.toZ_one, Nat.cast_one])

/-! ## Addition, subtraction, negation (41_field.md R132 to R134) -/

theorem WF.canon_add {f : FieldCtx} (h : f.WF) (a b : Fe) : f.Canon (f.add a b) := by
  simpa [Canon, add, h.toNat_mod] using Nat.mod_lt _ h.pos

theorem WF.toZ_add {f : FieldCtx} (h : f.WF) (a b : Fe) : f.toZ (f.add a b) = f.toZ a + f.toZ b := by
  rw [toZ_eq, toZ_eq, toZ_eq, add, h.toNat_mod, ZMod.natCast_mod]; push_cast; ring

theorem WF.sub_toNat {f : FieldCtx} {a b : Fe} (ha : f.Canon a) (hb : f.Canon b) :
    (f.sub a b).toNat = if b.toNat ≤ a.toNat then a.toNat - b.toNat else a.toNat + f.m - b.toNat := by
  unfold sub
  refine f.toNat_ofNat_lt ?_
  unfold Canon at ha hb
  split <;> omega

theorem WF.canon_sub {f : FieldCtx} {a b : Fe} (ha : f.Canon a) (hb : f.Canon b) : f.Canon (f.sub a b) := by
  have := WF.sub_toNat ha hb
  unfold Canon at *
  rw [this]
  split <;> omega

theorem WF.toZ_sub {f : FieldCtx} {a b : Fe} (ha : f.Canon a) (hb : f.Canon b) :
    f.toZ (f.sub a b) = f.toZ a - f.toZ b := by
  rw [toZ_eq, toZ_eq, toZ_eq, WF.sub_toNat ha hb]
  unfold Canon at ha hb
  split
  · rw [Nat.cast_sub (by assumption)]; ring
  · rw [Nat.cast_sub (by omega), Nat.cast_add, ZMod.natCast_self]; ring

theorem WF.canon_neg {f : FieldCtx} (h : f.WF) (a : Fe) : f.Canon (f.neg a) := by
  simpa [Canon, neg, h.toNat_mod] using Nat.mod_lt _ h.pos

theorem WF.toZ_neg {f : FieldCtx} (h : f.WF) {a : Fe} (ha : f.Canon a) : f.toZ (f.neg a) = -f.toZ a := by
  rw [toZ_eq, toZ_eq, neg, h.toNat_mod, ZMod.natCast_mod, Nat.cast_sub ha.le, ZMod.natCast_self]; ring

/-! ## Multiplication (41_field.md R135, R143, R144) -/

/-- `REDC` brings a product below the modulus and divides it by 2^256 in the ring (41_field.md R143). -/
theorem WF.redc_spec {f : FieldCtx} (h : f.WF) (hs : f.strat = .mont) {t : Nat} (ht : t < f.m * Config.radix) :
    f.redc t < f.m ∧ (f.redc t : ZMod f.m) = (t : ZMod f.m) * (f.montRinv.toNat : ZMod f.m) := by
  obtain ⟨hR, -, hRR, hK⟩ := h.2.2.2 hs
  have hpos := h.pos
  have hrad : 0 < Config.radix := by decide
  set u := ((t % Config.radix) * f.montK.toNat) % Config.radix with hu
  have hulta : u < Config.radix := Nat.mod_lt _ hrad
  have hdvd : Config.radix ∣ t + u * f.m := by
    rw [← ZMod.natCast_eq_zero_iff]
    have hk : (f.montK.toNat : ZMod Config.radix) * (f.m : ZMod Config.radix) = -1 := by
      have := congrArg (Nat.cast : Nat → ZMod Config.radix) hK
      push_cast [ZMod.natCast_self] at this
      rw [zero_mul] at this
      exact eq_neg_of_add_eq_zero_left this
    rw [hu]
    push_cast [ZMod.natCast_mod]
    rw [mul_assoc, hk]; ring
  obtain ⟨r, hr⟩ := hdvd
  have hdiv : (t + u * f.m) / Config.radix = r := by rw [hr, Nat.mul_div_cancel_left _ hrad]
  have hr2 : r < 2 * f.m := by
    have : Config.radix * r < Config.radix * (2 * f.m) := by rw [← hr]; nlinarith
    exact Nat.lt_of_mul_lt_mul_left this
  have hcast : (r : ZMod f.m) = (t : ZMod f.m) * (f.montRinv.toNat : ZMod f.m) := by
    have h1 : (Config.radix : ZMod f.m) * (r : ZMod f.m) = (t : ZMod f.m) := by
      have := congrArg (Nat.cast : Nat → ZMod f.m) hr
      push_cast [ZMod.natCast_self] at this
      rw [mul_zero, add_zero] at this
      exact this.symm
    have h2 : (Config.radix : ZMod f.m) * (f.montRinv.toNat : ZMod f.m) = 1 := by
      have : (f.montR.toNat : ZMod f.m) = (Config.radix : ZMod f.m) := by rw [hR, ZMod.natCast_mod]
      rw [← this, ← Nat.cast_mul, ← ZMod.natCast_mod, hRR, Nat.cast_one]
    calc (r : ZMod f.m) = (r : ZMod f.m) * ((Config.radix : ZMod f.m) * (f.montRinv.toNat : ZMod f.m)) := by rw [h2, mul_one]
      _ = (Config.radix : ZMod f.m) * (r : ZMod f.m) * (f.montRinv.toNat : ZMod f.m) := by ring
      _ = _ := by rw [h1]
  have hredc : f.redc t = if f.m ≤ r then r - f.m else r := by
    simp only [redc, ← hu, hdiv]
  rw [hredc]
  split
  · refine ⟨by omega, ?_⟩
    rw [Nat.cast_sub (by assumption), ZMod.natCast_self, sub_zero, hcast]
  · exact ⟨by omega, hcast⟩

theorem WF.mul_spec {f : FieldCtx} (h : f.WF) {a : Fe} (ha : f.Canon a) (b : Fe) :
    f.Canon (f.mul a b) ∧ f.toZ (f.mul a b) = f.toZ a * f.toZ b := by
  unfold Canon
  rw [toZ_eq, toZ_eq, toZ_eq]
  unfold mul factor
  cases hs : f.strat with
  | naive =>
    simp only [naiveReduce, h.toNat_mod, mul_one, ZMod.natCast_mod, Nat.cast_mul, and_true]
    exact Nat.mod_lt _ h.pos
  | mont =>
    have ht : a.toNat * b.toNat < f.m * Config.radix :=
      Nat.mul_lt_mul_of_lt_of_le ha b.isLt.le (by decide)
    have hspec := h.redc_spec hs ht
    simp only [f.toNat_ofNat_lt hspec.1]
    refine ⟨hspec.1, ?_⟩
    rw [hspec.2, Nat.cast_mul]; ring

theorem WF.canon_mul {f : FieldCtx} (h : f.WF) {a : Fe} (ha : f.Canon a) (b : Fe) : f.Canon (f.mul a b) :=
  (h.mul_spec ha b).1

theorem WF.toZ_mul {f : FieldCtx} (h : f.WF) {a : Fe} (ha : f.Canon a) (b : Fe) :
    f.toZ (f.mul a b) = f.toZ a * f.toZ b := (h.mul_spec ha b).2

/-! ## Inversion (41_field.md R137) -/

theorem WF.inv_ok {f : FieldCtx} (h : f.WF) {a : Fe} (hg : Nat.gcd (f.val a) f.m = 1) :
    f.inv a = .ok (f.enc (modinv (f.val a) f.m)) ∧ f.Canon (f.enc (modinv (f.val a) f.m)) ∧
    f.toZ (f.enc (modinv (f.val a) f.m)) * f.toZ a = 1 := by
  have hsp := modinv_spec h.two_le f.m_lt hg
  refine ⟨by simp [inv, hg], h.canon_enc hsp.1, ?_⟩
  rw [h.toZ_enc hsp.1]
  exact hsp.2

/-- Everything `finv` can do: a canonical inverse, or `NoInverse` on a non-unit (41_field.md R137). -/
theorem WF.inv_cases {f : FieldCtx} (h : f.WF) (a : Fe) :
    (∃ r, f.inv a = .ok r ∧ f.Canon r ∧ f.toZ r * f.toZ a = 1) ∨
    (f.inv a = .error .noInverse ∧ Nat.gcd (f.val a) f.m ≠ 1) := by
  by_cases hg : Nat.gcd (f.val a) f.m = 1
  · exact .inl ⟨_, h.inv_ok hg⟩
  · exact .inr ⟨by simp [inv, hg], hg⟩

/-! ## Setting up a context (40_config_transfer.md R101, 41_field.md R141) -/

@[simp] theorem setup_ok (st : Strat) (r : Raw) : (setup st r).ok = true := by cases st <;> rfl
@[simp] theorem setup_mod (st : Strat) (r : Raw) : (setup st r).mod = r := by cases st <;> rfl
@[simp] theorem setup_strat (st : Strat) (r : Raw) : (setup st r).strat = st := by cases st <;> rfl
@[simp] theorem setup_m (st : Strat) (r : Raw) : (setup st r).m = r.toNat := by simp [m]

theorem setup_wf (st : Strat) {r : Raw} (h3 : 3 ≤ r.toNat) (hodd : r.toNat % 2 = 1) : (setup st r).WF := by
  refine ⟨by simpa using h3, by simpa using hodd, ?_, ?_⟩
  · intro hs; cases st
    · exact ⟨rfl, rfl, rfl⟩
    · simp at hs
  · intro hs
    cases st
    · simp at hs
    · have h0 : 0 < r.toNat := by omega
      have hlt256 : r.toNat < 2 ^ 256 := r.isLt
      have hco : Nat.Coprime 2 r.toNat := by
        rw [Nat.coprime_two_left]; exact Nat.odd_iff.2 hodd
      have hg : Nat.gcd (Config.radix % r.toNat) r.toNat = 1 := by
        rw [← Nat.gcd_rec, Nat.gcd_comm]
        exact Nat.Coprime.pow_left 256 hco
      obtain ⟨hlt, hinv⟩ := modinv_spec (a := Config.radix % r.toNat) (by omega) hlt256 hg
      set rinv := modinv (Config.radix % r.toNat) r.toNat with hrinv
      have hrl : Config.radix % r.toNat < r.toNat := Nat.mod_lt _ h0
      have e1 : (setup .mont r).montR.toNat = Config.radix % r.toNat := by
        simp only [setup]; rw [BitVec.toNat_ofNat, Nat.mod_eq_of_lt (lt_trans hrl hlt256)]
      have e2 : (setup .mont r).montRinv.toNat = rinv := by
        simp only [setup]; rw [BitVec.toNat_ofNat, Nat.mod_eq_of_lt (lt_trans hlt hlt256)]
      have hone : 1 % r.toNat = 1 := Nat.mod_eq_of_lt (by omega)
      have hmod : Config.radix * rinv % r.toNat = 1 := by
        have : ((Config.radix * rinv : Nat) : ZMod r.toNat) = ((1 : Nat) : ZMod r.toNat) := by
          rw [ZMod.natCast_mod] at hinv
          push_cast; rw [mul_comm]; exact hinv
        have := (ZMod.natCast_eq_natCast_iff _ _ _).1 this
        rw [Nat.ModEq, hone] at this
        exact this
      have hrpos : 0 < rinv := by
        rcases Nat.eq_zero_or_pos rinv with h | h
        · rw [h] at hmod; simp at hmod
        · exact h
      have hexact : (Config.radix * rinv - 1) / r.toNat * r.toNat + 1 = Config.radix * rinv := by
        have hge : 1 ≤ Config.radix * rinv := Nat.mul_pos (by decide) hrpos
        have hd : r.toNat ∣ Config.radix * rinv - 1 := by
          have := Nat.div_add_mod (Config.radix * rinv) r.toNat
          rw [hmod] at this
          exact ⟨Config.radix * rinv / r.toNat, by omega⟩
        rw [Nat.div_mul_cancel hd]; omega
      have hklt : (Config.radix * rinv - 1) / r.toNat < 2 ^ 256 := by
        rw [Nat.div_lt_iff_lt_mul h0]
        have : Config.radix * rinv ≤ Config.radix * r.toNat := Nat.mul_le_mul_left _ hlt.le
        have h2 : Config.radix = 2 ^ 256 := rfl
        have hge : 1 ≤ Config.radix * rinv := Nat.mul_pos (by decide) hrpos
        rw [h2] at *
        omega
      have e3 : (setup .mont r).montK.toNat = (Config.radix * rinv - 1) / r.toNat := by
        simp only [setup]; rw [BitVec.toNat_ofNat, Nat.mod_eq_of_lt hklt]
      rw [e1, e2, e3, setup_m]
      refine ⟨rfl, hlt, ?_, hexact⟩
      rw [Nat.mod_mul_mod]
      exact hmod

end FieldCtx

end Sys2Proof.Machine
end

