-- ==== Sys2Proof/Laws/Curve.lean ====
section
/-! SUPPORT. One specification lemma per field and curve function at the level of values: on canonical operands of a well-formed
context or curve, the machine's function gives a canonical result whose values are those of the value view
(Machine/ValueView.lean). -/

namespace Sys2Proof.Machine

namespace FieldCtx

/-! ## Field functions on values (41_field.md R132 to R135, R147) -/

theorem WF.toZ_val {f : FieldCtx} (_ : f.WF) (x : Fe) : (f.val x : ZMod f.m) = f.toZ x := rfl

theorem WF.val_add {f : FieldCtx} (h : f.WF) (a b : Fe) : f.val (f.add a b) = Values.fadd f.m (f.val a) (f.val b) := by
  refine h.val_eq_mod_of_toZ (h.canon_add a b) ?_
  rw [h.toZ_add, Nat.cast_add]; rfl

theorem WF.val_mul {f : FieldCtx} (h : f.WF) {a : Fe} (ha : f.Canon a) (b : Fe) :
    f.val (f.mul a b) = Values.fmul f.m (f.val a) (f.val b) := by
  refine h.val_eq_mod_of_toZ (h.canon_mul ha b) ?_
  rw [h.toZ_mul ha, Nat.cast_mul]; rfl

theorem WF.val_sub {f : FieldCtx} (h : f.WF) {a b : Fe} (ha : f.Canon a) (hb : f.Canon b) :
    f.val (f.sub a b) = Values.fsub f.m (f.val a) (f.val b) := by
  have ha' := h.val_lt ha
  have hb' := h.val_lt hb
  refine h.val_eq_of_toZ (WF.canon_sub ha hb) ?_ ?_
  · unfold Values.fsub; split <;> omega
  · rw [WF.toZ_sub ha hb]
    unfold Values.fsub
    split
    · rw [Nat.cast_sub (by assumption)]; rfl
    · rw [Nat.cast_sub (by omega), Nat.cast_add, ZMod.natCast_self, add_zero]; rfl

theorem WF.val_neg {f : FieldCtx} (h : f.WF) {a : Fe} (ha : f.Canon a) : f.val (f.neg a) = Values.fneg f.m (f.val a) := by
  refine h.val_eq_mod_of_toZ (h.canon_neg a) ?_
  rw [h.toZ_neg ha, Nat.cast_sub (h.val_lt ha).le, ZMod.natCast_self, zero_sub]; rfl

theorem WF.val_small {f : FieldCtx} (h : f.WF) (n : Nat) : f.val (f.small n) = n % f.m :=
  h.val_eq_mod_of_toZ (h.canon_small n) (h.toZ_small n)

end FieldCtx

/-! ## Values below the modulus -/

theorem Values.fadd_zero_right {m a : Nat} (h : a < m) : Values.fadd m a 0 = a := by
  simp [Values.fadd, Nat.mod_eq_of_lt h]

theorem Values.fmul_zero_left (m b : Nat) : Values.fmul m 0 b = 0 := by simp [Values.fmul]

theorem Values.fmul_lt {m : Nat} (h : 0 < m) (a b : Nat) : Values.fmul m a b < m := Nat.mod_lt _ h

theorem Values.fadd_lt {m : Nat} (h : 0 < m) (a b : Nat) : Values.fadd m a b < m := Nat.mod_lt _ h

namespace Curve

variable {c : Curve}

/-- The value of `A` is 0 exactly when the fast-path flag is set (42_curve.md R180). -/
theorem WF.azero_iff (h : c.WF) : c.crv.azero = true ↔ c.vals.A = 0 := by
  rw [h.azero, beq_iff_eq]; exact (h.fp.val_eq_zero h.a).symm

theorem WF.bzero_iff (h : c.WF) : c.crv.bzero = true ↔ c.vals.B = 0 := by
  rw [h.bzero, beq_iff_eq]; exact (h.fp.val_eq_zero h.b).symm

/-! ## Embedding, negation, the equation (42_curve.md R170 to R175) -/

theorem WF.infJ_spec (h : c.WF) : c.infJ.Canon c.fp ∧ c.infJ.vals c.fp = Values.infJ := by
  refine ⟨⟨h.fp.canon_zero, h.fp.canon_one, h.fp.canon_zero⟩, ?_⟩
  simp only [infJ, Jac.vals, Values.infJ, h.fp.val_one, FieldCtx.val_zero]

theorem WF.toJ_spec (h : c.WF) {Q : Affine} (hQ : Q.Canon c.fp) :
    (c.toJ Q).Canon c.fp ∧ (c.toJ Q).vals c.fp = Values.toJ (Q.vals c.fp) := by
  cases Q with
  | inf => exact h.infJ_spec
  | pt x y =>
    simp only [Affine.Canon, Affine.canonical, Bool.and_eq_true, decide_eq_true_eq] at hQ
    refine ⟨⟨hQ.1, hQ.2, h.fp.canon_one⟩, ?_⟩
    simp [toJ, Jac.vals, Affine.vals, Values.toJ, h.fp.val_one]

theorem WF.pneg_spec (h : c.WF) {P : Jac} (hP : P.Canon c.fp) :
    (c.pneg P).Canon c.fp ∧ (c.pneg P).vals c.fp = Values.pneg c.vals (P.vals c.fp) := by
  refine ⟨⟨hP.1, h.fp.canon_neg _, hP.2.2⟩, ?_⟩
  simp [pneg, Jac.vals, Values.pneg, vals, h.fp.val_neg hP.2.1]

theorem WF.oncurve_spec (h : c.WF) {Q : Affine} (hQ : Q.Canon c.fp) :
    c.oncurve Q = true ↔ Values.oncurve c.vals (Q.vals c.fp) := by
  cases Q with
  | inf => simp [oncurve, Values.oncurve, Affine.vals]
  | pt x y =>
    simp only [Affine.Canon, Affine.canonical, Bool.and_eq_true, decide_eq_true_eq] at hQ
    obtain ⟨hx, hy⟩ := hQ
    have hxx := h.fp.canon_mul hx x
    have hx3 := h.fp.canon_mul hxx x
    have hax := h.fp.canon_mul h.a x
    have hA := h.azero_iff
    have hB := h.bzero_iff
    simp only [oncurve, Affine.vals, Values.oncurve, beq_iff_eq]
    set t := if c.crv.azero then c.fp.mul (c.fp.mul x x) x else
      c.fp.add (c.fp.mul (c.fp.mul x x) x) (c.fp.mul c.crv.a x) with ht
    have htc : c.fp.Canon t := by
      rw [ht]; split
      · exact hx3
      · exact h.fp.canon_add _ _
    have htv : c.fp.val t = Values.fadd c.fp.m (Values.fmul c.fp.m (Values.fmul c.fp.m (c.fp.val x) (c.fp.val x)) (c.fp.val x))
        (Values.fmul c.fp.m c.vals.A (c.fp.val x)) := by
      rw [ht]
      by_cases hz : c.crv.azero = true
      · rw [if_pos hz, hA.1 hz, Values.fmul_zero_left, Values.fadd_zero_right (Values.fmul_lt h.fp.pos _ _)]
        rw [h.fp.val_mul hxx, h.fp.val_mul hx]
      · rw [if_neg hz, h.fp.val_add, h.fp.val_mul hxx, h.fp.val_mul hx, h.fp.val_mul h.a]; rfl
    set rhs := if c.crv.bzero then t else c.fp.add t c.crv.b with hr
    have hrc : c.fp.Canon rhs := by
      rw [hr]; split
      · exact htc
      · exact h.fp.canon_add _ _
    have hrv : c.fp.val rhs = Values.fadd c.fp.m (c.fp.val t) c.vals.B := by
      rw [hr]
      by_cases hz : c.crv.bzero = true
      · rw [if_pos hz, hB.1 hz, Values.fadd_zero_right (h.fp.val_lt htc)]
      · rw [if_neg hz, h.fp.val_add]; rfl
    rw [← h.fp.val_inj (h.fp.canon_mul hy y) hrc, h.fp.val_mul hy, hrv, htv]
    rfl

/-! ## Doubling and addition (42_curve.md R176 to R178, R180) -/

theorem WF.Z_eq_zero (h : c.WF) {P : Jac} (hP : P.Canon c.fp) : P.Z = 0 ↔ (P.vals c.fp).Z = 0 :=
  (h.fp.val_eq_zero hP.2.2).symm

theorem WF.pdbl_spec (h : c.WF) {P : Jac} (hP : P.Canon c.fp) :
    (c.pdbl P).Canon c.fp ∧ (c.pdbl P).vals c.fp = Values.pdbl c.vals (P.vals c.fp) := by
  have hz := h.Z_eq_zero hP
  unfold pdbl Values.pdbl
  by_cases h0 : P.Z = 0
  · rw [if_pos h0, if_pos (hz.1 h0)]; exact h.infJ_spec
  rw [if_neg h0, if_neg (mt hz.2 h0)]
  obtain ⟨hX, hY, hZ⟩ := hP
  have f := h.fp
  have cyy := f.canon_mul hY P.Y
  have cxyy := f.canon_mul hX (c.fp.mul P.Y P.Y)
  have cs := f.canon_mul (f.canon_small 4) (c.fp.mul P.X (c.fp.mul P.Y P.Y))
  have czz := f.canon_mul hZ P.Z
  have c3 := f.canon_mul (f.canon_small 3) (c.fp.mul P.X P.X)
  simp only
  set m := if c.crv.azero then c.fp.mul (c.fp.small 3) (c.fp.mul P.X P.X) else
    c.fp.add (c.fp.mul (c.fp.small 3) (c.fp.mul P.X P.X))
      (c.fp.mul c.crv.a (c.fp.mul (c.fp.mul P.Z P.Z) (c.fp.mul P.Z P.Z))) with hm
  have cm : c.fp.Canon m := by
    rw [hm]; split
    · exact c3
    · exact f.canon_add _ _
  have vm : c.fp.val m = Values.fadd c.vals.p (Values.fmul c.vals.p (3 % c.vals.p) (Values.fmul c.vals.p (P.vals c.fp).X (P.vals c.fp).X))
      (Values.fmul c.vals.p c.vals.A (Values.fmul c.vals.p (Values.fmul c.vals.p (P.vals c.fp).Z (P.vals c.fp).Z)
        (Values.fmul c.vals.p (P.vals c.fp).Z (P.vals c.fp).Z))) := by
    rw [hm]
    by_cases ha : c.crv.azero = true
    · rw [if_pos ha, h.azero_iff.1 ha, Values.fmul_zero_left, Values.fadd_zero_right (Values.fmul_lt (show 0 < c.vals.p from f.pos) _ _)]
      rw [f.val_mul (f.canon_small 3), f.val_small, f.val_mul hX]; rfl
    · rw [if_neg ha, f.val_add, f.val_mul (f.canon_small 3), f.val_small, f.val_mul hX, f.val_mul h.a, f.val_mul czz,
        f.val_mul hZ]; rfl
  clear_value m
  have cmm := f.canon_mul cm m
  have css := f.canon_add (c.fp.mul (c.fp.small 4) (c.fp.mul P.X (c.fp.mul P.Y P.Y)))
    (c.fp.mul (c.fp.small 4) (c.fp.mul P.X (c.fp.mul P.Y P.Y)))
  have cx3 := FieldCtx.WF.canon_sub cmm css
  have csx := FieldCtx.WF.canon_sub cs cx3
  have cm1 := f.canon_mul cm (c.fp.sub (c.fp.mul (c.fp.small 4) (c.fp.mul P.X (c.fp.mul P.Y P.Y)))
    (c.fp.sub (c.fp.mul m m) (c.fp.add (c.fp.mul (c.fp.small 4) (c.fp.mul P.X (c.fp.mul P.Y P.Y)))
    (c.fp.mul (c.fp.small 4) (c.fp.mul P.X (c.fp.mul P.Y P.Y))))))
  have c8 := f.canon_mul (f.canon_small 8) (c.fp.mul (c.fp.mul P.Y P.Y) (c.fp.mul P.Y P.Y))
  refine ⟨⟨cx3, FieldCtx.WF.canon_sub cm1 c8, f.canon_mul (f.canon_small 2) _⟩, ?_⟩
  have vyy := f.val_mul hY P.Y
  have vs : c.fp.val (c.fp.mul (c.fp.small 4) (c.fp.mul P.X (c.fp.mul P.Y P.Y))) =
      Values.fmul c.fp.m (4 % c.fp.m) (Values.fmul c.fp.m (c.fp.val P.X) (Values.fmul c.fp.m (c.fp.val P.Y) (c.fp.val P.Y))) := by
    rw [f.val_mul (f.canon_small 4), f.val_small, f.val_mul hX, vyy]
  have vx3 := f.val_sub cmm css
  rw [f.val_mul cm, f.val_add, vs] at vx3
  simp only [Jac.vals]
  rw [f.val_sub cm1 c8, f.val_mul cm, f.val_sub cs cx3, vx3, vs, f.val_mul (f.canon_small 8), f.val_small, f.val_mul cyy, vyy,
    f.val_mul (f.canon_small 2), f.val_small, f.val_mul hY, vm]
  rfl

/-- The general case of an addition, on any `U1`, `U2`, `S1`, `S2` (42_curve.md R177, R178). -/
theorem WF.addTail_spec (h : c.WF) {P : Jac} (hP : P.Canon c.fp) {u1 u2 s1 s2 zz : Fe} (hu1 : c.fp.Canon u1) (hu2 : c.fp.Canon u2)
    (hs1 : c.fp.Canon s1) (hs2 : c.fp.Canon s2) :
    (c.addTail P u1 u2 s1 s2 zz).Canon c.fp ∧ (c.addTail P u1 u2 s1 s2 zz).vals c.fp =
      (let p := c.vals.p
       let U1 := c.fp.val u1; let U2 := c.fp.val u2; let S1 := c.fp.val s1; let S2 := c.fp.val s2
       if U1 = U2 then
         if S1 = S2 then Values.pdbl c.vals (P.vals c.fp) else Values.infJ
       else
         let h := Values.fsub p U2 U1
         let r := Values.fsub p S2 S1
         let hh := Values.fmul p h h
         let hhh := Values.fmul p h hh
         let v := Values.fmul p U1 hh
         let x3 := Values.fsub p (Values.fsub p (Values.fmul p r r) hhh) (Values.fadd p v v)
         let y3 := Values.fsub p (Values.fmul p r (Values.fsub p v x3)) (Values.fmul p S1 hhh)
         let z3 := Values.fmul p h (c.fp.val zz)
         ⟨x3, y3, z3⟩) := by
  have f := h.fp
  unfold addTail
  simp only [f.val_inj hu1 hu2, f.val_inj hs1 hs2]
  by_cases e1 : u1 = u2
  · rw [if_pos e1, if_pos e1]
    by_cases e2 : s1 = s2
    · rw [if_pos e2, if_pos e2]; exact h.pdbl_spec hP
    · rw [if_neg e2, if_neg e2]; exact h.infJ_spec
  · rw [if_neg e1, if_neg e1]
    have ch := FieldCtx.WF.canon_sub hu2 hu1
    have cr := FieldCtx.WF.canon_sub hs2 hs1
    have vh := f.val_sub hu2 hu1
    have vr := f.val_sub hs2 hs1
    set hv := c.fp.sub u2 u1
    set rv := c.fp.sub s2 s1
    have chh := f.canon_mul ch hv
    have vhh := f.val_mul ch hv
    set hh := c.fp.mul hv hv
    have chhh := f.canon_mul ch hh
    have vhhh := f.val_mul ch hh
    set hhh := c.fp.mul hv hh
    have cv := f.canon_mul hu1 hh
    have vv := f.val_mul hu1 hh
    set v := c.fp.mul u1 hh
    have crr := f.canon_mul cr rv
    have vrr := f.val_mul cr rv
    have cd := FieldCtx.WF.canon_sub crr chhh
    have vd := f.val_sub crr chhh
    have cvv := f.canon_add v v
    have vvv := f.val_add v v
    have cx := FieldCtx.WF.canon_sub cd cvv
    have vx := f.val_sub cd cvv
    set x3 := c.fp.sub (c.fp.sub (c.fp.mul rv rv) hhh) (c.fp.add v v)
    have cvx := FieldCtx.WF.canon_sub cv cx
    have vvx := f.val_sub cv cx
    have cy1 := f.canon_mul cr (c.fp.sub v x3)
    have vy1 := f.val_mul cr (c.fp.sub v x3)
    have cy2 := f.canon_mul hs1 hhh
    have vy2 := f.val_mul hs1 hhh
    refine ⟨⟨cx, FieldCtx.WF.canon_sub cy1 cy2, f.canon_mul ch zz⟩, ?_⟩
    simp only [Jac.vals]
    rw [f.val_sub cy1 cy2, f.val_mul ch zz, vy1, vy2, vvx, vx, vd, vvv, vrr, vv, vhhh, vhh, vh, vr]
    rfl

theorem WF.padd_spec (h : c.WF) {P Q : Jac} (hP : P.Canon c.fp) (hQ : Q.Canon c.fp) :
    (c.padd P Q).Canon c.fp ∧ (c.padd P Q).vals c.fp = Values.padd c.vals (P.vals c.fp) (Q.vals c.fp) := by
  unfold padd Values.padd
  by_cases hp0 : P.Z = 0
  · rw [if_pos hp0, if_pos ((h.Z_eq_zero hP).1 hp0)]; exact ⟨hQ, rfl⟩
  rw [if_neg hp0, if_neg (mt (h.Z_eq_zero hP).2 hp0)]
  by_cases hq0 : Q.Z = 0
  · rw [if_pos hq0, if_pos ((h.Z_eq_zero hQ).1 hq0)]; exact ⟨hP, rfl⟩
  rw [if_neg hq0, if_neg (mt (h.Z_eq_zero hQ).2 hq0)]
  have f := h.fp
  obtain ⟨hX1, hY1, hZ1⟩ := hP
  obtain ⟨hX2, hY2, hZ2⟩ := hQ
  have hspec := h.addTail_spec (P := P) ⟨hX1, hY1, hZ1⟩ (zz := c.fp.mul P.Z Q.Z)
    (f.canon_mul hX1 (c.fp.mul Q.Z Q.Z)) (f.canon_mul hX2 (c.fp.mul P.Z P.Z))
    (f.canon_mul hY1 (c.fp.mul Q.Z (c.fp.mul Q.Z Q.Z))) (f.canon_mul hY2 (c.fp.mul P.Z (c.fp.mul P.Z P.Z)))
  refine ⟨hspec.1, ?_⟩
  rw [hspec.2]
  simp only [f.val_mul hX1, f.val_mul hX2, f.val_mul hY1, f.val_mul hY2, f.val_mul hZ1, f.val_mul hZ2]
  rfl

theorem WF.pmadd_spec (h : c.WF) {P : Jac} (hP : P.Canon c.fp) {Q : Affine} (hQ : Q.Canon c.fp) :
    (c.pmadd P Q).Canon c.fp ∧ (c.pmadd P Q).vals c.fp = Values.pmadd c.vals (P.vals c.fp) (Q.vals c.fp) := by
  cases Q with
  | inf => exact ⟨hP, rfl⟩
  | pt x y =>
    simp only [Affine.Canon, Affine.canonical, Bool.and_eq_true, decide_eq_true_eq] at hQ
    have f := h.fp
    simp only [pmadd, Values.pmadd, Affine.vals]
    by_cases hp0 : P.Z = 0
    · rw [if_pos hp0, if_pos ((h.Z_eq_zero hP).1 hp0)]
      exact ⟨⟨hQ.1, hQ.2, f.canon_one⟩, by simp [Jac.vals, f.val_one]⟩
    rw [if_neg hp0, if_neg (mt (h.Z_eq_zero hP).2 hp0)]
    have hP' := hP
    obtain ⟨hX1, hY1, hZ1⟩ := hP
    have hspec := h.addTail_spec (P := P) hP' (zz := P.Z) hX1 (f.canon_mul hQ.1 (c.fp.mul P.Z P.Z)) hY1
      (f.canon_mul hQ.2 (c.fp.mul P.Z (c.fp.mul P.Z P.Z)))
    refine ⟨hspec.1, ?_⟩
    rw [hspec.2]
    simp only [f.val_mul hQ.1, f.val_mul hQ.2, f.val_mul hZ1]
    rfl

/-! ## To affine (42_curve.md R172) -/

/-- Everything `toA` can do: infinity, the affine image by an inverse of `Z`, or `NoInverse` when `Z` is no unit. -/
theorem WF.toA_cases (h : c.WF) {P : Jac} (hP : P.Canon c.fp) :
    (P.Z = 0 ∧ c.toA P = .ok .inf) ∨
    (P.Z ≠ 0 ∧ ∃ x y zi, c.toA P = .ok (.pt x y) ∧ c.fp.Canon x ∧ c.fp.Canon y ∧
      zi * c.fp.toZ P.Z = 1 ∧ c.fp.toZ x = c.fp.toZ P.X * zi ^ 2 ∧ c.fp.toZ y = c.fp.toZ P.Y * zi ^ 3) ∨
    (P.Z ≠ 0 ∧ Nat.gcd (c.fp.val P.Z) c.fp.m ≠ 1 ∧ c.toA P = .error .noInverse) := by
  have f := h.fp
  unfold toA
  by_cases h0 : P.Z = 0
  · exact .inl ⟨h0, by rw [if_pos h0]⟩
  · rw [if_neg h0]
    rcases f.inv_cases P.Z with ⟨r, hr, hc, hm⟩ | ⟨hr, hg⟩
    · refine .inr (.inl ⟨h0, _, _, c.fp.toZ r, by rw [hr]; rfl, f.canon_mul hP.1 _, f.canon_mul hP.2.1 _, hm, ?_, ?_⟩)
      · rw [f.toZ_mul hP.1, f.toZ_mul hc]; ring
      · rw [f.toZ_mul hP.2.1, f.toZ_mul (f.canon_mul hc r), f.toZ_mul hc]; ring
    · exact .inr (.inr ⟨h0, hg, by rw [hr]; rfl⟩)

/-- An affine point that `toA` gives is canonical. -/
theorem WF.toA_canon (h : c.WF) {P : Jac} (hP : P.Canon c.fp) {Q : Affine} (hQ : c.toA P = .ok Q) : Q.Canon c.fp := by
  rcases h.toA_cases hP with ⟨-, e⟩ | ⟨-, x, y, -, e, hx, hy, -⟩ | ⟨-, -, e⟩
  · rw [e] at hQ; cases hQ; rfl
  · rw [e] at hQ; cases hQ
    simp [Affine.Canon, Affine.canonical, hx, hy]
  · rw [e] at hQ; cases hQ

/-! ## Scalar multiplication (42_curve.md R181, R184, R185) -/

/-- The table of odd multiples holds `P, 3P, ..., 15P` (42_curve.md R181). -/
theorem WF.oddChain_spec (h : c.WF) {P : Jac} (hP : P.Canon c.fp) :
    ∀ (n i : Nat) (cur : Jac), cur.Canon c.fp → cur.vals c.fp = Values.oddMultiple c.vals (P.vals c.fp) i →
      (c.oddChain (c.pdbl P) n cur).length = n ∧
      ∀ (k : Nat) (hk : k < (c.oddChain (c.pdbl P) n cur).length), ((c.oddChain (c.pdbl P) n cur)[k]).Canon c.fp ∧
        ((c.oddChain (c.pdbl P) n cur)[k]).vals c.fp = Values.oddMultiple c.vals (P.vals c.fp) (i + k) := by
  intro n
  induction n with
  | zero => intro i cur _ _; exact ⟨rfl, fun k hk => absurd hk (by simp [oddChain])⟩
  | succ n ih =>
    intro i cur hc hv
    have h2 := h.pdbl_spec hP
    have hn := h.padd_spec hc h2.1
    have ih := ih (i + 1) (c.padd cur (c.pdbl P)) hn.1 (by rw [hn.2, hv, h2.2]; rfl)
    refine ⟨by simp [oddChain, ih.1], ?_⟩
    intro k hk
    cases k with
    | zero => exact ⟨hc, hv⟩
    | succ k =>
      have := ih.2 k (by simpa [oddChain] using hk)
      simp only [oddChain, List.getElem_cons_succ]
      rwa [show i + (k + 1) = i + 1 + k by omega]

theorem WF.oddTable_getD (h : c.WF) {P : Jac} (hP : P.Canon c.fp) {k : Nat} (hk : k < 8) :
    ((c.oddTable P).getD k c.infJ).Canon c.fp ∧
    ((c.oddTable P).getD k c.infJ).vals c.fp = Values.oddMultiple c.vals (P.vals c.fp) k := by
  have := h.oddChain_spec hP 8 0 P hP rfl
  have hk' : k < (c.oddChain (c.pdbl P) 8 P).length := by rw [this.1]; exact hk
  have e : (c.oddTable P).getD k c.infJ = (c.oddChain (c.pdbl P) 8 P)[k] := by
    show (c.oddChain (c.pdbl P) 8 P).getD k c.infJ = _
    rw [List.getD_eq_getElem?_getD, List.getElem?_eq_getElem hk', Option.getD_some]
  rw [e]
  simpa using this.2 k hk'

end Curve

/-- A digit of the recoding is between -15 and 15 (42_curve.md R183). -/
theorem wnafDigit_range (k : Nat) : -15 ≤ wnafDigit k ∧ wnafDigit k ≤ 15 := by
  unfold wnafDigit
  have hw : Config.wnafWindow = 5 := rfl
  have := Nat.mod_lt k (show 0 < 2 ^ 5 by decide)
  rw [hw]
  dsimp only
  split_ifs <;> constructor <;> omega

theorem wnafLoop_range : ∀ (fuel k : Nat), ∀ t ∈ wnafLoop fuel k, -15 ≤ t ∧ t ≤ 15 := by
  intro fuel
  induction fuel with
  | zero => intro k t ht; simp [wnafLoop] at ht
  | succ fuel ih =>
    intro k t ht
    unfold wnafLoop at ht
    split at ht
    · simp at ht
    · rcases List.mem_cons.1 ht with rfl | ht
      · exact wnafDigit_range k
      · exact ih _ t ht

theorem wnaf_range (k : Nat) : ∀ t ∈ wnaf k, -15 ≤ t ∧ t ≤ 15 := wnafLoop_range _ _

namespace Curve

variable {c : Curve}

theorem WF.mulStep_spec (h : c.WF) {P acc : Jac} (hP : P.Canon c.fp) (ha : acc.Canon c.fp) {t : Int} (ht : -15 ≤ t ∧ t ≤ 15) :
    (c.mulStep (c.oddTable P) acc t).Canon c.fp ∧
    (c.mulStep (c.oddTable P) acc t).vals c.fp = Values.mulStep c.vals (P.vals c.fp) (acc.vals c.fp) t := by
  have h2 := h.pdbl_spec ha
  unfold mulStep Values.mulStep
  by_cases h0 : 0 < t
  · have htab := h.oddTable_getD hP (k := t.toNat / 2) (by omega)
    have := h.padd_spec h2.1 htab.1
    simp only [if_pos h0]
    exact ⟨this.1, by rw [this.2, h2.2, htab.2]⟩
  · by_cases h1 : t < 0
    · have htab := h.oddTable_getD hP (k := (-t).toNat / 2) (by omega)
      have hneg := h.pneg_spec htab.1
      have := h.padd_spec h2.1 hneg.1
      simp only [if_neg h0, if_pos h1]
      exact ⟨this.1, by rw [this.2, h2.2, hneg.2, htab.2]⟩
    · simp only [if_neg h0, if_neg h1]
      exact h2

theorem WF.mulScan_spec (h : c.WF) {P : Jac} (hP : P.Canon c.fp) :
    ∀ (ds : List Int), (∀ t ∈ ds, -15 ≤ t ∧ t ≤ 15) → ∀ acc : Jac, acc.Canon c.fp →
      (ds.foldl (c.mulStep (c.oddTable P)) acc).Canon c.fp ∧
      (ds.foldl (c.mulStep (c.oddTable P)) acc).vals c.fp =
        ds.foldl (Values.mulStep c.vals (P.vals c.fp)) (acc.vals c.fp) := by
  intro ds
  induction ds with
  | nil => intro _ acc ha; exact ⟨ha, rfl⟩
  | cons t ds ih =>
    intro hr acc ha
    have hs := h.mulStep_spec hP ha (hr t List.mem_cons_self)
    have := ih (fun t' ht' => hr t' (List.mem_cons_of_mem _ ht')) _ hs.1
    simp only [List.foldl_cons]
    exact ⟨this.1, by rw [this.2, hs.2]⟩

theorem WF.pmulRaw_spec (h : c.WF) (k : Nat) {P : Jac} (hP : P.Canon c.fp) :
    (c.pmulRaw k P).Canon c.fp ∧ (c.pmulRaw k P).vals c.fp = Values.pmulRaw c.vals k (P.vals c.fp) := by
  unfold pmulRaw Values.pmulRaw
  by_cases h0 : k = 0 ∨ P.Z = 0
  · rw [if_pos h0, if_pos (by rwa [← h.Z_eq_zero hP])]
    exact h.infJ_spec
  · rw [if_neg h0, if_neg (by rwa [← h.Z_eq_zero hP])]
    have := h.mulScan_spec hP (wnaf k).reverse (fun t ht => wnaf_range k t (List.mem_reverse.1 ht)) c.infJ h.infJ_spec.1
    rw [h.infJ_spec.2] at this
    exact this

theorem WF.pmul_spec (h : c.WF) (k : Nat) {P : Jac} (hP : P.Canon c.fp) :
    (c.pmul k P).Canon c.fp ∧ (c.pmul k P).vals c.fp = Values.pmul c.vals k (P.vals c.fp) := h.pmulRaw_spec _ hP

/-! ## The vector commitment (43_vector.md R222) -/

theorem WF.msmFrom_spec (h : c.WF) : ∀ (qs : List Affine) (ks : List Nat), (∀ q ∈ qs, q.Canon c.fp) → ∀ acc : Jac,
    acc.Canon c.fp → (c.msmFrom acc qs ks).Canon c.fp ∧ (c.msmFrom acc qs ks).vals c.fp =
      (List.zip (qs.map (Affine.vals c.fp)) ks).foldl
        (fun acc qk => Values.padd c.vals acc (Values.pmul c.vals qk.2 (Values.toJ qk.1))) (acc.vals c.fp) := by
  intro qs
  induction qs with
  | nil => intro ks _ acc ha; exact ⟨by unfold msmFrom; exact ha, by simp [msmFrom]⟩
  | cons q qs ih =>
    intro ks hq acc ha
    cases ks with
    | nil => exact ⟨by unfold msmFrom; exact ha, by simp [msmFrom]⟩
    | cons k ks =>
      have hj := h.toJ_spec (hq q List.mem_cons_self)
      have hm := h.pmul_spec k hj.1
      have hs := h.padd_spec ha hm.1
      have := ih ks (fun q' hq' => hq q' (List.mem_cons_of_mem _ hq')) _ hs.1
      simp only [msmFrom, List.map_cons, List.zip_cons_cons, List.foldl_cons]
      exact ⟨this.1, by rw [this.2, hs.2, hm.2, hj.2]⟩

theorem WF.msm_spec (h : c.WF) {qs : List Affine} (hq : ∀ q ∈ qs, q.Canon c.fp) (ks : List Nat) :
    (c.msm qs ks).Canon c.fp ∧ (c.msm qs ks).vals c.fp = Values.msm c.vals (qs.map (Affine.vals c.fp)) ks := by
  have := h.msmFrom_spec qs ks hq c.infJ h.infJ_spec.1
  rw [h.infJ_spec.2] at this
  exact this

end Curve

/-- The curve of a state that keeps the invariant, once CSETUP has run (40_config_transfer.md R102). -/
theorem State.SetupInv.curve_wf {s : State} (h : s.SetupInv) (hc : s.crv.ok = true) : s.curve.WF := by
  obtain ⟨h0, h1, ha, hb, haz, hbz⟩ := h.crv hc
  exact ⟨h.fld .coord h0, h.fld .order h1, ha, hb, haz, hbz⟩

end Sys2Proof.Machine
end

