-- ==== Sys2Proof/Laws/Decode.lean ====
section
/-! SUPPORT. What the encoder's pieces are worth to the decoder: the fields of a packed header, and the lengths and values of
payload pieces (30_encoding.md R71 to R74, 20_memory.md R54). -/

namespace Sys2Proof

theorem Opcode.code_lt (o : Opcode) : o.code < 256 := by cases o <;> decide

theorem Opcode.ofCode_code (o : Opcode) : Opcode.ofCode o.code = some o := by cases o <;> decide

theorem Opcode.code_inj {o o' : Opcode} (h : o.code = o'.code) : o = o' :=
  Option.some.inj (by rw [← o.ofCode_code, h, o'.ofCode_code])

/-! ## Packed headers -/

/-- The number a format R header spells. -/
theorem packR_toNat (o : Opcode) {a5 a4 a3 a2 a1 a0 : Nat} (h5 : a5 < 16) (h4 : a4 < 16) (h3 : a3 < 16) (h2 : a2 < 16)
    (h1 : a1 < 16) (h0 : a0 < 16) : (packR o a5 a4 a3 a2 a1 a0).toNat =
      o.code * 2 ^ 24 + a5 * 2 ^ 20 + a4 * 2 ^ 16 + a3 * 2 ^ 12 + a2 * 2 ^ 8 + a1 * 2 ^ 4 + a0 := by
  have := o.code_lt
  rw [packR, BitVec.toNat_ofNat, Nat.mod_eq_of_lt]
  omega

/-- The number a format I header spells. -/
theorem packI_toNat (o : Opcode) {a5 a4 a3 n : Nat} (h5 : a5 < 16) (h4 : a4 < 16) (h3 : a3 < 16) (hn : n < 4096) :
    (packI o a5 a4 a3 n).toNat = o.code * 2 ^ 24 + a5 * 2 ^ 20 + a4 * 2 ^ 16 + a3 * 2 ^ 12 + n := by
  have := o.code_lt
  rw [packI, BitVec.toNat_ofNat, Nat.mod_eq_of_lt]
  omega

/-- The number a format K header spells. -/
theorem packK_toNat (o : Opcode) {a5 a4 a3 a2 n : Nat} (h5 : a5 < 16) (h4 : a4 < 16) (h3 : a3 < 16) (h2 : a2 < 16)
    (hn : n < 256) :
    (packK o a5 a4 a3 a2 n).toNat = o.code * 2 ^ 24 + a5 * 2 ^ 20 + a4 * 2 ^ 16 + a3 * 2 ^ 12 + a2 * 2 ^ 8 + n := by
  have := o.code_lt
  rw [packK, BitVec.toNat_ofNat, Nat.mod_eq_of_lt]
  omega

/-- The immediate of a format I header reads back (30_encoding.md R72). -/
theorem imm12_packI (o : Opcode) {a5 a4 a3 n : Nat} (h5 : a5 < 16) (h4 : a4 < 16) (h3 : a3 < 16) (hn : n < 4096) :
    (imm12 (packI o a5 a4 a3 n)).val = n := by
  simp only [imm12, packI_toNat o h5 h4 h3 hn]
  omega

/-- The immediate of a format K header reads back (30_encoding.md R73). -/
theorem imm8_packK (o : Opcode) {a5 a4 a3 a2 n : Nat} (h5 : a5 < 16) (h4 : a4 < 16) (h3 : a3 < 16) (h2 : a2 < 16)
    (hn : n < 256) : (imm8 (packK o a5 a4 a3 a2 n)).val = n := by
  simp only [imm8, packK_toNat o h5 h4 h3 h2 hn]
  omega

theorem Ctx.toNat_lt (c : Ctx) : c.toNat < 16 := by cases c <;> decide

theorem Strat.toNat_lt (st : Strat) : st.toNat < 16 := by cases st <;> decide

/-! ## Lengths -/

@[simp] theorem natWords_length (n v : Nat) : (natWords n v).length = n := by
  induction n with
  | zero => rfl
  | succ n ih => simp [natWords, ih]

@[simp] theorem words256_length (v : Raw) : (words256 v).length = 8 := natWords_length 8 _

@[simp] theorem wordsPoint_length (q : RawPoint) : (wordsPoint q).length = 16 := by simp [wordsPoint]

@[simp] theorem flatMap_words256_length (vs : List Raw) : (vs.flatMap words256).length = 8 * vs.length := by
  induction vs with
  | nil => rfl
  | cons v vs ih => simp only [List.flatMap_cons, List.length_append, ih, words256_length, List.length_cons]; omega

@[simp] theorem flatMap_wordsPoint_length (qs : List RawPoint) : (qs.flatMap wordsPoint).length = 16 * qs.length := by
  induction qs with
  | nil => rfl
  | cons q qs ih => simp only [List.flatMap_cons, List.length_append, ih, wordsPoint_length, List.length_cons]; omega

@[simp] theorem wordsProof_length (p : RawProof) : (wordsProof p).length = 16 * p.ls.length + 16 * p.rs.length + 16 := by
  simp only [wordsProof, List.length_append, flatMap_wordsPoint_length, words256_length]

@[simp] theorem wordExt_length (start len : Fin 65536) : (wordExt start len).length = 1 := rfl

/-! ## Values -/

theorem foldl_words (ws : List Word) (acc : Nat) :
    ws.foldl (fun acc w => acc * 2 ^ 32 + w.toNat) acc = acc * 2 ^ (32 * ws.length) + wordsNat ws := by
  induction ws generalizing acc with
  | nil => simp [wordsNat]
  | cons w ws ih =>
    rw [wordsNat, List.foldl_cons, List.foldl_cons, ih, ih (0 * 2 ^ 32 + w.toNat), List.length_cons, Nat.mul_add, pow_add]
    ring

/-- `n` words hold a natural modulo 2^(32n) only. -/
theorem natWords_mod (n v : Nat) : natWords n (v % 2 ^ (32 * n)) = natWords n v := by
  have hi : ∀ k : Nat, ∀ n v : Nat, n ≤ k → natWords n (v % 2 ^ (32 * k)) = natWords n v := by
    intro k n
    induction n with
    | zero => intro v _; rfl
    | succ n ih =>
      intro v hk
      rw [natWords, natWords, ih v (by omega)]
      congr 1
      refine BitVec.eq_of_toNat_eq ?_
      rw [BitVec.toNat_ofNat, BitVec.toNat_ofNat]
      obtain ⟨d, rfl⟩ : ∃ d, k = n + 1 + d := ⟨k - (n + 1), by omega⟩
      rw [show 32 * (n + 1 + d) = 32 * n + 32 * (1 + d) by ring, pow_add, Nat.mod_mul_right_div_self]
      exact Nat.mod_mod_of_dvd _ (pow_dvd_pow 2 (by omega))
  exact hi n n v le_rfl

/-- The words of a natural below 2^(32n) spell it. -/
theorem wordsNat_natWords (n v : Nat) (h : v < 2 ^ (32 * n)) : wordsNat (natWords n v) = v := by
  induction n generalizing v with
  | zero => simpa [natWords, wordsNat, eq_comm] using h
  | succ n ih =>
    have hpos : 0 < 2 ^ (32 * n) := Nat.pow_pos (by decide)
    have hq : v / 2 ^ (32 * n) < 2 ^ 32 := by
      rw [Nat.div_lt_iff_lt_mul hpos, ← pow_add]
      rwa [show 32 + 32 * n = 32 * (n + 1) by omega]
    rw [natWords, wordsNat, List.foldl_cons, foldl_words, natWords_length, ← natWords_mod n v, ih _ (Nat.mod_lt _ hpos),
      BitVec.toNat_ofNat, Nat.mod_eq_of_lt hq, Nat.zero_mul, Nat.zero_add]
    exact Nat.div_add_mod' v _

/-- A raw value reads back from its eight words, whatever follows (20_memory.md R54). -/
theorem rawOf_words256 (v : Raw) (rest : List Word) : rawOf (words256 v ++ rest) = v := by
  have h8 := words256_length v
  rw [rawOf, show (8 : Nat) = (words256 v).length from h8.symm, List.take_left, words256,
    wordsNat_natWords 8 v.toNat v.isLt]
  exact BitVec.eq_of_toNat_eq (by rw [BitVec.toNat_ofNat, Nat.mod_eq_of_lt v.isLt])

end Sys2Proof
end

