-- ==== Sys2Proof/Laws/Flags.lean ====
section
/-! SUPPORT. What writing a flag or the cause field does to every bit of the status word (10_state.md R33), and the codes of causes
(60_exceptions.md R271). -/

namespace Sys2Proof.Machine

theorem Flag.bit_lt (f : Flag) : f.bit < 9 := by cases f <;> decide

theorem Flag.bit_inj {f g : Flag} : f.bit = g.bit ↔ f = g := by cases f <;> cases g <;> decide

/-- Writing a flag writes its bit and leaves the other 31 as they were. -/
theorem setFlag_getLsbD (st : BitVec 32) (f : Flag) (b : Bool) (n : Nat) :
    (setFlag st f b).getLsbD n = if n = f.bit then b else st.getLsbD n := by
  have hf := f.bit_lt
  by_cases hn : n < 32
  · unfold setFlag
    by_cases e : n = f.bit
    · subst e
      cases b <;> (simp; try omega)
    · have hsub : ¬ (f.bit ≤ n ∧ n - f.bit = 0) := by omega
      by_cases hle : n < f.bit
      · cases b <;> simp [hn, e, hle]
      · have : n - f.bit ≠ 0 := by omega
        cases b <;> simp [hn, e, hle, this]
  · rw [BitVec.getLsbD_of_ge _ _ (by omega), BitVec.getLsbD_of_ge _ _ (by omega), if_neg (by omega)]

@[simp] theorem getFlag_setFlag_same (st : BitVec 32) (f : Flag) (b : Bool) : getFlag (setFlag st f b) f = b := by
  simp [getFlag, setFlag_getLsbD]

theorem getFlag_setFlag_other (st : BitVec 32) {f g : Flag} (h : g ≠ f) (b : Bool) :
    getFlag (setFlag st f b) g = getFlag st g := by
  simp [getFlag, setFlag_getLsbD, Flag.bit_inj, h]

@[simp] theorem getFcode_setFlag (st : BitVec 32) (f : Flag) (b : Bool) : getFcode (setFlag st f b) = getFcode st := by
  have hf := f.bit_lt
  unfold getFcode
  refine BitVec.eq_of_getLsbD_eq fun i hi => ?_
  simp only [BitVec.getLsbD_extractLsb', setFlag_getLsbD]
  rw [if_neg (by omega)]

/-- Writing `FCODE` writes bits 23:16 and leaves the other 24 as they were. -/
theorem setFcode_getLsbD (st : BitVec 32) (c : BitVec 8) (n : Nat) :
    (setFcode st c).getLsbD n = if 16 ≤ n ∧ n < 24 then c.getLsbD (n - 16) else st.getLsbD n := by
  by_cases hn : n < 32
  · unfold setFcode
    rw [BitVec.getLsbD_or, BitVec.getLsbD_and, BitVec.getLsbD_shiftLeft, BitVec.getLsbD_setWidth]
    have hm : (0xFF00FFFF#32).getLsbD n = !decide (16 ≤ n ∧ n < 24) := by
      interval_cases n <;> rfl
    rw [hm]
    by_cases h : 16 ≤ n ∧ n < 24
    · have h16 : ¬ n < 16 := by omega
      have h32 : n - 16 < 32 := by omega
      simp only [h, h16, h32, hn, decide_true, decide_false, Bool.not_true, Bool.not_false, Bool.and_false, Bool.and_self,
        Bool.true_and, Bool.false_or, and_self, if_true]
    · rw [if_neg h]
      by_cases h16 : n < 16
      · simp [h, h16]
      · have : c.getLsbD (n - 16) = false := BitVec.getLsbD_of_ge _ _ (by omega)
        simp [h, this]
  · rw [BitVec.getLsbD_of_ge _ _ (by omega), BitVec.getLsbD_of_ge st _ (by omega), if_neg (by omega)]

@[simp] theorem getFcode_setFcode (st : BitVec 32) (c : BitVec 8) : getFcode (setFcode st c) = c := by
  unfold getFcode
  refine BitVec.eq_of_getLsbD_eq fun i hi => ?_
  simp only [BitVec.getLsbD_extractLsb', setFcode_getLsbD]
  rw [if_pos (by omega)]
  simp [hi]

@[simp] theorem getFlag_setFcode (st : BitVec 32) (c : BitVec 8) (f : Flag) : getFlag (setFcode st c) f = getFlag st f := by
  have hf := f.bit_lt
  simp only [getFlag, setFcode_getLsbD]
  rw [if_neg (by omega)]

/-- The codes are 1 to 14 (60_exceptions.md R271). -/
theorem Cause.code_range (c : Cause) : 1 ≤ c.code.toNat ∧ c.code.toNat ≤ 14 := by cases c <;> decide

theorem Cause.code_inj {c d : Cause} : c.code = d.code ↔ c = d := by cases c <;> cases d <;> decide

namespace State

@[simp] theorem flag_putFlag_same (s : State) (f : Flag) (b : Bool) : (s.putFlag f b).flag f = b := getFlag_setFlag_same ..

theorem flag_putFlag_other (s : State) {f g : Flag} (h : g ≠ f) (b : Bool) : (s.putFlag f b).flag g = s.flag g :=
  getFlag_setFlag_other _ h b

@[simp] theorem halted_enterFault (s : State) (c : Cause) : (s.enterFault c).halted = true := by
  simp only [halted, flag, enterFault]
  rw [getFlag_setFlag_other _ (by decide), getFlag_setFlag_same]

@[simp] theorem fcode_enterFault (s : State) (c : Cause) : getFcode (s.enterFault c).status = c.code := by
  simp [enterFault]

@[simp] theorem vfy_enterFault (s : State) (c : Cause) : (s.enterFault c).flag .vfy = false := by
  simp [flag, enterFault]

theorem flag_enterFault_other (s : State) (c : Cause) {f : Flag} (h1 : f ≠ .fault) (h2 : f ≠ .vfy) :
    (s.enterFault c).flag f = s.flag f := by
  simp only [flag, enterFault]
  rw [getFlag_setFlag_other _ h2, getFlag_setFlag_other _ h1, getFlag_setFcode]

end State

end Sys2Proof.Machine
end

