-- ==== Sys2Proof/Laws/State.lean ====
section
/-! SUPPORT. One lemma per field per update of the state, true by rfl, so that no proof unfolds a record update. -/

namespace Sys2Proof.Machine.State

variable (s : State)

/-! ### putE -/

@[simp] theorem putE_fld0 (i : RegNo) (x : Elem) : (s.putE i x).fld0 = s.fld0 := rfl
@[simp] theorem putE_fld1 (i : RegNo) (x : Elem) : (s.putE i x).fld1 = s.fld1 := rfl
@[simp] theorem putE_crv (i : RegNo) (x : Elem) : (s.putE i x).crv = s.crv := rfl
@[simp] theorem putE_gen (i : RegNo) (x : Elem) : (s.putE i x).gen = s.gen := rfl
@[simp] theorem putE_e (i : RegNo) (x : Elem) : (s.putE i x).e = writeReg s.e i x := rfl
@[simp] theorem putE_a (i : RegNo) (x : Elem) : (s.putE i x).a = s.a := rfl
@[simp] theorem putE_j (i : RegNo) (x : Elem) : (s.putE i x).j = s.j := rfl
@[simp] theorem putE_v (i : RegNo) (x : Elem) : (s.putE i x).v = s.v := rfl
@[simp] theorem putE_g (i : RegNo) (x : Elem) : (s.putE i x).g = s.g := rfl
@[simp] theorem putE_cseq (i : RegNo) (x : Elem) : (s.putE i x).cseq = s.cseq := rfl
@[simp] theorem putE_fseq (i : RegNo) (x : Elem) : (s.putE i x).fseq = s.fseq := rfl
@[simp] theorem putE_status (i : RegNo) (x : Elem) : (s.putE i x).status = s.status := rfl
@[simp] theorem putE_dout (i : RegNo) (x : Elem) : (s.putE i x).dout = s.dout := rfl
@[simp] theorem putE_cmdIn (i : RegNo) (x : Elem) : (s.putE i x).cmdIn = s.cmdIn := rfl
@[simp] theorem putE_nmaxLog (i : RegNo) (x : Elem) : (s.putE i x).nmaxLog = s.nmaxLog := rfl
@[simp] theorem putE_nmax (i : RegNo) (x : Elem) : (s.putE i x).nmax = s.nmax := rfl
@[simp] theorem putE_curve (i : RegNo) (x : Elem) : (s.putE i x).curve = s.curve := rfl
@[simp] theorem putE_fld (i : RegNo) (x : Elem) (k : Ctx) : (s.putE i x).fld k = s.fld k := by cases k <;> rfl

/-! ### putA -/

@[simp] theorem putA_fld0 (i : RegNo) (q : Affine) : (s.putA i q).fld0 = s.fld0 := rfl
@[simp] theorem putA_fld1 (i : RegNo) (q : Affine) : (s.putA i q).fld1 = s.fld1 := rfl
@[simp] theorem putA_crv (i : RegNo) (q : Affine) : (s.putA i q).crv = s.crv := rfl
@[simp] theorem putA_gen (i : RegNo) (q : Affine) : (s.putA i q).gen = s.gen := rfl
@[simp] theorem putA_e (i : RegNo) (q : Affine) : (s.putA i q).e = s.e := rfl
@[simp] theorem putA_a (i : RegNo) (q : Affine) : (s.putA i q).a = writeReg s.a i q := rfl
@[simp] theorem putA_j (i : RegNo) (q : Affine) : (s.putA i q).j = s.j := rfl
@[simp] theorem putA_v (i : RegNo) (q : Affine) : (s.putA i q).v = s.v := rfl
@[simp] theorem putA_g (i : RegNo) (q : Affine) : (s.putA i q).g = s.g := rfl
@[simp] theorem putA_cseq (i : RegNo) (q : Affine) : (s.putA i q).cseq = s.cseq := rfl
@[simp] theorem putA_fseq (i : RegNo) (q : Affine) : (s.putA i q).fseq = s.fseq := rfl
@[simp] theorem putA_status (i : RegNo) (q : Affine) : (s.putA i q).status = s.status := rfl
@[simp] theorem putA_dout (i : RegNo) (q : Affine) : (s.putA i q).dout = s.dout := rfl
@[simp] theorem putA_cmdIn (i : RegNo) (q : Affine) : (s.putA i q).cmdIn = s.cmdIn := rfl
@[simp] theorem putA_nmaxLog (i : RegNo) (q : Affine) : (s.putA i q).nmaxLog = s.nmaxLog := rfl
@[simp] theorem putA_nmax (i : RegNo) (q : Affine) : (s.putA i q).nmax = s.nmax := rfl
@[simp] theorem putA_curve (i : RegNo) (q : Affine) : (s.putA i q).curve = s.curve := rfl
@[simp] theorem putA_fld (i : RegNo) (q : Affine) (k : Ctx) : (s.putA i q).fld k = s.fld k := by cases k <;> rfl

/-! ### putJ -/

@[simp] theorem putJ_fld0 (i : RegNo) (p : Jac) : (s.putJ i p).fld0 = s.fld0 := rfl
@[simp] theorem putJ_fld1 (i : RegNo) (p : Jac) : (s.putJ i p).fld1 = s.fld1 := rfl
@[simp] theorem putJ_crv (i : RegNo) (p : Jac) : (s.putJ i p).crv = s.crv := rfl
@[simp] theorem putJ_gen (i : RegNo) (p : Jac) : (s.putJ i p).gen = s.gen := rfl
@[simp] theorem putJ_e (i : RegNo) (p : Jac) : (s.putJ i p).e = s.e := rfl
@[simp] theorem putJ_a (i : RegNo) (p : Jac) : (s.putJ i p).a = s.a := rfl
@[simp] theorem putJ_j (i : RegNo) (p : Jac) : (s.putJ i p).j = writeReg s.j i p := rfl
@[simp] theorem putJ_v (i : RegNo) (p : Jac) : (s.putJ i p).v = s.v := rfl
@[simp] theorem putJ_g (i : RegNo) (p : Jac) : (s.putJ i p).g = s.g := rfl
@[simp] theorem putJ_cseq (i : RegNo) (p : Jac) : (s.putJ i p).cseq = s.cseq := rfl
@[simp] theorem putJ_fseq (i : RegNo) (p : Jac) : (s.putJ i p).fseq = s.fseq := rfl
@[simp] theorem putJ_status (i : RegNo) (p : Jac) : (s.putJ i p).status = s.status := rfl
@[simp] theorem putJ_dout (i : RegNo) (p : Jac) : (s.putJ i p).dout = s.dout := rfl
@[simp] theorem putJ_cmdIn (i : RegNo) (p : Jac) : (s.putJ i p).cmdIn = s.cmdIn := rfl
@[simp] theorem putJ_nmaxLog (i : RegNo) (p : Jac) : (s.putJ i p).nmaxLog = s.nmaxLog := rfl
@[simp] theorem putJ_nmax (i : RegNo) (p : Jac) : (s.putJ i p).nmax = s.nmax := rfl
@[simp] theorem putJ_curve (i : RegNo) (p : Jac) : (s.putJ i p).curve = s.curve := rfl
@[simp] theorem putJ_fld (i : RegNo) (p : Jac) (k : Ctx) : (s.putJ i p).fld k = s.fld k := by cases k <;> rfl

/-! ### putV -/

@[simp] theorem putV_fld0 (i : RegNo) (x : FVec) : (s.putV i x).fld0 = s.fld0 := rfl
@[simp] theorem putV_fld1 (i : RegNo) (x : FVec) : (s.putV i x).fld1 = s.fld1 := rfl
@[simp] theorem putV_crv (i : RegNo) (x : FVec) : (s.putV i x).crv = s.crv := rfl
@[simp] theorem putV_gen (i : RegNo) (x : FVec) : (s.putV i x).gen = s.gen := rfl
@[simp] theorem putV_e (i : RegNo) (x : FVec) : (s.putV i x).e = s.e := rfl
@[simp] theorem putV_a (i : RegNo) (x : FVec) : (s.putV i x).a = s.a := rfl
@[simp] theorem putV_j (i : RegNo) (x : FVec) : (s.putV i x).j = s.j := rfl
@[simp] theorem putV_v (i : RegNo) (x : FVec) : (s.putV i x).v = writeReg s.v i x := rfl
@[simp] theorem putV_g (i : RegNo) (x : FVec) : (s.putV i x).g = s.g := rfl
@[simp] theorem putV_cseq (i : RegNo) (x : FVec) : (s.putV i x).cseq = s.cseq := rfl
@[simp] theorem putV_fseq (i : RegNo) (x : FVec) : (s.putV i x).fseq = s.fseq := rfl
@[simp] theorem putV_status (i : RegNo) (x : FVec) : (s.putV i x).status = s.status := rfl
@[simp] theorem putV_dout (i : RegNo) (x : FVec) : (s.putV i x).dout = s.dout := rfl
@[simp] theorem putV_cmdIn (i : RegNo) (x : FVec) : (s.putV i x).cmdIn = s.cmdIn := rfl
@[simp] theorem putV_nmaxLog (i : RegNo) (x : FVec) : (s.putV i x).nmaxLog = s.nmaxLog := rfl
@[simp] theorem putV_nmax (i : RegNo) (x : FVec) : (s.putV i x).nmax = s.nmax := rfl
@[simp] theorem putV_curve (i : RegNo) (x : FVec) : (s.putV i x).curve = s.curve := rfl
@[simp] theorem putV_fld (i : RegNo) (x : FVec) (k : Ctx) : (s.putV i x).fld k = s.fld k := by cases k <;> rfl

/-! ### putG -/

@[simp] theorem putG_fld0 (i : RegNo) (qs : GVec) : (s.putG i qs).fld0 = s.fld0 := rfl
@[simp] theorem putG_fld1 (i : RegNo) (qs : GVec) : (s.putG i qs).fld1 = s.fld1 := rfl
@[simp] theorem putG_crv (i : RegNo) (qs : GVec) : (s.putG i qs).crv = s.crv := rfl
@[simp] theorem putG_gen (i : RegNo) (qs : GVec) : (s.putG i qs).gen = s.gen := rfl
@[simp] theorem putG_e (i : RegNo) (qs : GVec) : (s.putG i qs).e = s.e := rfl
@[simp] theorem putG_a (i : RegNo) (qs : GVec) : (s.putG i qs).a = s.a := rfl
@[simp] theorem putG_j (i : RegNo) (qs : GVec) : (s.putG i qs).j = s.j := rfl
@[simp] theorem putG_v (i : RegNo) (qs : GVec) : (s.putG i qs).v = s.v := rfl
@[simp] theorem putG_g (i : RegNo) (qs : GVec) : (s.putG i qs).g = writeReg s.g i qs := rfl
@[simp] theorem putG_cseq (i : RegNo) (qs : GVec) : (s.putG i qs).cseq = s.cseq := rfl
@[simp] theorem putG_fseq (i : RegNo) (qs : GVec) : (s.putG i qs).fseq = s.fseq := rfl
@[simp] theorem putG_status (i : RegNo) (qs : GVec) : (s.putG i qs).status = s.status := rfl
@[simp] theorem putG_dout (i : RegNo) (qs : GVec) : (s.putG i qs).dout = s.dout := rfl
@[simp] theorem putG_cmdIn (i : RegNo) (qs : GVec) : (s.putG i qs).cmdIn = s.cmdIn := rfl
@[simp] theorem putG_nmaxLog (i : RegNo) (qs : GVec) : (s.putG i qs).nmaxLog = s.nmaxLog := rfl
@[simp] theorem putG_nmax (i : RegNo) (qs : GVec) : (s.putG i qs).nmax = s.nmax := rfl
@[simp] theorem putG_curve (i : RegNo) (qs : GVec) : (s.putG i qs).curve = s.curve := rfl
@[simp] theorem putG_fld (i : RegNo) (qs : GVec) (k : Ctx) : (s.putG i qs).fld k = s.fld k := by cases k <;> rfl

/-! ### emit -/

@[simp] theorem emit_fld0 (bs : List Byte) : (s.emit bs).fld0 = s.fld0 := rfl
@[simp] theorem emit_fld1 (bs : List Byte) : (s.emit bs).fld1 = s.fld1 := rfl
@[simp] theorem emit_crv (bs : List Byte) : (s.emit bs).crv = s.crv := rfl
@[simp] theorem emit_gen (bs : List Byte) : (s.emit bs).gen = s.gen := rfl
@[simp] theorem emit_e (bs : List Byte) : (s.emit bs).e = s.e := rfl
@[simp] theorem emit_a (bs : List Byte) : (s.emit bs).a = s.a := rfl
@[simp] theorem emit_j (bs : List Byte) : (s.emit bs).j = s.j := rfl
@[simp] theorem emit_v (bs : List Byte) : (s.emit bs).v = s.v := rfl
@[simp] theorem emit_g (bs : List Byte) : (s.emit bs).g = s.g := rfl
@[simp] theorem emit_cseq (bs : List Byte) : (s.emit bs).cseq = s.cseq := rfl
@[simp] theorem emit_fseq (bs : List Byte) : (s.emit bs).fseq = s.fseq := rfl
@[simp] theorem emit_status (bs : List Byte) : (s.emit bs).status = s.status := rfl
@[simp] theorem emit_dout (bs : List Byte) : (s.emit bs).dout = s.dout ++ bs := rfl
@[simp] theorem emit_cmdIn (bs : List Byte) : (s.emit bs).cmdIn = s.cmdIn := rfl
@[simp] theorem emit_nmaxLog (bs : List Byte) : (s.emit bs).nmaxLog = s.nmaxLog := rfl
@[simp] theorem emit_nmax (bs : List Byte) : (s.emit bs).nmax = s.nmax := rfl
@[simp] theorem emit_curve (bs : List Byte) : (s.emit bs).curve = s.curve := rfl
@[simp] theorem emit_fld (bs : List Byte) (k : Ctx) : (s.emit bs).fld k = s.fld k := by cases k <;> rfl

/-! ### complete -/

@[simp] theorem complete_fld0 : (s.complete).fld0 = s.fld0 := rfl
@[simp] theorem complete_fld1 : (s.complete).fld1 = s.fld1 := rfl
@[simp] theorem complete_crv : (s.complete).crv = s.crv := rfl
@[simp] theorem complete_gen : (s.complete).gen = s.gen := rfl
@[simp] theorem complete_e : (s.complete).e = s.e := rfl
@[simp] theorem complete_a : (s.complete).a = s.a := rfl
@[simp] theorem complete_j : (s.complete).j = s.j := rfl
@[simp] theorem complete_v : (s.complete).v = s.v := rfl
@[simp] theorem complete_g : (s.complete).g = s.g := rfl
@[simp] theorem complete_cseq : (s.complete).cseq = s.cseq + 1 := rfl
@[simp] theorem complete_fseq : (s.complete).fseq = s.fseq := rfl
@[simp] theorem complete_status : (s.complete).status = s.status := rfl
@[simp] theorem complete_dout : (s.complete).dout = s.dout := rfl
@[simp] theorem complete_cmdIn : (s.complete).cmdIn = s.cmdIn := rfl
@[simp] theorem complete_nmaxLog : (s.complete).nmaxLog = s.nmaxLog := rfl
@[simp] theorem complete_nmax : (s.complete).nmax = s.nmax := rfl
@[simp] theorem complete_curve : (s.complete).curve = s.curve := rfl
@[simp] theorem complete_fld (k : Ctx) : (s.complete).fld k = s.fld k := by cases k <;> rfl

/-! ### putFlag -/

@[simp] theorem putFlag_fld0 (f : Flag) (b : Bool) : (s.putFlag f b).fld0 = s.fld0 := rfl
@[simp] theorem putFlag_fld1 (f : Flag) (b : Bool) : (s.putFlag f b).fld1 = s.fld1 := rfl
@[simp] theorem putFlag_crv (f : Flag) (b : Bool) : (s.putFlag f b).crv = s.crv := rfl
@[simp] theorem putFlag_gen (f : Flag) (b : Bool) : (s.putFlag f b).gen = s.gen := rfl
@[simp] theorem putFlag_e (f : Flag) (b : Bool) : (s.putFlag f b).e = s.e := rfl
@[simp] theorem putFlag_a (f : Flag) (b : Bool) : (s.putFlag f b).a = s.a := rfl
@[simp] theorem putFlag_j (f : Flag) (b : Bool) : (s.putFlag f b).j = s.j := rfl
@[simp] theorem putFlag_v (f : Flag) (b : Bool) : (s.putFlag f b).v = s.v := rfl
@[simp] theorem putFlag_g (f : Flag) (b : Bool) : (s.putFlag f b).g = s.g := rfl
@[simp] theorem putFlag_cseq (f : Flag) (b : Bool) : (s.putFlag f b).cseq = s.cseq := rfl
@[simp] theorem putFlag_fseq (f : Flag) (b : Bool) : (s.putFlag f b).fseq = s.fseq := rfl
@[simp] theorem putFlag_status (f : Flag) (b : Bool) : (s.putFlag f b).status = setFlag s.status f b := rfl
@[simp] theorem putFlag_dout (f : Flag) (b : Bool) : (s.putFlag f b).dout = s.dout := rfl
@[simp] theorem putFlag_cmdIn (f : Flag) (b : Bool) : (s.putFlag f b).cmdIn = s.cmdIn := rfl
@[simp] theorem putFlag_nmaxLog (f : Flag) (b : Bool) : (s.putFlag f b).nmaxLog = s.nmaxLog := rfl
@[simp] theorem putFlag_nmax (f : Flag) (b : Bool) : (s.putFlag f b).nmax = s.nmax := rfl
@[simp] theorem putFlag_curve (f : Flag) (b : Bool) : (s.putFlag f b).curve = s.curve := rfl
@[simp] theorem putFlag_fld (f : Flag) (b : Bool) (k : Ctx) : (s.putFlag f b).fld k = s.fld k := by cases k <;> rfl

/-! ### enterFault -/

@[simp] theorem enterFault_fld0 (c : Cause) : (s.enterFault c).fld0 = s.fld0 := rfl
@[simp] theorem enterFault_fld1 (c : Cause) : (s.enterFault c).fld1 = s.fld1 := rfl
@[simp] theorem enterFault_crv (c : Cause) : (s.enterFault c).crv = s.crv := rfl
@[simp] theorem enterFault_gen (c : Cause) : (s.enterFault c).gen = s.gen := rfl
@[simp] theorem enterFault_e (c : Cause) : (s.enterFault c).e = s.e := rfl
@[simp] theorem enterFault_a (c : Cause) : (s.enterFault c).a = s.a := rfl
@[simp] theorem enterFault_j (c : Cause) : (s.enterFault c).j = s.j := rfl
@[simp] theorem enterFault_v (c : Cause) : (s.enterFault c).v = s.v := rfl
@[simp] theorem enterFault_g (c : Cause) : (s.enterFault c).g = s.g := rfl
@[simp] theorem enterFault_cseq (c : Cause) : (s.enterFault c).cseq = s.cseq := rfl
@[simp] theorem enterFault_fseq (c : Cause) : (s.enterFault c).fseq = s.cseq := rfl
@[simp] theorem enterFault_status (c : Cause) : (s.enterFault c).status = setFlag (setFlag (setFcode s.status c.code) .fault true) .vfy false := rfl
@[simp] theorem enterFault_dout (c : Cause) : (s.enterFault c).dout = s.dout := rfl
@[simp] theorem enterFault_cmdIn (c : Cause) : (s.enterFault c).cmdIn = s.cmdIn := rfl
@[simp] theorem enterFault_nmaxLog (c : Cause) : (s.enterFault c).nmaxLog = s.nmaxLog := rfl
@[simp] theorem enterFault_nmax (c : Cause) : (s.enterFault c).nmax = s.nmax := rfl
@[simp] theorem enterFault_curve (c : Cause) : (s.enterFault c).curve = s.curve := rfl
@[simp] theorem enterFault_fld (c : Cause) (k : Ctx) : (s.enterFault c).fld k = s.fld k := by cases k <;> rfl

/-! ### putFld -/

@[simp] theorem putFld_crv (c : Ctx) (f : FieldCtx) : (s.putFld c f).crv = s.crv := by cases c <;> rfl
@[simp] theorem putFld_gen (c : Ctx) (f : FieldCtx) : (s.putFld c f).gen = s.gen := by cases c <;> rfl
@[simp] theorem putFld_e (c : Ctx) (f : FieldCtx) : (s.putFld c f).e = s.e := by cases c <;> rfl
@[simp] theorem putFld_a (c : Ctx) (f : FieldCtx) : (s.putFld c f).a = s.a := by cases c <;> rfl
@[simp] theorem putFld_j (c : Ctx) (f : FieldCtx) : (s.putFld c f).j = s.j := by cases c <;> rfl
@[simp] theorem putFld_v (c : Ctx) (f : FieldCtx) : (s.putFld c f).v = s.v := by cases c <;> rfl
@[simp] theorem putFld_g (c : Ctx) (f : FieldCtx) : (s.putFld c f).g = s.g := by cases c <;> rfl
@[simp] theorem putFld_cseq (c : Ctx) (f : FieldCtx) : (s.putFld c f).cseq = s.cseq := by cases c <;> rfl
@[simp] theorem putFld_fseq (c : Ctx) (f : FieldCtx) : (s.putFld c f).fseq = s.fseq := by cases c <;> rfl
@[simp] theorem putFld_status (c : Ctx) (f : FieldCtx) : (s.putFld c f).status = s.status := by cases c <;> rfl
@[simp] theorem putFld_dout (c : Ctx) (f : FieldCtx) : (s.putFld c f).dout = s.dout := by cases c <;> rfl
@[simp] theorem putFld_cmdIn (c : Ctx) (f : FieldCtx) : (s.putFld c f).cmdIn = s.cmdIn := by cases c <;> rfl
@[simp] theorem putFld_nmaxLog (c : Ctx) (f : FieldCtx) : (s.putFld c f).nmaxLog = s.nmaxLog := by cases c <;> rfl
@[simp] theorem putFld_nmax (c : Ctx) (f : FieldCtx) : (s.putFld c f).nmax = s.nmax := by cases c <;> rfl
@[simp] theorem putFld_fld_same (c : Ctx) (f : FieldCtx) : (s.putFld c f).fld c = f := by cases c <;> rfl
theorem putFld_fld_other {c k : Ctx} (h : k ≠ c) (f : FieldCtx) : (s.putFld c f).fld k = s.fld k := by
  cases c <;> cases k <;> first | rfl | exact absurd rfl h

/-! ### putGen -/

@[simp] theorem putGen_fld0 (pt : RawPoint) (b : Bool) : (s.putGen pt b).fld0 = s.fld0 := by cases b <;> rfl
@[simp] theorem putGen_fld1 (pt : RawPoint) (b : Bool) : (s.putGen pt b).fld1 = s.fld1 := by cases b <;> rfl
@[simp] theorem putGen_crv (pt : RawPoint) (b : Bool) : (s.putGen pt b).crv = s.crv := by cases b <;> rfl
@[simp] theorem putGen_e (pt : RawPoint) (b : Bool) : (s.putGen pt b).e = s.e := by cases b <;> rfl
@[simp] theorem putGen_a (pt : RawPoint) (b : Bool) : (s.putGen pt b).a = s.a := by cases b <;> rfl
@[simp] theorem putGen_j (pt : RawPoint) (b : Bool) : (s.putGen pt b).j = s.j := by cases b <;> rfl
@[simp] theorem putGen_v (pt : RawPoint) (b : Bool) : (s.putGen pt b).v = s.v := by cases b <;> rfl
@[simp] theorem putGen_g (pt : RawPoint) (b : Bool) : (s.putGen pt b).g = s.g := by cases b <;> rfl
@[simp] theorem putGen_cseq (pt : RawPoint) (b : Bool) : (s.putGen pt b).cseq = s.cseq := by cases b <;> rfl
@[simp] theorem putGen_fseq (pt : RawPoint) (b : Bool) : (s.putGen pt b).fseq = s.fseq := by cases b <;> rfl
@[simp] theorem putGen_status (pt : RawPoint) (b : Bool) : (s.putGen pt b).status = s.status := by cases b <;> rfl
@[simp] theorem putGen_dout (pt : RawPoint) (b : Bool) : (s.putGen pt b).dout = s.dout := by cases b <;> rfl
@[simp] theorem putGen_cmdIn (pt : RawPoint) (b : Bool) : (s.putGen pt b).cmdIn = s.cmdIn := by cases b <;> rfl
@[simp] theorem putGen_nmaxLog (pt : RawPoint) (b : Bool) : (s.putGen pt b).nmaxLog = s.nmaxLog := by cases b <;> rfl
@[simp] theorem putGen_ok (pt : RawPoint) (b : Bool) : (s.putGen pt b).gen.ok = b := by cases b <;> rfl
@[simp] theorem putGen_nmax (pt : RawPoint) (b : Bool) : (s.putGen pt b).nmax = s.nmax := by cases b <;> rfl
@[simp] theorem putGen_fld (pt : RawPoint) (b : Bool) (k : Ctx) : (s.putGen pt b).fld k = s.fld k := by
  cases b <;> cases k <;> rfl

/-! ### The host's moves -/

@[simp] theorem assertReset_nmaxLog : s.assertReset.nmaxLog = s.nmaxLog := rfl
@[simp] theorem assertReset_status : s.assertReset.status = 0 := rfl
@[simp] theorem assertReset_cmdIn : s.assertReset.cmdIn = [] := rfl
@[simp] theorem offer_cmdIn (ws : List Word) : (s.offer ws).cmdIn = s.cmdIn ++ ws := rfl

/-! ### The two contexts -/

@[simp] theorem fld_coord : s.fld .coord = s.fld0 := rfl
@[simp] theorem fld_order : s.fld .order = s.fld1 := rfl
@[simp] theorem curve_fp : s.curve.fp = s.fld0 := rfl
@[simp] theorem curve_fq : s.curve.fq = s.fld1 := rfl
@[simp] theorem curve_crv : s.curve.crv = s.crv := rfl

end Sys2Proof.Machine.State
end

