-- ==== Sys2Proof/Laws/Ops.lean ====
section
/-! SUPPORT. One lemma per shared operation that says once everything it can do; provers cite these instead of unfolding. -/

namespace Sys2Proof.Machine

/-! ## Pseudocode in `Except Cause` -/

@[simp] theorem ok_bind {α β : Type} (x : α) (k : α → Except Cause β) : (Except.ok x >>= k) = k x := rfl

@[simp] theorem error_bind {α β : Type} (c : Cause) (k : α → Except Cause β) :
    ((Except.error c : Except Cause α) >>= k) = .error c := rfl

@[simp] theorem pure_ok {α : Type} (x : α) : (pure x : Except Cause α) = .ok x := rfl

theorem bind_eq_ok {α β : Type} {r : Except Cause α} {k : α → Except Cause β} {y : β} :
    (r >>= k) = .ok y ↔ ∃ x, r = .ok x ∧ k x = .ok y := by
  cases r <;> simp

theorem bind_eq_error {α β : Type} {r : Except Cause α} {k : α → Except Cause β} {c : Cause} :
    (r >>= k) = .error c ↔ r = .error c ∨ ∃ x, r = .ok x ∧ k x = .error c := by
  cases r <;> simp

theorem require_eq_ok {b : Bool} {c : Cause} {u : Unit} : require b c = .ok u ↔ b = true := by
  cases b <;> simp [require]

theorem require_eq_error {b : Bool} {c d : Cause} : require b c = .error d ↔ b = false ∧ c = d := by
  cases b <;> simp [require]

@[simp] theorem require_true (c : Cause) : require true c = .ok () := rfl
@[simp] theorem require_false (c : Cause) : require false c = .error c := rfl

/-! ## Registers -/

theorem readReg_eq_ok {α : Type} {r : RegFile α} {i : RegNo} {x : α} : readReg r i = .ok x ↔ r.get i = some x := by
  unfold readReg; cases r.get i <;> simp

theorem readReg_eq_error {α : Type} {r : RegFile α} {i : RegNo} {c : Cause} :
    readReg r i = .error c ↔ r.get i = none ∧ c = .unwrittenRegister := by
  unfold readReg; cases r.get i <;> simp [eq_comm]

theorem readReg_of_some {α : Type} {r : RegFile α} {i : RegNo} {x : α} (h : r.get i = some x) : readReg r i = .ok x :=
  readReg_eq_ok.2 h

theorem readReg_of_none {α : Type} {r : RegFile α} {i : RegNo} (h : r.get i = none) :
    readReg r i = .error .unwrittenRegister := readReg_eq_error.2 ⟨h, rfl⟩

/-- A written register reads back, and the other fifteen are as they were. -/
theorem writeReg_get {α : Type} (r : RegFile α) (i k : RegNo) (x : α) :
    (writeReg r i x).get k = if k = i then some x else r.get k := by
  have e : ∀ q : RegFile α, q.get k = q[k.val] := fun _ => rfl
  rw [e, e, writeReg, Vector.getElem_set]
  by_cases h : k = i
  · subst h; simp
  · rw [if_neg h, if_neg fun h' => h (Fin.ext h'.symm)]

@[simp] theorem writeReg_get_same {α : Type} (r : RegFile α) (i : RegNo) (x : α) : (writeReg r i x).get i = some x := by
  simp [writeReg_get]

theorem writeReg_get_other {α : Type} (r : RegFile α) {i k : RegNo} (h : k ≠ i) (x : α) :
    (writeReg r i x).get k = r.get k := by
  simp [writeReg_get, h]

@[simp] theorem reset_get {α : Type} (i : RegNo) : (RegFile.reset : RegFile α).get i = none := by
  simp [RegFile.reset, Vector.get]

/-! ## Completing and faulting -/

/-- Everything a command can do: complete with its result, or enter a fault from the state before it (60_exceptions.md R275). -/
theorem finish_eq_next {s t : State} {r : Except Cause State} :
    finish s r = .next t ↔ (∃ u, r = .ok u ∧ t = u.complete) ∨ ∃ c, r = .error c ∧ t = s.enterFault c := by
  cases r <;> simp [finish, eq_comm]

@[simp] theorem finish_ok (s u : State) : finish s (.ok u) = .next u.complete := rfl
@[simp] theorem finish_error (s : State) (c : Cause) : finish s (.error c) = .next (s.enterFault c) := rfl

theorem finish_ne_fault (s : State) (r : Except Cause State) (f : Fault) : finish s r ≠ .fault f := by
  cases r <;> simp

theorem finish_ne_refused (s : State) (r : Except Cause State) (f : Refusal) : finish s r ≠ .refused f := by
  cases r <;> simp

/-! ## The curve, two contexts, entries -/

theorem needCurve_eq_ok {s : State} {u : Unit} : s.needCurve = .ok u ↔ s.crv.ok = true := require_eq_ok

theorem needCurve_eq_error {s : State} {c : Cause} : s.needCurve = .error c ↔ s.crv.ok = false ∧ c = .curveNotReady := by
  rw [State.needCurve, require_eq_error, eq_comm (a := Cause.curveNotReady)]

theorem sameField_eq_ok {s : State} {c1 c2 : Ctx} {u : Unit} :
    s.sameField c1 c2 = .ok u ↔ (s.fld c1).mod = (s.fld c2).mod := by
  rw [State.sameField, require_eq_ok, beq_iff_eq]

theorem sameField_eq_error {s : State} {c1 c2 : Ctx} {c : Cause} :
    s.sameField c1 c2 = .error c ↔ (s.fld c1).mod ≠ (s.fld c2).mod ∧ c = .modulusMismatch := by
  rw [State.sameField, require_eq_error, beq_eq_false_iff_ne, eq_comm (a := Cause.modulusMismatch)]

theorem entry_eq_ok {α : Type} {xs : List α} {n : Nat} {x : α} : entry xs n = .ok x ↔ xs[n]? = some x := by
  unfold entry; cases xs[n]? <;> simp

theorem entry_eq_error {α : Type} {xs : List α} {n : Nat} {c : Cause} :
    entry xs n = .error c ↔ xs.length ≤ n ∧ c = .rangeError := by
  unfold entry
  cases h : xs[n]? with
  | none => simpa [eq_comm] using fun _ => List.getElem?_eq_none_iff.1 h
  | some x =>
    have := (List.getElem?_eq_some_iff.1 h).1
    simp; omega

/-- The two vectors of a command: both read, under one modulus, of one length (43_vector.md R211). -/
theorem vecPair_eq_ok {s : State} {i k : RegNo} {r : FVec × List Fe} :
    s.vecPair i k = .ok r ↔ ∃ x y, s.v.get i = some x ∧ s.v.get k = some y ∧ (s.fld x.ctx).mod = (s.fld y.ctx).mod ∧
      x.elems.length = y.elems.length ∧ r = (x, y.elems.map (s.convert y.ctx x.ctx)) := by
  unfold State.vecPair
  simp only [bind_eq_ok, readReg_eq_ok, sameField_eq_ok, require_eq_ok, beq_iff_eq, pure_ok, Except.ok.injEq]
  constructor
  · rintro ⟨x, hx, y, hy, -, hm, -, hl, rfl⟩
    exact ⟨x, y, hx, hy, hm, hl, rfl⟩
  · rintro ⟨x, y, hx, hy, hm, hl, rfl⟩
    exact ⟨x, hx, y, hy, (), hm, (), hl, rfl⟩

/-! ## Serialization -/

theorem ser_eq_ok {f : FieldCtx} {q : Affine} {bs : List Byte} :
    ser f q = .ok bs ↔ ∃ x y, q = .pt x y ∧ bs = be32 (f.val x) ++ be32 (f.val y) := by
  cases q <;> simp [ser, eq_comm]

theorem ser_eq_error {f : FieldCtx} {q : Affine} {c : Cause} : ser f q = .error c ↔ q = .inf ∧ c = .infinityEncode := by
  cases q <;> simp [ser, eq_comm]

theorem beBytes_length (n v : Nat) : (beBytes n v).length = n := by
  induction n with
  | zero => rfl
  | succ n ih => simp [beBytes, ih]

@[simp] theorem be32_length (v : Nat) : (be32 v).length = 32 := beBytes_length _ _

/-- Points none of which is at infinity serialize one after the other (20_memory.md R53). -/
theorem serAll_of_finite {f : FieldCtx} {qs : List Affine} (h : ∀ q ∈ qs, q ≠ .inf) :
    ∃ bs, serAll f qs = .ok bs ∧ bs.length = 64 * qs.length := by
  induction qs with
  | nil => exact ⟨[], rfl, rfl⟩
  | cons q qs ih =>
    obtain ⟨bs, hb, hl⟩ := ih fun q' hq' => h q' (List.mem_cons_of_mem _ hq')
    cases q with
    | inf => exact absurd rfl (h .inf List.mem_cons_self)
    | pt x y =>
      refine ⟨be32 (f.val x) ++ be32 (f.val y) ++ bs, by simp [serAll, ser, hb], ?_⟩
      simp [hl]; omega

/-! ## The step -/

/-- Everything a step that goes on can do: discard a word, fault on a header, or run a decoded command. -/
theorem step_cases {s t : State} (h : step s = .next t) :
    ∃ w rest, s.cmdIn = w :: rest ∧
      ((s.halted = true ∧ t = { s with cmdIn := rest }) ∨
       (s.halted = false ∧ (∃ err, checkHeader w = .error err) ∧
          t = State.enterFault { s with cmdIn := rest } .illegalCommand) ∨
       (s.halted = false ∧ (∃ o, checkHeader w = .ok o ∧ o.outOfRange s.nmax w = true) ∧
          t = State.enterFault { s with cmdIn := rest } .rangeError) ∨
       (s.halted = false ∧ ∃ o i rest', checkHeader w = .ok o ∧ o.outOfRange s.nmax w = false ∧
          decode (w :: rest) = .ok (i, rest') ∧ exec i { s with cmdIn := rest' } = .next t)) := by
  unfold step State.fetch at h
  cases hc : s.cmdIn with
  | nil => simp [hc] at h
  | cons w rest =>
    refine ⟨w, rest, rfl, ?_⟩
    simp only [hc] at h
    cases hh : s.halted with
    | true =>
      simp only [hh, if_true] at h
      exact .inl ⟨rfl, by simpa using h.symm⟩
    | false =>
      simp only [hh, Bool.false_eq_true, if_false] at h
      cases ho : checkHeader w with
      | error err =>
        simp only [ho] at h
        exact .inr (.inl ⟨rfl, ⟨err, rfl⟩, by simpa using h.symm⟩)
      | ok o =>
        simp only [ho] at h
        cases hr : o.outOfRange s.nmax w with
        | true =>
          simp only [hr, if_true] at h
          exact .inr (.inr (.inl ⟨rfl, ⟨o, rfl, hr⟩, by simpa using h.symm⟩))
        | false =>
          simp only [hr, Bool.false_eq_true, if_false] at h
          cases hd : decode (w :: rest) with
          | error err => simp [hd] at h
          | ok p =>
            obtain ⟨i, rest'⟩ := p
            simp only [hd] at h
            exact .inr (.inr (.inr ⟨rfl, o, i, rest', rfl, hr, rfl, h⟩))

end Sys2Proof.Machine
end

