-- ==== Sys2Proof/Laws/PerInstr.lean ====
section
/-! SUPPORT. Statements about every constructor of Instr as syntax, one lemma per constructor. -/

namespace Sys2Proof.Laws.EncodesPayloadLength

/-- The encoder gives a command exactly the payload words that its own header announces (30_encoding.md R70, R74). -/
def Statement (i : Instr) : Prop :=
  i.wf = true → (encodePayload i).length = i.opcode.payloadWords (encodeHeader i)

theorem nop : Statement (.nop) := fun _ => rfl

theorem fsetup (ctx : Ctx) (strat : Strat) (modulus : Raw) : Statement (.fsetup ctx strat modulus) := fun _ => words256_length _

theorem csetup (a b : Raw) : Statement (.csetup a b) := fun _ => by
  simp only [encodePayload, List.length_append, words256_length]; rfl

theorem sts : Statement (.sts) := fun _ => rfl

theorem lde (ed : RegNo) (ctx : Ctx) (raw : Raw) : Statement (.lde ed ctx raw) := fun _ => words256_length _

theorem ste (es : RegNo) : Statement (.ste es) := fun _ => rfl

theorem lda (ad : RegNo) (pt : RawPoint) : Statement (.lda ad pt) := fun _ => wordsPoint_length _

theorem ldainf (ad : RegNo) : Statement (.ldainf ad) := fun _ => rfl

theorem sta (sa : RegNo) : Statement (.sta sa) := fun _ => rfl

theorem ldv (vd : RegNo) (ctx : Ctx) (raws : List Raw) : Statement (.ldv vd ctx raws) := fun h => by
  simp only [Instr.wf, decide_eq_true_eq] at h
  simp only [encodePayload, flatMap_words256_length, Instr.opcode, Opcode.payloadWords, encodeHeader]
  rw [imm12_packI _ vd.isLt ctx.toNat_lt (by decide) h]

theorem stv (vs : RegNo) : Statement (.stv vs) := fun _ => rfl

theorem ldg (gd : RegNo) (pts : List RawPoint) : Statement (.ldg gd pts) := fun h => by
  simp only [Instr.wf, decide_eq_true_eq] at h
  simp only [encodePayload, flatMap_wordsPoint_length, Instr.opcode, Opcode.payloadWords, encodeHeader]
  rw [imm12_packI _ gd.isLt (by decide) (by decide) h]

theorem stg (gs : RegNo) : Statement (.stg gs) := fun _ => rfl

theorem fadd (ed es1 es2 : RegNo) : Statement (.fadd ed es1 es2) := fun _ => rfl

theorem fsub (ed es1 es2 : RegNo) : Statement (.fsub ed es1 es2) := fun _ => rfl

theorem fmul (ed es1 es2 : RegNo) : Statement (.fmul ed es1 es2) := fun _ => rfl

theorem fneg (ed es : RegNo) : Statement (.fneg ed es) := fun _ => rfl

theorem finv (ed es : RegNo) : Statement (.finv ed es) := fun _ => rfl

theorem fpow (ed es : RegNo) (expo : Raw) : Statement (.fpow ed es expo) := fun _ => words256_length _

theorem fpoww (ed es : RegNo) (expo : Raw) : Statement (.fpoww ed es expo) := fun _ => words256_length _

theorem fsqrt (ed es : RegNo) : Statement (.fsqrt ed es) := fun _ => rfl

theorem feq (es1 es2 : RegNo) : Statement (.feq es1 es2) := fun _ => rfl

theorem fmov (ed es : RegNo) : Statement (.fmov ed es) := fun _ => rfl

theorem pchk (sa : RegNo) : Statement (.pchk sa) := fun _ => rfl

theorem ptoj (jd sa : RegNo) : Statement (.ptoj jd sa) := fun _ => rfl

theorem ptoa (ad js : RegNo) : Statement (.ptoa ad js) := fun _ => rfl

theorem padd (jd js1 js2 : RegNo) : Statement (.padd jd js1 js2) := fun _ => rfl

theorem pmadd (jd js1 sa2 : RegNo) : Statement (.pmadd jd js1 sa2) := fun _ => rfl

theorem pdbl (jd js : RegNo) : Statement (.pdbl jd js) := fun _ => rfl

theorem pneg (jd js : RegNo) : Statement (.pneg jd js) := fun _ => rfl

theorem pmul (jd es js : RegNo) : Statement (.pmul jd es js) := fun _ => rfl

theorem peq (sa1 sa2 : RegNo) : Statement (.peq sa1 sa2) := fun _ => rfl

theorem gsetup (pt : RawPoint) : Statement (.gsetup pt) := fun _ => wordsPoint_length _

theorem agen (ad : RegNo) : Statement (.agen ad) := fun _ => rfl

theorem vadd (vd vs1 vs2 : RegNo) : Statement (.vadd vd vs1 vs2) := fun _ => rfl

theorem vsub (vd vs1 vs2 : RegNo) : Statement (.vsub vd vs1 vs2) := fun _ => rfl

theorem vhad (vd vs1 vs2 : RegNo) : Statement (.vhad vd vs1 vs2) := fun _ => rfl

theorem vscl (vd vs es : RegNo) : Statement (.vscl vd vs es) := fun _ => rfl

theorem vip (ed vs1 vs2 : RegNo) : Statement (.vip ed vs1 vs2) := fun _ => rfl

theorem vslice (vd vs : RegNo) (start len : Fin 65536) : Statement (.vslice vd vs start len) := fun _ => rfl

theorem vpow (vd es : RegNo) (n : Fin 4096) : Statement (.vpow vd es n) := fun _ => rfl

theorem vget (ed vs : RegNo) (idx : Fin 4096) : Statement (.vget ed vs idx) := fun _ => rfl

theorem vrev (vd vs : RegNo) : Statement (.vrev vd vs) := fun _ => rfl

theorem gmsm (jd gs vs : RegNo) : Statement (.gmsm jd gs vs) := fun _ => rfl

theorem gslice (gd gs : RegNo) (start len : Fin 65536) : Statement (.gslice gd gs start len) := fun _ => rfl

theorem gget (ad gs : RegNo) (idx : Fin 4096) : Statement (.gget ad gs idx) := fun _ => rfl

theorem ipach (ed aL aC aR : RegNo) : Statement (.ipach ed aL aC aR) := fun _ => rfl

theorem ipasv (vd vs : RegNo) : Statement (.ipasv vd vs) := fun _ => rfl

theorem ipavfy (gs hs au aP : RegNo) (proof : RawProof) : Statement (.ipavfy gs hs au aP proof) := fun h => by
  simp only [Instr.wf, RawProof.wf, Bool.and_eq_true, beq_iff_eq, decide_eq_true_eq] at h
  simp only [encodePayload, wordsProof_length, Instr.opcode, Opcode.payloadWords, encodeHeader, ← h.1]
  rw [imm8_packK _ gs.isLt hs.isLt au.isLt aP.isLt h.2]
  omega

theorem ipaprv (gs hs au aP va vb : RegNo) : Statement (.ipaprv gs hs au aP va vb) := fun _ => rfl

end Sys2Proof.Laws.EncodesPayloadLength
end

