-- ==== Sys2Proof/Laws/Vector.lean ====
section
/-! SUPPORT. One specification lemma per vector function at the level of values (43_vector.md R212 to R214), for an operand taken to
another context of the same modulus (41_field.md R149), and for the shapes that several meanings share. -/

namespace Sys2Proof.Machine

/-! ## Operands of two contexts (41_field.md R149) -/

/-- An operand keeps its value when it is taken to a context of the same modulus. -/
theorem State.convert_spec {s : State} {src dst : Ctx} (h1 : (s.fld src).WF) (h2 : (s.fld dst).WF)
    (hm : (s.fld dst).mod = (s.fld src).mod) {x : Fe} (hx : (s.fld src).Canon x) :
    (s.fld dst).Canon (s.convert src dst x) ∧ (s.fld dst).val (s.convert src dst x) = (s.fld src).val x := by
  have e : (s.fld dst).m = (s.fld src).m := by simp [FieldCtx.m, hm]
  have hlt : (s.fld src).val x < (s.fld dst).m := by rw [e]; exact h1.val_lt hx
  unfold State.convert
  split
  · subst src; exact ⟨hx, rfl⟩
  · exact ⟨h2.canon_enc hlt, h2.val_enc hlt⟩

/-! ## Shared shapes -/

theorem require_of_ne {α : Type} [BEq α] [LawfulBEq α] {a b : α} (h : a ≠ b) (c : Cause) :
    require (a == b) c = .error c := by
  rw [beq_eq_false_iff_ne.2 h, require_false]

/-- Everything FADD, FSUB and FMUL do once both sources are written (41_field.md R150 to R152). -/
theorem fieldBinary_of_some (op : FieldCtx → Fe → Fe → Fe) {s : State} {ed i k : RegNo} {x y : Elem} (hx : s.e.get i = some x)
    (hy : s.e.get k = some y) : fieldBinary op ed i k s =
      if (s.fld x.ctx).mod = (s.fld y.ctx).mod then
        .next (s.putE ed ⟨x.ctx, op (s.fld x.ctx) x.s (s.convert y.ctx x.ctx y.s)⟩).complete
      else .next (s.enterFault .modulusMismatch) := by
  unfold fieldBinary
  simp only [readReg_of_some hx, readReg_of_some hy, ok_bind, State.sameField]
  by_cases h : (s.fld x.ctx).mod = (s.fld y.ctx).mod
  · simp [h]
  · simp [h, require_of_ne h]

/-- Everything `vecPair` does once both sources are written (43_vector.md R211). -/
theorem vecPair_of_some {s : State} {i k : RegNo} {x y : FVec} (hx : s.v.get i = some x) (hy : s.v.get k = some y) :
    s.vecPair i k =
      if (s.fld x.ctx).mod = (s.fld y.ctx).mod then
        if x.elems.length = y.elems.length then .ok (x, y.elems.map (s.convert y.ctx x.ctx)) else .error .lengthMismatch
      else .error .modulusMismatch := by
  unfold State.vecPair
  simp only [readReg_of_some hx, readReg_of_some hy, ok_bind, State.sameField]
  by_cases h : (s.fld x.ctx).mod = (s.fld y.ctx).mod
  · by_cases h' : x.elems.length = y.elems.length
    · simp [h, h']
    · simp [h, h', require_of_ne h']
  · simp [h, require_of_ne h]

/-- Everything VADD, VSUB and VHAD do once both sources are written (43_vector.md R223 to R225). -/
theorem vecBinary_of_some (op : FieldCtx → List Fe → List Fe → List Fe) {s : State} {vd i k : RegNo} {x y : FVec}
    (hx : s.v.get i = some x) (hy : s.v.get k = some y) : vecBinary op vd i k s =
      if (s.fld x.ctx).mod = (s.fld y.ctx).mod then
        if x.elems.length = y.elems.length then
          .next (s.putV vd ⟨x.ctx, op (s.fld x.ctx) x.elems (y.elems.map (s.convert y.ctx x.ctx))⟩).complete
        else .next (s.enterFault .lengthMismatch)
      else .next (s.enterFault .modulusMismatch) := by
  unfold vecBinary
  rw [vecPair_of_some hx hy]
  by_cases h : (s.fld x.ctx).mod = (s.fld y.ctx).mod
  · by_cases h' : x.elems.length = y.elems.length
    · simp [h, h']
    · simp [h, h']
  · simp [h]

namespace FieldCtx

variable {f : FieldCtx}

/-! ## Pointwise functions (43_vector.md R212) -/

theorem zipWith_spec (op : Fe → Fe → Fe) (vop : Nat → Nat → Nat)
    (hop : ∀ a b, f.Canon a → f.Canon b → f.Canon (op a b) ∧ f.val (op a b) = vop (f.val a) (f.val b)) :
    ∀ as bs : List Fe, (∀ a ∈ as, f.Canon a) → (∀ b ∈ bs, f.Canon b) →
      (∀ r ∈ List.zipWith op as bs, f.Canon r) ∧
      (List.zipWith op as bs).map f.val = List.zipWith vop (as.map f.val) (bs.map f.val) := by
  intro as
  induction as with
  | nil => intro bs _ _; simp
  | cons a as ih =>
    intro bs ha hb
    cases bs with
    | nil => simp
    | cons b bs =>
      have h1 := hop a b (ha a List.mem_cons_self) (hb b List.mem_cons_self)
      have h2 := ih bs (fun x hx => ha x (List.mem_cons_of_mem _ hx)) (fun x hx => hb x (List.mem_cons_of_mem _ hx))
      simp only [List.zipWith_cons_cons, List.map_cons, List.mem_cons, forall_eq_or_imp]
      exact ⟨⟨h1.1, h2.1⟩, by rw [h1.2, h2.2]⟩

theorem WF.vadd_spec (h : f.WF) {as bs : List Fe} (ha : ∀ a ∈ as, f.Canon a) (hb : ∀ b ∈ bs, f.Canon b) :
    (∀ r ∈ f.vadd as bs, f.Canon r) ∧
    (f.vadd as bs).map f.val = List.zipWith (Values.fadd f.m) (as.map f.val) (bs.map f.val) :=
  zipWith_spec f.add (Values.fadd f.m) (fun a b _ _ => ⟨h.canon_add a b, h.val_add a b⟩) as bs ha hb

theorem WF.vsub_spec (h : f.WF) {as bs : List Fe} (ha : ∀ a ∈ as, f.Canon a) (hb : ∀ b ∈ bs, f.Canon b) :
    (∀ r ∈ f.vsub as bs, f.Canon r) ∧
    (f.vsub as bs).map f.val = List.zipWith (Values.fsub f.m) (as.map f.val) (bs.map f.val) :=
  zipWith_spec f.sub (Values.fsub f.m) (fun _ _ ha hb => ⟨WF.canon_sub ha hb, h.val_sub ha hb⟩) as bs ha hb

theorem WF.vhad_spec (h : f.WF) {as bs : List Fe} (ha : ∀ a ∈ as, f.Canon a) (hb : ∀ b ∈ bs, f.Canon b) :
    (∀ r ∈ f.vhad as bs, f.Canon r) ∧
    (f.vhad as bs).map f.val = List.zipWith (Values.fmul f.m) (as.map f.val) (bs.map f.val) :=
  zipWith_spec f.mul (Values.fmul f.m) (fun _ b ha _ => ⟨h.canon_mul ha b, h.val_mul ha b⟩) as bs ha hb

theorem WF.vscl_spec (h : f.WF) {k : Fe} (hk : f.Canon k) (as : List Fe) :
    (∀ r ∈ f.vscl k as, f.Canon r) ∧ (f.vscl k as).map f.val = (as.map f.val).map (Values.fmul f.m (f.val k)) := by
  refine ⟨?_, ?_⟩
  · intro r hr
    obtain ⟨a, -, rfl⟩ := List.mem_map.1 hr
    exact h.canon_mul hk a
  · simp only [vscl, List.map_map]
    exact List.map_congr_left fun a _ => h.val_mul hk a

/-! ## Inner product and powers (43_vector.md R213, R214) -/

theorem WF.vipFrom_spec (h : f.WF) : ∀ (as bs : List Fe) (acc : Fe), (∀ a ∈ as, f.Canon a) → f.Canon acc →
    f.Canon (f.vipFrom acc as bs) ∧ f.val (f.vipFrom acc as bs) =
      (f.val acc + (List.zipWith (· * ·) (as.map f.val) (bs.map f.val)).sum) % f.m := by
  intro as
  induction as with
  | nil => intro bs acc _ hc; exact ⟨by unfold vipFrom; exact hc, by simp [vipFrom, Nat.mod_eq_of_lt (h.val_lt hc)]⟩
  | cons a as ih =>
    intro bs acc ha hc
    cases bs with
    | nil => exact ⟨by unfold vipFrom; exact hc, by simp [vipFrom, Nat.mod_eq_of_lt (h.val_lt hc)]⟩
    | cons b bs =>
      have := ih bs (f.add acc (f.mul a b)) (fun x hx => ha x (List.mem_cons_of_mem _ hx)) (h.canon_add _ _)
      refine ⟨this.1, ?_⟩
      rw [vipFrom, this.2, h.val_add, h.val_mul (ha a List.mem_cons_self)]
      simp only [Values.fadd, Values.fmul, List.map_cons, List.zipWith_cons_cons, List.sum_cons]
      rw [Nat.mod_add_mod, ← Nat.add_assoc, Nat.add_assoc _ (_ % _), Nat.add_comm (_ % _), ← Nat.add_assoc,
        Nat.add_mod_mod]
      congr 1; omega

theorem WF.vip_spec (h : f.WF) {as bs : List Fe} (ha : ∀ a ∈ as, f.Canon a) :
    f.Canon (f.vip as bs) ∧ f.val (f.vip as bs) = Values.vip f.m (as.map f.val) (bs.map f.val) := by
  have := h.vipFrom_spec as bs 0 ha h.canon_zero
  refine ⟨this.1, ?_⟩
  rw [vip, this.2, f.val_zero, Nat.zero_add, Values.vip]

/-- A chain of products is a geometric sequence. -/
theorem WF.mulChain_spec (h : f.WF) {a : Fe} : ∀ (n : Nat) (cur : Fe), f.Canon cur →
    (f.mulChain a n cur).length = n ∧
    ∀ i x, (f.mulChain a n cur)[i]? = some x → f.Canon x ∧ f.toZ x = f.toZ cur * f.toZ a ^ i := by
  intro n
  induction n with
  | zero => intro cur _; exact ⟨rfl, fun i x hx => by simp [mulChain] at hx⟩
  | succ n ih =>
    intro cur hc
    have := ih (f.mul cur a) (h.canon_mul hc a)
    refine ⟨by simp [mulChain, this.1], ?_⟩
    intro i x hx
    cases i with
    | zero =>
      simp only [mulChain, List.getElem?_cons_zero, Option.some.injEq] at hx
      subst hx; exact ⟨hc, by simp⟩
    | succ i =>
      simp only [mulChain, List.getElem?_cons_succ] at hx
      obtain ⟨h1, h2⟩ := this.2 i x hx
      refine ⟨h1, ?_⟩
      rw [h2, h.toZ_mul hc, pow_succ]; ring

end FieldCtx

end Sys2Proof.Machine
end

