-- ==== Sys2Proof/Machine/Asm.lean ====
section
/-! DEFINITION. The assembler's way of writing a command (30_encoding.md R82). -/

namespace Sys2Proof.Machine

/-- A 256-bit payload value: `#` and a decimal natural (30_encoding.md R82). -/
def asmRaw (r : Raw) : String := "#" ++ toString r.toNat

/-- A point payload (30_encoding.md R82). -/
def asmPoint (q : RawPoint) : String := "(" ++ asmRaw q.x ++ ", " ++ asmRaw q.y ++ ")"

/-- A bracketed list. -/
def asmList (xs : List String) : String := "[" ++ String.intercalate ", " xs ++ "]"

/-- A proof payload; the braces are characters 123 and 125 (30_encoding.md R82). -/
def asmProof (p : RawProof) : String :=
  "proof" ++ String.singleton (Char.ofNat 123) ++ "L:" ++ asmList (p.ls.map asmPoint) ++ ", R:" ++
    asmList (p.rs.map asmPoint) ++ ", a:" ++ asmRaw p.a ++ ", b:" ++ asmRaw p.b ++ String.singleton (Char.ofNat 125)

/-- A register of the file with the given letter. -/
def asmReg (file : String) (r : RegNo) : String := file ++ toString r.val

/-- A `ctx` operand, written 0 or 1. -/
def asmCtx (c : Ctx) : String := toString c.toNat

/-- A `strat` operand, written `naive` or `mont`. -/
def asmStrat : Strat → String
  | .naive => "naive"
  | .mont => "mont"

/-- The operands of a command in the order of 30_encoding.md R77 from `f5` down, then immediates, then payload. -/
def asmOperands : Instr → List String
  | .nop | .sts => []
  | .fsetup ctx strat m => [asmCtx ctx, asmStrat strat, asmRaw m]
  | .csetup a b => [asmRaw a, asmRaw b]
  | .lde ed ctx raw => [asmReg "e" ed, asmCtx ctx, asmRaw raw]
  | .ste es => [asmReg "e" es]
  | .lda ad pt => [asmReg "a" ad, asmPoint pt]
  | .ldainf r | .sta r | .pchk r | .agen r => [asmReg "a" r]
  | .ldv vd ctx raws => [asmReg "v" vd, asmCtx ctx, toString raws.length, asmList (raws.map asmRaw)]
  | .stv vs => [asmReg "v" vs]
  | .ldg gd pts => [asmReg "g" gd, toString pts.length, asmList (pts.map asmPoint)]
  | .stg gs => [asmReg "g" gs]
  | .fadd d r1 r2 | .fsub d r1 r2 | .fmul d r1 r2 => [asmReg "e" d, asmReg "e" r1, asmReg "e" r2]
  | .fneg d r | .finv d r | .fsqrt d r | .feq d r | .fmov d r => [asmReg "e" d, asmReg "e" r]
  | .fpow d r x | .fpoww d r x => [asmReg "e" d, asmReg "e" r, asmRaw x]
  | .ptoj jd sa => [asmReg "j" jd, asmReg "a" sa]
  | .ptoa ad js => [asmReg "a" ad, asmReg "j" js]
  | .padd d r1 r2 => [asmReg "j" d, asmReg "j" r1, asmReg "j" r2]
  | .pmadd d r1 r2 => [asmReg "j" d, asmReg "j" r1, asmReg "a" r2]
  | .pdbl d r | .pneg d r => [asmReg "j" d, asmReg "j" r]
  | .pmul jd es js => [asmReg "j" jd, asmReg "e" es, asmReg "j" js]
  | .peq r1 r2 => [asmReg "a" r1, asmReg "a" r2]
  | .gsetup pt => [asmPoint pt]
  | .vadd d r1 r2 | .vsub d r1 r2 | .vhad d r1 r2 => [asmReg "v" d, asmReg "v" r1, asmReg "v" r2]
  | .vscl vd vs es => [asmReg "v" vd, asmReg "v" vs, asmReg "e" es]
  | .vip ed vs1 vs2 => [asmReg "e" ed, asmReg "v" vs1, asmReg "v" vs2]
  | .vslice vd vs start len => [asmReg "v" vd, asmReg "v" vs, toString start.val, toString len.val]
  | .vpow vd es n => [asmReg "v" vd, asmReg "e" es, toString n.val]
  | .vget ed vs idx => [asmReg "e" ed, asmReg "v" vs, toString idx.val]
  | .vrev d r | .ipasv d r => [asmReg "v" d, asmReg "v" r]
  | .gmsm jd gs vs => [asmReg "j" jd, asmReg "g" gs, asmReg "v" vs]
  | .gslice gd gs start len => [asmReg "g" gd, asmReg "g" gs, toString start.val, toString len.val]
  | .gget ad gs idx => [asmReg "a" ad, asmReg "g" gs, toString idx.val]
  | .ipach ed aL aC aR => [asmReg "e" ed, asmReg "a" aL, asmReg "a" aC, asmReg "a" aR]
  | .ipavfy gs hs au aP pf =>
    [asmReg "g" gs, asmReg "g" hs, asmReg "a" au, asmReg "a" aP, toString pf.ls.length, asmProof pf]
  | .ipaprv gs hs au aP va vb =>
    [asmReg "g" gs, asmReg "g" hs, asmReg "a" au, asmReg "a" aP, asmReg "v" va, asmReg "v" vb]

/-- The mnemonic of a command, as 30_encoding.md R77 spells it. -/
def asmMnemonic : Opcode → String
  | .nop => "NOP" | .fsetup => "FSETUP" | .csetup => "CSETUP" | .sts => "STS" | .lde => "LDE"
  | .ste => "STE" | .lda => "LDA" | .ldainf => "LDAINF" | .sta => "STA" | .ldv => "LDV"
  | .stv => "STV" | .ldg => "LDG" | .stg => "STG" | .fadd => "FADD" | .fsub => "FSUB"
  | .fmul => "FMUL" | .fneg => "FNEG" | .finv => "FINV" | .fpow => "FPOW" | .fpoww => "FPOWW"
  | .fsqrt => "FSQRT" | .feq => "FEQ" | .fmov => "FMOV" | .pchk => "PCHK" | .ptoj => "PTOJ"
  | .ptoa => "PTOA" | .padd => "PADD" | .pmadd => "PMADD" | .pdbl => "PDBL" | .pneg => "PNEG"
  | .pmul => "PMUL" | .peq => "PEQ" | .gsetup => "GSETUP" | .agen => "AGEN" | .vadd => "VADD"
  | .vsub => "VSUB" | .vhad => "VHAD" | .vscl => "VSCL" | .vip => "VIP" | .vslice => "VSLICE"
  | .vpow => "VPOW" | .vget => "VGET" | .vrev => "VREV" | .gmsm => "GMSM" | .gslice => "GSLICE"
  | .gget => "GGET" | .ipach => "IPACH" | .ipasv => "IPASV" | .ipavfy => "IPAVFY" | .ipaprv => "IPAPRV"

/-- One command as the assembler writes it (30_encoding.md R82). -/
def asmLine (i : Instr) : String :=
  match asmOperands i with
  | [] => asmMnemonic i.opcode
  | ops => asmMnemonic i.opcode ++ " " ++ String.intercalate ", " ops

end Sys2Proof.Machine
end

