-- ==== Sys2Proof/Tests/Slice0.lean ====
section
/-! SUPPORT. Small tests of the model, with expected results from spec/ (the examples of the command rules and 95_test_vectors.md),
and one witness for the hypotheses of every obligation that has some. -/

namespace Sys2Proof.Tests

open Machine

/- One thread at a time: each kernel evaluation below takes a thread of its own. -/
set_option Elab.async false

/-! ## Ill-formed terms are refused (WellFormed) -/

theorem test_wf_refuses_long_vector : (Instr.ldv 0 .coord (List.replicate 4096 0)).wf = false := by decide +kernel

theorem test_wf_refuses_long_generator_vector : (Instr.ldg 0 (List.replicate 4096 ⟨0, 0⟩)).wf = false := by decide +kernel

theorem test_wf_refuses_uneven_proof : (Instr.ipavfy 0 1 2 3 ⟨[⟨1, 2⟩], [], 5, 6⟩).wf = false := by decide +kernel

theorem test_wf_refuses_long_proof :
    (Instr.ipavfy 0 1 2 3 ⟨List.replicate 256 ⟨1, 2⟩, List.replicate 256 ⟨1, 2⟩, 5, 6⟩).wf = false := by decide +kernel

theorem test_wf_accepts_boundary : (Instr.ldv 0 .coord (List.replicate 4095 0)).wf = true ∧
    (Instr.ipavfy 0 1 2 3 ⟨List.replicate 255 ⟨1, 2⟩, List.replicate 255 ⟨1, 2⟩, 5, 6⟩).wf = true := by decide +kernel

/-! ## Words written out from the encodings of 30_encoding.md R77 -/

/-- The words decode to the command, wholly, and are its encoding. -/
def reads (ws : List Word) (i : Instr) : Bool := decide (decode ws = .ok (i, [])) && decide (encode i = ws)

/-- The eight words of a small raw value. -/
def w8 (n : Nat) : List Word := [0, 0, 0, 0, 0, 0, 0, BitVec.ofNat 32 n]

theorem test_decode_configuration :
    reads [0x00000000#32] .nop ∧ reads (0x01110000#32 :: w8 43) (.fsetup .order .mont 43) ∧
    reads (0x02000000#32 :: (w8 0 ++ w8 3)) (.csetup 0 3) ∧ reads [0x04000000#32] .sts := by decide +kernel

theorem test_decode_transfer :
    reads (0x08100000#32 :: w8 40) (.lde 1 .coord 40) ∧ reads [0x09100000#32] (.ste 1) ∧
    reads (0x0A200000#32 :: (w8 1 ++ w8 2)) (.lda 2 ⟨1, 2⟩) ∧ reads [0x0B300000#32] (.ldainf 3) ∧
    reads [0x0C200000#32] (.sta 2) ∧ reads (0x0D010003#32 :: (w8 1 ++ w8 2 ++ w8 46)) (.ldv 0 .order [1, 2, 46]) ∧
    reads [0x0E000000#32] (.stv 0) ∧ reads (0x0F000002#32 :: (w8 1 ++ w8 2 ++ w8 4 ++ w8 6)) (.ldg 0 [⟨1, 2⟩, ⟨4, 6⟩]) ∧
    reads [0x10000000#32] (.stg 0) := by decide +kernel

theorem test_decode_field_unit :
    reads [0x20312000#32] (.fadd 3 1 2) ∧ reads [0x21312000#32] (.fsub 3 1 2) ∧ reads [0x22312000#32] (.fmul 3 1 2) ∧
    reads [0x23310000#32] (.fneg 3 1) ∧ reads [0x24310000#32] (.finv 3 1) ∧ reads (0x25310000#32 :: w8 5) (.fpow 3 1 5) ∧
    reads (0x26310000#32 :: w8 5) (.fpoww 3 1 5) ∧ reads [0x27310000#32] (.fsqrt 3 1) ∧ reads [0x28120000#32] (.feq 1 2) ∧
    reads [0x29310000#32] (.fmov 3 1) := by decide +kernel

theorem test_decode_curve_unit :
    reads [0x30200000#32] (.pchk 2) ∧ reads [0x31120000#32] (.ptoj 1 2) ∧ reads [0x32310000#32] (.ptoa 3 1) ∧
    reads [0x33312000#32] (.padd 3 1 2) ∧ reads [0x34312000#32] (.pmadd 3 1 2) ∧ reads [0x35210000#32] (.pdbl 2 1) ∧
    reads [0x36210000#32] (.pneg 2 1) ∧ reads [0x37312000#32] (.pmul 3 1 2) ∧ reads [0x38120000#32] (.peq 1 2) ∧
    reads (0x39000000#32 :: (w8 1 ++ w8 2)) (.gsetup ⟨1, 2⟩) ∧ reads [0x3A400000#32] (.agen 4) := by decide +kernel

theorem test_decode_vector_unit :
    reads [0x40201000#32] (.vadd 2 0 1) ∧ reads [0x41201000#32] (.vsub 2 0 1) ∧ reads [0x42201000#32] (.vhad 2 0 1) ∧
    reads [0x43203000#32] (.vscl 2 0 3) ∧ reads [0x44301000#32] (.vip 3 0 1) ∧
    reads [0x45200000#32, 0x00010002#32] (.vslice 2 0 1 2) ∧ reads [0x46120005#32] (.vpow 1 2 5) ∧
    reads [0x47400002#32] (.vget 4 0 2) ∧ reads [0x48100000#32] (.vrev 1 0) ∧ reads [0x49102000#32] (.gmsm 1 0 2) ∧
    reads [0x4A100000#32, 0x00010001#32] (.gslice 1 0 1 1) ∧ reads [0x4B500001#32] (.gget 5 0 1) := by decide +kernel

theorem test_decode_inner_product_unit :
    reads [0x50123400#32] (.ipach 1 2 3 4) ∧ reads [0x51100000#32] (.ipasv 1 0) ∧
    reads (0x52010101#32 :: (w8 23 ++ w8 24 ++ w8 27 ++ w8 1 ++ w8 13 ++ w8 32))
      (.ipavfy 0 1 0 1 ⟨[⟨23, 24⟩], [⟨27, 1⟩], 13, 32⟩) ∧
    reads [0x53010101#32] (.ipaprv 0 1 0 1 0 1) := by decide +kernel

/-- Payload words are most significant first (20_memory.md R54). -/
theorem test_payload_word_order : decode (0x08100000#32 :: [1, 2, 3, 4, 5, 6, 7, 8]) =
    .ok (.lde 1 .coord 0x0000000100000002000000030000000400000005000000060000000700000008, []) := by decide +kernel

/-- R78 (a), (b), (c), in vectors of 95_test_vectors.md and beside their nearest legal words. -/
theorem test_illegal_headers :
    checkHeader 0x03000000#32 = .error .unassignedOpcode ∧ checkHeader 0xFF000000#32 = .error .unassignedOpcode ∧
    checkHeader 0x20312001#32 = .error .unusedFieldNotZero ∧ checkHeader 0x00000001#32 = .error .unusedFieldNotZero ∧
    checkHeader 0x0D001001#32 = .error .unusedFieldNotZero ∧ checkHeader 0x08120000#32 = .error .selectorAboveOne ∧
    checkHeader 0x01200000#32 = .error .selectorAboveOne ∧ checkHeader 0x01120000#32 = .error .selectorAboveOne := by
  decide +kernel

/-- Every row's match word is a legal header of that row. -/
theorem test_rows : ∀ o ∈ Opcode.all, checkHeader o.row.2 = .ok o := by decide +kernel

/-! ## Small states -/

/-- The order field of R101's example, with the constants that example states. -/
def f43 : FieldCtx :=
  { ok := true, mod := 43, strat := .mont, montR := 0x10, montRinv := 0x23,
    montK := 0xD05F417D05F417D05F417D05F417D05F417D05F417D05F417D05F417D05F417D }

/-- A Montgomery context of modulus 31: 2^256 is 2 modulo 31, and 16 is the inverse of 2. -/
def f31 : FieldCtx :=
  { ok := true, mod := 31, strat := .mont, montR := 2, montRinv := 16,
    montK := 0x8421084210842108421084210842108421084210842108421084210842108421 }

/-- A naive context. -/
def naive (m : Raw) : FieldCtx := { ok := true, mod := m, strat := .naive, montR := 0, montRinv := 0, montK := 0 }

/-- A register file whose first registers are written. -/
def regs {α : Type} (xs : List α) : RegFile α := Vector.ofFn fun i => xs[i.val]?

/-- A written `E` register of context 1 under `f43`. -/
def q43 (n : Nat) : Elem := ⟨.order, f43.enc n⟩

/-- A written `V` register of context 1 under `f43`. -/
def v43 (ns : List Nat) : FVec := ⟨.order, ns.map f43.enc⟩

/-- The test curve T1 of 95_test_vectors.md (`p` = 31, `q` = 43, `A` = 0, `B` = 3), naive below and Montgomery above, with registers
written. -/
def base : State :=
  { State.reset with
    fld0 := naive 31, fld1 := f43, crv := ⟨true, 0, 3, true, false⟩, status := 0xE0, cseq := 3
    e := regs [⟨.coord, 20⟩, ⟨.coord, 15⟩, q43 17, ⟨.coord, 0⟩, q43 1, q43 20, q43 0]
    a := regs [.pt 1 2, .inf, .pt 16 10, .pt 1 3, .pt 14 22, .pt 28 10]
    j := regs [⟨1, 2, 1⟩, ⟨0, 1, 0⟩, ⟨8, 20, 4⟩]
    v := regs [v43 [1, 2, 3], v43 [40, 41, 42], v43 [2, 3], v43 [], ⟨.coord, [1, 2, 3]⟩, v43 [0], v43 [3], v43 [4]]
    g := regs [[.pt 1 2, .pt 16 10], [], [.pt 16 10], [.pt 26 8], [.pt 1 2, .pt 16 10, .pt 22 24]] }

/-- Two contexts of one modulus under different strategies (41_field.md R149). -/
def twin : State :=
  { State.reset with
    fld0 := naive 31, fld1 := f31, status := 0xC0, cseq := 2
    e := regs [⟨.coord, 20⟩, ⟨.order, f31.enc 15⟩]
    v := regs [⟨.coord, [1, 2]⟩, ⟨.order, [30, 4].map f31.enc⟩, ⟨.coord, [5]⟩] }

/-- A composite coordinate modulus, and an order modulus that is 1 mod 4; `J[1]` has a `Z` that is no unit. -/
def composite : State :=
  { State.reset with
    fld0 := naive 15, fld1 := naive 13, crv := ⟨true, 1, 1, false, false⟩, status := 0xE0, cseq := 3
    e := regs [⟨.order, 4⟩, ⟨.coord, 3⟩]
    a := regs [.pt 1 9]
    j := regs [⟨1, 9, 1⟩, ⟨1, 9, 3⟩] }

/-- The set-up part of the invariant, evaluated. -/
def setupParts (s : State) : Bool :=
  decide (s.fld0.ok = true → s.fld0.WF) && decide (s.fld1.ok = true → s.fld1.WF) &&
  decide (s.crv.ok = true → s.fld0.ok = true ∧ s.fld1.ok = true ∧ s.fld0.Canon s.crv.a ∧ s.fld0.Canon s.crv.b ∧
    s.crv.azero = (s.crv.a == 0) ∧ s.crv.bzero = (s.crv.b == 0)) &&
  decide (s.gen.ok = true → s.crv.ok = true ∧ s.fld0.Canon s.gen.x ∧ s.fld0.Canon s.gen.y)

/-- The status part of the invariant, evaluated. -/
def statusParts (s : State) : Bool :=
  decide (s.status &&& 0xFF00FE00#32 = 0 ∧ s.flag .genok = s.gen.ok ∧ s.flag .curveok = s.crv.ok ∧ s.flag .fld0ok = s.fld0.ok ∧
    s.flag .fld1ok = s.fld1.ok) &&
  decide (s.flag .fault = false → getFcode s.status = 0 ∧ s.fseq = 0) &&
  decide (s.flag .fault = true → 1 ≤ (getFcode s.status).toNat ∧ (getFcode s.status).toNat ≤ 14 ∧ s.flag .vfy = false)

/-- The element and vector part of the invariant, evaluated. -/
def elemParts (s : State) : Bool :=
  decide (∀ i, ∀ x ∈ s.e.get i, (s.fld x.ctx).ok = true ∧ (s.fld x.ctx).Canon x.s) &&
  decide (∀ i, ∀ x ∈ s.v.get i, (s.fld x.ctx).ok = true ∧ x.elems.length ≤ s.nmax ∧
    (x.elems.all fun y => decide ((s.fld x.ctx).Canon y)) = true)

/-- The point part of the invariant, evaluated. -/
def pointParts (s : State) : Bool :=
  decide (∀ i, ∀ q ∈ s.a.get i, s.crv.ok = true ∧ q.Canon s.fld0) &&
  decide (∀ i, ∀ p ∈ s.j.get i, s.crv.ok = true ∧ p.Canon s.fld0) &&
  decide (∀ i, ∀ qs ∈ s.g.get i, s.crv.ok = true ∧ qs.length ≤ s.nmax ∧
    (qs.all fun q => decide (q ≠ .inf ∧ q.Canon s.fld0)) = true)

/-- The whole invariant, evaluated. -/
def invParts (s : State) : Bool := setupParts s && statusParts s && elemParts s && pointParts s

theorem inv_of_parts {s : State} (h : invParts s = true) : s.Inv := by
  simp only [invParts, setupParts, statusParts, elemParts, pointParts, Bool.and_eq_true, decide_eq_true_eq, List.all_eq_true] at h
  obtain ⟨⟨⟨⟨⟨⟨hf0, hf1⟩, hc⟩, hg⟩, ⟨hs, hr⟩, hx⟩, he, hv⟩, ⟨ha, hj⟩, hgv⟩ := h
  exact ⟨⟨fun c => by cases c; exacts [hf0, hf1], hc, hg⟩, ⟨he, ha, hj, hv, hgv⟩,
    ⟨hs.1, hs.2.1, hs.2.2.1, hs.2.2.2.1, hs.2.2.2.2, hr, hx⟩⟩

theorem base_inv : base.Inv := inv_of_parts (by decide +kernel)

theorem twin_inv : twin.Inv := inv_of_parts (by decide +kernel)

theorem composite_inv : composite.Inv := inv_of_parts (by decide +kernel)

/-- What holds in the next state of a result. -/
def after (r : Result) (f : State → Bool) : Bool :=
  match r with
  | .next t => f t
  | .fault _ => false
  | .refused _ => false

/-- The command faults with a cause, and only fault entry happens. -/
def raises (i : Instr) (s : State) (c : Cause) : Bool := after (exec i s) fun t => decide (t = s.enterFault c)

/-- The value a command leaves in an `E` register, with its context. -/
def leavesE (i : Instr) (s : State) (r : RegNo) (c : Ctx) (n : Nat) : Bool :=
  after (exec i s) fun t => match t.e.get r with
    | some x => decide (x.ctx = c) && decide (t.valOf x = n) && decide (t.cseq = s.cseq + 1)
    | none => false

/-- The values a command leaves in a `V` register. -/
def leavesV (i : Instr) (s : State) (r : RegNo) (c : Ctx) (ns : List Nat) : Bool :=
  after (exec i s) fun t => match t.v.get r with
    | some x => decide (x.ctx = c) && decide (x.elems.map (t.fld x.ctx).val = ns)
    | none => false

/-- The values a command leaves in a `J` register. -/
def leavesJ (i : Instr) (s : State) (r : RegNo) (X Y Z : Nat) : Bool :=
  after (exec i s) fun t => match t.j.get r with
    | some P => decide (P.vals t.fld0 = ⟨X, Y, Z⟩)
    | none => false

/-- The values a command leaves in an `A` register. -/
def leavesA (i : Instr) (s : State) (r : RegNo) (q : Values.AffV) : Bool :=
  after (exec i s) fun t => match t.a.get r with
    | some Q => decide (Q.vals t.fld0 = q)
    | none => false

/-! ## Results, from the examples of the command rules -/

/-- R101's example, and R103's. -/
theorem test_configuration :
    FieldCtx.setup .mont 43 = f43 ∧
    (let s := runCommands [.fsetup .coord .naive 31, .fsetup .order .mont 43, .csetup 0 3, .sts] State.reset
     s.dout = [0, 0, 0, 0xE0, 0, 0, 0, 3] ∧ s.crv.azero = true ∧ s.crv.bzero = false) := by decide +kernel

/-- R104, R105, R108 to R110: reduction, and bytes in big-endian order. -/
theorem test_transfer :
    leavesE (.lde 1 .coord 40) base 1 .coord 9 ∧ leavesV (.ldv 0 .order [1, 2, 46]) base 0 .order [1, 2, 3] ∧
    after (exec (.ste 0) base) (fun t => decide (t.dout = List.replicate 31 0 ++ [20])) ∧
    after (exec (.sta 0) base) (fun t => decide (t.dout = List.replicate 31 0 ++ [1] ++ List.replicate 31 0 ++ [2])) ∧
    after (exec (.stv 6) base) (fun t => decide (t.dout = List.replicate 31 0 ++ [3])) ∧
    after (exec (.stg 2) base) (fun t => decide (t.dout = List.replicate 31 0 ++ [16] ++ List.replicate 31 0 ++ [10])) ∧
    raises (.sta 1) base .infinityEncode ∧ raises (.ste 15) base .unwrittenRegister := by decide +kernel

/-- R150 to R159. -/
theorem test_field_unit :
    leavesE (.fadd 3 0 1) base 3 .coord 4 ∧ leavesE (.fsub 3 1 0) base 3 .coord 26 ∧ leavesE (.fmul 3 0 1) base 3 .coord 21 ∧
    leavesE (.fneg 3 0) base 3 .coord 11 ∧ leavesE (.fneg 0 3) base 0 .coord 0 ∧ leavesE (.finv 3 0) base 3 .coord 14 ∧
    leavesE (.fpow 0 3 0) base 0 .coord 1 ∧ leavesE (.fmov 3 2) base 3 .order 17 ∧
    (let s := runCommands [.lde 7 .coord 3] base
     leavesE (.fpow 3 7 5) s 3 .coord 26 ∧ leavesE (.fpow 3 7 (BitVec.allOnes 256)) s 3 .coord 30 ∧
     leavesE (.fpoww 3 7 5) s 3 .coord 26 ∧ leavesE (.fpoww 3 7 (BitVec.allOnes 256)) s 3 .coord 30) ∧
    leavesE (.fadd 2 0 1) twin 2 .coord 4 ∧ leavesE (.fadd 2 1 0) twin 2 .order 4 ∧
    raises (.fadd 3 0 2) base .modulusMismatch ∧ raises (.finv 0 3) base .noInverse := by decide +kernel

/-- R157's and R158's examples: a residue, a non-residue, a modulus that is 1 mod 4. -/
theorem test_fsqrt_and_feq :
    (let s := runCommands [.lde 0 .coord 7, .lde 1 .coord 3] base
     after (exec (.fsqrt 3 0) s) (fun t => t.flag .sqok) ∧ leavesE (.fsqrt 3 0) s 3 .coord 10 ∧
     leavesE (.fsqrt 3 1) s 3 .coord 20 ∧ after (exec (.fsqrt 3 1) s) (fun t => !t.flag .sqok)) ∧
    raises (.fsqrt 0 0) composite .sqrtUnimplemented ∧
    after (exec (.feq 0 0) base) (fun t => t.flag .eq) ∧ after (exec (.feq 0 1) base) (fun t => !t.flag .eq) := by
  decide +kernel

/-- R190 to R198. -/
theorem test_curve_unit :
    after (exec (.pchk 0) base) (fun t => t.flag .onc) ∧ after (exec (.pchk 3) base) (fun t => !t.flag .onc) ∧
    after (exec (.pchk 1) base) (fun t => !t.flag .onc) ∧ leavesJ (.ptoj 3 0) base 3 1 2 1 ∧ leavesJ (.ptoj 3 1) base 3 0 1 0 ∧
    leavesA (.ptoa 3 2) base 3 (some (16, 10)) ∧ leavesA (.ptoa 3 1) base 3 none ∧ leavesJ (.pdbl 3 0) base 3 8 20 4 ∧
    leavesJ (.pneg 3 0) base 3 1 29 1 ∧ leavesJ (.padd 3 2 0) base 3 22 24 1 ∧ leavesJ (.pmadd 3 2 0) base 3 22 24 1 ∧
    leavesJ (.pmul 3 2 0) base 3 19 12 7 ∧ leavesJ (.pmul 3 6 0) base 3 0 1 0 ∧
    after (exec (.peq 0 0) base) (fun t => t.flag .eq) ∧ after (exec (.peq 0 1) base) (fun t => !t.flag .eq) ∧
    raises (.ptoa 1 1) composite .noInverse := by decide +kernel

/-- R183's, R197's and R199's recodings. -/
theorem test_wnaf : wnaf 17 = [-15, 0, 0, 0, 0, 1] ∧ wnaf 43 = [11, 0, 0, 0, 0, 1] ∧ wnaf 0 = [] ∧
    (wnaf (2 ^ 256 - 1)).length = 257 := by decide +kernel

/-- R199 and R200. -/
theorem test_generator :
    (let s := runCommands [.gsetup ⟨1, 2⟩] base
     s.flag .genok ∧ leavesA (.agen 4) s 4 (some (1, 2)) ∧ after (exec (.gsetup ⟨1, 3⟩) s) (fun t => !t.gen.ok && !t.flag .genok)) ∧
    raises (.agen 4) base .noGenerator := by decide +kernel

/-- R223 to R231. -/
theorem test_vector_unit :
    leavesV (.vadd 8 0 1) base 8 .order [41, 0, 2] ∧ leavesV (.vsub 8 0 1) base 8 .order [4, 4, 4] ∧
    leavesV (.vhad 8 0 1) base 8 .order [40, 39, 40] ∧ leavesV (.vscl 8 0 5) base 8 .order [20, 40, 17] ∧
    leavesE (.vip 3 0 1) base 3 .order 33 ∧ leavesE (.vip 3 3 3) base 3 .order 0 ∧ leavesV (.vslice 8 0 1 2) base 8 .order [2, 3] ∧
    leavesV (.vpow 1 2 3) base 1 .order [1, 17, 31] ∧ leavesE (.vget 4 0 2) base 4 .order 3 ∧
    leavesV (.vrev 1 0) base 1 .order [3, 2, 1] ∧ raises (.vadd 8 0 2) base .lengthMismatch ∧
    raises (.vadd 8 0 4) base .modulusMismatch ∧ raises (.vslice 8 0 2 2) base .rangeError ∧
    raises (.vget 4 0 3) base .rangeError := by decide +kernel

/-- R232 to R234. -/
theorem test_generator_vectors :
    leavesJ (.gmsm 1 0 2) base 1 6 8 5 ∧ leavesJ (.gmsm 1 1 3) base 1 0 1 0 ∧ leavesA (.gget 5 0 1) base 5 (some (16, 10)) ∧
    after (exec (.gslice 1 0 1 1) base) (fun t => decide (t.g.get 1 = some [.pt 16 10])) ∧
    raises (.gmsm 1 0 0) base .lengthMismatch ∧ raises (.gget 5 0 2) base .rangeError := by decide +kernel

/-! ## The inner-product unit under the test hash of 95_test_vectors.md 2.1 -/

/-- The test hash. -/
def htest : Hash := fun msg =>
  let n := (msg.foldl (fun (p : Nat × Nat) x => (p.1 + 1, p.2 + (p.1 + 1) * x.toNat)) (0, 0)).2 + msg.length
  Vector.ofFn fun i => BitVec.ofNat 8 (n / 256 ^ (31 - i.val))

/-- The state of R253's worked example. -/
def example253 : State := runCommands
  [.ldg 0 [⟨16, 10⟩, ⟨22, 24⟩], .ldg 1 [⟨26, 8⟩, ⟨25, 29⟩], .lda 0 ⟨14, 22⟩, .lda 1 ⟨27, 30⟩, .ldv 0 .order [3, 5],
   .ldv 1 .order [5, 6]] base

/-- The proof of R253's worked example. -/
def proof253 : RawProof := ⟨[⟨23, 24⟩], [⟨27, 1⟩], 13, 32⟩

/-- R250's example: the digest is 8064. -/
theorem test_ipach :
    (let s := runCommands [.lda 2 ⟨5, 2⟩, .lda 3 ⟨26, 8⟩, .lda 4 ⟨17, 7⟩] base
     after (ipachWith htest 1 2 3 4 s) (fun t => match t.e.get 1 with
       | some x => decide (x.ctx = .order) && decide (t.valOf x = 23)
       | none => false)) = true := by decide +kernel

/-- R243's and R251's example. -/
theorem test_ipasv : leavesV (.ipasv 1 2) base 1 .order [36, 23, 15, 6] ∧ leavesV (.ipasv 1 3) base 1 .order [1] ∧
    raises (.ipasv 1 5) base .noInverse := by decide +kernel

/-- R251 before CSETUP: the model's choice, log entry 25. -/
theorem test_ipasv_without_curve : twin.crv.ok = false ∧ leavesV (.ipasv 3 0) twin 3 .coord [16, 2, 16, 2] := by decide +kernel

/-- R253's worked example, its bytes as the payload of IPAVFY, and the same proof with `a` + 1. -/
theorem test_ipaprv : after (ipaprvWith htest 0 1 0 1 0 1 example253)
    (fun t => decide (t.dout = proofWordBytes proof253)) = true := by decide +kernel

theorem test_ipavfy :
    after (ipavfyWith htest 0 1 0 1 proof253 example253) (fun t => t.flag .vfy) ∧
    after (ipavfyWith htest 0 1 0 1 ⟨[⟨23, 24⟩], [⟨27, 1⟩], 14, 32⟩ example253) (fun t => !t.flag .vfy) := by decide +kernel

/-- V-IU-7: a base of one point, no round. -/
theorem test_ipa_one_point :
    after (exec (.ipaprv 2 3 4 5 6 7) base)
      (fun t => decide (t.dout = List.replicate 31 0 ++ [3] ++ List.replicate 31 0 ++ [4])) ∧
    after (exec (.ipavfy 2 3 4 5 ⟨[], [], 3, 4⟩) base) (fun t => t.flag .vfy) ∧
    after (exec (.ipavfy 2 3 4 5 ⟨[], [], 3, 5⟩) base) (fun t => !t.flag .vfy) := by decide +kernel

/-! ## Steps -/

/-- A program from reset, as the host offers it: words to the end of the run. -/
theorem test_run_from_reset :
    (let t := State.reset.runWords (encode (.fsetup .coord .naive 31) ++ encode (.lde 1 .coord 40) ++ encode (.ste 1))
     t.dout = List.replicate 31 0 ++ [9] ∧ t.cseq = 3 ∧ t.runEnd = .complete) := by decide +kernel

/-- A fault, the words after it discarded, and `FSEQ` (V-EX style). -/
theorem test_fault_halts :
    (let t := State.reset.runWords [0x00000000#32, 0x09900000#32, 0x04000000#32]
     t.status = 0x00020100 ∧ t.cseq = 1 ∧ t.fseq = 1 ∧ t.dout = [] ∧ t.runEnd = .fault) := by decide +kernel

/-- A header without its payload (V-EX-17). -/
theorem test_stuck : (base.runWords [0x52010102#32]).runEnd = .stuck ∧ (base.runWords [0x52010102#32]).status = 0xE0 := by
  decide +kernel

/-! ## Witnesses: concrete states and operands that meet the hypotheses of each obligation, clause by clause -/

theorem of_after {r : Result} {f : State → Bool} (h : after r f = true) : ∃ t, r = .next t ∧ f t = true := by
  cases r with
  | next t => exact ⟨t, rfl, h⟩
  | fault _ => cases h
  | refused _ => cases h

/-- A command that completes, counted once. -/
theorem completes {i : Instr} {s : State} (h : after (exec i s) (fun t => decide (t.cseq = s.cseq + 1)) = true) :
    ∃ t, exec i s = .next t ∧ t.cseq = s.cseq + 1 := by
  obtain ⟨t, ht, hc⟩ := of_after h
  exact ⟨t, ht, of_decide_eq_true hc⟩

theorem witness_DecodeOfEncodeIsTheCommand : (Instr.vpow 1 2 4095).wf = true ∧
    (Instr.ldv 0 .coord (List.replicate 4095 0)).wf = true ∧ (Instr.ipavfy 0 1 2 3 ⟨[], [], 5, 6⟩).wf = true := by decide +kernel

theorem witness_DecodedWordsAreTheEncoding :
    decode [0x45200000#32, 0x00010002#32, 7] = .ok (.vslice 2 0 1 2, [7]) := by decide +kernel

theorem witness_HeaderAcceptedIffTableRow : Opcode.ldv.matches 0x0D010FFF#32 := by
  unfold Opcode.matches; decide +kernel

/-- A state with words offered. -/
def offered (ws : List Word) : State := { base with cmdIn := ws }

theorem witness_StepRunsTheDecodedCommand :
    (offered [0x20301000#32]).halted = false ∧ decode (offered [0x20301000#32]).cmdIn = .ok (.fadd 3 0 1, []) ∧
    (Instr.fadd 3 0 1).inRange (offered [0x20301000#32]).nmax ∧
    decode (offered [0x46120100#32]).cmdIn = .ok (.vpow 1 2 256, []) ∧
    (Instr.vpow 1 2 256).inRange (offered [0x46120100#32]).nmax := by
  refine ⟨by decide +kernel, by decide +kernel, trivial, by decide +kernel, ?_⟩
  show (256 : Fin 4096).val ≤ _
  decide +kernel

theorem witness_HaltedBlockDiscardsEveryWord : (State.enterFault (offered [7]) .noInverse).halted = true ∧
    (State.enterFault (offered [7]) .noInverse).cmdIn = [7] := by decide +kernel

theorem witness_IllegalHeaderFaults : (offered [0x08120000#32]).halted = false ∧
    (offered [0x08120000#32]).cmdIn = [0x08120000#32] ∧ (∀ o : Opcode, ¬ o.matches 0x08120000#32) ∧
    (∀ o : Opcode, ¬ o.matches 0x03000000#32) ∧ (∀ o : Opcode, ¬ o.matches 0x20312001#32) := by
  refine ⟨by decide +kernel, rfl, ?_, ?_, ?_⟩ <;> intro o <;> cases o <;> unfold Opcode.matches <;> decide +kernel

theorem witness_OversizedHeaderFaultsBeforePayload :
    (offered [0x0D010101#32]).halted = false ∧ Opcode.ldv.matches 0x0D010101#32 ∧
    (offered []).nmax < (0x0D010101#32).toNat % 4096 ∧
    Opcode.ldg.matches 0x0F000101#32 ∧ Opcode.vpow.matches 0x46120FFF#32 ∧
    Opcode.ipavfy.matches 0x52010109#32 ∧ (offered []).nmax < 2 ^ ((0x52010109#32).toNat % 256) := by
  unfold Opcode.matches; decide +kernel

theorem witness_IncompletePayloadIsStuck : (offered [0x08100000#32]).halted = false ∧
    checkHeader 0x08100000#32 = .ok .lde ∧ Opcode.lde.outOfRange (offered []).nmax 0x08100000#32 = false ∧
    ([] : List Word).length < Opcode.lde.payloadWords 0x08100000#32 ∧
    (List.replicate 7 (0 : Word)).length < Opcode.lde.payloadWords 0x08100000#32 ∧
    Opcode.lde.payloadWords 0x08100000#32 ≤ (List.replicate 7 (0 : Word) ++ [40]).length := by decide +kernel

theorem witness_LaterWordsDoNotMatter : ∃ t, step (offered [0x20301000#32]) = .next t := by
  obtain ⟨t, h, -⟩ := of_after (r := step (offered [0x20301000#32])) (f := fun _ => true) (by decide +kernel)
  exact ⟨t, h⟩

theorem witness_CommandsRaiseOnlyListedCauses :
    (∃ t, exec (.finv 0 3) base = .next t ∧ t = base.enterFault .noInverse) ∧ base.Inv ∧ Nat.Prime base.fld0.m := by
  refine ⟨?_, base_inv, by show Nat.Prime 31; norm_num⟩
  obtain ⟨t, h, ht⟩ := of_after (show raises (.finv 0 3) base .noInverse = true by decide +kernel)
  exact ⟨t, h, of_decide_eq_true ht⟩

theorem witness_CompletedCommandsChangeOnlyWhatTheyName :
    (∃ t, exec (.fsqrt 3 0) base = .next t ∧ t.cseq = base.cseq + 1) ∧ (Instr.fsqrt 3 0).dest ≠ some (.e 0) ∧
    (Instr.fsqrt 3 0).dest = some (.e 3) ∧ Flag.eq ∉ (Instr.fsqrt 3 0).flags ∧ (Instr.fsqrt 3 0).stores = false :=
  ⟨completes (by decide +kernel), by decide, rfl, by decide, rfl⟩

theorem witness_CurveCommandsNeedTheCurve : (Instr.pchk 0).needsCurve = true ∧ (Instr.pchk 0).inRange State.reset.nmax ∧
    State.reset.crv.ok = false := ⟨rfl, trivial, rfl⟩

theorem witness_UnwrittenSourceFaults : RegName.e 15 ∈ (Instr.fadd 3 0 15).sources ∧ base.written (.e 15) = false ∧
    (Instr.fadd 3 0 15).inRange base.nmax ∧ RegName.v 15 ∈ (Instr.ipaprv 0 1 0 1 0 15).sources ∧ base.written (.v 15) = false ∧
    (Instr.ipaprv 0 1 0 1 0 15).needsCurve = true ∧ base.crv.ok = true ∧ RegName.v 15 ∈ (Instr.ipasv 0 15).sources ∧
    twin.written (.v 15) = false ∧ (Instr.ipasv 0 15).needsCurve = false ∧ twin.crv.ok = false := by
  refine ⟨by decide, by decide +kernel, trivial, by decide, by decide +kernel, rfl, rfl, by decide, by decide +kernel, rfl, rfl⟩

theorem witness_OnlyAValidProofSetsVfy :
    (let s := offered (encode (.ipavfy 2 3 4 5 ⟨[], [], 3, 4⟩))
     ∃ t, step s = .next t ∧ t.flag .vfy = true ∧ s.flag .vfy = false) := by
  obtain ⟨t, h, ht⟩ := of_after (r := step (offered (encode (.ipavfy 2 3 4 5 ⟨[], [], 3, 4⟩))))
    (f := fun t => t.flag .vfy && !(offered []).flag .vfy) (by decide +kernel)
  rw [Bool.and_eq_true, Bool.not_eq_true'] at ht
  exact ⟨t, h, ht⟩

theorem witness_StepKeepsTheInvariant : base.Inv ∧ (offered [0x20301000#32]).Inv ∧
    ∃ t, step (offered [0x20301000#32]) = .next t :=
  ⟨base_inv, inv_of_parts (by decide +kernel),
    witness_LaterWordsDoNotMatter⟩

theorem witness_ConfigurationIsWrittenOnce : (∃ t, step (offered [0x20301000#32]) = .next t) ∧
    ((offered []).fld .coord).ok = true ∧ (base.fld .order).ok = true ∧ base.fld0.ok = true ∧ base.fld1.ok = true ∧
    base.crv.ok = true := ⟨witness_LaterWordsDoNotMatter, rfl, rfl, rfl, rfl, rfl⟩

/-- `twin` with the strategies of its contexts exchanged, and the value 20 in `E[0]` in the other stored form. -/
def oneElem (f : FieldCtx) : State :=
  { State.reset with fld0 := f, status := 0x40, cseq := 1, e := regs [⟨.coord, f.enc 20⟩] }

theorem oneElem_same : SameValues (oneElem (naive 31)) (oneElem f31) := by
  have e0 : ∀ f : FieldCtx, ∀ i : RegNo, (oneElem f).e.get i = if i = 0 then some ⟨.coord, f.enc 20⟩ else none := by
    intro f i
    show (Vector.ofFn fun i : Fin 16 => [(⟨.coord, f.enc 20⟩ : Elem)][i.val]?)[i.val] = _
    rw [Vector.getElem_ofFn]
    by_cases h : i = 0
    · subst h; rfl
    · have : i.val ≠ 0 := fun e => h (Fin.ext e)
      rw [if_neg h, List.getElem?_eq_none (by simp; omega)]
  refine ⟨?_, rfl, ?_, rfl, ?_, ?_, ?_, ?_, ?_, ?_, rfl, rfl, rfl, rfl, rfl, rfl⟩
  · intro c; cases c <;> exact ⟨rfl, rfl⟩
  · intro h; cases h
  · intro h; cases h
  · intro i
    rw [e0, e0]
    by_cases h : i = 0
    · rw [if_pos h, if_pos h]
      exact ⟨rfl, by decide +kernel⟩
    · rw [if_neg h, if_neg h]; trivial
  all_goals
    intro i
    simp only [oneElem, State.reset, reset_get]
    trivial

theorem witness_StrategiesAreInterchangeable : (oneElem (naive 31)).Inv ∧ (oneElem f31).Inv ∧
    SameValues (oneElem (naive 31)) (oneElem f31) ∧ SameButStrat (.fsetup .order .naive 43) (.fsetup .order .mont 43) ∧
    SameButStrat (.fneg 1 0) (.fneg 1 0) :=
  ⟨inv_of_parts (by decide +kernel),
    inv_of_parts (by decide +kernel),
    oneElem_same, .inr ⟨.order, .naive, .mont, 43, rfl, rfl⟩, .inl rfl⟩

theorem witness_RunsAreBlindToStrategies :
    List.Forall₂ SameButStrat [.fsetup .coord .naive 31, .lde 0 .coord 40] [.fsetup .coord .mont 31, .lde 0 .coord 40] :=
  .cons (.inr ⟨.coord, .naive, .mont, 31, rfl, rfl⟩) (.cons (.inl rfl) .nil)

theorem witness_MontgomeryValueIsRedc : f43.WF ∧ f43.strat = .mont ∧ f43.Canon 42 ∧ f43.Canon 0 := by
  refine ⟨?_, rfl, by decide +kernel, by decide +kernel⟩
  decide +kernel

theorem witness_RepeatedCommandGivesTheSameState : (∃ t, exec (.gsetup ⟨1, 2⟩) base = .next t ∧ t.cseq = base.cseq + 1) ∧
    (Instr.gsetup ⟨1, 2⟩).stores = false ∧ (∃ t, exec (.fadd 3 0 1) base = .next t ∧ t.cseq = base.cseq + 1) ∧
    (Instr.fadd 3 0 1).stores = false ∧ (∀ r, (Instr.fadd 3 0 1).dest = some r → r ∉ (Instr.fadd 3 0 1).sources) := by
  refine ⟨completes (by decide +kernel), rfl, completes (by decide +kernel), rfl, ?_⟩
  intro r h
  cases h
  decide

theorem witness_FsetupResult : (base.fld .coord).ok = true ∧ (State.reset.fld .order).ok = false ∧
    ((2 : Raw).toNat < 3 ∨ (2 : Raw).toNat % 2 = 0) ∧ ((44 : Raw).toNat < 3 ∨ (44 : Raw).toNat % 2 = 0) ∧
    3 ≤ (3 : Raw).toNat ∧ (3 : Raw).toNat % 2 = 1 := by decide +kernel

theorem witness_CsetupResult : State.reset.fld0.ok = false ∧ (base.Inv ∧ base.fld0.ok = true ∧ base.fld1.ok = true ∧ base.crv.ok = true) ∧
    twin.Inv ∧ twin.fld0.ok = true ∧ twin.fld1.ok = true ∧ twin.crv.ok = false :=
  ⟨rfl, ⟨base_inv, rfl, rfl, rfl⟩, twin_inv, rfl, rfl, rfl⟩

theorem reset_inv : State.reset.Inv :=
  inv_of_parts (by decide +kernel)

theorem witness_LdeAndSteResults : base.Inv ∧ (base.fld .order).ok = true ∧ base.e.get 2 = some (q43 17) ∧
    State.reset.Inv ∧ (State.reset.fld .coord).ok = false := ⟨base_inv, rfl, by decide +kernel, reset_inv, rfl⟩

theorem witness_PointTransferResults : base.Inv ∧ base.crv.ok = true ∧ base.a.get 0 = some (.pt 1 2) ∧ base.a.get 1 = some .inf :=
  ⟨base_inv, by decide +kernel⟩

theorem witness_VectorTransferResults : base.Inv ∧ State.reset.Inv ∧ base.nmax < (List.replicate 257 (0 : Raw)).length ∧
    (List.replicate 256 (0 : Raw)).length ≤ base.nmax ∧ ([] : List Raw).length ≤ base.nmax ∧ (base.fld .order).ok = true ∧
    base.v.get 3 = some (v43 []) ∧ (State.reset.fld .order).ok = false := ⟨base_inv, reset_inv, by decide +kernel⟩

/-- A state whose `G[0]` holds infinity; no run reaches it (10_state.md R29). -/
def infiniteBase : State := { base with g := regs [[.pt 1 2, .inf]] }

theorem witness_GeneratorTransferResults : base.Inv ∧ base.crv.ok = true ∧
    (List.replicate 256 (⟨0, 0⟩ : RawPoint)).length ≤ base.nmax ∧ base.nmax < (List.replicate 257 (⟨0, 0⟩ : RawPoint)).length ∧
    base.g.get 0 = some ([((1 : Fe), (2 : Fe)), (16, 10)].map fun xy => Affine.pt xy.1 xy.2) ∧
    base.g.get 1 = some (([] : List (Fe × Fe)).map fun xy => Affine.pt xy.1 xy.2) ∧ infiniteBase.crv.ok = true ∧
    infiniteBase.g.get 0 = some [.pt 1 2, .inf] ∧ Affine.inf ∈ [Affine.pt 1 2, .inf] := ⟨base_inv, by decide +kernel⟩

theorem witness_StoreAfterLoadEmitsReducedValues : base.Inv ∧ (base.fld .order).ok = true ∧ base.crv.ok = true ∧
    ([46] : List Raw).length ≤ base.nmax ∧ ([⟨1, 33⟩] : List RawPoint).length ≤ base.nmax := ⟨base_inv, by decide +kernel⟩

theorem witness_FaddFsubFmulResults : base.Inv ∧ twin.Inv ∧ base.e.get 0 = some ⟨.coord, 20⟩ ∧ base.e.get 1 = some ⟨.coord, 15⟩ ∧
    (base.fld .coord).mod = (base.fld .coord).mod ∧ base.e.get 2 = some (q43 17) ∧ (base.fld .coord).mod ≠ (base.fld .order).mod ∧
    twin.e.get 0 = some ⟨.coord, 20⟩ ∧ twin.e.get 1 = some ⟨.order, f31.enc 15⟩ ∧ (twin.fld .coord).mod = (twin.fld .order).mod :=
  ⟨base_inv, twin_inv, by decide +kernel⟩

theorem witness_FnegAndFmovResults : base.Inv ∧ base.e.get 0 = some ⟨.coord, 20⟩ ∧ base.e.get 3 = some ⟨.coord, 0⟩ :=
  ⟨base_inv, by decide +kernel⟩

theorem witness_FinvResult : base.Inv ∧ Nat.Prime (base.fld .coord).m ∧ composite.Inv ∧ base.e.get 2 = some (q43 17) ∧
    Nat.gcd (base.valOf (q43 17)) (base.fld .order).m = 1 ∧ base.e.get 3 = some ⟨.coord, 0⟩ ∧
    Nat.gcd (base.valOf ⟨.coord, 0⟩) (base.fld .coord).m ≠ 1 ∧ composite.e.get 1 = some ⟨.coord, 3⟩ ∧
    Nat.gcd (composite.valOf ⟨.coord, 3⟩) (composite.fld .coord).m ≠ 1 :=
  ⟨base_inv, (by show Nat.Prime 31; norm_num), composite_inv, by decide +kernel⟩

theorem witness_FpowAndFpowwResults : base.Inv ∧ base.e.get 3 = some ⟨.coord, 0⟩ ∧ base.e.get 2 = some (q43 17) :=
  ⟨base_inv, by decide +kernel⟩

theorem witness_WindowedPowerEqualsBitSerial : f43.WF ∧ f43.Canon 42 ∧ 2 ^ 256 - 1 < 2 ^ 256 ∧ base.Inv :=
  ⟨witness_MontgomeryValueIsRedc.1, by decide +kernel, by decide, base_inv⟩

theorem witness_FsqrtResult : base.Inv ∧ composite.Inv ∧ base.e.get 0 = some ⟨.coord, 20⟩ ∧ (base.fld .coord).m % 4 = 3 ∧
    composite.e.get 0 = some ⟨.order, 4⟩ ∧ (composite.fld .order).m % 4 ≠ 3 := ⟨base_inv, composite_inv, by decide +kernel⟩

theorem witness_FeqResult : twin.e.get 0 = some ⟨.coord, 20⟩ ∧ twin.e.get 1 = some ⟨.order, f31.enc 15⟩ ∧
    (twin.fld .coord).mod = (twin.fld .order).mod ∧ base.e.get 0 = some ⟨.coord, 20⟩ ∧ base.e.get 2 = some (q43 17) ∧
    (base.fld .coord).mod ≠ (base.fld .order).mod := by decide +kernel

theorem witness_PchkAndPeqResults : base.Inv ∧ base.crv.ok = true ∧ base.a.get 0 = some (.pt 1 2) ∧ base.a.get 1 = some .inf ∧
    base.a.get 3 = some (.pt 1 3) := ⟨base_inv, by decide +kernel⟩

theorem witness_PtojAndPtoaResults : base.Inv ∧ composite.Inv ∧ base.crv.ok = true ∧ base.a.get 0 = some (.pt 1 2) ∧
    base.a.get 1 = some .inf ∧ base.j.get 1 = some ⟨0, 1, 0⟩ ∧ base.j.get 2 = some ⟨8, 20, 4⟩ ∧ (4 : Fe) ≠ 0 ∧
    Nat.gcd (base.fld0.val 4) base.fld0.m = 1 ∧ composite.crv.ok = true ∧ composite.j.get 1 = some ⟨1, 9, 3⟩ ∧ (3 : Fe) ≠ 0 ∧
    Nat.gcd (composite.fld0.val 3) composite.fld0.m ≠ 1 := ⟨base_inv, composite_inv, by decide +kernel⟩

theorem witness_PnegAndPdblResults : base.Inv ∧ base.crv.ok = true ∧ base.j.get 0 = some ⟨1, 2, 1⟩ ∧
    base.j.get 1 = some ⟨0, 1, 0⟩ := ⟨base_inv, by decide +kernel⟩

theorem witness_PaddAndPmaddResults : base.Inv ∧ base.crv.ok = true ∧ base.j.get 2 = some ⟨8, 20, 4⟩ ∧
    base.j.get 0 = some ⟨1, 2, 1⟩ ∧ base.j.get 1 = some ⟨0, 1, 0⟩ ∧ base.a.get 0 = some (.pt 1 2) ∧ base.a.get 1 = some .inf ∧
    ((8 : Fe) ≠ 0 ∨ Affine.inf ≠ .inf) ∧ ((0 : Fe) ≠ 0 ∨ Affine.pt 1 2 ≠ .inf) := ⟨base_inv, by decide +kernel⟩

theorem witness_WnafSpellsTheScalar : 2 ^ 256 - 1 < 2 ^ 256 ∧ (wnaf (2 ^ 256 - 1))[0]? = some (-1) ∧
    (wnaf (2 ^ 256 - 1))[256]? = some 1 ∧ 0 < 2 ^ 256 := by decide +kernel

theorem witness_PmulResult : base.Inv ∧ base.crv.ok = true ∧ base.j.get 0 = some ⟨1, 2, 1⟩ ∧ (1 : Fe) ≠ 0 ∧
    base.e.get 6 = some (q43 0) ∧ base.valOf (q43 0) % base.fld1.m = 0 ∧ base.e.get 4 = some (q43 1) ∧
    base.valOf (q43 1) % base.fld1.m = 1 ∧ base.e.get 2 = some (q43 17) ∧ base.j.get 1 = some ⟨0, 1, 0⟩ ∧
    { base with e := regs [q43 2] }.e.get 0 = some (q43 2) ∧ base.valOf (q43 2) % base.fld1.m = 2 := ⟨base_inv, by decide +kernel⟩

theorem base_curve_wf : base.curve.WF := by
  obtain ⟨h0, h1, ha, hb, haz, hbz⟩ := base_inv.setup.crv rfl
  exact ⟨base_inv.setup.fld .coord h0, base_inv.setup.fld .order h1, ha, hb, haz, hbz⟩

theorem base_disc : 4 * base.fld0.toZ base.crv.a ^ 3 + 27 * base.fld0.toZ base.crv.b ^ 2 ≠ 0 := by
  have h : (4 * ((0 : Nat) : ZMod 31) ^ 3 + 27 * ((3 : Nat) : ZMod 31) ^ 2 : ZMod 31) ≠ 0 := by decide
  exact h

theorem witness_GsetupAndAgenResults : base.Inv ∧ base.crv.ok = true ∧ base.gen.ok = false ∧
    (let s : State := { base with gen := ⟨true, 1, 2⟩, status := 0xF0 }
     s.Inv ∧ s.crv.ok = true ∧ s.gen.ok = true) :=
  ⟨base_inv, rfl, rfl, inv_of_parts (by decide +kernel), rfl, rfl⟩

theorem witness_VaddVsubVhadResults : base.Inv ∧ twin.Inv ∧ base.v.get 0 = some (v43 [1, 2, 3]) ∧
    base.v.get 4 = some ⟨.coord, [1, 2, 3]⟩ ∧ (base.fld .order).mod ≠ (base.fld .coord).mod ∧ base.v.get 2 = some (v43 [2, 3]) ∧
    (v43 [1, 2, 3]).elems.length ≠ (v43 [2, 3]).elems.length ∧ base.v.get 1 = some (v43 [40, 41, 42]) ∧
    (v43 [1, 2, 3]).elems.length = (v43 [40, 41, 42]).elems.length ∧ base.v.get 3 = some (v43 []) ∧
    twin.v.get 0 = some ⟨.coord, [1, 2]⟩ ∧ twin.v.get 1 = some ⟨.order, [30, 4].map f31.enc⟩ ∧
    (twin.fld .coord).mod = (twin.fld .order).mod := ⟨base_inv, twin_inv, by decide +kernel⟩

theorem witness_VsclAndVipResults : base.Inv ∧ base.v.get 0 = some (v43 [1, 2, 3]) ∧ base.e.get 0 = some ⟨.coord, 20⟩ ∧
    base.e.get 5 = some (q43 20) ∧ base.v.get 4 = some ⟨.coord, [1, 2, 3]⟩ ∧ (base.fld .order).mod ≠ (base.fld .coord).mod ∧
    base.v.get 2 = some (v43 [2, 3]) ∧ (v43 [1, 2, 3]).elems.length ≠ (v43 [2, 3]).elems.length ∧
    base.v.get 1 = some (v43 [40, 41, 42]) ∧ base.v.get 3 = some (v43 []) := ⟨base_inv, by decide +kernel⟩

theorem witness_VsliceVgetVrevResults : base.v.get 0 = some (v43 [1, 2, 3]) ∧ (3 : Fin 65536).val + (0 : Fin 65536).val ≤ 3 ∧
    (v43 [1, 2, 3]).elems.length < (65535 : Fin 65536).val + (1 : Fin 65536).val ∧
    (v43 [1, 2, 3]).elems[(2 : Fin 4096).val]? = some (f43.enc 3) ∧ (v43 [1, 2, 3]).elems.length ≤ (3 : Fin 4096).val := by
  decide +kernel

theorem witness_VpowResult : base.Inv ∧ base.e.get 2 = some (q43 17) ∧ (0 : Fin 4096).val ≤ base.nmax ∧
    (256 : Fin 4096).val ≤ base.nmax ∧ base.nmax < (257 : Fin 4096).val := ⟨base_inv, by decide +kernel⟩

theorem witness_GmsmGsliceGgetResults : base.Inv ∧ base.crv.ok = true ∧ base.g.get 0 = some [.pt 1 2, .pt 16 10] ∧
    base.v.get 2 = some (v43 [2, 3]) ∧ base.v.get 0 = some (v43 [1, 2, 3]) ∧ base.g.get 1 = some [] ∧
    base.v.get 3 = some (v43 []) ∧ (2 : Fin 65536).val + (0 : Fin 65536).val ≤ 2 ∧ 2 < (2 : Fin 65536).val + (1 : Fin 65536).val ∧
    [Affine.pt 1 2, .pt 16 10][(1 : Fin 4096).val]? = some (.pt 16 10) ∧ 2 ≤ (2 : Fin 4096).val := ⟨base_inv, by decide +kernel⟩

theorem witness_IpachResult : base.Inv ∧ base.crv.ok = true ∧ base.a.get 0 = some (.pt 1 2) ∧ base.a.get 2 = some (.pt 16 10) ∧
    base.a.get 1 = some .inf := ⟨base_inv, by decide +kernel⟩

/-- `base` with nine challenges in `V[8]`, one more than `NMAX` coefficients allow. -/
def nineChallenges : State := { base with v := regs [v43 [1, 1, 1, 1, 1, 1, 1, 1, 1]] }

theorem witness_IpasvResult : base.Inv ∧ nineChallenges.Inv ∧ base.v.get 2 = some (v43 [2, 3]) ∧ 2 ^ 2 ≤ base.nmax ∧
    Nat.gcd ((v43 [2, 3]).elems.map (base.fld .order).val).prod (base.fld .order).m = 1 ∧ base.v.get 3 = some (v43 []) ∧
    Nat.gcd ((v43 []).elems.map (base.fld .order).val).prod (base.fld .order).m = 1 ∧ base.v.get 5 = some (v43 [0]) ∧
    Nat.gcd ((v43 [0]).elems.map (base.fld .order).val).prod (base.fld .order).m ≠ 1 ∧
    nineChallenges.v.get 0 = some (v43 [1, 1, 1, 1, 1, 1, 1, 1, 1]) ∧ nineChallenges.nmax < 2 ^ 9 :=
  ⟨base_inv, inv_of_parts (by decide +kernel), by decide +kernel⟩

theorem witness_IpavfyResult : base.Inv ∧ Nat.Prime base.fld0.m ∧ base.crv.ok = true ∧
    2 ^ ([] : List RawPoint).length ≤ base.nmax ∧ base.g.get 2 = some [.pt 16 10] ∧ base.g.get 3 = some [.pt 26 8] ∧
    base.a.get 4 = some (.pt 14 22) ∧ base.a.get 5 = some (.pt 28 10) ∧ base.g.get 0 = some [.pt 1 2, .pt 16 10] ∧
    base.g.get 1 = some [] ∧ base.g.get 4 = some [.pt 1 2, .pt 16 10, .pt 22 24] ∧
    (match ipaVerify Config.hash256 base.curve [.pt 16 10] [.pt 26 8] (.pt 14 22) (.pt 28 10) (proofParse base.curve ⟨[], [], 3, 4⟩) with | .ok b => b | .error _ => false) = true ∧
    (match ipaVerify Config.hash256 base.curve [.pt 1 2, .pt 16 10] [.pt 1 2, .pt 16 10] (.pt 14 22) .inf (proofParse base.curve ⟨[⟨5, 2⟩], [⟨17, 7⟩], 1, 1⟩) with | .ok _ => false | .error c => decide (c = .infinityEncode)) = true :=
  ⟨base_inv, (by show Nat.Prime 31; norm_num), by decide +kernel⟩

theorem witness_IpaprvResult : base.Inv ∧ (∀ k : Nat, 3 ≠ 2 ^ k) ∧ base.crv.ok = true ∧ base.g.get 2 = some [.pt 16 10] ∧ base.g.get 3 = some [.pt 26 8] ∧
    base.a.get 4 = some (.pt 14 22) ∧ base.a.get 5 = some (.pt 28 10) ∧ base.a.get 1 = some .inf ∧ base.v.get 6 = some (v43 [3]) ∧
    base.v.get 7 = some (v43 [4]) ∧ base.v.get 4 = some ⟨.coord, [1, 2, 3]⟩ ∧ (base.fld .coord).mod ≠ base.fld1.mod ∧
    base.v.get 0 = some (v43 [1, 2, 3]) ∧ base.g.get 4 = some [.pt 1 2, .pt 16 10, .pt 22 24] ∧
    (match ipaProve Config.hash256 base.curve (.pt 14 22) 0
        { gs := [.pt 16 10], hs := [.pt 26 8], a := [f43.enc 3], b := [f43.enc 4], P := .pt 28 10 } with
     | .ok pf => decide (pf.ls = [])
     | .error _ => false) = true ∧
    (match ipaProve Config.hash256 base.curve .inf 1
        { gs := [.pt 1 2, .pt 16 10], hs := [.pt 1 2, .pt 16 10], a := [0, 0], b := [0, 0], P := .inf } with
     | .ok _ => false
     | .error c => decide (c = .infinityEncode)) = true := by
  refine ⟨base_inv, ?_, by decide +kernel⟩
  intro k h
  match k, h with
  | 0, h => simp at h
  | 1, h => simp at h
  | k + 2, h => rw [pow_add] at h; omega

/-- The prover's state of R253's example. -/
def prover253 : ProverState :=
  { gs := [.pt 16 10, .pt 22 24], hs := [.pt 26 8, .pt 25 29], a := [3, 5].map f43.enc, b := [5, 6].map f43.enc, P := .pt 27 30 }

theorem witness_ProverRoundIsTheVerifierRound : base.curve.WF ∧ prover253.P.Canon base.curve.fp ∧
    (match proveRound htest base.curve (.pt 14 22) 1 prover253 with
     | .ok r => decide (r.1 = .pt 23 24) && decide (r.2.1 = .pt 27 1)
     | .error _ => false) = true := ⟨base_curve_wf, by decide +kernel⟩

/-- `base` with the operands of R253's example. -/
def state253 : State :=
  { base with
    a := regs [.pt 14 22, .pt 27 30], v := regs [v43 [3, 5], v43 [5, 6]]
    g := regs [[.pt 16 10, .pt 22 24], [.pt 26 8, .pt 25 29]] }

theorem witness_EmittedProofVerifies : state253.Inv ∧ Nat.Prime state253.fld0.m ∧
    4 * state253.fld0.toZ state253.crv.a ^ 3 + 27 * state253.fld0.toZ state253.crv.b ^ 2 ≠ 0 ∧
    (state253.crv.ok = true ∧
      state253.g.get 0 = some [.pt 16 10, .pt 22 24] ∧ state253.g.get 1 = some [.pt 26 8, .pt 25 29] ∧
      state253.a.get 0 = some (.pt 14 22) ∧ state253.a.get 1 = some (.pt 27 30) ∧ state253.v.get 0 = some (v43 [3, 5]) ∧
      state253.v.get 1 = some (v43 [5, 6]) ∧
      (∀ Q ∈ [Affine.pt 14 22, .pt 16 10, .pt 22 24, .pt 26 8, .pt 25 29], state253.curve.generatorOk Q = true) ∧
      (match state253.curve.toA (state253.curve.padd
          (state253.curve.padd (state253.curve.msm [.pt 16 10, .pt 22 24] ((v43 [3, 5]).elems.map f43.val))
            (state253.curve.msm [.pt 26 8, .pt 25 29] ((v43 [5, 6]).elems.map f43.val)))
          (state253.curve.pmul (Values.vip 43 ((v43 [3, 5]).elems.map f43.val) ((v43 [5, 6]).elems.map f43.val))
            (state253.curve.toJ (.pt 14 22)))) with
       | .ok Q => decide (Q = .pt 27 30)
       | .error _ => false) = true) ∧
    (∃ t, ipaprvWith htest 0 1 0 1 0 1 state253 = .next t ∧ t.cseq = state253.cseq + 1) := by
  refine ⟨inv_of_parts (by decide +kernel), by show Nat.Prime 31; norm_num, base_disc, by decide +kernel, ?_⟩
  obtain ⟨t, h, hc⟩ := of_after (r := ipaprvWith htest 0 1 0 1 0 1 state253)
    (f := fun t => decide (t.cseq = state253.cseq + 1)) (by decide +kernel)
  exact ⟨t, h, of_decide_eq_true hc⟩

theorem witness_CurveFunctionsAreTheGroup : base.curve.WF ∧ Nat.Prime base.curve.fp.m ∧
    4 * base.curve.fp.toZ base.curve.crv.a ^ 3 + 27 * base.curve.fp.toZ base.curve.crv.b ^ 2 ≠ 0 ∧
    (Affine.pt 1 2).Canon base.curve.fp ∧ base.curve.oncurve (.pt 1 2) = true ∧
    (∃ pt : base.curve.weierstrass.Point, Jac.Canon base.curve.fp ⟨1, 2, 1⟩ ∧ base.curve.JacStandsFor ⟨1, 2, 1⟩ pt ∧
      base.curve.StandsFor (.pt 1 2) pt) ∧ 2 ^ 256 - 1 < 2 ^ 256 := by
  refine ⟨base_curve_wf, by show Nat.Prime 31; norm_num, base_disc, by decide +kernel, by decide +kernel, ?_, by decide⟩
  have hns : base.curve.weierstrass.Nonsingular (base.curve.fp.toZ 1) (base.curve.fp.toZ 2) := by
    rw [WeierstrassCurve.Affine.nonsingular_iff, WeierstrassCurve.Affine.equation_iff]
    have h : ((2 : Nat) : ZMod 31) ^ 2 + 0 * ((1 : Nat) : ZMod 31) * ((2 : Nat) : ZMod 31) + 0 * ((2 : Nat) : ZMod 31) =
          ((1 : Nat) : ZMod 31) ^ 3 + 0 * ((1 : Nat) : ZMod 31) ^ 2 + ((0 : Nat) : ZMod 31) * ((1 : Nat) : ZMod 31) +
            ((3 : Nat) : ZMod 31) ∧
        (0 * ((2 : Nat) : ZMod 31) ≠ 3 * ((1 : Nat) : ZMod 31) ^ 2 + 2 * 0 * ((1 : Nat) : ZMod 31) + ((0 : Nat) : ZMod 31) ∨
          ((2 : Nat) : ZMod 31) ≠ -((2 : Nat) : ZMod 31) - 0 * ((1 : Nat) : ZMod 31) - 0) := by decide +kernel
    exact h
  have hs : base.curve.StandsFor (.pt 1 2) (.some _ _ hns) := ⟨1, 2, rfl, rfl, rfl⟩
  refine ⟨.some _ _ hns, by decide +kernel, ⟨.pt 1 2, ?_, hs⟩, hs⟩
  have : (match base.curve.toA ⟨1, 2, 1⟩ with
    | .ok Q => decide (Q = .pt 1 2)
    | .error _ => false) = true := by decide +kernel
  revert this
  cases base.curve.toA ⟨1, 2, 1⟩ with
  | ok Q => intro h; rw [of_decide_eq_true h]
  | error c => intro h; cases h

end Sys2Proof.Tests
end

section
/-! PROOFS of the statements on the block's state (10_state.md): what every command may write (`Effect`), its frame, the invariant,
unwritten sources, `VFY` and reset. A command's effect is read off its pseudocode by one rule per operation (`Yields`). -/

namespace Sys2Proof.Machine

/-! ## What a status write leaves alone -/

theorem getFlag_setFlag (st : BitVec 32) (f g : Flag) (b : Bool) :
    getFlag (setFlag st f b) g = if g = f then b else getFlag st g := by
  simp [getFlag, setFlag_getLsbD, Flag.bit_inj]

/-- A flag write is invisible under a mask that leaves the nine flag bits out. -/
theorem setFlag_and_mask (st : BitVec 32) (f : Flag) (b : Bool) {mask : BitVec 32}
    (hmask : ∀ n < 9, mask.getLsbD n = false) : setFlag st f b &&& mask = st &&& mask := by
  refine BitVec.eq_of_getLsbD_eq fun n _ => ?_
  rw [BitVec.getLsbD_and, BitVec.getLsbD_and, setFlag_getLsbD]
  split
  · next e => rw [hmask n (e ▸ f.bit_lt), Bool.and_false, Bool.and_false]
  · rfl

/-- A write of `FCODE` is invisible under a mask that leaves bits 23:16 out. -/
theorem setFcode_and_mask (st : BitVec 32) (c : BitVec 8) {mask : BitVec 32}
    (hmask : ∀ n, 16 ≤ n → n < 24 → mask.getLsbD n = false) : setFcode st c &&& mask = st &&& mask := by
  refine BitVec.eq_of_getLsbD_eq fun n _ => ?_
  rw [BitVec.getLsbD_and, BitVec.getLsbD_and, setFcode_getLsbD]
  split
  · next e => rw [hmask n e.1 e.2, Bool.and_false, Bool.and_false]
  · rfl

/-! ## Field results stay canonical (41_field.md R130) -/

namespace FieldCtx.WF

variable {f : FieldCtx}

theorem canon_inv (h : f.WF) {a r : Fe} (hr : f.inv a = .ok r) : f.Canon r := by
  rcases h.inv_cases a with ⟨r', e, hc, -⟩ | ⟨e, -⟩
  · cases hr.symm.trans e; exact hc
  · cases hr.symm.trans e

theorem canon_powLoop (h : f.WF) (a : Fe) (e : Nat) : ∀ (n : Nat) {r : Fe}, f.Canon r → f.Canon (f.powLoop a e n r)
  | 0, _, hr => hr
  | n + 1, r, hr => by
    have h2 := h.canon_mul hr r
    refine canon_powLoop h a e n ?_
    split
    · exact h.canon_mul h2 a
    · exact h2

theorem canon_pow (h : f.WF) (a : Fe) (e : Nat) : f.Canon (f.pow a e) := h.canon_powLoop a e _ h.canon_one

theorem canon_powwLoop (h : f.WF) (tab : List Fe) (e : Nat) :
    ∀ (n : Nat) {r : Fe}, f.Canon r → f.Canon (f.powwLoop tab e n r)
  | 0, _, hr => hr
  | n + 1, _, hr => canon_powwLoop h tab e n <|
      h.canon_mul (h.canon_mul (h.canon_mul (h.canon_mul (h.canon_mul (h.canon_mul hr _) _) _) _) _) _

theorem canon_poww (h : f.WF) (a : Fe) (e : Nat) : f.Canon (f.poww a e) := h.canon_powwLoop _ e _ h.canon_one

theorem canon_sqrt (h : f.WF) {a : Fe} {r : Fe × Bool} (hr : f.sqrt a = .ok r) : f.Canon r.1 := by
  unfold FieldCtx.sqrt at hr
  split at hr
  · rw [← Except.ok.inj hr]
    dsimp only
    exact h.canon_pow a _
  · cases hr

theorem canon_vpowers (h : f.WF) (k : Fe) (n : Nat) : ∀ y ∈ f.vpowers k n, f.Canon y := by
  intro y hy
  obtain ⟨i, hi⟩ := List.mem_iff_getElem?.1 hy
  exact ((h.mulChain_spec n _ h.canon_one).2 i y hi).1

theorem length_vpowers (h : f.WF) (k : Fe) (n : Nat) : (f.vpowers k n).length = n :=
  (h.mulChain_spec n _ h.canon_one).1

theorem canon_svDouble (h : f.WF) {sv : List Fe} (hs : ∀ y ∈ sv, f.Canon y) (x : Fe) : ∀ y ∈ svDouble f sv x, f.Canon y := by
  intro y hy
  rcases List.mem_append.1 hy with hy | hy
  · exact hs y hy
  · obtain ⟨z, hz, rfl⟩ := List.mem_map.1 hy
    exact h.canon_mul (hs z hz) _

theorem canon_foldl_svDouble (h : f.WF) : ∀ (xs : List Fe) {sv : List Fe}, (∀ y ∈ sv, f.Canon y) →
    ∀ y ∈ xs.foldl (svDouble f) sv, f.Canon y
  | [], _, hs => hs
  | x :: xs, _, hs => canon_foldl_svDouble h xs (h.canon_svDouble hs x)

/-- The verifier's coefficients are canonical (44_ipa.md R243). -/
theorem canon_ipasv (h : f.WF) {xs sv : List Fe} (e : ipasv f xs = .ok sv) : ∀ y ∈ sv, f.Canon y := by
  obtain ⟨s0, h0, e⟩ := bind_eq_ok.1 e
  cases e
  exact h.canon_foldl_svDouble _ (by simpa using h.canon_inv h0)

end FieldCtx.WF

theorem length_foldl_svDouble (f : FieldCtx) : ∀ xs sv : List Fe,
    (xs.foldl (svDouble f) sv).length = sv.length * 2 ^ xs.length
  | [], _ => by simp
  | x :: xs, sv => by
    rw [List.foldl_cons, length_foldl_svDouble f xs, svDouble, List.length_append, List.length_map, List.length_cons]
    ring

/-- `k` challenges give 2^k coefficients (44_ipa.md R243). -/
theorem length_ipasv {f : FieldCtx} {xs sv : List Fe} (e : ipasv f xs = .ok sv) : sv.length = 2 ^ xs.length := by
  obtain ⟨s0, -, e⟩ := bind_eq_ok.1 e
  cases e
  rw [length_foldl_svDouble, List.length_reverse, List.length_singleton, Nat.one_mul]

/-- A challenge is canonical in the order field (44_ipa.md R242). -/
theorem canon_chal {H : Hash} {c : Curve} (h : c.fq.WF) {L C R : Affine} {x : Fe} (e : chal H c L C R = .ok x) :
    c.fq.Canon x := by
  obtain ⟨bl, -, e⟩ := bind_eq_ok.1 e
  obtain ⟨bc, -, e⟩ := bind_eq_ok.1 e
  obtain ⟨br, -, e⟩ := bind_eq_ok.1 e
  cases e
  exact h.canon_enc (Nat.mod_lt _ h.pos)

theorem slice_subset {α : Type} (xs : List α) (start len : Nat) : ∀ x ∈ slice xs start len, x ∈ xs :=
  fun _ hx => List.mem_of_mem_drop (List.mem_of_mem_take hx)

theorem length_slice_le {α : Type} (xs : List α) (start len : Nat) : (slice xs start len).length ≤ xs.length := by
  simp [slice]

theorem pointOfRaw_canon {f : FieldCtx} (h : f.WF) (q : RawPoint) : (pointOfRaw f q).Canon f := by
  simp [pointOfRaw, Affine.Canon, Affine.canonical, h.canon_ofRaw q.x, h.canon_ofRaw q.y]

/-! ## What the invariant says of one register's content -/

/-- What an `E` register may hold (10_state.md R24). -/
abbrev State.ElemOk (s : State) (x : Elem) : Prop := (s.fld x.ctx).ok = true ∧ (s.fld x.ctx).Canon x.s

/-- What an `A` register may hold (10_state.md R25). -/
abbrev State.AffineOk (s : State) (q : Affine) : Prop := s.crv.ok = true ∧ q.Canon s.fld0

/-- What a `J` register may hold (10_state.md R27). -/
abbrev State.JacOk (s : State) (p : Jac) : Prop := s.crv.ok = true ∧ p.Canon s.fld0

/-- What a `V` register may hold (10_state.md R28). -/
abbrev State.VecOk (s : State) (x : FVec) : Prop :=
  (s.fld x.ctx).ok = true ∧ x.elems.length ≤ s.nmax ∧ ∀ y ∈ x.elems, (s.fld x.ctx).Canon y

/-- What a `G` register may hold (10_state.md R29). -/
abbrev State.BaseOk (s : State) (qs : GVec) : Prop :=
  s.crv.ok = true ∧ qs.length ≤ s.nmax ∧ ∀ q ∈ qs, q ≠ .inf ∧ q.Canon s.fld0

/-- An operand taken to another context of the same modulus stays canonical (41_field.md R149). -/
theorem State.SetupInv.canon_convert {s : State} (h : s.SetupInv) {src dst : Ctx} (hsrc : (s.fld src).ok = true)
    (hdst : (s.fld dst).ok = true) (hm : (s.fld dst).mod = (s.fld src).mod) {x : Fe} (hx : (s.fld src).Canon x) :
    (s.fld dst).Canon (s.convert src dst x) :=
  (State.convert_spec (h.fld _ hsrc) (h.fld _ hdst) hm hx).1

/-- The context of a written element is well formed. -/
theorem State.Inv.elem_wf {s : State} (hi : s.Inv) {k : RegNo} {x : Elem} (hx : s.e.get k = some x) : (s.fld x.ctx).WF :=
  hi.setup.fld _ (hi.regs.e k x hx).1

/-- The context of a written vector is well formed. -/
theorem State.Inv.vec_wf {s : State} (hi : s.Inv) {k : RegNo} {x : FVec} (hx : s.v.get k = some x) : (s.fld x.ctx).WF :=
  hi.setup.fld _ (hi.regs.v k x hx).1

/-! ## What a completed command may have done -/

/-- The record CSETUP writes (40_config_transfer.md R102). -/
def State.curveRecord (s : State) (a b : Raw) : CurveRec :=
  { ok := true, a := s.fld0.ofRaw a, b := s.fld0.ofRaw b, azero := s.fld0.ofRaw a == 0, bzero := s.fld0.ofRaw b == 0 }

/-- The writes of a command that completes, `CSEQ` aside: which records, register, flag or bytes a command writes, and that under
the invariant a register receives what it may hold. -/
inductive Effect (s : State) : Instr → State → Prop
  | nop : Effect s .nop s
  | fsetup {c : Ctx} {st : Strat} {m : Raw} (fresh : (s.fld c).ok = false) (three : 3 ≤ m.toNat) (odd : m.toNat % 2 = 1) :
      Effect s (.fsetup c st m) ((s.putFld c (.setup st m)).putFlag (okFlag c) true)
  | csetup {a b : Raw} (f0 : s.fld0.ok = true) (f1 : s.fld1.ok = true) (fresh : s.crv.ok = false) :
      Effect s (.csetup a b) (State.putFlag { s with crv := s.curveRecord a b } .curveok true)
  | gsetup {pt : RawPoint} {ok : Bool} (curve : s.crv.ok = true) :
      Effect s (.gsetup pt) ((s.putGen pt ok).putFlag .genok ok)
  /-- FEQ, PEQ and PCHK write their flag alone. -/
  | compare {i : Instr} {f : Flag} {b : Bool} (dest : i.dest = none) (flag : f ∈ i.flags) (kind : f = .eq ∨ f = .onc) :
      Effect s i (s.putFlag f b)
  /-- IPAVFY writes the verifier's answer on its operands (44_ipa.md R252). -/
  | verify {gs hs au aP : RegNo} {pf : RawProof} {gsv hsv : GVec} {u P : Affine} {valid : Bool}
      (base : s.g.get gs = some gsv) (base' : s.g.get hs = some hsv) (point : s.a.get au = some u)
      (commitment : s.a.get aP = some P) (len : gsv.length = 2 ^ pf.ls.length) (len' : hsv.length = 2 ^ pf.ls.length)
      (answer : ipaVerify Config.hash256 s.curve gsv hsv u P (proofParse s.curve pf) = .ok valid) :
      Effect s (.ipavfy gs hs au aP pf) (s.putFlag .vfy valid)
  /-- A store command. -/
  | emit {i : Instr} {bytes : List Byte} (dest : i.dest = none) (stores : i.stores = true) : Effect s i (s.emit bytes)
  | putE {i : Instr} {d : RegNo} {x : Elem} (dest : i.dest = some (.e d)) (good : s.Inv → s.ElemOk x) :
      Effect s i (s.putE d x)
  /-- FSQRT alone writes a register and a flag (10_state.md R34). -/
  | fsqrt {d k : RegNo} {x : Elem} {b : Bool} (good : s.Inv → s.ElemOk x) :
      Effect s (.fsqrt d k) ((s.putE d x).putFlag .sqok b)
  | putA {i : Instr} {d : RegNo} {q : Affine} (dest : i.dest = some (.a d)) (good : s.Inv → s.AffineOk q) :
      Effect s i (s.putA d q)
  | putJ {i : Instr} {d : RegNo} {p : Jac} (dest : i.dest = some (.j d)) (good : s.Inv → s.JacOk p) :
      Effect s i (s.putJ d p)
  | putV {i : Instr} {d : RegNo} {x : FVec} (dest : i.dest = some (.v d)) (good : s.Inv → s.VecOk x) :
      Effect s i (s.putV d x)
  | putG {i : Instr} {d : RegNo} {qs : GVec} (dest : i.dest = some (.g d)) (good : s.Inv → s.BaseOk qs) :
      Effect s i (s.putG d qs)

/-- A result is a fault entry or a completion with one of the command's effects (60_exceptions.md R275). -/
def FaultsOrHasEffect (s : State) (i : Instr) (r : Result) : Prop :=
  ∀ t, r = .next t → (∃ c, t = s.enterFault c) ∨ ∃ u, Effect s i u ∧ t = u.complete

/-! ## Rules for pseudocode: one per operation -/

/-- Every answer the pseudocode can give has a property; a cause is no answer. -/
def Yields {α : Type} (r : Except Cause α) (Q : α → Prop) : Prop := ∀ x, r = .ok x → Q x

section
variable {α β : Type} {s : State} {Q : β → Prop}

theorem Yields.pure {x : β} (h : Q x) : Yields (Pure.pure x) Q := fun _ e => by cases e; exact h

theorem Yields.bind {r : Except Cause α} {k : α → Except Cause β} (h : ∀ x, r = .ok x → Yields (k x) Q) :
    Yields (r >>= k) Q := by
  intro y e
  obtain ⟨x, hx, hy⟩ := bind_eq_ok.1 e
  exact h x hx y hy

theorem Yields.read {rf : RegFile α} {i : RegNo} {k : α → Except Cause β} (h : ∀ x, rf.get i = some x → Yields (k x) Q) :
    Yields (readReg rf i >>= k) Q := .bind fun x hx => h x (readReg_eq_ok.1 hx)

theorem Yields.require {b : Bool} {c : Cause} {k : Unit → Except Cause β} (h : b = true → Yields (k ()) Q) :
    Yields (require b c >>= k) Q := .bind fun _ hx => h (require_eq_ok.1 hx)

theorem Yields.needCurve {k : Unit → Except Cause β} (h : s.crv.ok = true → Yields (k ()) Q) :
    Yields (s.needCurve >>= k) Q := .bind fun _ hx => h (needCurve_eq_ok.1 hx)

theorem Yields.sameField {c1 c2 : Ctx} {k : Unit → Except Cause β} (h : (s.fld c1).mod = (s.fld c2).mod → Yields (k ()) Q) :
    Yields (s.sameField c1 c2 >>= k) Q := .bind fun _ hx => h (sameField_eq_ok.1 hx)

theorem Yields.entry {xs : List α} {n : Nat} {k : α → Except Cause β} (h : ∀ x ∈ xs, Yields (k x) Q) :
    Yields (entry xs n >>= k) Q := .bind fun x hx => h x (List.mem_of_getElem? (entry_eq_ok.1 hx))

theorem Yields.vecPair {i j : RegNo} {k : FVec × List Fe → Except Cause β}
    (h : ∀ x y, s.v.get i = some x → s.v.get j = some y → (s.fld x.ctx).mod = (s.fld y.ctx).mod →
      x.elems.length = y.elems.length → Yields (k (x, y.elems.map (s.convert y.ctx x.ctx))) Q) :
    Yields (s.vecPair i j >>= k) Q := .bind fun r hr => by
  obtain ⟨x, y, hx, hy, hm, hl, rfl⟩ := vecPair_eq_ok.1 hr
  exact h x y hx hy hm hl

/-- A command's effects are what its pseudocode yields. -/
theorem FaultsOrHasEffect.finish {i : Instr} {r : Except Cause State} (h : Yields r (Effect s i)) :
    FaultsOrHasEffect s i (Machine.finish s r) := by
  intro t ht
  rcases finish_eq_next.1 ht with ⟨u, hu, rfl⟩ | ⟨c, -, rfl⟩
  · exact .inr ⟨u, h u hu, rfl⟩
  · exact .inl ⟨c, rfl⟩

end

/-! ## The effect of each command -/

section
variable (s : State)

/-! ### Configuration and transfer (40_config_transfer.md) -/

theorem execFsetup_effect (c : Ctx) (st : Strat) (m : Raw) : FaultsOrHasEffect s (.fsetup c st m) (execFsetup c st m s) :=
  .finish <| .require fun hfresh => .require fun hm => .pure <| by
    rw [Bool.not_eq_true'] at hfresh
    rw [Bool.and_eq_true, decide_eq_true_eq, beq_iff_eq] at hm
    exact .fsetup hfresh hm.1 hm.2

theorem execCsetup_effect (a b : Raw) : FaultsOrHasEffect s (.csetup a b) (execCsetup a b s) :=
  .finish <| .require fun h0 => .require fun h1 => .require fun hfresh => .pure <|
    .csetup h0 h1 (by rwa [Bool.not_eq_true'] at hfresh)

theorem execLde_effect (d : RegNo) (c : Ctx) (raw : Raw) : FaultsOrHasEffect s (.lde d c raw) (execLde d c raw s) :=
  .finish <| .require fun hc => .pure <| .putE rfl fun hi => ⟨hc, (hi.setup.fld c hc).canon_ofRaw raw⟩

theorem execSte_effect (k : RegNo) : FaultsOrHasEffect s (.ste k) (execSte k s) :=
  .finish <| .read fun _ _ => .pure <| .emit rfl rfl

theorem execLda_effect (d : RegNo) (pt : RawPoint) : FaultsOrHasEffect s (.lda d pt) (execLda d pt s) :=
  .finish <| .needCurve fun hc => .pure <| .putA rfl fun hi => ⟨hc, pointOfRaw_canon (hi.setup.curve_wf hc).fp pt⟩

theorem execLdainf_effect (d : RegNo) : FaultsOrHasEffect s (.ldainf d) (execLdainf d s) :=
  .finish <| .needCurve fun hc => .pure <| .putA rfl fun _ => ⟨hc, rfl⟩

theorem execSta_effect (k : RegNo) : FaultsOrHasEffect s (.sta k) (execSta k s) :=
  .finish <| .needCurve fun _ => .read fun _ _ => .bind fun _ _ => .pure <| .emit rfl rfl

theorem execLdv_effect (d : RegNo) (c : Ctx) (raws : List Raw) : FaultsOrHasEffect s (.ldv d c raws) (execLdv d c raws s) :=
  .finish <| .require fun hlen => .require fun hc => .pure <| .putV rfl fun hi => by
    refine ⟨hc, by simpa using hlen, fun y hy => ?_⟩
    obtain ⟨raw, -, rfl⟩ := List.mem_map.1 hy
    exact (hi.setup.fld c hc).canon_ofRaw raw

theorem execStv_effect (k : RegNo) : FaultsOrHasEffect s (.stv k) (execStv k s) :=
  .finish <| .read fun _ _ => .pure <| .emit rfl rfl

theorem execLdg_effect (d : RegNo) (pts : List RawPoint) : FaultsOrHasEffect s (.ldg d pts) (execLdg d pts s) :=
  .finish <| .require fun hlen => .needCurve fun hc => .pure <| .putG rfl fun hi => by
    refine ⟨hc, by simpa using hlen, fun q hq => ?_⟩
    obtain ⟨pt, -, rfl⟩ := List.mem_map.1 hq
    exact ⟨nofun, pointOfRaw_canon (hi.setup.curve_wf hc).fp pt⟩

theorem execStg_effect (k : RegNo) : FaultsOrHasEffect s (.stg k) (execStg k s) :=
  .finish <| .needCurve fun _ => .read fun _ _ => .bind fun _ _ => .pure <| .emit rfl rfl

/-! ### Field unit (41_field.md) -/

/-- FADD, FSUB and FMUL, for any operation that keeps stored forms canonical (41_field.md R150 to R152). -/
theorem fieldBinary_effect {op : FieldCtx → Fe → Fe → Fe}
    (hop : ∀ f : FieldCtx, f.WF → ∀ a b, f.Canon a → f.Canon b → f.Canon (op f a b)) {i : Instr} {d : RegNo} (k1 k2 : RegNo)
    (hd : i.dest = some (.e d)) : FaultsOrHasEffect s i (fieldBinary op d k1 k2 s) :=
  .finish <| .read fun _ hx => .read fun _ hy => .sameField fun hm => .pure <| .putE hd fun hi =>
    have hx' := hi.regs.e _ _ hx
    have hy' := hi.regs.e _ _ hy
    ⟨hx'.1, hop _ (hi.elem_wf hx) _ _ hx'.2 (hi.setup.canon_convert hy'.1 hx'.1 hm hy'.2)⟩

/-- A command that writes a function of one element in its context, for any function that keeps stored forms canonical. -/
theorem fieldUnary_effect {op : FieldCtx → Fe → Fe} (hop : ∀ f : FieldCtx, f.WF → ∀ a, f.Canon a → f.Canon (op f a))
    {i : Instr} {d : RegNo} (k : RegNo) (hd : i.dest = some (.e d)) :
    FaultsOrHasEffect s i (finish s do
      let x ← readReg s.e k
      return s.putE d ⟨x.ctx, op (s.fld x.ctx) x.s⟩) :=
  .finish <| .read fun _ hx => .pure <| .putE hd fun hi =>
    have hx' := hi.regs.e _ _ hx
    ⟨hx'.1, hop _ (hi.elem_wf hx) _ hx'.2⟩

theorem execFinv_effect (d k : RegNo) : FaultsOrHasEffect s (.finv d k) (execFinv d k s) :=
  .finish <| .read fun _ hx => .bind fun _ hr => .pure <| .putE rfl fun hi =>
    ⟨(hi.regs.e _ _ hx).1, (hi.elem_wf hx).canon_inv hr⟩

theorem execFsqrt_effect (d k : RegNo) : FaultsOrHasEffect s (.fsqrt d k) (execFsqrt d k s) :=
  .finish <| .read fun _ hx => .bind fun _ hr => .pure <| .fsqrt fun hi =>
    ⟨(hi.regs.e _ _ hx).1, (hi.elem_wf hx).canon_sqrt hr⟩

theorem execFeq_effect (k1 k2 : RegNo) : FaultsOrHasEffect s (.feq k1 k2) (execFeq k1 k2 s) :=
  .finish <| .read fun _ _ => .read fun _ _ => .sameField fun _ => .pure <| .compare rfl (by simp [Instr.flags]) (.inl rfl)

/-! ### Curve unit (42_curve.md) -/

theorem execPchk_effect (k : RegNo) : FaultsOrHasEffect s (.pchk k) (execPchk k s) :=
  .finish <| .needCurve fun _ => .read fun _ _ => .pure <| .compare rfl (by simp [Instr.flags]) (.inr rfl)

theorem execPtoj_effect (d k : RegNo) : FaultsOrHasEffect s (.ptoj d k) (execPtoj d k s) :=
  .finish <| .needCurve fun hc => .read fun _ hq => .pure <| .putJ rfl fun hi =>
    ⟨hc, ((hi.setup.curve_wf hc).toJ_spec (hi.regs.a _ _ hq).2).1⟩

theorem execPtoa_effect (d k : RegNo) : FaultsOrHasEffect s (.ptoa d k) (execPtoa d k s) :=
  .finish <| .needCurve fun hc => .read fun _ hp => .bind fun _ hq => .pure <| .putA rfl fun hi =>
    ⟨hc, (hi.setup.curve_wf hc).toA_canon (hi.regs.j _ _ hp).2 hq⟩

theorem execPadd_effect (d k1 k2 : RegNo) : FaultsOrHasEffect s (.padd d k1 k2) (execPadd d k1 k2 s) :=
  .finish <| .needCurve fun hc => .read fun _ hp => .read fun _ hq => .pure <| .putJ rfl fun hi =>
    ⟨hc, ((hi.setup.curve_wf hc).padd_spec (hi.regs.j _ _ hp).2 (hi.regs.j _ _ hq).2).1⟩

theorem execPmadd_effect (d k1 k2 : RegNo) : FaultsOrHasEffect s (.pmadd d k1 k2) (execPmadd d k1 k2 s) :=
  .finish <| .needCurve fun hc => .read fun _ hp => .read fun _ hq => .pure <| .putJ rfl fun hi =>
    ⟨hc, ((hi.setup.curve_wf hc).pmadd_spec (hi.regs.j _ _ hp).2 (hi.regs.a _ _ hq).2).1⟩

theorem execPdbl_effect (d k : RegNo) : FaultsOrHasEffect s (.pdbl d k) (execPdbl d k s) :=
  .finish <| .needCurve fun hc => .read fun _ hp => .pure <| .putJ rfl fun hi =>
    ⟨hc, ((hi.setup.curve_wf hc).pdbl_spec (hi.regs.j _ _ hp).2).1⟩

theorem execPneg_effect (d k : RegNo) : FaultsOrHasEffect s (.pneg d k) (execPneg d k s) :=
  .finish <| .needCurve fun hc => .read fun _ hp => .pure <| .putJ rfl fun hi =>
    ⟨hc, ((hi.setup.curve_wf hc).pneg_spec (hi.regs.j _ _ hp).2).1⟩

theorem execPmul_effect (d k1 k2 : RegNo) : FaultsOrHasEffect s (.pmul d k1 k2) (execPmul d k1 k2 s) :=
  .finish <| .needCurve fun hc => .read fun _ _ => .read fun _ hp => .pure <| .putJ rfl fun hi =>
    ⟨hc, ((hi.setup.curve_wf hc).pmul_spec _ (hi.regs.j _ _ hp).2).1⟩

theorem execPeq_effect (k1 k2 : RegNo) : FaultsOrHasEffect s (.peq k1 k2) (execPeq k1 k2 s) :=
  .finish <| .needCurve fun _ => .read fun _ _ => .read fun _ _ => .pure <| .compare rfl (by simp [Instr.flags]) (.inl rfl)

theorem execGsetup_effect (pt : RawPoint) : FaultsOrHasEffect s (.gsetup pt) (execGsetup pt s) :=
  .finish <| .needCurve fun hc => .pure <| .gsetup hc

theorem execAgen_effect (d : RegNo) : FaultsOrHasEffect s (.agen d) (execAgen d s) :=
  .finish <| .needCurve fun hc => .require fun hg => .pure <| .putA rfl fun hi => by
    obtain ⟨-, hx, hy⟩ := hi.setup.gen hg
    exact ⟨hc, by simp [Affine.Canon, Affine.canonical, hx, hy]⟩

/-! ### Vector unit (43_vector.md) -/

/-- VADD, VSUB and VHAD, for any operation on lists that is pointwise and keeps stored forms canonical (43_vector.md R223 to
R225). -/
theorem vecBinary_effect {op : FieldCtx → List Fe → List Fe → List Fe}
    (hop : ∀ f : FieldCtx, f.WF → ∀ as bs : List Fe, (∀ a ∈ as, f.Canon a) → (∀ b ∈ bs, f.Canon b) →
      (op f as bs).length ≤ as.length ∧ ∀ r ∈ op f as bs, f.Canon r)
    {i : Instr} {d : RegNo} (k1 k2 : RegNo) (hd : i.dest = some (.v d)) :
    FaultsOrHasEffect s i (vecBinary op d k1 k2 s) :=
  .finish <| .vecPair fun x y hx hy hm _ => .pure <| .putV hd fun hi => by
    obtain ⟨hxok, hxlen, hxc⟩ := hi.regs.v _ _ hx
    obtain ⟨hyok, -, hyc⟩ := hi.regs.v _ _ hy
    have hyc' : ∀ b ∈ y.elems.map (s.convert y.ctx x.ctx), (s.fld x.ctx).Canon b := by
      intro b hb
      obtain ⟨b', hb', rfl⟩ := List.mem_map.1 hb
      exact hi.setup.canon_convert hyok hxok hm (hyc b' hb')
    obtain ⟨hlen, hc⟩ := hop _ (hi.vec_wf hx) _ _ hxc hyc'
    exact ⟨hxok, hlen.trans hxlen, hc⟩

theorem execVscl_effect (d k1 k2 : RegNo) : FaultsOrHasEffect s (.vscl d k1 k2) (execVscl d k1 k2 s) :=
  .finish <| .read fun _ hx => .read fun _ hk => .sameField fun hm => .pure <| .putV rfl fun hi => by
    obtain ⟨hxok, hxlen, -⟩ := hi.regs.v _ _ hx
    obtain ⟨hkok, hkc⟩ := hi.regs.e _ _ hk
    have hk' := hi.setup.canon_convert hkok hxok hm hkc
    exact ⟨hxok, by simpa [FieldCtx.vscl] using hxlen, ((hi.vec_wf hx).vscl_spec hk' _).1⟩

theorem execVip_effect (d k1 k2 : RegNo) : FaultsOrHasEffect s (.vip d k1 k2) (execVip d k1 k2 s) :=
  .finish <| .vecPair fun _ _ hx _ _ _ => .pure <| .putE rfl fun hi =>
    have hx' := hi.regs.v _ _ hx
    ⟨hx'.1, ((hi.vec_wf hx).vip_spec hx'.2.2).1⟩

theorem execVslice_effect (d k : RegNo) (start len : Fin 65536) :
    FaultsOrHasEffect s (.vslice d k start len) (execVslice d k start len s) :=
  .finish <| .read fun _ hx => .require fun _ => .pure <| .putV rfl fun hi => by
    obtain ⟨hok, hlen, hc⟩ := hi.regs.v _ _ hx
    exact ⟨hok, (length_slice_le ..).trans hlen, fun y hy => hc y (slice_subset _ _ _ y hy)⟩

theorem execVpow_effect (d k : RegNo) (n : Fin 4096) : FaultsOrHasEffect s (.vpow d k n) (execVpow d k n s) :=
  .finish <| .require fun hn => .read fun _ hk => .pure <| .putV rfl fun hi =>
    have hwf := hi.elem_wf hk
    ⟨(hi.regs.e _ _ hk).1, (hwf.length_vpowers _ _).trans_le (of_decide_eq_true hn), hwf.canon_vpowers _ _⟩

theorem execVget_effect (d k : RegNo) (n : Fin 4096) : FaultsOrHasEffect s (.vget d k n) (execVget d k n s) :=
  .finish <| .read fun _ hx => .entry fun y hy => .pure <| .putE rfl fun hi =>
    have hx' := hi.regs.v _ _ hx
    ⟨hx'.1, hx'.2.2 y hy⟩

theorem execVrev_effect (d k : RegNo) : FaultsOrHasEffect s (.vrev d k) (execVrev d k s) :=
  .finish <| .read fun _ hx => .pure <| .putV rfl fun hi => by
    obtain ⟨hok, hlen, hc⟩ := hi.regs.v _ _ hx
    exact ⟨hok, by simpa [rev] using hlen, fun y hy => hc y (List.mem_reverse.1 hy)⟩

theorem execGmsm_effect (d k1 k2 : RegNo) : FaultsOrHasEffect s (.gmsm d k1 k2) (execGmsm d k1 k2 s) :=
  .finish <| .needCurve fun hc => .read fun _ hq => .read fun _ _ => .require fun _ => .pure <| .putJ rfl fun hi =>
    ⟨hc, ((hi.setup.curve_wf hc).msm_spec (fun q h => ((hi.regs.g _ _ hq).2.2 q h).2) _).1⟩

theorem execGslice_effect (d k : RegNo) (start len : Fin 65536) :
    FaultsOrHasEffect s (.gslice d k start len) (execGslice d k start len s) :=
  .finish <| .needCurve fun hc => .read fun _ hq => .require fun _ => .pure <| .putG rfl fun hi => by
    obtain ⟨-, hlen, hqs⟩ := hi.regs.g _ _ hq
    exact ⟨hc, (length_slice_le ..).trans hlen, fun q h => hqs q (slice_subset _ _ _ q h)⟩

theorem execGget_effect (d k : RegNo) (n : Fin 4096) : FaultsOrHasEffect s (.gget d k n) (execGget d k n s) :=
  .finish <| .needCurve fun hc => .read fun _ hq => .entry fun q h => .pure <| .putA rfl fun hi =>
    ⟨hc, ((hi.regs.g _ _ hq).2.2 q h).2⟩

/-! ### Inner-product unit (44_ipa.md) -/

theorem execIpach_effect (d k1 k2 k3 : RegNo) : FaultsOrHasEffect s (.ipach d k1 k2 k3) (execIpach d k1 k2 k3 s) :=
  .finish <| .needCurve fun hc => .read fun _ _ => .read fun _ _ => .read fun _ _ => .bind fun _ hx => .pure <|
    .putE rfl fun hi => ⟨(hi.setup.crv hc).2.1, canon_chal (hi.setup.curve_wf hc).fq hx⟩

theorem execIpasv_effect (d k : RegNo) : FaultsOrHasEffect s (.ipasv d k) (execIpasv d k s) :=
  .finish <| .read fun _ hx => .require fun hlen => .bind fun _ hsv => .pure <| .putV rfl fun hi =>
    ⟨(hi.regs.v _ _ hx).1, (length_ipasv hsv).trans_le (of_decide_eq_true hlen), (hi.vec_wf hx).canon_ipasv hsv⟩

theorem execIpavfy_effect (gs hs au aP : RegNo) (pf : RawProof) :
    FaultsOrHasEffect s (.ipavfy gs hs au aP pf) (execIpavfy gs hs au aP pf s) :=
  .finish <| .require fun _ => .needCurve fun _ => .read fun _ hg => .read fun _ hh => .read fun _ hu => .read fun _ hP =>
    .require fun hsame => .require fun _ => .require fun hlen => .bind fun _ hv => .pure <|
      have hlen' := (beq_iff_eq.1 hlen).symm
      .verify hg hh hu hP hlen' ((beq_iff_eq.1 hsame).symm.trans hlen') hv

theorem execIpaprv_effect (gs hs au aP va vb : RegNo) :
    FaultsOrHasEffect s (.ipaprv gs hs au aP va vb) (execIpaprv gs hs au aP va vb s) :=
  .finish <| .needCurve fun _ => .read fun _ _ => .read fun _ _ => .read fun _ _ => .read fun _ _ => .read fun _ _ =>
    .read fun _ _ => .sameField fun _ => .sameField fun _ => .require fun _ => .require fun _ => .bind fun _ _ =>
      .bind fun _ _ => .pure <| .emit rfl rfl

/-! ### Every command -/

/-- Every command has one of its effects or faults. -/
theorem exec_effect (i : Instr) : FaultsOrHasEffect s i (exec i s) := by
  cases i with
  | nop => exact .finish (.pure .nop)
  | fsetup c st m => exact execFsetup_effect s c st m
  | csetup a b => exact execCsetup_effect s a b
  | sts => exact .finish (.pure (.emit rfl rfl))
  | lde d c raw => exact execLde_effect s d c raw
  | ste k => exact execSte_effect s k
  | lda d pt => exact execLda_effect s d pt
  | ldainf d => exact execLdainf_effect s d
  | sta k => exact execSta_effect s k
  | ldv d c raws => exact execLdv_effect s d c raws
  | stv k => exact execStv_effect s k
  | ldg d pts => exact execLdg_effect s d pts
  | stg k => exact execStg_effect s k
  | fadd d k1 k2 => exact fieldBinary_effect s (fun _ hf a b _ _ => hf.canon_add a b) k1 k2 rfl
  | fsub d k1 k2 => exact fieldBinary_effect s (fun _ _ _ _ ha hb => FieldCtx.WF.canon_sub ha hb) k1 k2 rfl
  | fmul d k1 k2 => exact fieldBinary_effect s (fun _ hf _ b ha _ => hf.canon_mul ha b) k1 k2 rfl
  | fneg d k => exact fieldUnary_effect s (fun _ hf a _ => hf.canon_neg a) k rfl
  | finv d k => exact execFinv_effect s d k
  | fpow d k e => exact fieldUnary_effect s (fun _ hf a _ => hf.canon_pow a e.toNat) k rfl
  | fpoww d k e => exact fieldUnary_effect s (fun _ hf a _ => hf.canon_poww a e.toNat) k rfl
  | fsqrt d k => exact execFsqrt_effect s d k
  | feq k1 k2 => exact execFeq_effect s k1 k2
  | fmov d k => exact fieldUnary_effect s (fun _ _ _ ha => ha) k rfl
  | pchk k => exact execPchk_effect s k
  | ptoj d k => exact execPtoj_effect s d k
  | ptoa d k => exact execPtoa_effect s d k
  | padd d k1 k2 => exact execPadd_effect s d k1 k2
  | pmadd d k1 k2 => exact execPmadd_effect s d k1 k2
  | pdbl d k => exact execPdbl_effect s d k
  | pneg d k => exact execPneg_effect s d k
  | pmul d k1 k2 => exact execPmul_effect s d k1 k2
  | peq k1 k2 => exact execPeq_effect s k1 k2
  | gsetup pt => exact execGsetup_effect s pt
  | agen d => exact execAgen_effect s d
  | vadd d k1 k2 =>
    exact vecBinary_effect s (fun _ hf as bs ha hb => ⟨by simp [FieldCtx.vadd], (hf.vadd_spec ha hb).1⟩) k1 k2 rfl
  | vsub d k1 k2 =>
    exact vecBinary_effect s (fun _ hf as bs ha hb => ⟨by simp [FieldCtx.vsub], (hf.vsub_spec ha hb).1⟩) k1 k2 rfl
  | vhad d k1 k2 =>
    exact vecBinary_effect s (fun _ hf as bs ha hb => ⟨by simp [FieldCtx.vhad], (hf.vhad_spec ha hb).1⟩) k1 k2 rfl
  | vscl d k1 k2 => exact execVscl_effect s d k1 k2
  | vip d k1 k2 => exact execVip_effect s d k1 k2
  | vslice d k start len => exact execVslice_effect s d k start len
  | vpow d k n => exact execVpow_effect s d k n
  | vget d k n => exact execVget_effect s d k n
  | vrev d k => exact execVrev_effect s d k
  | gmsm d k1 k2 => exact execGmsm_effect s d k1 k2
  | gslice d k start len => exact execGslice_effect s d k start len
  | gget d k n => exact execGget_effect s d k n
  | ipach d k1 k2 k3 => exact execIpach_effect s d k1 k2 k3
  | ipasv d k => exact execIpasv_effect s d k
  | ipavfy gs hs au aP pf => exact execIpavfy_effect s gs hs au aP pf
  | ipaprv gs hs au aP va vb => exact execIpaprv_effect s gs hs au aP va vb

end

/-- Everything a command can do: fault, or complete with one of its effects (60_exceptions.md R275). -/
theorem exec_cases {s t : State} {i : Instr} (h : exec i s = .next t) :
    (∃ c, t = s.enterFault c) ∨ ∃ u, Effect s i u ∧ t = u.complete := exec_effect s i t h

/-- A command that `CSEQ` counts has completed. -/
theorem exec_completed {s t : State} {i : Instr} (h : exec i s = .next t) (hseq : t.cseq = s.cseq + 1) :
    ∃ u, Effect s i u ∧ t = u.complete := by
  rcases exec_cases h with ⟨c, rfl⟩ | hu
  · rw [State.enterFault_cseq] at hseq
    simp at hseq
  · exact hu

/-- Everything a step can do: take a word, enter a fault, or run the decoded command to one of its effects. -/
theorem step_effect {s t : State} (h : step s = .next t) :
    ∃ rest, t = { s with cmdIn := rest } ∨ (∃ c, t = State.enterFault { s with cmdIn := rest } c) ∨
      s.flag .fault = false ∧ ∃ i u, decode s.cmdIn = .ok (i, rest) ∧ Effect { s with cmdIn := rest } i u ∧ t = u.complete := by
  obtain ⟨w, rest, hcmd, hcase⟩ := step_cases h
  rcases hcase with ⟨-, ht⟩ | ⟨-, -, ht⟩ | ⟨-, -, ht⟩ | ⟨running, -, i, rest', -, -, hdecode, hexec⟩
  · exact ⟨rest, .inl ht⟩
  · exact ⟨rest, .inr (.inl ⟨_, ht⟩)⟩
  · exact ⟨rest, .inr (.inl ⟨_, ht⟩)⟩
  · refine ⟨rest', .inr ((exec_cases hexec).imp_right fun ⟨u, hu, ht⟩ => ⟨running, i, u, ?_, hu, ht⟩)⟩
    rw [hcmd, hdecode]

/-! ## The frame of an effect -/

namespace State

variable {s : State} {c k : Ctx}

/-- FSETUP of a context that is not set up leaves every context that is. -/
theorem fld_putFld_of_ok (hc : (s.fld c).ok = false) (hk : (s.fld k).ok = true) (f : FieldCtx) :
    (s.putFld c f).fld k = s.fld k := by
  refine putFld_fld_other s ?_ f
  rintro rfl
  rw [hc] at hk
  cases hk

theorem sameReg_of_files {t : State} (he : t.e = s.e) (ha : t.a = s.a) (hj : t.j = s.j) (hv : t.v = s.v) (hg : t.g = s.g)
    (r : RegName) : t.sameReg s r := by
  cases r <;> simp only [sameReg, he, ha, hj, hv, hg]

theorem sameReg_putE {d : RegNo} {r : RegName} (h : some (.e d) ≠ some r) (x : Elem) : (s.putE d x).sameReg s r := by
  cases r with
  | e i => exact writeReg_get_other _ (fun hi => h (by rw [hi])) x
  | _ => rfl

theorem sameReg_putA {d : RegNo} {r : RegName} (h : some (.a d) ≠ some r) (q : Affine) : (s.putA d q).sameReg s r := by
  cases r with
  | a i => exact writeReg_get_other _ (fun hi => h (by rw [hi])) q
  | _ => rfl

theorem sameReg_putJ {d : RegNo} {r : RegName} (h : some (.j d) ≠ some r) (p : Jac) : (s.putJ d p).sameReg s r := by
  cases r with
  | j i => exact writeReg_get_other _ (fun hi => h (by rw [hi])) p
  | _ => rfl

theorem sameReg_putV {d : RegNo} {r : RegName} (h : some (.v d) ≠ some r) (x : FVec) : (s.putV d x).sameReg s r := by
  cases r with
  | v i => exact writeReg_get_other _ (fun hi => h (by rw [hi])) x
  | _ => rfl

theorem sameReg_putG {d : RegNo} {r : RegName} (h : some (.g d) ≠ some r) (qs : GVec) : (s.putG d qs).sameReg s r := by
  cases r with
  | g i => exact writeReg_get_other _ (fun hi => h (by rw [hi])) qs
  | _ => rfl

end State

namespace Effect

variable {s u : State} {i : Instr}

theorem sameReg (h : Effect s i u) {r : RegName} (hr : i.dest ≠ some r) : u.sameReg s r := by
  cases h with
  | putE dest => exact State.sameReg_putE (dest ▸ hr) _
  | putA dest => exact State.sameReg_putA (dest ▸ hr) _
  | putJ dest => exact State.sameReg_putJ (dest ▸ hr) _
  | putV dest => exact State.sameReg_putV (dest ▸ hr) _
  | putG dest => exact State.sameReg_putG (dest ▸ hr) _
  | fsqrt => exact State.sameReg_putE hr _
  | _ => apply State.sameReg_of_files <;> simp

theorem written_dest (h : Effect s i u) {r : RegName} (hr : i.dest = some r) : u.written r = true := by
  cases h with
  | putE dest | putA dest | putJ dest | putV dest | putG dest =>
    cases dest.symm.trans hr
    simp [State.written]
  | fsqrt => cases hr; simp [State.written]
  | emit dest | compare dest => cases dest.symm.trans hr
  | _ => cases hr

theorem flag_other (h : Effect s i u) {f : Flag} (hf : f ∉ i.flags) : u.flag f = s.flag f := by
  cases h with
  | compare _ hg => exact State.flag_putFlag_other _ (ne_of_mem_of_not_mem hg hf).symm _
  | @fsetup c =>
    refine (State.flag_putFlag_other _ ?_ _).trans (by simp [State.flag])
    rintro rfl
    cases c <;> exact hf (by simp [Instr.flags, okFlag])
  | csetup => exact State.flag_putFlag_other _ (fun e => hf (by simp [Instr.flags, e])) _
  | gsetup => exact (State.flag_putFlag_other _ (fun e => hf (by simp [Instr.flags, e])) _).trans (by simp [State.flag])
  | verify => exact State.flag_putFlag_other _ (fun e => hf (by simp [Instr.flags, e])) _
  | fsqrt => exact State.flag_putFlag_other _ (fun e => hf (by simp [Instr.flags, e])) _
  | _ => rfl

/-- The reserved bits, `FCODE` and every other bit above the flags stay. -/
theorem status_and_mask (h : Effect s i u) {mask : BitVec 32} (hmask : ∀ n < 9, mask.getLsbD n = false) :
    u.status &&& mask = s.status &&& mask := by
  cases h <;> simp [setFlag_and_mask _ _ _ hmask]

theorem fld_other (h : Effect s i u) {c : Ctx} (hi : ∀ st m, i ≠ .fsetup c st m) : u.fld c = s.fld c := by
  cases h with
  | fsetup =>
    refine (State.putFlag_fld ..).trans (State.putFld_fld_other s ?_ _)
    rintro rfl
    exact hi _ _ rfl
  | csetup => cases c <;> rfl
  | _ => simp

theorem crv_other (h : Effect s i u) (hi : ∀ a b, i ≠ .csetup a b) : u.crv = s.crv := by
  cases h with
  | csetup => exact absurd rfl (hi _ _)
  | _ => simp

theorem gen_other (h : Effect s i u) (hi : ∀ q, i ≠ .gsetup q) : u.gen = s.gen := by
  cases h with
  | gsetup => exact absurd rfl (hi _)
  | _ => simp

theorem dout_append (h : Effect s i u) : ∃ bytes, u.dout = s.dout ++ bytes := by
  cases h with
  | emit => exact ⟨_, rfl⟩
  | _ => exact ⟨[], by simp⟩

theorem dout_other (h : Effect s i u) (hi : i.stores = false) : u.dout = s.dout := by
  cases h with
  | emit _ stores => cases stores.symm.trans hi
  | _ => simp

theorem fseq (h : Effect s i u) : u.fseq = s.fseq := by cases h <;> simp

theorem cmdIn (h : Effect s i u) : u.cmdIn = s.cmdIn := by cases h <;> simp

theorem nmaxLog (h : Effect s i u) : u.nmaxLog = s.nmaxLog := by cases h <;> simp

/-- A context that is set up keeps what it holds (10_state.md R21). -/
theorem fld_of_ok (h : Effect s i u) {c : Ctx} (hc : (s.fld c).ok = true) : u.fld c = s.fld c := by
  cases h with
  | fsetup fresh => exact (State.putFlag_fld ..).trans (State.fld_putFld_of_ok fresh hc _)
  | csetup => cases c <;> rfl
  | _ => simp

/-- The curve once set up keeps what it holds (10_state.md R22). -/
theorem crv_of_ok (h : Effect s i u) (hc : s.crv.ok = true) : u.crv = s.crv := by
  cases h with
  | csetup _ _ fresh => cases fresh.symm.trans hc
  | _ => simp

end Effect

/-! ## The invariant (10_state.md R21 to R33) -/

/-- A property of a file's contents survives a write of something that has it. -/
theorem forall_writeReg {α : Type} {p : α → Prop} {r : RegFile α} (h : ∀ i, ∀ x ∈ r.get i, p x) {x : α} (hx : p x)
    (d : RegNo) : ∀ i, ∀ y ∈ (writeReg r d x).get i, p y := by
  intro i y hy
  rw [writeReg_get, Option.mem_def] at hy
  split at hy
  · cases hy; exact hx
  · exact h i y hy

namespace State

variable {s : State}

theorem SetupInv.putFld (h : s.SetupInv) {c : Ctx} (fresh : (s.fld c).ok = false) {f : FieldCtx} (hf : f.WF) :
    (s.putFld c f).SetupInv := by
  have h0 (hc : s.crv.ok = true) : (s.putFld c f).fld0 = s.fld0 := fld_putFld_of_ok (k := .coord) fresh (h.crv hc).1 f
  have h1 (hc : s.crv.ok = true) : (s.putFld c f).fld1 = s.fld1 := fld_putFld_of_ok (k := .order) fresh (h.crv hc).2.1 f
  refine ⟨fun k hk => ?_, fun hc => ?_, fun hg => ?_⟩
  · by_cases e : k = c
    · subst e; rwa [putFld_fld_same]
    · rw [putFld_fld_other s e] at hk ⊢; exact h.fld k hk
  · rw [putFld_crv] at hc ⊢
    rw [h0 hc, h1 hc]
    exact h.crv hc
  · rw [putFld_gen] at hg ⊢
    have hg' := h.gen hg
    rw [putFld_crv, h0 hg'.1]
    exact hg'

theorem RegInv.putFld (h : s.RegInv) (hs : s.SetupInv) {c : Ctx} (fresh : (s.fld c).ok = false) (f : FieldCtx) :
    (s.putFld c f).RegInv := by
  have h0 (hc : s.crv.ok = true) : (s.putFld c f).fld0 = s.fld0 := fld_putFld_of_ok (k := .coord) fresh (hs.crv hc).1 f
  refine ⟨fun i x hx => ?_, fun i q hq => ?_, fun i p hp => ?_, fun i x hx => ?_, fun i qs hqs => ?_⟩
  · rw [putFld_e] at hx
    have hx' := h.e i x hx
    rwa [fld_putFld_of_ok fresh hx'.1]
  · rw [putFld_a] at hq
    have hq' := h.a i q hq
    rwa [putFld_crv, h0 hq'.1]
  · rw [putFld_j] at hp
    have hp' := h.j i p hp
    rwa [putFld_crv, h0 hp'.1]
  · rw [putFld_v] at hx
    have hx' := h.v i x hx
    rwa [fld_putFld_of_ok fresh hx'.1, putFld_nmax]
  · rw [putFld_g] at hqs
    have hqs' := h.g i qs hqs
    rwa [putFld_crv, h0 hqs'.1, putFld_nmax]

theorem SetupInv.putCurve (h : s.SetupInv) (h0 : s.fld0.ok = true) (h1 : s.fld1.ok = true) (a b : Raw) :
    ({ s with crv := s.curveRecord a b } : State).SetupInv := by
  have hwf : s.fld0.WF := h.fld .coord h0
  exact ⟨h.fld, fun _ => ⟨h0, h1, hwf.canon_ofRaw a, hwf.canon_ofRaw b, rfl, rfl⟩, fun hg => ⟨rfl, (h.gen hg).2⟩⟩

theorem SetupInv.putFlag (h : s.SetupInv) (f : Flag) (b : Bool) : (s.putFlag f b).SetupInv := ⟨h.fld, h.crv, h.gen⟩

theorem RegInv.putFlag (h : s.RegInv) (f : Flag) (b : Bool) : (s.putFlag f b).RegInv := ⟨h.e, h.a, h.j, h.v, h.g⟩

/-- Every point register stays as good as it was when CSETUP sets the curve up. -/
theorem RegInv.putCurve (h : s.RegInv) (a b : Raw) : ({ s with crv := s.curveRecord a b } : State).RegInv :=
  ⟨h.e, fun i q hq => ⟨rfl, (h.a i q hq).2⟩, fun i p hp => ⟨rfl, (h.j i p hp).2⟩, h.v,
    fun i qs hqs => ⟨rfl, (h.g i qs hqs).2⟩⟩

theorem SetupInv.putGen (h : s.SetupInv) (hc : s.crv.ok = true) (pt : RawPoint) (ok : Bool) : (s.putGen pt ok).SetupInv := by
  have hwf := (h.curve_wf hc).fp
  cases ok with
  | true => exact ⟨h.fld, h.crv, fun _ => ⟨hc, hwf.canon_ofRaw pt.x, hwf.canon_ofRaw pt.y⟩⟩
  | false => exact ⟨h.fld, h.crv, fun hg => by cases hg⟩

theorem RegInv.putGen (h : s.RegInv) (pt : RawPoint) (ok : Bool) : (s.putGen pt ok).RegInv := by
  cases ok <;> exact ⟨h.e, h.a, h.j, h.v, h.g⟩

/-- The status word of a running block after one flag write: a flag that copies an `ok` bit has to be written with it. -/
theorem StatusInv.setFlag {u : State} (h : s.StatusInv) (running : s.flag .fault = false) {f : Flag} {b : Bool}
    (status : u.status = Machine.setFlag s.status f b) (fseq : u.fseq = s.fseq) (hf : f ≠ .fault)
    (genok : u.gen.ok = if Flag.genok = f then b else s.gen.ok)
    (curveok : u.crv.ok = if Flag.curveok = f then b else s.crv.ok)
    (fld0ok : u.fld0.ok = if Flag.fld0ok = f then b else s.fld0.ok)
    (fld1ok : u.fld1.ok = if Flag.fld1ok = f then b else s.fld1.ok) : u.StatusInv := by
  have hflag (g : Flag) : u.flag g = if g = f then b else s.flag g := by
    rw [flag, status, getFlag_setFlag]; rfl
  have hrun : u.flag .fault = false := by rw [hflag, if_neg hf.symm, running]
  refine ⟨?_, ?_, ?_, ?_, ?_, fun _ => ?_, fun hfault => ?_⟩
  · rw [status, setFlag_and_mask _ _ _ (by decide), h.reserved]
  · rw [hflag, genok, h.genok]
  · rw [hflag, curveok, h.curveok]
  · rw [hflag, fld0ok, h.fld0ok]
  · rw [hflag, fld1ok, h.fld1ok]
  · rw [status, getFcode_setFlag, fseq]; exact h.running running
  · rw [hrun] at hfault; cases hfault

/-- Fault entry keeps the invariant (60_exceptions.md R274). -/
theorem Inv.enterFault (h : s.Inv) (c : Cause) : (s.enterFault c).Inv := by
  refine ⟨⟨h.setup.fld, h.setup.crv, h.setup.gen⟩, ⟨h.regs.e, h.regs.a, h.regs.j, h.regs.v, h.regs.g⟩, ?_, ?_, ?_, ?_, ?_, ?_, ?_⟩
  · rw [enterFault_status, setFlag_and_mask _ _ _ (by decide), setFlag_and_mask _ _ _ (by decide),
      setFcode_and_mask _ _ (by decide), h.stat.reserved]
  · rw [flag_enterFault_other s c (by decide) (by decide)]; exact h.stat.genok
  · rw [flag_enterFault_other s c (by decide) (by decide)]; exact h.stat.curveok
  · rw [flag_enterFault_other s c (by decide) (by decide)]; exact h.stat.fld0ok
  · rw [flag_enterFault_other s c (by decide) (by decide)]; exact h.stat.fld1ok
  · intro hrun
    cases hrun.symm.trans (halted_enterFault s c)
  · intro _
    rw [fcode_enterFault]
    exact ⟨c.code_range.1, c.code_range.2, vfy_enterFault s c⟩

theorem Inv.complete (h : s.Inv) : s.complete.Inv :=
  ⟨⟨h.setup.fld, h.setup.crv, h.setup.gen⟩, ⟨h.regs.e, h.regs.a, h.regs.j, h.regs.v, h.regs.g⟩,
    ⟨h.stat.reserved, h.stat.genok, h.stat.curveok, h.stat.fld0ok, h.stat.fld1ok, h.stat.running, h.stat.faulted⟩⟩

theorem Inv.withCmdIn (h : s.Inv) (ws : List Word) : ({ s with cmdIn := ws } : State).Inv :=
  ⟨⟨h.setup.fld, h.setup.crv, h.setup.gen⟩, ⟨h.regs.e, h.regs.a, h.regs.j, h.regs.v, h.regs.g⟩,
    ⟨h.stat.reserved, h.stat.genok, h.stat.curveok, h.stat.fld0ok, h.stat.fld1ok, h.stat.running, h.stat.faulted⟩⟩

end State

namespace Effect

variable {s u : State} {i : Instr}

theorem setupInv (h : Effect s i u) (hi : s.Inv) : u.SetupInv := by
  have hs := hi.setup
  cases h with
  | @fsetup _ st _ fresh three odd => exact (hs.putFld fresh (FieldCtx.setup_wf st three odd)).putFlag _ _
  | @csetup a b f0 f1 => exact (hs.putCurve f0 f1 a b).putFlag _ _
  | @gsetup pt ok curve => exact (hs.putGen curve pt ok).putFlag _ _
  | _ => exact ⟨hs.fld, hs.crv, hs.gen⟩

theorem regInv (h : Effect s i u) (hi : s.Inv) : u.RegInv := by
  have hr := hi.regs
  cases h with
  | @fsetup _ st m fresh => exact (hr.putFld hi.setup fresh (.setup st m)).putFlag _ _
  | @csetup a b => exact (hr.putCurve a b).putFlag _ _
  | @gsetup pt ok => exact (hr.putGen pt ok).putFlag _ _
  | putE _ good | fsqrt good => exact ⟨forall_writeReg hr.e (good hi) _, hr.a, hr.j, hr.v, hr.g⟩
  | putA _ good => exact ⟨hr.e, forall_writeReg hr.a (good hi) _, hr.j, hr.v, hr.g⟩
  | putJ _ good => exact ⟨hr.e, hr.a, forall_writeReg hr.j (good hi) _, hr.v, hr.g⟩
  | putV _ good => exact ⟨hr.e, hr.a, hr.j, forall_writeReg hr.v (good hi) _, hr.g⟩
  | putG _ good => exact ⟨hr.e, hr.a, hr.j, hr.v, forall_writeReg hr.g (good hi) _⟩
  | _ => exact ⟨hr.e, hr.a, hr.j, hr.v, hr.g⟩

theorem statusInv (h : Effect s i u) (hi : s.Inv) (running : s.flag .fault = false) : u.StatusInv := by
  have ht := hi.stat
  cases h with
  | @fsetup c st m =>
    cases c with
    | coord => exact ht.setFlag running rfl rfl nofun rfl rfl (FieldCtx.setup_ok st m) rfl
    | order => exact ht.setFlag running rfl rfl nofun rfl rfl rfl (FieldCtx.setup_ok st m)
  | @gsetup _ ok => cases ok <;> exact ht.setFlag running rfl rfl nofun rfl rfl rfl rfl
  | csetup | verify | fsqrt => exact ht.setFlag running rfl rfl nofun rfl rfl rfl rfl
  | compare _ _ kind => rcases kind with rfl | rfl <;> exact ht.setFlag running rfl rfl nofun rfl rfl rfl rfl
  | nop | emit | putE | putA | putJ | putV | putG =>
    exact ⟨ht.reserved, ht.genok, ht.curveok, ht.fld0ok, ht.fld1ok, ht.running, ht.faulted⟩

theorem inv (h : Effect s i u) (hi : s.Inv) (running : s.flag .fault = false) : u.Inv :=
  ⟨h.setupInv hi, h.regInv hi, h.statusInv hi running⟩

end Effect

/-! ## Unwritten sources (10_state.md R26, 60_exceptions.md R273) -/

/-- One of the registers is not written. -/
def State.Missing (s : State) (rs : List RegName) : Prop := ∃ r ∈ rs, s.written r = false

section
variable {s : State} {α β : Type}

theorem State.not_missing_nil : ¬ s.Missing [] := by simp [State.Missing]

theorem State.missing_cons {n : RegName} {rs : List RegName} : s.Missing (n :: rs) ↔ s.written n = false ∨ s.Missing rs := by
  simp [State.Missing]

/-- Pseudocode that reads its sources one after the other faults at the one that is missing. -/
theorem read_of_missing {n : RegName} {rs : List RegName} (h : s.Missing (n :: rs)) {rf : RegFile α} {i : RegNo}
    (hn : s.written n = (rf.get i).isSome) {k : α → Except Cause β} (hk : s.Missing rs → ∀ x, k x = .error .unwrittenRegister) :
    (readReg rf i >>= k) = .error .unwrittenRegister := by
  cases hx : rf.get i with
  | none => rw [readReg_of_none hx, error_bind]
  | some x =>
    rw [readReg_of_some hx, ok_bind]
    refine hk ((State.missing_cons.1 h).resolve_left ?_) x
    rw [hn, hx]
    nofun

/-- The last source of all is the missing one. -/
theorem read_last_of_missing {n : RegName} (h : s.Missing [n]) {rf : RegFile α} {i : RegNo}
    (hn : s.written n = (rf.get i).isSome) (k : α → Except Cause β) : (readReg rf i >>= k) = .error .unwrittenRegister :=
  read_of_missing h hn fun h => absurd h State.not_missing_nil

theorem vecPair_of_missing {k1 k2 : RegNo} (h : s.Missing [.v k1, .v k2]) :
    s.vecPair k1 k2 = .error .unwrittenRegister :=
  read_of_missing h rfl fun h _ => read_last_of_missing h rfl _

theorem needCurve_bind (h : s.crv.ok = true) (k : Unit → Except Cause β) : (s.needCurve >>= k) = k () := by
  rw [needCurve_eq_ok.2 h, ok_bind]

theorem require_bind {b : Bool} (h : b = true) (c : Cause) (k : Unit → Except Cause β) : (require b c >>= k) = k () := by
  rw [h, require_true, ok_bind]

theorem finish_of_error {r : Except Cause State} {c : Cause} (h : r = .error c) : finish s r = .next (s.enterFault c) := by
  rw [h, finish_error]

/-- A curve command whose pseudocode faults once the curve is there. -/
theorem finish_needCurve_of_error (hc : s.crv.ok = true) {k : Unit → Except Cause State} {c : Cause} (h : k () = .error c) :
    finish s (s.needCurve >>= k) = .next (s.enterFault c) :=
  finish_of_error ((needCurve_bind hc k).trans h)

end

/-- A command in range, with the curve it needs, faults at its first source that is not written (60_exceptions.md R273). -/
theorem exec_of_missing {s : State} {i : Instr} (h : s.Missing i.sources) (hr : i.inRange s.nmax)
    (hc : i.needsCurve = true → s.crv.ok = true) : exec i s = .next (s.enterFault .unwrittenRegister) := by
  cases i with
  | nop | fsetup | csetup | sts | lde | lda | ldainf | ldv | ldg | gsetup | agen => exact absurd h State.not_missing_nil
  | ste | stv | fneg | finv | fpow | fpoww | fsqrt | fmov | vslice | vget | vrev | ipasv =>
    exact finish_of_error (read_last_of_missing h rfl _)
  | fadd | fsub | fmul | feq | vscl =>
    exact finish_of_error (read_of_missing h rfl fun h _ => read_last_of_missing h rfl _)
  | vadd | vsub | vhad | vip => exact finish_of_error (by rw [vecPair_of_missing h, error_bind])
  | vpow d k n =>
    have hn : n.val ≤ s.nmax := hr
    exact finish_of_error ((require_bind (decide_eq_true hn) _ _).trans (read_last_of_missing h rfl _))
  | sta | stg | pchk | ptoj | ptoa | pdbl | pneg | gslice | gget =>
    exact finish_needCurve_of_error (hc rfl) (read_last_of_missing h rfl _)
  | padd | pmadd | pmul | peq | gmsm =>
    exact finish_needCurve_of_error (hc rfl) (read_of_missing h rfl fun h _ => read_last_of_missing h rfl _)
  | ipach =>
    exact finish_needCurve_of_error (hc rfl) <| read_of_missing h rfl fun h _ => read_of_missing h rfl fun h _ =>
      read_last_of_missing h rfl _
  | ipavfy gs hs au aP pf =>
    have hk : 2 ^ pf.ls.length ≤ s.nmax := hr
    exact finish_of_error <| (require_bind (decide_eq_true hk) _ _).trans <| (needCurve_bind (hc rfl) _).trans <|
      read_of_missing h rfl fun h _ => read_of_missing h rfl fun h _ => read_of_missing h rfl fun h _ =>
        read_last_of_missing h rfl _
  | ipaprv =>
    exact finish_needCurve_of_error (hc rfl) <| read_of_missing h rfl fun h _ => read_of_missing h rfl fun h _ =>
      read_of_missing h rfl fun h _ => read_of_missing h rfl fun h _ => read_of_missing h rfl fun h _ =>
        read_last_of_missing h rfl _

/-! ## `VFY` (10_state.md R33) -/

/-- An IPAVFY with its operands in a state, that finds its proof valid (44_ipa.md R252). -/
def State.FindsValid (s : State) (gs hs au aP : RegNo) (pf : RawProof) : Prop :=
  ∃ gsv hsv u P, s.g.get gs = some gsv ∧ s.g.get hs = some hsv ∧ s.a.get au = some u ∧ s.a.get aP = some P ∧
    gsv.length = 2 ^ pf.ls.length ∧ hsv.length = 2 ^ pf.ls.length ∧
    ipaVerify Config.hash256 s.curve gsv hsv u P (proofParse s.curve pf) = .ok true

/-- `VFY` is up after a command only if it was before or the command found a proof valid. -/
theorem Effect.vfy {s u : State} {i : Instr} (h : Effect s i u) (hv : u.flag .vfy = true) :
    s.flag .vfy = true ∨ ∃ gs hs au aP pf, i = .ipavfy gs hs au aP pf ∧ s.FindsValid gs hs au aP pf := by
  by_cases hi : Flag.vfy ∈ i.flags
  · cases h with
    | verify base base' point commitment len len' answer =>
      rw [State.flag_putFlag_same] at hv
      subst hv
      exact .inr ⟨_, _, _, _, _, rfl, _, _, _, _, base, base', point, commitment, len, len', answer⟩
    | compare _ _ kind =>
      rcases kind with rfl | rfl <;> exact .inl (by rwa [State.flag_putFlag_other _ (by decide)] at hv)
    | @fsetup c => cases c <;> simp [Instr.flags] at hi
    | csetup | gsetup | fsqrt | nop => simp [Instr.flags] at hi
    | _ => exact .inl hv
  · exact .inl (by rwa [h.flag_other hi] at hv)

/-! ## The statements -/

/-- Settles O21: taking a word and fault entry keep the invariant, and so does every effect of a command when the block is
running. -/
theorem stepKeepsTheInvariant : Obligations.StepKeepsTheInvariant := by
  unfold Obligations.StepKeepsTheInvariant
  intro s t hi h
  obtain ⟨rest, rfl | ⟨c, rfl⟩ | ⟨running, i, u, -, hu, rfl⟩⟩ := step_effect h
  · exact hi.withCmdIn rest
  · exact (hi.withCmdIn rest).enterFault c
  · exact (hu.inv (hi.withCmdIn rest) running).complete

/-- Settles O15: clause by clause, the frame of the effect that the command has. -/
theorem completedCommandsChangeOnlyWhatTheyName : Obligations.CompletedCommandsChangeOnlyWhatTheyName := by
  unfold Obligations.CompletedCommandsChangeOnlyWhatTheyName
  intro i s t h hseq
  obtain ⟨u, hu, rfl⟩ := exec_completed h hseq
  refine ⟨fun r hr => ?_, fun r hr => ?_, fun _ hf => hu.flag_other hf, hu.status_and_mask (by decide), fun c hc => ?_,
    hu.crv_other, hu.gen_other, hu.dout_append, hu.dout_other, hu.fseq, hu.cmdIn, hu.nmaxLog⟩
  · cases r <;> exact hu.sameReg hr
  · cases r <;> exact hu.written_dest hr
  · exact (State.complete_fld ..).trans (hu.fld_other hc)

/-- Settles O17, by running each command's pseudocode up to its first missing source. -/
theorem unwrittenSourceFaults : Obligations.UnwrittenSourceFaults := by
  unfold Obligations.UnwrittenSourceFaults
  refine ⟨fun r => ?_, rfl, fun i s r hmem hr hrange hc => exec_of_missing ⟨r, hmem, hr⟩ hrange hc⟩
  cases r <;> simp [State.written, State.reset]

/-- Settles O18: fault entry clears `VFY`, and of all effects only that of an IPAVFY with the answer valid raises it. -/
theorem onlyAValidProofSetsVfy : Obligations.OnlyAValidProofSetsVfy := by
  unfold Obligations.OnlyAValidProofSetsVfy
  intro s t h hv
  obtain ⟨rest, rfl | ⟨c, rfl⟩ | ⟨-, i, u, hdecode, hu, rfl⟩⟩ := step_effect h
  · exact .inl hv
  · cases hv.symm.trans (State.vfy_enterFault ..)
  · refine (hu.vfy hv).imp_right fun ⟨gs, hs, au, aP, pf, hi, gsv, hsv, u, P, hvalid⟩ => ?_
    exact ⟨gs, hs, au, aP, pf, rest, gsv, hsv, u, P, by rw [hdecode, hi], hvalid⟩

/-- Settles O22: no effect changes a record that is set up, and the check of `ok` is FSETUP's first and CSETUP's last. -/
theorem configurationIsWrittenOnce : Obligations.ConfigurationIsWrittenOnce := by
  unfold Obligations.ConfigurationIsWrittenOnce
  refine ⟨fun s t h => ?_, fun s c st m hc => ?_, fun s a b h0 h1 hc => ?_⟩
  · obtain ⟨rest, rfl | ⟨c, rfl⟩ | ⟨-, i, u, -, hu, rfl⟩⟩ := step_effect h
    · exact ⟨fun _ _ => rfl, fun _ => rfl⟩
    · exact ⟨fun _ _ => State.enterFault_fld .., fun _ => rfl⟩
    · exact ⟨fun _ hc => (State.complete_fld ..).trans (hu.fld_of_ok hc), hu.crv_of_ok⟩
  · exact finish_of_error (by rw [hc]; rfl)
  · exact finish_of_error (by rw [h0, h1, hc]; rfl)

/-- Settles O19: the reset state does not depend on the state before it, `NMAX` aside. -/
theorem resetGivesTheResetTable : Obligations.ResetGivesTheResetTable := by
  unfold Obligations.ResetGivesTheResetTable
  intro s
  refine ⟨fun c => ?_, rfl, rfl, fun r => ?_, rfl, rfl, rfl, rfl, rfl, rfl⟩
  · cases c <;> rfl
  · cases r <;> simp [State.hostMove, State.assertReset, State.written, State.reset]

/-- Settles O20: nothing is set up, no register is written, and the status word is 0. -/
theorem resetMeetsTheInvariant : Obligations.ResetMeetsTheInvariant := by
  unfold Obligations.ResetMeetsTheInvariant
  refine ⟨⟨fun c hc => ?_, nofun, nofun⟩, ?_, by decide, rfl, rfl, rfl, rfl, fun _ => ⟨rfl, rfl⟩, nofun⟩
  · cases c <;> cases hc
  · constructor <;> intro i x hx <;> simp [State.reset] at hx

end Sys2Proof.Machine
end

section
/-! PROOFS of the statements on words and registers (20_memory.md): what the decoder takes from a stream, which step a stream gives,
what a command's writes depend on (`ActsAlike`), and a load followed by a store. -/

namespace Sys2Proof

/-! ## A command's words (30_encoding.md R70, R74) -/

section
variable {ws : List Word} (more : List Word)

theorem rawOf_append (h : 8 ≤ ws.length) : rawOf (ws ++ more) = rawOf ws := by
  rw [rawOf, rawOf, List.take_append_of_le_length h]

theorem pointOf_append (h : 16 ≤ ws.length) : pointOf (ws ++ more) = pointOf ws := by
  rw [pointOf, pointOf, rawOf_append more (by omega), List.drop_append_of_le_length (by omega),
    rawOf_append more (by rw [List.length_drop]; omega)]

theorem rawsOf_append {n : Nat} (h : 8 * n ≤ ws.length) : rawsOf n (ws ++ more) = rawsOf n ws := by
  induction n generalizing ws with
  | zero => rfl
  | succ n ih =>
    rw [rawsOf, rawsOf, rawOf_append more (by omega), List.drop_append_of_le_length (by omega),
      ih (by rw [List.length_drop]; omega)]

theorem pointsOf_append {n : Nat} (h : 16 * n ≤ ws.length) : pointsOf n (ws ++ more) = pointsOf n ws := by
  induction n generalizing ws with
  | zero => rfl
  | succ n ih =>
    rw [pointsOf, pointsOf, pointOf_append more (by omega), List.drop_append_of_le_length (by omega),
      ih (by rw [List.length_drop]; omega)]

theorem proofOf_append {k : Nat} (h : 32 * k + 16 ≤ ws.length) : proofOf k (ws ++ more) = proofOf k ws := by
  have hR : 16 * k ≤ (ws.drop (16 * k)).length := by rw [List.length_drop]; omega
  have hab : 16 ≤ (ws.drop (32 * k)).length := by rw [List.length_drop]; omega
  have hpoint := pointOf_append more hab
  rw [pointOf, pointOf, RawPoint.mk.injEq] at hpoint
  simp only [proofOf]
  rw [pointsOf_append more (by omega), List.drop_append_of_le_length (by omega : 16 * k ≤ ws.length), pointsOf_append more hR,
    List.drop_append_of_le_length (by omega : 32 * k ≤ ws.length), hpoint.1, hpoint.2]

theorem extStart_append (h : 1 ≤ ws.length) : extStart (ws ++ more) = extStart ws := by
  simp only [extStart, List.take_append_of_le_length h]

theorem extLen_append (h : 1 ≤ ws.length) : extLen (ws ++ more) = extLen ws := by
  simp only [extLen, List.take_append_of_le_length h]

/-- The words behind a command's payload are no part of it (30_encoding.md R70). -/
theorem build_append {w : Word} {o : Opcode} (h : o.payloadWords w ≤ ws.length) : build w (ws ++ more) o = build w ws o := by
  cases o with
  | fsetup | lde | fpow | fpoww => simp only [build, rawOf_append more h]
  | lda | gsetup => simp only [build, pointOf_append more h]
  | csetup =>
    have hpoint := pointOf_append more h
    rw [pointOf, pointOf, RawPoint.mk.injEq] at hpoint
    simp only [build, hpoint.1, hpoint.2]
  | ldv => simp only [build, rawsOf_append more h]
  | ldg => simp only [build, pointsOf_append more h]
  | vslice | gslice => simp only [build, extStart_append more h, extLen_append more h]
  | ipavfy => simp only [build, proofOf_append more h]
  | _ => rfl

end

@[simp] theorem rawsOf_length (n : Nat) (ws : List Word) : (rawsOf n ws).length = n := by
  induction n generalizing ws with
  | zero => rfl
  | succ n ih => rw [rawsOf, List.length_cons, ih]

@[simp] theorem pointsOf_length (n : Nat) (ws : List Word) : (pointsOf n ws).length = n := by
  induction n generalizing ws with
  | zero => rfl
  | succ n ih => rw [pointsOf, List.length_cons, ih]

/-- The lengths of a built command are the ones the header range checks look at (30_encoding.md R80). -/
theorem inRange_build {w : Word} {ws : List Word} {o : Opcode} {nmax : Nat} :
    (build w ws o).inRange nmax ↔ o.outOfRange nmax w = false := by
  cases o with
  | ldv | ldg | vpow | ipavfy => simp [build, Instr.inRange, Opcode.outOfRange, proofOf]
  | _ => exact iff_of_true trivial rfl

/-- Everything the decoder can read: a legal header with all of its payload words. -/
theorem decode_eq_ok {ws rest : List Word} {i : Instr} :
    decode ws = .ok (i, rest) ↔ ∃ w payload o, ws = w :: payload ∧ checkHeader w = .ok o ∧
      o.payloadWords w ≤ payload.length ∧ i = build w payload o ∧ rest = payload.drop (o.payloadWords w) := by
  constructor
  · intro h
    cases ws with
    | nil => cases h
    | cons w payload =>
      simp only [decode] at h
      cases ho : checkHeader w with
      | error err => rw [ho] at h; cases h
      | ok o =>
        simp only [ho] at h
        split at h
        · cases h
        · next hlen =>
          cases h
          exact ⟨w, payload, o, rfl, ho, Nat.le_of_not_lt hlen, rfl, rfl⟩
  · rintro ⟨w, payload, o, rfl, ho, hlen, rfl, rfl⟩
    simp only [decode, ho, if_neg (Nat.not_lt.2 hlen)]

/-- What the decoder reads does not depend on later words, which only stay behind. -/
theorem decode_append {ws rest : List Word} {i : Instr} (h : decode ws = .ok (i, rest)) (more : List Word) :
    decode (ws ++ more) = .ok (i, rest ++ more) := by
  obtain ⟨w, payload, o, rfl, ho, hlen, rfl, rfl⟩ := decode_eq_ok.1 h
  refine decode_eq_ok.2 ⟨w, payload ++ more, o, rfl, ho, ?_, (build_append more hlen).symm, ?_⟩
  · rw [List.length_append]; omega
  · rw [List.drop_append_of_le_length hlen]

end Sys2Proof

namespace Sys2Proof.Machine

/-! ## The step that a stream gives (60_exceptions.md R273) -/

section
variable {s : State} {w : Word} {ws : List Word}

theorem step_of_halted (hh : s.halted = true) (hc : s.cmdIn = w :: ws) : step s = .next { s with cmdIn := ws } := by
  simp only [step, State.fetch, hc, hh, if_true]

theorem step_of_illegal (hh : s.halted = false) (hc : s.cmdIn = w :: ws) {err : DecodeError} (ho : checkHeader w = .error err) :
    step s = .next (State.enterFault { s with cmdIn := ws } .illegalCommand) := by
  simp only [step, State.fetch, hc, hh, ho, Bool.false_eq_true, if_false]

variable {o : Opcode} (hh : s.halted = false) (hc : s.cmdIn = w :: ws) (ho : checkHeader w = .ok o)
include hh hc ho

theorem step_of_outOfRange (hr : o.outOfRange s.nmax w = true) :
    step s = .next (State.enterFault { s with cmdIn := ws } .rangeError) := by
  simp only [step, State.fetch, hc, hh, ho, hr, Bool.false_eq_true, if_false, if_true]

variable (hr : o.outOfRange s.nmax w = false)
include hr

theorem step_of_decode {i : Instr} {rest : List Word} (hd : decode (w :: ws) = .ok (i, rest)) :
    step s = exec i { s with cmdIn := rest } := by
  simp only [step, State.fetch, hc, hh, ho, hr, hd, Bool.false_eq_true, if_false]

theorem step_of_incomplete (hlen : ws.length < o.payloadWords w) : step s = .fault .awaitingPayload := by
  have hd : decode (w :: ws) = .error .incomplete := by simp only [decode, ho, if_pos hlen]
  simp only [step, State.fetch, hc, hh, ho, hr, hd, Bool.false_eq_true, if_false]

end

/-! ## What a command writes -/

/-- The writes that commands make, `CSEQ` aside, each with the values it writes. -/
inductive Write where
  | nothing
  | setup (c : Ctx) (f : FieldCtx)
  | curve (r : CurveRec)
  | generator (pt : RawPoint) (ok : Bool)
  | flag (f : Flag) (b : Bool)
  | emit (bytes : List Byte)
  | e (d : RegNo) (x : Elem)
  | root (d : RegNo) (x : Elem) (isRoot : Bool)
  | a (d : RegNo) (q : Affine)
  | j (d : RegNo) (p : Jac)
  | v (d : RegNo) (x : FVec)
  | g (d : RegNo) (qs : GVec)

/-- A state after a write. -/
def Write.apply (w : Write) (s : State) : State :=
  match w with
  | .nothing => s
  | .setup c f => (s.putFld c f).putFlag (okFlag c) true
  | .curve r => State.putFlag { s with crv := r } .curveok true
  | .generator pt ok => (s.putGen pt ok).putFlag .genok ok
  | .flag f b => s.putFlag f b
  | .emit bytes => s.emit bytes
  | .e d x => s.putE d x
  | .root d x isRoot => (s.putE d x).putFlag .sqok isRoot
  | .a d q => s.putA d q
  | .j d p => s.putJ d p
  | .v d x => s.putV d x
  | .g d qs => s.putG d qs

/-- No write looks at the stream. -/
theorem Write.apply_offer (w : Write) (s : State) (ws : List Word) : w.apply (s.offer ws) = (w.apply s).offer ws := by
  cases w with
  | setup c f => cases c <;> rfl
  | generator pt ok => cases ok <;> rfl
  | _ => rfl

theorem setFlag_setFlag_same (st : BitVec 32) (f : Flag) (b : Bool) : setFlag (setFlag st f b) f b = setFlag st f b := by
  refine BitVec.eq_of_getLsbD_eq fun n _ => ?_
  simp only [setFlag_getLsbD]
  split <;> rfl

theorem writeReg_writeReg_same {α : Type} (r : RegFile α) (i : RegNo) (x : α) :
    writeReg (writeReg r i x) i x = writeReg r i x := Vector.set_set _ _

/-- A write made again changes nothing, unless it appends to `DOUT` (20_memory.md R59). -/
theorem Write.apply_again (w : Write) {s : State} (h : (w.apply s).dout = s.dout) :
    w.apply (w.apply s).complete = (w.apply s).complete := by
  cases w with
  | nothing => rfl
  | emit bytes =>
    have hnil : bytes = [] := by simpa [apply] using h
    simp [apply, State.emit, State.complete, hnil]
  | setup c f => cases c <;> simp [apply, State.putFlag, State.putFld, State.complete, setFlag_setFlag_same]
  | generator pt ok => cases ok <;> simp [apply, State.putFlag, State.putGen, State.complete, setFlag_setFlag_same]
  | curve | flag => simp [apply, State.putFlag, State.complete, setFlag_setFlag_same]
  | root => simp [apply, State.putE, State.putFlag, State.complete, writeReg_writeReg_same, setFlag_setFlag_same]
  | e | a | j | v | g =>
    simp [apply, State.putE, State.putA, State.putJ, State.putV, State.putG, State.complete, writeReg_writeReg_same]

/-! ## What a command's writes depend on: its sources and the configuration -/

/-- Two states hold the same in each of some registers. -/
def State.SameOn (s t : State) (rs : List RegName) : Prop := ∀ r ∈ rs, t.sameReg s r

/-- A state under the configuration of another: its contexts, its curve and `NMAX`. -/
def State.configuredAs (t s : State) : State :=
  { t with fld0 := s.fld0, fld1 := s.fld1, crv := s.crv, nmaxLog := s.nmaxLog }

theorem State.configuredAs_eq {s t : State} (hf : ∀ c, t.fld c = s.fld c) (hc : t.crv = s.crv) (hn : t.nmaxLog = s.nmaxLog) :
    t.configuredAs s = t := by
  rw [configuredAs, ← hc, ← hn, ← s.fld_coord, ← s.fld_order, ← hf, ← hf]
  rfl

/-- The answers of a pseudocode in two states: the same cause, or the same write. -/
def SameAnswer (s t : State) (p q : Except Cause State) : Prop :=
  (∃ c, p = .error c ∧ q = .error c) ∨ ∃ w : Write, p = .ok (w.apply s) ∧ q = .ok (w.apply t)

/-- The results of a command in two states: the same fault, or the same write and completion. -/
def ActsAlike (s t : State) (x y : Result) : Prop :=
  (∃ c, x = .next (s.enterFault c) ∧ y = .next (t.enterFault c)) ∨
  ∃ w : Write, x = .next (w.apply s).complete ∧ y = .next (w.apply t).complete

section
variable {s t : State} {α : Type}

theorem ActsAlike.finish {p q : Except Cause State} (h : SameAnswer s t p q) : ActsAlike s t (finish s p) (finish t q) := by
  rcases h with ⟨c, rfl, rfl⟩ | ⟨w, rfl, rfl⟩
  · exact .inl ⟨c, rfl, rfl⟩
  · exact .inr ⟨w, rfl, rfl⟩

theorem SameAnswer.write (w : Write) : SameAnswer s t (pure (w.apply s)) (pure (w.apply t)) := .inr ⟨w, rfl, rfl⟩

/-- A check or computation that both states answer alike. -/
theorem SameAnswer.step {r r' : Except Cause α} (hr : r' = r) {k k' : α → Except Cause State}
    (hk : ∀ x, SameAnswer s t (k x) (k' x)) : SameAnswer s t (r >>= k) (r' >>= k') := by
  subst hr
  cases r' with
  | error c => exact .inl ⟨c, rfl, rfl⟩
  | ok x => exact hk x

/-- The next source is read. -/
theorem SameAnswer.read {n : RegName} {rs : List RegName} (h : s.SameOn t (n :: rs)) {rf rf' : RegFile α} {i : RegNo}
    (hn : t.sameReg s n → rf'.get i = rf.get i) {k k' : α → Except Cause State}
    (hk : s.SameOn t rs → ∀ x, SameAnswer s t (k x) (k' x)) : SameAnswer s t (readReg rf i >>= k) (readReg rf' i >>= k') := by
  refine .step ?_ (hk fun r hr => h r (List.mem_cons_of_mem n hr))
  rw [readReg, readReg, hn (h n List.mem_cons_self)]

end

/-- Two source vectors are read and checked alike. -/
theorem vecPair_configuredAs {s t : State} {k1 k2 : RegNo} (h : s.SameOn (t.configuredAs s) [.v k1, .v k2]) :
    (t.configuredAs s).vecPair k1 k2 = s.vecPair k1 k2 := by
  have h1 : t.v.get k1 = s.v.get k1 := h (.v k1) (by simp)
  have h2 : t.v.get k2 = s.v.get k2 := h (.v k2) (by simp)
  have hv : (t.configuredAs s).v = t.v := rfl
  rw [State.vecPair, State.vecPair, readReg, readReg, readReg, readReg, hv, h1, h2]
  rfl

/-- `exec_actsAlike` for a configuration that is the same by definition: a check on it is then one computation in both states, and
each case runs the pseudocode operation by operation to its write. -/
theorem exec_configuredAs (i : Instr) {s t : State} (h : s.SameOn (t.configuredAs s) i.sources)
    (hgen : (∀ q, i ≠ .gsetup q) → t.gen = s.gen) (hsts : i = .sts → t.statusBytes = s.statusBytes) :
    ActsAlike s (t.configuredAs s) (exec i s) (exec i (t.configuredAs s)) := by
  cases i with
  | nop => exact .finish (.write .nothing)
  | sts =>
    have hbytes : (t.configuredAs s).statusBytes = s.statusBytes := hsts rfl
    exact .inr ⟨.emit s.statusBytes, rfl,
      congrArg (fun bytes => finish (t.configuredAs s) (.ok ((t.configuredAs s).emit bytes))) hbytes⟩
  | fsetup c st m => exact .finish <| .step rfl fun _ => .step rfl fun _ => .write (.setup _ _)
  | csetup a b => exact .finish <| .step rfl fun _ => .step rfl fun _ => .step rfl fun _ => .write (.curve _)
  | gsetup pt => exact .finish <| .step rfl fun _ => .write (.generator _ _)
  | agen d =>
    have hg : (t.configuredAs s).gen = s.gen := hgen nofun
    refine .finish <| .step rfl fun _ => .step (by rw [hg]) fun _ => ?_
    rw [hg]
    exact .write (.a _ _)
  | lde => exact .finish <| .step rfl fun _ => .write (.e _ _)
  | lda | ldainf => exact .finish <| .step rfl fun _ => .write (.a _ _)
  | ldv => exact .finish <| .step rfl fun _ => .step rfl fun _ => .write (.v _ _)
  | ldg => exact .finish <| .step rfl fun _ => .step rfl fun _ => .write (.g _ _)
  | ste | stv => exact .finish <| .read h id fun _ _ => .write (.emit _)
  | sta | stg => exact .finish <| .step rfl fun _ => .read h id fun _ _ => .step rfl fun _ => .write (.emit _)
  | fneg | fpow | fpoww | fmov => exact .finish <| .read h id fun _ _ => .write (.e _ _)
  | finv | vget => exact .finish <| .read h id fun _ _ => .step rfl fun _ => .write (.e _ _)
  | fsqrt => exact .finish <| .read h id fun _ _ => .step rfl fun _ => .write (.root _ _ _)
  | fadd | fsub | fmul =>
    exact .finish <| .read h id fun h _ => .read h id fun _ _ => .step rfl fun _ => .write (.e _ _)
  | feq => exact .finish <| .read h id fun h _ => .read h id fun _ _ => .step rfl fun _ => .write (.flag _ _)
  | pchk => exact .finish <| .step rfl fun _ => .read h id fun _ _ => .write (.flag _ _)
  | peq => exact .finish <| .step rfl fun _ => .read h id fun h _ => .read h id fun _ _ => .write (.flag _ _)
  | ptoj | pdbl | pneg => exact .finish <| .step rfl fun _ => .read h id fun _ _ => .write (.j _ _)
  | ptoa | gget => exact .finish <| .step rfl fun _ => .read h id fun _ _ => .step rfl fun _ => .write (.a _ _)
  | padd | pmadd | pmul => exact .finish <| .step rfl fun _ => .read h id fun h _ => .read h id fun _ _ => .write (.j _ _)
  | gmsm =>
    exact .finish <| .step rfl fun _ => .read h id fun h _ => .read h id fun _ _ => .step rfl fun _ => .write (.j _ _)
  | gslice => exact .finish <| .step rfl fun _ => .read h id fun _ _ => .step rfl fun _ => .write (.g _ _)
  | vadd | vsub | vhad => exact .finish <| .step (vecPair_configuredAs h) fun _ => .write (.v _ _)
  | vip => exact .finish <| .step (vecPair_configuredAs h) fun _ => .write (.e _ _)
  | vscl => exact .finish <| .read h id fun h _ => .read h id fun _ _ => .step rfl fun _ => .write (.v _ _)
  | vrev => exact .finish <| .read h id fun _ _ => .write (.v _ _)
  | vslice => exact .finish <| .read h id fun _ _ => .step rfl fun _ => .write (.v _ _)
  | ipasv => exact .finish <| .read h id fun _ _ => .step rfl fun _ => .step rfl fun _ => .write (.v _ _)
  | vpow => exact .finish <| .step rfl fun _ => .read h id fun _ _ => .write (.v _ _)
  | ipach =>
    exact .finish <| .step rfl fun _ => .read h id fun h _ => .read h id fun h _ => .read h id fun _ _ =>
      .step rfl fun _ => .write (.e _ _)
  | ipavfy =>
    exact .finish <| .step rfl fun _ => .step rfl fun _ => .read h id fun h _ => .read h id fun h _ => .read h id fun h _ =>
      .read h id fun _ _ => .step rfl fun _ => .step rfl fun _ => .step rfl fun _ => .step rfl fun _ => .write (.flag _ _)
  | ipaprv =>
    exact .finish <| .step rfl fun _ => .read h id fun h _ => .read h id fun h _ => .read h id fun h _ => .read h id fun h _ =>
      .read h id fun h _ => .read h id fun _ _ => .step rfl fun _ => .step rfl fun _ => .step rfl fun _ => .step rfl fun _ =>
        .step rfl fun _ => .step rfl fun _ => .write (.emit _)

/-- What a command does depends on its sources and the configuration alone, and further only for AGEN on the generator and for STS
on the bytes it emits. -/
theorem exec_actsAlike {i : Instr} {s t : State} (hfld : ∀ c, t.fld c = s.fld c) (hcrv : t.crv = s.crv)
    (hnmax : t.nmaxLog = s.nmaxLog) (h : s.SameOn t i.sources) (hgen : (∀ q, i ≠ .gsetup q) → t.gen = s.gen)
    (hsts : i = .sts → t.statusBytes = s.statusBytes) : ActsAlike s t (exec i s) (exec i t) := by
  have e := State.configuredAs_eq hfld hcrv hnmax
  have halike := exec_configuredAs (t := t) i (by rwa [e]) hgen hsts
  rwa [e] at halike

/-- A command meets later words offered as if they were not there. -/
theorem exec_offer {i : Instr} {s t : State} (h : exec i s = .next t) (ws : List Word) :
    exec i (s.offer ws) = .next (t.offer ws) := by
  have hsame : s.SameOn (s.offer ws) i.sources := fun r _ => State.sameReg_of_files rfl rfl rfl rfl rfl r
  have halike : ActsAlike s (s.offer ws) (exec i s) (exec i (s.offer ws)) :=
    exec_actsAlike (fun c => by cases c <;> rfl) rfl rfl hsame (fun _ => rfl) (fun _ => rfl)
  rcases halike with ⟨c, hs, ho⟩ | ⟨w, hs, ho⟩
  · cases hs.symm.trans h
    exact ho
  · cases hs.symm.trans h
    rw [ho, w.apply_offer]
    rfl

/-- Every command takes a next state (60_exceptions.md R275). -/
theorem exec_next (i : Instr) (s : State) : ∃ t, exec i s = .next t := by
  have hsame : s.SameOn s i.sources := fun r _ => State.sameReg_of_files rfl rfl rfl rfl rfl r
  rcases exec_actsAlike (fun _ => rfl) rfl rfl hsame (fun _ => rfl) (fun _ => rfl) with ⟨c, h, -⟩ | ⟨w, h, -⟩
  · exact ⟨_, h⟩
  · exact ⟨_, h⟩

/-! ## Loads and stores (40_config_transfer.md R104 to R112) -/

theorem read_bind {α β : Type} {rf : RegFile α} {i : RegNo} {x : α} (h : rf.get i = some x) (k : α → Except Cause β) :
    (readReg rf i >>= k) = k x := by
  rw [readReg_of_some h, ok_bind]

theorem finish_of_ok {s u : State} {r : Except Cause State} (h : r = .ok u) : finish s r = .next u.complete := by
  rw [h, finish_ok]

/-- Elements that were loaded serialize to their reduced values (20_memory.md R52, 41_field.md R145). -/
theorem serScalars_ofRaw {f : FieldCtx} (hf : f.WF) (raws : List Raw) :
    serScalars f (raws.map f.ofRaw) = (raws.map fun raw => be32 (raw.toNat % f.m)).flatten := by
  simp only [serScalars, List.flatMap_def, List.map_map, Function.comp_def, hf.val_ofRaw]

/-- A point that was loaded serializes to its reduced coordinates (20_memory.md R53). -/
theorem ser_pointOfRaw {f : FieldCtx} (hf : f.WF) (q : RawPoint) :
    ser f (pointOfRaw f q) = .ok (be32 (q.x.toNat % f.m) ++ be32 (q.y.toNat % f.m)) := by
  simp only [ser, pointOfRaw, hf.val_ofRaw]

theorem serAll_pointOfRaw {f : FieldCtx} (hf : f.WF) (qs : List RawPoint) :
    serAll f (qs.map (pointOfRaw f)) =
      .ok (qs.map fun q => be32 (q.x.toNat % f.m) ++ be32 (q.y.toNat % f.m)).flatten := by
  induction qs with
  | nil => rfl
  | cons q qs ih => rw [List.map_cons, serAll, ser_pointOfRaw hf, ok_bind, ih, ok_bind, List.map_cons, List.flatten_cons]

section
variable {s : State}

theorem exec_lde_of_ok {c : Ctx} (hc : (s.fld c).ok = true) (d : RegNo) (raw : Raw) :
    exec (.lde d c raw) s = .next (s.putE d ⟨c, (s.fld c).ofRaw raw⟩).complete :=
  finish_of_ok (require_bind hc _ _)

theorem exec_ste_of_some {k : RegNo} {x : Elem} (hx : s.e.get k = some x) :
    exec (.ste k) s = .next (s.emit (be32 (s.valOf x))).complete :=
  finish_of_ok (read_bind hx _)

theorem exec_lda_of_ok (hc : s.crv.ok = true) (d : RegNo) (q : RawPoint) :
    exec (.lda d q) s = .next (s.putA d (pointOfRaw s.fld0 q)).complete :=
  finish_of_ok (needCurve_bind hc _)

theorem exec_sta_of_some (hc : s.crv.ok = true) {k : RegNo} {q : Affine} (hq : s.a.get k = some q) {bytes : List Byte}
    (hser : ser s.fld0 q = .ok bytes) : exec (.sta k) s = .next (s.emit bytes).complete :=
  finish_of_ok <| (needCurve_bind hc _).trans <| (read_bind hq _).trans <| by rw [hser]; rfl

theorem exec_ldv_of_ok {c : Ctx} (hc : (s.fld c).ok = true) (d : RegNo) {raws : List Raw} (hlen : raws.length ≤ s.nmax) :
    exec (.ldv d c raws) s = .next (s.putV d ⟨c, raws.map (s.fld c).ofRaw⟩).complete :=
  finish_of_ok <| (require_bind (decide_eq_true hlen) _ _).trans (require_bind hc _ _)

theorem exec_stv_of_some {k : RegNo} {x : FVec} (hx : s.v.get k = some x) :
    exec (.stv k) s = .next (s.emit (serScalars (s.fld x.ctx) x.elems)).complete :=
  finish_of_ok (read_bind hx _)

theorem exec_ldg_of_ok (hc : s.crv.ok = true) (d : RegNo) {qs : List RawPoint} (hlen : qs.length ≤ s.nmax) :
    exec (.ldg d qs) s = .next (s.putG d (qs.map (pointOfRaw s.fld0))).complete :=
  finish_of_ok <| (require_bind (decide_eq_true hlen) _ _).trans (needCurve_bind hc _)

theorem exec_stg_of_some (hc : s.crv.ok = true) {k : RegNo} {qs : GVec} (hqs : s.g.get k = some qs) {bytes : List Byte}
    (hser : serAll s.fld0 qs = .ok bytes) : exec (.stg k) s = .next (s.emit bytes).complete :=
  finish_of_ok <| (needCurve_bind hc _).trans <| (read_bind hqs _).trans <| by rw [hser]; rfl

end

/-! ## The statements -/

/-- Settles O5: lengths in range are what the header range check lets through, and the decoder then reads the command. -/
theorem stepRunsTheDecodedCommand : Obligations.StepRunsTheDecodedCommand := by
  unfold Obligations.StepRunsTheDecodedCommand
  intro s i rest running hdecode hrange
  obtain ⟨w, payload, o, hcmd, ho, hlen, rfl, rfl⟩ := decode_eq_ok.1 hdecode
  exact step_of_decode running hcmd ho (inRange_build.1 hrange) (hcmd ▸ hdecode)

/-- Settles O9: the fetch has no command to run until the decoder finds all payload words, and then runs it. -/
theorem incompletePayloadIsStuck : Obligations.IncompletePayloadIsStuck := by
  unfold Obligations.IncompletePayloadIsStuck
  intro s w ws o running hcmd ho hrange hmissing
  refine ⟨step_of_incomplete running hcmd ho hrange hmissing, ?_, fun more hlen => ?_, ?_⟩
  · rw [State.runEnd, running, hcmd]
    rfl
  · have hcmd' : (s.offer more).cmdIn = w :: (ws ++ more) := by rw [State.offer_cmdIn, hcmd, List.cons_append]
    have hdecode := decode_eq_ok.2 ⟨w, ws ++ more, o, rfl, ho, hlen, rfl, rfl⟩
    obtain ⟨t, ht⟩ := exec_next (build w (ws ++ more) o)
      { s.offer more with cmdIn := (ws ++ more).drop (o.payloadWords w) }
    exact ⟨t, (step_of_decode (s := s.offer more) running hcmd' ho hrange hdecode).trans ht⟩
  · have hreset : (s.hostMove .reset).halted = false := by simp [State.hostMove, State.halted, State.flag, getFlag]
    rw [State.runEnd, hreset]
    rfl

/-- Settles O10: in each case of a step the same words are taken, and neither fault entry nor a command looks at the rest. -/
theorem laterWordsDoNotMatter : Obligations.LaterWordsDoNotMatter := by
  unfold Obligations.LaterWordsDoNotMatter
  intro s t ws h
  obtain ⟨w, rest, hcmd, hcase⟩ := step_cases h
  have hcmd' : (s.offer ws).cmdIn = w :: (rest ++ ws) := by rw [State.offer_cmdIn, hcmd, List.cons_append]
  rcases hcase with ⟨halted, rfl⟩ | ⟨running, ⟨err, ho⟩, rfl⟩ | ⟨running, ⟨o, ho, hrange⟩, rfl⟩ |
    ⟨running, o, i, rest', ho, hrange, hdecode, hexec⟩
  · exact step_of_halted (s := s.offer ws) halted hcmd'
  · exact step_of_illegal (s := s.offer ws) running hcmd' ho
  · exact step_of_outOfRange (s := s.offer ws) running hcmd' ho hrange
  · exact (step_of_decode (s := s.offer ws) running hcmd' ho hrange (decode_append hdecode ws)).trans (exec_offer hexec ws)

/-- Settles O26: the state after the command holds the same sources and configuration, so the command makes the same write, which
made again changes nothing. -/
theorem repeatedCommandGivesTheSameState : Obligations.RepeatedCommandGivesTheSameState := by
  unfold Obligations.RepeatedCommandGivesTheSameState
  intro i s t h hseq hstores hfsetup hcsetup hdest
  obtain ⟨u, hu, rfl⟩ := exec_completed h hseq
  have hfld (c : Ctx) : u.complete.fld c = s.fld c := (State.complete_fld ..).trans (hu.fld_other (hfsetup c))
  have hsame : s.SameOn u.complete i.sources := fun r hr => by
    have hr' : i.dest ≠ some r := fun e => hdest r e hr
    cases r <;> exact hu.sameReg hr'
  have hsts : i ≠ .sts := by rintro rfl; cases hstores
  have halike := exec_actsAlike hfld (hu.crv_other hcsetup) hu.nmaxLog hsame hu.gen_other (absurd · hsts)
  rcases halike with ⟨c, hs, -⟩ | ⟨w, hs, ht⟩
  · have hfault : u.complete = s.enterFault c := by simpa using h.symm.trans hs
    rw [hfault] at hseq
    simp at hseq
  · have hw : u.complete = (w.apply s).complete := by simpa using h.symm.trans hs
    have hdout : (w.apply s).dout = s.dout := (congrArg State.dout hw).symm.trans (hu.dout_other hstores)
    rw [hw] at ht ⊢
    rw [ht, w.apply_again hdout]
    rfl

/-- Settles O34: the store reads back what the load wrote, the reduced values under the context's encoding. -/
theorem storeAfterLoadEmitsReducedValues : Obligations.StoreAfterLoadEmitsReducedValues := by
  unfold Obligations.StoreAfterLoadEmitsReducedValues
  intro s hinv
  have hcoord (hc : s.crv.ok = true) : s.fld0.WF := (hinv.setup.curve_wf hc).fp
  refine ⟨fun r c raw hc => ?_, fun r q hc => ?_, fun r c raws hc hlen => ?_, fun r qs hc hlen => ?_⟩
  · refine ⟨_, _, exec_lde_of_ok hc r raw, exec_ste_of_some (writeReg_get_same ..), ?_⟩
    simp [State.valOf, (hinv.setup.fld c hc).val_ofRaw]
  · exact ⟨_, _, exec_lda_of_ok hc r q, exec_sta_of_some (s := (s.putA r _).complete) hc (writeReg_get_same ..)
      (ser_pointOfRaw (hcoord hc) q), rfl⟩
  · refine ⟨_, _, exec_ldv_of_ok hc r hlen, exec_stv_of_some (writeReg_get_same ..), ?_⟩
    simp [serScalars_ofRaw (hinv.setup.fld c hc)]
  · exact ⟨_, _, exec_ldg_of_ok hc r hlen, exec_stg_of_some (s := (s.putG r _).complete) hc (writeReg_get_same ..)
      (serAll_pointOfRaw (hcoord hc) qs), rfl⟩

end Sys2Proof.Machine
end

section
/-! PROOFS of the statements on headers (30_encoding.md R77 to R80): the header checks read off the opcode table's masks, and the
faults that a header raises alone. -/

namespace Sys2Proof

/-! ## The opcode table (30_encoding.md R77, R78) -/

theorem Opcode.ofCode_eq_some {n : Nat} {o : Opcode} : Opcode.ofCode n = some o ↔ n = o.code := by
  constructor
  · intro h
    have hcode := List.find?_some h
    exact (beq_iff_eq.1 hcode).symm
  · rintro rfl
    exact o.ofCode_code

/-- Everything a header must meet to be accepted: its opcode, its unused fields, its selectors. -/
theorem checkHeader_eq_ok {h : Word} {o : Opcode} :
    checkHeader h = .ok o ↔ opField h = o.code ∧ o.format.unusedZero h = true ∧ o.selectorsOk h = true := by
  rw [← Opcode.ofCode_eq_some]
  unfold checkHeader
  cases Opcode.ofCode (opField h) with
  | none => simp
  | some o' =>
    constructor
    · intro hok
      dsimp only at hok
      split_ifs at hok with hunused hsel
      cases hok
      exact ⟨rfl, by simpa using hunused, by simpa using hsel⟩
    · rintro ⟨ho, hunused, hsel⟩
      cases ho
      simp [hunused, hsel]

/-- The word with ones in the `len` bits that begin at bit `lo`. -/
def fieldMask (lo len : Nat) : Word := BitVec.ofNat 32 ((2 ^ len - 1) <<< lo)

/-- A word under a field's mask is the field's number, in its place. -/
theorem and_fieldMask_eq_iff {h : Word} {lo len v : Nat} (hfit : lo + len ≤ 32) (hv : v < 2 ^ len) :
    h &&& fieldMask lo len = BitVec.ofNat 32 (v * 2 ^ lo) ↔ h.toNat / 2 ^ lo % 2 ^ len = v := by
  have hbound {x : Nat} (hx : x < 2 ^ len) : x * 2 ^ lo < 2 ^ 32 :=
    calc x * 2 ^ lo < 2 ^ len * 2 ^ lo := Nat.mul_lt_mul_of_pos_right hx (Nat.two_pow_pos lo)
      _ = 2 ^ (lo + len) := by rw [← pow_add, Nat.add_comm]
      _ ≤ 2 ^ 32 := Nat.pow_le_pow_right (by decide) hfit
  have hmask : (h &&& fieldMask lo len).toNat = h.toNat / 2 ^ lo % 2 ^ len * 2 ^ lo := by
    have hones : 2 ^ len - 1 < 2 ^ len := Nat.sub_lt (Nat.two_pow_pos len) Nat.one_pos
    rw [BitVec.toNat_and, fieldMask, BitVec.toNat_ofNat, Nat.shiftLeft_eq, Nat.mod_eq_of_lt (hbound hones),
      ← Nat.shiftLeft_eq, ← Nat.shiftLeft_eq, ← Nat.shiftRight_eq_div_pow, ← Nat.and_two_pow_sub_one_eq_mod]
    refine Nat.eq_of_testBit_eq fun k => ?_
    by_cases hk : lo ≤ k <;> simp [hk, Bool.and_comm]
  rw [← BitVec.toNat_inj, hmask, BitVec.toNat_ofNat, Nat.mod_eq_of_lt (hbound hv),
    Nat.mul_left_inj (Nat.two_pow_pos lo).ne']

theorem and_fieldMask_eq_zero_iff {h : Word} {lo len : Nat} (hfit : lo + len ≤ 32) :
    h &&& fieldMask lo len = 0 ↔ h.toNat / 2 ^ lo % 2 ^ len = 0 := by
  simpa using and_fieldMask_eq_iff (h := h) hfit (Nat.two_pow_pos len)

/-- A mask may be checked in two parts when the value has no bit under the second. -/
theorem and_or_eq_iff {h a b v : Word} (hv : v &&& b = 0) : h &&& (a ||| b) = v ↔ h &&& a = v ∧ h &&& b = 0 := by
  constructor
  · rintro rfl
    have hb : h &&& b = 0 := by
      rw [← hv, BitVec.and_assoc]
      congr 1
      ext k
      simp +contextual
    refine ⟨?_, hb⟩
    rw [BitVec.and_or_distrib_left, hb]
    simp
  · rintro ⟨ha, hb⟩
    rw [BitVec.and_or_distrib_left, ha, hb]
    simp

/-- The bits that a format leaves unused. -/
def Format.unusedMask : Format → Word
  | .r used => fieldMask 0 (4 * (6 - used))
  | .i used => fieldMask 12 (4 * (3 - used))
  | .k => 0

/-- The three high bits of a command's ctx and strat fields. -/
def Opcode.selectorMask : Opcode → Word
  | .fsetup => fieldMask 21 3 ||| fieldMask 17 3
  | .lde | .ldv => fieldMask 17 3
  | _ => 0

theorem Opcode.row_eq (o : Opcode) :
    o.row = (fieldMask 24 8 ||| o.format.unusedMask ||| o.selectorMask, BitVec.ofNat 32 (o.code * 2 ^ 24)) := by
  cases o <;> decide

theorem Opcode.row_value_and_unusedMask (o : Opcode) : BitVec.ofNat 32 (o.code * 2 ^ 24) &&& o.format.unusedMask = 0 := by
  cases o <;> decide

theorem Opcode.row_value_and_selectorMask (o : Opcode) : BitVec.ofNat 32 (o.code * 2 ^ 24) &&& o.selectorMask = 0 := by
  cases o <;> decide

theorem opField_eq_iff {h : Word} {o : Opcode} :
    opField h = o.code ↔ h &&& fieldMask 24 8 = BitVec.ofNat 32 (o.code * 2 ^ 24) := by
  rw [and_fieldMask_eq_iff (by decide) o.code_lt, opField]
  omega

theorem Format.unusedZero_iff {h : Word} {f : Format} : f.unusedZero h = true ↔ h &&& f.unusedMask = 0 := by
  cases f with
  | r used =>
    rw [Format.unusedMask, and_fieldMask_eq_zero_iff (by omega), Format.unusedZero, beq_iff_eq, pow_mul, pow_zero, Nat.div_one]
    rfl
  | i used =>
    rw [Format.unusedMask, and_fieldMask_eq_zero_iff (by omega), Format.unusedZero, beq_iff_eq, pow_mul]
    rfl
  | k => simp [Format.unusedMask, Format.unusedZero]

/-- A selector field holds 0 or 1 when its three high bits are 0. -/
theorem nibble_le_one_iff {h : Word} {lo : Nat} (hlo : lo + 4 ≤ 32) :
    (nibble h lo).val ≤ 1 ↔ h &&& fieldMask (lo + 1) 3 = 0 := by
  rw [and_fieldMask_eq_zero_iff (by omega), pow_succ, ← Nat.div_div_eq_div_mul, nibble]
  dsimp only
  omega

theorem Opcode.selectorsOk_iff {h : Word} {o : Opcode} : o.selectorsOk h = true ↔ h &&& o.selectorMask = 0 := by
  have hf5 : (f5 h).val ≤ 1 ↔ h &&& fieldMask 21 3 = 0 := nibble_le_one_iff (by decide)
  have hf4 : (f4 h).val ≤ 1 ↔ h &&& fieldMask 17 3 = 0 := nibble_le_one_iff (by decide)
  cases o with
  | fsetup =>
    rw [selectorMask, and_or_eq_iff (by decide), ← hf5, ← hf4, selectorsOk, Bool.and_eq_true, decide_eq_true_eq,
      decide_eq_true_eq]
  | lde | ldv => rw [selectorMask, ← hf4, selectorsOk, decide_eq_true_eq]
  | _ => exact iff_of_true rfl BitVec.and_zero

/-- A header is accepted exactly when it is the row's: the three checks look at the three parts of the row's mask. -/
theorem checkHeader_eq_ok_iff_matches {h : Word} {o : Opcode} : checkHeader h = .ok o ↔ o.matches h := by
  rw [checkHeader_eq_ok, Opcode.matches, o.row_eq, and_or_eq_iff o.row_value_and_selectorMask,
    and_or_eq_iff o.row_value_and_unusedMask, opField_eq_iff, Format.unusedZero_iff, Opcode.selectorsOk_iff, and_assoc]

end Sys2Proof

namespace Sys2Proof.Machine

/-- Settles O3: the three header checks are the three parts of the row's mask, and one word gets one answer. -/
theorem headerAcceptedIffTableRow : Obligations.HeaderAcceptedIffTableRow := by
  unfold Obligations.HeaderAcceptedIffTableRow
  refine ⟨fun h o => checkHeader_eq_ok_iff_matches, fun h o o' ho ho' => ?_⟩
  rw [← checkHeader_eq_ok_iff_matches] at ho ho'
  exact Except.ok.inj (ho.symm.trans ho')

/-- Settles O7: a header that matches no row is refused by the header check. -/
theorem illegalHeaderFaults : Obligations.IllegalHeaderFaults := by
  unfold Obligations.IllegalHeaderFaults
  refine ⟨rfl, fun s h rest running hcmd hnone => ?_⟩
  cases hcheck : checkHeader h with
  | error err => exact step_of_illegal running hcmd hcheck
  | ok o => exact absurd (checkHeader_eq_ok_iff_matches.1 hcheck) (hnone o)

/-- Settles O8: the header check accepts the row, and the range check then looks at the header's length field alone. -/
theorem oversizedHeaderFaultsBeforePayload : Obligations.OversizedHeaderFaultsBeforePayload := by
  unfold Obligations.OversizedHeaderFaultsBeforePayload
  refine ⟨rfl, fun s h rest running hcmd hover => ?_⟩
  have hfault {o : Opcode} (hrow : o.matches h) (hrange : o.outOfRange s.nmax h = true) :
      step s = .next (State.enterFault { s with cmdIn := rest } .rangeError) :=
    step_of_outOfRange running hcmd (checkHeader_eq_ok_iff_matches.2 hrow) hrange
  rcases hover with ⟨hldv | hldg | hvpow, hlen⟩ | ⟨hipavfy, hlen⟩
  · exact hfault hldv (decide_eq_true hlen)
  · exact hfault hldg (decide_eq_true hlen)
  · exact hfault hvpow (decide_eq_true hlen)
  · exact hfault hipavfy (decide_eq_true hlen)

end Sys2Proof.Machine
end

section
/-! PROOFS of the two round trips between commands and words (30_encoding.md R70 to R79): what each header and each payload piece
is, read and written, and from these that `decode` and `encode` are inverse to each other (`encode_eq_iff`). -/

namespace Sys2Proof

/-! ## A header's fields (30_encoding.md R71 to R73, R78)

One law per format and number of used fields: a word is the header of some operands exactly when it has the opcode, its unused
fields are 0, and the others read as those operands. -/

section
variable {o : Opcode} {w : Word}

theorem packR_eq_iff_of_r0 : packR o 0 0 0 0 0 0 = w ↔ opField w = o.code ∧ (Format.r 0).unusedZero w = true := by
  have hw := w.isLt
  have ho := o.code_lt
  rw [← BitVec.toNat_inj, packR_toNat o (by decide) (by decide) (by decide) (by decide) (by decide) (by decide)]
  simp only [Format.unusedZero, beq_iff_eq, opField]
  omega

theorem packR_eq_iff_of_r1 {a5 : Nat} (h5 : a5 < 16) : packR o a5 0 0 0 0 0 = w ↔ opField w = o.code ∧
    (Format.r 1).unusedZero w = true ∧ (f5 w).val = a5 := by
  have hw := w.isLt
  have ho := o.code_lt
  rw [← BitVec.toNat_inj, packR_toNat o h5 (by decide) (by decide) (by decide) (by decide) (by decide)]
  simp only [Format.unusedZero, beq_iff_eq, opField, f5, nibble]
  omega

theorem packR_eq_iff_of_r2 {a5 a4 : Nat} (h5 : a5 < 16) (h4 : a4 < 16) : packR o a5 a4 0 0 0 0 = w ↔ opField w = o.code ∧
    (Format.r 2).unusedZero w = true ∧ (f5 w).val = a5 ∧ (f4 w).val = a4 := by
  have hw := w.isLt
  have ho := o.code_lt
  rw [← BitVec.toNat_inj, packR_toNat o h5 h4 (by decide) (by decide) (by decide) (by decide)]
  simp only [Format.unusedZero, beq_iff_eq, opField, f5, f4, nibble]
  omega

theorem packR_eq_iff_of_r3 {a5 a4 a3 : Nat} (h5 : a5 < 16) (h4 : a4 < 16) (h3 : a3 < 16) : packR o a5 a4 a3 0 0 0 = w ↔
    opField w = o.code ∧ (Format.r 3).unusedZero w = true ∧ (f5 w).val = a5 ∧ (f4 w).val = a4 ∧ (f3 w).val = a3 := by
  have hw := w.isLt
  have ho := o.code_lt
  rw [← BitVec.toNat_inj, packR_toNat o h5 h4 h3 (by decide) (by decide) (by decide)]
  simp only [Format.unusedZero, beq_iff_eq, opField, f5, f4, f3, nibble]
  omega

theorem packR_eq_iff_of_r4 {a5 a4 a3 a2 : Nat} (h5 : a5 < 16) (h4 : a4 < 16) (h3 : a3 < 16) (h2 : a2 < 16) :
    packR o a5 a4 a3 a2 0 0 = w ↔ opField w = o.code ∧ (Format.r 4).unusedZero w = true ∧ (f5 w).val = a5 ∧
    (f4 w).val = a4 ∧ (f3 w).val = a3 ∧ (f2 w).val = a2 := by
  have hw := w.isLt
  have ho := o.code_lt
  rw [← BitVec.toNat_inj, packR_toNat o h5 h4 h3 h2 (by decide) (by decide)]
  simp only [Format.unusedZero, beq_iff_eq, opField, f5, f4, f3, f2, nibble]
  omega

theorem packR_eq_iff_of_r6 {a5 a4 a3 a2 a1 a0 : Nat} (h5 : a5 < 16) (h4 : a4 < 16) (h3 : a3 < 16) (h2 : a2 < 16)
    (h1 : a1 < 16) (h0 : a0 < 16) : packR o a5 a4 a3 a2 a1 a0 = w ↔ opField w = o.code ∧ (Format.r 6).unusedZero w = true ∧
    (f5 w).val = a5 ∧ (f4 w).val = a4 ∧ (f3 w).val = a3 ∧ (f2 w).val = a2 ∧ (f1 w).val = a1 ∧ (f0 w).val = a0 := by
  have hw := w.isLt
  have ho := o.code_lt
  rw [← BitVec.toNat_inj, packR_toNat o h5 h4 h3 h2 h1 h0]
  simp only [Format.unusedZero, beq_iff_eq, opField, f5, f4, f3, f2, f1, f0, nibble]
  omega

theorem packI_eq_iff_of_i1 {a5 n : Nat} (h5 : a5 < 16) (hn : n < 4096) : packI o a5 0 0 n = w ↔ opField w = o.code ∧
    (Format.i 1).unusedZero w = true ∧ (f5 w).val = a5 ∧ (imm12 w).val = n := by
  have hw := w.isLt
  have ho := o.code_lt
  rw [← BitVec.toNat_inj, packI_toNat o h5 (by decide) (by decide) hn]
  simp only [Format.unusedZero, beq_iff_eq, opField, f5, imm12, nibble]
  omega

theorem packI_eq_iff_of_i2 {a5 a4 n : Nat} (h5 : a5 < 16) (h4 : a4 < 16) (hn : n < 4096) : packI o a5 a4 0 n = w ↔
    opField w = o.code ∧ (Format.i 2).unusedZero w = true ∧ (f5 w).val = a5 ∧ (f4 w).val = a4 ∧ (imm12 w).val = n := by
  have hw := w.isLt
  have ho := o.code_lt
  rw [← BitVec.toNat_inj, packI_toNat o h5 h4 (by decide) hn]
  simp only [Format.unusedZero, beq_iff_eq, opField, f5, f4, imm12, nibble]
  omega

theorem packK_eq_iff {a5 a4 a3 a2 n : Nat} (h5 : a5 < 16) (h4 : a4 < 16) (h3 : a3 < 16) (h2 : a2 < 16) (hn : n < 256) :
    packK o a5 a4 a3 a2 n = w ↔ opField w = o.code ∧ Format.k.unusedZero w = true ∧ (f5 w).val = a5 ∧ (f4 w).val = a4 ∧
    (f3 w).val = a3 ∧ (f2 w).val = a2 ∧ (imm8 w).val = n := by
  have hw := w.isLt
  have ho := o.code_lt
  rw [← BitVec.toNat_inj, packK_toNat o h5 h4 h3 h2 hn]
  simp only [Format.unusedZero, true_and, opField, f5, f4, f3, f2, imm8, nibble]
  omega

end

/-! ## Selectors (30_encoding.md R75) -/

/-- A field holds a context's number exactly when it holds 0 or 1 and names that context. -/
theorem eq_ctx_toNat_iff {n : RegNo} {c : Ctx} : n.val = c.toNat ↔ n.val ≤ 1 ∧ ctxOf n = c := by
  cases c with
  | coord =>
    have hzero : ctxOf n = .coord ↔ n.val = 0 := by simp [ctxOf]
    rw [hzero, Ctx.toNat]
    omega
  | order =>
    have hnonzero : ctxOf n = .order ↔ n.val ≠ 0 := by simp [ctxOf]
    rw [hnonzero, Ctx.toNat]
    omega

theorem eq_strat_toNat_iff {n : RegNo} {st : Strat} : n.val = st.toNat ↔ n.val ≤ 1 ∧ stratOf n = st := by
  cases st with
  | naive =>
    have hzero : stratOf n = .naive ↔ n.val = 0 := by simp [stratOf]
    rw [hzero, Strat.toNat]
    omega
  | mont =>
    have hnonzero : stratOf n = .mont ↔ n.val ≠ 0 := by simp [stratOf]
    rw [hnonzero, Strat.toNat]
    omega

/-! ## Payload pieces (30_encoding.md R74, 20_memory.md R54, R63) -/

theorem wordsNat_cons (w : Word) (ws : List Word) :
    wordsNat (w :: ws) = w.toNat * 2 ^ (32 * ws.length) + wordsNat ws := by
  rw [wordsNat, List.foldl_cons, foldl_words, Nat.zero_mul, Nat.zero_add]

@[simp] theorem wordsNat_singleton (w : Word) : wordsNat [w] = w.toNat := by simp [wordsNat]

theorem wordsNat_lt (ws : List Word) : wordsNat ws < 2 ^ (32 * ws.length) := by
  induction ws with
  | nil => exact Nat.one_pos
  | cons w ws ih =>
    calc wordsNat (w :: ws)
        = w.toNat * 2 ^ (32 * ws.length) + wordsNat ws := wordsNat_cons w ws
      _ < (w.toNat + 1) * 2 ^ (32 * ws.length) := by rw [Nat.add_one_mul w.toNat]; exact Nat.add_lt_add_left ih _
      _ ≤ 2 ^ 32 * 2 ^ (32 * ws.length) := Nat.mul_le_mul_right _ w.isLt
      _ = 2 ^ (32 * (w :: ws).length) := by rw [← pow_add, List.length_cons, Nat.mul_succ, Nat.add_comm]

/-- The natural that some words spell has those words. -/
theorem natWords_wordsNat (ws : List Word) : natWords ws.length (wordsNat ws) = ws := by
  induction ws with
  | nil => rfl
  | cons w ws ih =>
    have hlt := wordsNat_lt ws
    have hhead : wordsNat (w :: ws) / 2 ^ (32 * ws.length) = w.toNat := by
      rw [wordsNat_cons, Nat.mul_comm, Nat.mul_add_div (Nat.two_pow_pos _), Nat.div_eq_of_lt hlt, Nat.add_zero]
    have htail : wordsNat (w :: ws) % 2 ^ (32 * ws.length) = wordsNat ws := by
      rw [wordsNat_cons, Nat.mul_comm, Nat.mul_add_mod, Nat.mod_eq_of_lt hlt]
    rw [List.length_cons, natWords, hhead, ← natWords_mod, htail, ih, BitVec.ofNat_toNat, BitVec.setWidth_eq]

/-- Two pieces are the next words of a stream when each is, in its place. -/
theorem append_eq_take_add_iff {xs ys ws : List Word} {m n : Nat} (hxs : xs.length = m) (hm : m ≤ ws.length) :
    xs ++ ys = ws.take (m + n) ↔ xs = ws.take m ∧ ys = (ws.drop m).take n := by
  rw [List.take_add]
  refine ⟨fun h => List.append_inj h (by rw [hxs, List.length_take_of_le hm]), ?_⟩
  rintro ⟨rfl, rfl⟩
  rfl

theorem words256_eq_take_iff {v : Raw} {ws : List Word} (h : 8 ≤ ws.length) : words256 v = ws.take 8 ↔ rawOf ws = v := by
  constructor
  · intro hv
    rw [← List.take_append_drop 8 ws, ← hv, rawOf_words256]
  · rintro rfl
    have hwords := natWords_wordsNat (ws.take 8)
    rw [List.length_take_of_le h] at hwords
    rw [words256, rawOf, BitVec.toNat_ofNat]
    exact (natWords_mod 8 _).trans hwords

theorem append_words256_eq_take_iff {a b : Raw} {ws : List Word} (h : 16 ≤ ws.length) :
    words256 a ++ words256 b = ws.take 16 ↔ rawOf ws = a ∧ rawOf (ws.drop 8) = b := by
  have hdrop : 8 ≤ (ws.drop 8).length := by rw [List.length_drop]; omega
  rw [append_eq_take_add_iff (m := 8) (n := 8) (words256_length a) (by omega), words256_eq_take_iff (by omega),
    words256_eq_take_iff hdrop]

theorem wordsPoint_eq_take_iff {q : RawPoint} {ws : List Word} (h : 16 ≤ ws.length) :
    wordsPoint q = ws.take 16 ↔ pointOf ws = q := by
  rw [wordsPoint, append_words256_eq_take_iff h, pointOf, RawPoint.mk.injEq]

theorem rawsOf_eq_iff {n : Nat} {vs : List Raw} {ws : List Word} (h : 8 * n ≤ ws.length) :
    rawsOf n ws = vs ↔ n = vs.length ∧ vs.flatMap words256 = ws.take (8 * n) := by
  induction n generalizing vs ws with
  | zero => cases vs <;> simp [rawsOf]
  | succ n ih =>
    cases vs with
    | nil => simp [rawsOf]
    | cons v vs =>
      have hdrop : 8 * n ≤ (ws.drop 8).length := by rw [List.length_drop]; omega
      rw [rawsOf, List.cons_eq_cons, ih hdrop, List.flatMap_cons, Nat.mul_succ, Nat.add_comm _ 8,
        append_eq_take_add_iff (words256_length v) (by omega), words256_eq_take_iff (by omega), List.length_cons,
        Nat.add_right_cancel_iff, and_left_comm]

theorem pointsOf_eq_iff {n : Nat} {qs : List RawPoint} {ws : List Word} (h : 16 * n ≤ ws.length) :
    pointsOf n ws = qs ↔ n = qs.length ∧ qs.flatMap wordsPoint = ws.take (16 * n) := by
  induction n generalizing qs ws with
  | zero => cases qs <;> simp [pointsOf]
  | succ n ih =>
    cases qs with
    | nil => simp [pointsOf]
    | cons q qs =>
      have hdrop : 16 * n ≤ (ws.drop 16).length := by rw [List.length_drop]; omega
      rw [pointsOf, List.cons_eq_cons, ih hdrop, List.flatMap_cons, Nat.mul_succ, Nat.add_comm _ 16,
        append_eq_take_add_iff (wordsPoint_length q) (by omega), wordsPoint_eq_take_iff (by omega), List.length_cons,
        Nat.add_right_cancel_iff, and_left_comm]

theorem proofOf_eq_iff {k : Nat} {p : RawProof} {ws : List Word} (h : 32 * k + 16 ≤ ws.length)
    (hp : p.ls.length = p.rs.length) :
    proofOf k ws = p ↔ k = p.ls.length ∧ wordsProof p = ws.take (32 * k + 16) := by
  obtain ⟨ls, rs, a, b⟩ := p
  have hrs : 16 * k ≤ (ws.drop (16 * k)).length := by rw [List.length_drop]; omega
  have hscalars : 16 ≤ ((ws.drop (16 * k)).drop (16 * k)).length := by rw [List.length_drop, List.length_drop]; omega
  have hsplit : 32 * k + 16 = 16 * k + (16 * k + 16) := by omega
  have htail : ws.drop (32 * k) = (ws.drop (16 * k)).drop (16 * k) := by rw [List.drop_drop]; congr 1; omega
  simp only [proofOf, RawProof.mk.injEq, htail, wordsProof, List.append_assoc, hsplit]
  rw [pointsOf_eq_iff (by omega), pointsOf_eq_iff hrs, ← append_words256_eq_take_iff hscalars]
  constructor
  · rintro ⟨⟨rfl, hls⟩, ⟨hk, hrs'⟩, hab⟩
    rw [hls, hrs', hab, List.take_add, List.take_add]
    exact ⟨rfl, rfl⟩
  · rintro ⟨rfl, hwords⟩
    have hlsLen : (ls.flatMap wordsPoint).length = 16 * ls.length := flatMap_wordsPoint_length ls
    have hrsLen : (rs.flatMap wordsPoint).length = 16 * ls.length := by rw [flatMap_wordsPoint_length, ← hp]
    rw [append_eq_take_add_iff hlsLen (by omega), append_eq_take_add_iff hrsLen hrs] at hwords
    obtain ⟨hls, hrs', hab⟩ := hwords
    exact ⟨⟨rfl, hls⟩, ⟨hp, hrs'⟩, hab⟩

theorem wordExt_eq_take_iff {start len : Fin 65536} {ws : List Word} (h : 1 ≤ ws.length) :
    wordExt start len = ws.take 1 ↔ extStart ws = start ∧ extLen ws = len := by
  cases ws with
  | nil => cases h
  | cons w ws =>
    have hw := w.isLt
    simp only [wordExt, extStart, extLen, List.take_succ_cons, List.take_zero, wordsNat_singleton, Fin.ext_iff,
      List.cons.injEq, and_true, ← BitVec.toNat_inj, BitVec.toNat_ofNat]
    omega

/-! ## A command and its words (30_encoding.md R70 to R79) -/

/-- The encoder gives every well-formed command the payload words its header announces. -/
theorem encodePayload_length {i : Instr} (hwf : i.wf = true) :
    (encodePayload i).length = i.opcode.payloadWords (encodeHeader i) := by
  cases i with
  | fsetup => exact Laws.EncodesPayloadLength.fsetup _ _ _ hwf
  | csetup => exact Laws.EncodesPayloadLength.csetup _ _ hwf
  | lde => exact Laws.EncodesPayloadLength.lde _ _ _ hwf
  | lda => exact Laws.EncodesPayloadLength.lda _ _ hwf
  | ldv => exact Laws.EncodesPayloadLength.ldv _ _ _ hwf
  | ldg => exact Laws.EncodesPayloadLength.ldg _ _ hwf
  | fpow => exact Laws.EncodesPayloadLength.fpow _ _ _ hwf
  | fpoww => exact Laws.EncodesPayloadLength.fpoww _ _ _ hwf
  | gsetup => exact Laws.EncodesPayloadLength.gsetup _ hwf
  | ipavfy => exact Laws.EncodesPayloadLength.ipavfy _ _ _ _ _ hwf
  | _ => rfl


/-- A proof fits a header when it has as many `R` points as `L` points and `imm8` holds their number. -/
theorem RawProof.wf_iff {p : RawProof} : p.wf = true ↔ p.ls.length = p.rs.length ∧ p.ls.length < 256 := by
  rw [RawProof.wf, Bool.and_eq_true, beq_iff_eq, decide_eq_true_eq]

theorem opcode_build (w : Word) (ws : List Word) (o : Opcode) : (build w ws o).opcode = o := by cases o <;> rfl

/-- The decoder builds well-formed commands only: a length is read from a header's field. -/
theorem wf_build (w : Word) (ws : List Word) (o : Opcode) : (build w ws o).wf = true := by
  cases o with
  | ldv | ldg => simp [build, Instr.wf]
  | ipavfy => simp [build, Instr.wf, RawProof.wf, proofOf]
  | _ => rfl

/-- Some words are a well-formed command's encoding exactly when their header is accepted as that command's and it is what the
decoder builds from them. -/
theorem encode_eq_iff {i : Instr} (hwf : i.wf = true) {w : Word} {ws : List Word}
    (hlen : i.opcode.payloadWords w ≤ ws.length) :
    (encodeHeader i = w ∧ encodePayload i = ws.take (i.opcode.payloadWords w)) ↔
      (checkHeader w = .ok i.opcode ∧ build w ws i.opcode = i) := by
  rw [checkHeader_eq_ok]
  cases i
  all_goals simp only [encodeHeader, encodePayload, build, Instr.opcode, Opcode.payloadWords, Opcode.format,
    Opcode.selectorsOk]
  case nop | sts =>
    simp [packR_eq_iff_of_r0]
  case ste | ldainf | sta | stv | stg | pchk | agen =>
    simp [packR_eq_iff_of_r1, Fin.val_inj, and_assoc]
  case fneg | finv | fsqrt | feq | fmov | ptoj | ptoa | pdbl | pneg | peq | vrev | ipasv =>
    simp [packR_eq_iff_of_r2, Fin.val_inj, and_assoc]
  case fadd | fsub | fmul | padd | pmadd | pmul | vadd | vsub | vhad | vscl | vip | gmsm =>
    simp [packR_eq_iff_of_r3, Fin.val_inj, and_assoc]
  case ipach =>
    simp [packR_eq_iff_of_r4, Fin.val_inj, and_assoc]
  case ipaprv =>
    simp [packR_eq_iff_of_r6, Fin.val_inj, and_assoc]
  case vpow | vget | gget =>
    simp [packI_eq_iff_of_i2, Fin.val_inj, and_assoc]
  case csetup =>
    simp [packR_eq_iff_of_r0, append_words256_eq_take_iff hlen]
  case gsetup =>
    simp [packR_eq_iff_of_r0, and_assoc, wordsPoint_eq_take_iff hlen]
  case lda =>
    simp [packR_eq_iff_of_r1, Fin.val_inj, and_assoc, wordsPoint_eq_take_iff hlen]
  case fpow | fpoww =>
    simp [packR_eq_iff_of_r2, Fin.val_inj, and_assoc, words256_eq_take_iff hlen]
  case vslice | gslice =>
    simp [packR_eq_iff_of_r2, Fin.val_inj, and_assoc, wordExt_eq_take_iff hlen]
  case ldg =>
    have hpts := of_decide_eq_true hwf
    simp [packI_eq_iff_of_i1, hpts, Fin.val_inj, and_assoc, pointsOf_eq_iff hlen]
  case ipavfy =>
    obtain ⟨hsame, hrounds⟩ := RawProof.wf_iff.1 hwf
    simp [packK_eq_iff, hrounds, Fin.val_inj, and_assoc, proofOf_eq_iff hlen hsame]
  case fsetup ctx strat m =>
    rw [packR_eq_iff_of_r2 ctx.toNat_lt strat.toNat_lt, eq_ctx_toNat_iff, eq_strat_toNat_iff, words256_eq_take_iff hlen]
    simp [and_assoc, and_left_comm]
  case lde d ctx raw =>
    rw [packR_eq_iff_of_r2 d.isLt ctx.toNat_lt, eq_ctx_toNat_iff, words256_eq_take_iff hlen]
    simp [Fin.val_inj, and_assoc, and_left_comm]
  case ldv d ctx raws =>
    have hraws := of_decide_eq_true hwf
    rw [packI_eq_iff_of_i2 d.isLt ctx.toNat_lt hraws, eq_ctx_toNat_iff]
    simp [rawsOf_eq_iff hlen, Fin.val_inj, and_assoc, and_left_comm]

/-- Settles O1: a command's own words are its header and as many payload words as that header announces, so by `encode_eq_iff` the
decoder accepts the header and builds the command. -/
theorem decodeOfEncodeIsTheCommand : Obligations.DecodeOfEncodeIsTheCommand := by
  unfold Obligations.DecodeOfEncodeIsTheCommand
  intro i rest hwf
  have hpayload := encodePayload_length hwf
  have hlen : i.opcode.payloadWords (encodeHeader i) ≤ (encodePayload i ++ rest).length := by
    rw [List.length_append, hpayload]
    exact Nat.le_add_right _ _
  obtain ⟨hcheck, hbuild⟩ := (encode_eq_iff hwf hlen).1 ⟨rfl, (List.take_left' hpayload).symm⟩
  exact decode_eq_ok.2 ⟨encodeHeader i, encodePayload i ++ rest, i.opcode, rfl, hcheck, hlen, hbuild.symm,
    (List.drop_left' hpayload).symm⟩

/-- Settles O2: the decoder accepts a header with all of its payload words and builds a well-formed command of that header's
opcode, whose encoding by `encode_eq_iff` is the header and those words. -/
theorem decodedWordsAreTheEncoding : Obligations.DecodedWordsAreTheEncoding := by
  unfold Obligations.DecodedWordsAreTheEncoding
  intro ws rest i hdecode
  obtain ⟨w, payload, o, rfl, hcheck, hlen, rfl, rfl⟩ := decode_eq_ok.1 hdecode
  have hop := opcode_build w payload o
  have hencode := encode_eq_iff (wf_build w payload o) (w := w) (ws := payload)
  rw [hop] at hencode
  obtain ⟨hheader, hpayload⟩ := (hencode hlen).2 ⟨hcheck, rfl⟩
  refine ⟨wf_build w payload o, ?_⟩
  rw [encode, hheader, hpayload, List.cons_append, List.take_append_drop]

end Sys2Proof
end

section
/-! PROOFS of the statements on configuration and transfer (40_config_transfer.md R100 to R112): example words, the bytes a store
emits, and each command's whole result, its faults in the order of its rule's checks. -/

namespace Sys2Proof

/-! ## Example words -/

/-- Words that a command encodes to decode to it, with none left over. -/
theorem decode_of_encode_eq {i : Instr} {ws : List Word} (hwf : i.wf = true) (h : encode i = ws) :
    decode ws = .ok (i, []) := by
  rw [← h, ← List.append_nil (encode i)]
  exact decodeOfEncodeIsTheCommand i [] hwf

/-- Settles O4: each word list is its command's encoding, which decodes to the command. -/
theorem exampleWordsDecode : Obligations.ExampleWordsDecode := by
  unfold Obligations.ExampleWordsDecode
  refine ⟨?_, ?_, ?_, ?_, ?_, ?_, ?_, ?_, ?_⟩ <;> exact decode_of_encode_eq rfl (by decide)

end Sys2Proof

namespace Sys2Proof.Machine

/-! ## Bytes (00_scope.md R9, 20_memory.md R52 to R54) -/

/-- The four big-endian bytes of a word's natural are its four byte fields. -/
theorem beBytes_toNat (w : Word) : beBytes 4 w.toNat = wordBytes w := by
  simp [beBytes, wordBytes, BitVec.extractLsb', Nat.shiftRight_eq_div_pow]

theorem State.statusBytes_eq (s : State) : s.statusBytes = wordBytes s.status ++ wordBytes s.cseq := by
  rw [State.statusBytes, beBytes_toNat, beBytes_toNat]

/-- Reading on from `acc` through `n` big-endian bytes. -/
theorem foldl_beBytes (n v acc : Nat) :
    (beBytes n v).foldl (fun acc x => acc * 256 + x.toNat) acc = acc * 256 ^ n + v % 256 ^ n := by
  induction n generalizing acc with
  | zero => simp [beBytes, Nat.mod_one]
  | succ n ih =>
    have hsplit : v % 256 ^ (n + 1) = v % 256 ^ n + 256 ^ n * (v / 256 ^ n % 256) := by rw [pow_succ, Nat.mod_mul]
    rw [beBytes, List.foldl_cons, ih, BitVec.toNat_ofNat, hsplit]
    ring

/-- The 32 bytes of a 256-bit natural spell it (20_memory.md R52). -/
theorem beInt_be32 {v : Nat} (h : v < 2 ^ 256) : beInt (be32 v) = v := by
  rw [beInt, be32, foldl_beBytes, Nat.zero_mul, Nat.zero_add]
  exact Nat.mod_eq_of_lt h

theorem serScalars_eq (f : FieldCtx) (xs : List Fe) : serScalars f xs = ((xs.map f.val).map be32).flatten := by
  rw [serScalars, List.flatMap_def, List.map_map]
  rfl

/-- Finite points serialize to their coordinates, point 0 first (20_memory.md R53). -/
theorem serAll_map_pt (f : FieldCtx) (xys : List (Fe × Fe)) :
    serAll f (xys.map fun xy => Affine.pt xy.1 xy.2) =
      .ok (xys.map fun xy => be32 (f.val xy.1) ++ be32 (f.val xy.2)).flatten := by
  induction xys with
  | nil => rfl
  | cons xy xys ih => rw [List.map_cons, serAll, ser, ok_bind, ih, ok_bind, List.map_cons, List.flatten_cons]

/-- A point at infinity anywhere in a vector has no encoding. -/
theorem serAll_of_inf_mem (f : FieldCtx) {qs : List Affine} (h : .inf ∈ qs) : serAll f qs = .error .infinityEncode := by
  induction qs with
  | nil => cases h
  | cons q qs ih =>
    cases q with
    | inf => rfl
    | pt x y =>
      have htail : Affine.inf ∈ qs := by simpa using h
      rw [serAll, ser, ok_bind, ih htail, error_bind]

/-! ## Loaded values (20_memory.md R52 to R54) -/

/-- The fast-path flag of a coefficient: its stored form is 0 exactly when its value is (40_config_transfer.md R102). -/
theorem FieldCtx.WF.ofRaw_beq_zero {f : FieldCtx} (h : f.WF) (raw : Raw) :
    (f.ofRaw raw == 0) = decide (raw.toNat % f.m = 0) := by
  rw [← h.val_ofRaw raw, Bool.eq_iff_iff, beq_iff_eq, decide_eq_true_eq]
  exact (h.val_eq_zero (h.canon_ofRaw raw)).symm

theorem FieldCtx.WF.map_val_ofRaw {f : FieldCtx} (h : f.WF) (raws : List Raw) :
    (raws.map f.ofRaw).map f.val = raws.map fun raw => raw.toNat % f.m := by
  rw [List.map_map]
  exact List.map_congr_left fun raw _ => h.val_ofRaw raw

theorem pointOfRaw_vals {f : FieldCtx} (h : f.WF) (q : RawPoint) :
    (pointOfRaw f q).vals f = some (q.x.toNat % f.m, q.y.toNat % f.m) := by
  rw [pointOfRaw, Affine.vals, h.val_ofRaw, h.val_ofRaw]

/-! ## Modulus and constants (40_config_transfer.md R101, 41_field.md R141) -/

/-- FSETUP's check of the modulus. -/
theorem modulus_check_iff {m : Raw} :
    (decide (3 ≤ m.toNat) && m.toNat % 2 == 1) = true ↔ 3 ≤ m.toNat ∧ m.toNat % 2 = 1 := by
  rw [Bool.and_eq_true, decide_eq_true_eq, beq_iff_eq]

/-- `mont_k` as R141 computes it: the division leaves no remainder. -/
theorem FieldCtx.WF.montK_eq_div {f : FieldCtx} (h : f.WF) (hs : f.strat = .mont) :
    f.montK.toNat = (Config.radix * f.montRinv.toNat - 1) / f.m := by
  obtain ⟨-, -, -, hk⟩ := h.2.2.2 hs
  rw [← hk, Nat.add_sub_cancel, Nat.mul_div_cancel _ h.pos]

/-! ## Faults, in the order of each rule's checks -/

theorem require_bind_of_false {β : Type} {b : Bool} (h : b = false) (c : Cause) (k : Unit → Except Cause β) :
    (require b c >>= k) = .error c := by
  rw [h, require_false, error_bind]

section
variable {s : State}

theorem exec_fsetup_of_badModulus {c : Ctx} (hc : (s.fld c).ok = false) (st : Strat) {m : Raw}
    (hm : ¬ (3 ≤ m.toNat ∧ m.toNat % 2 = 1)) : exec (.fsetup c st m) s = .next (s.enterFault .badModulus) :=
  finish_of_error <| (require_bind (by rw [hc]; rfl) _ _).trans <|
    require_bind_of_false (Bool.eq_false_iff.2 fun h => hm (modulus_check_iff.1 h)) _ _

theorem exec_csetup_of_notReady (h : s.fld0.ok = false ∨ s.fld1.ok = false) (a b : Raw) :
    exec (.csetup a b) s = .next (s.enterFault .fieldNotReady) := by
  refine finish_of_error ?_
  cases h0 : s.fld0.ok with
  | false => exact require_bind_of_false rfl _ _
  | true => exact (require_bind rfl _ _).trans (require_bind_of_false (h.resolve_left (by simp [h0])) _ _)

theorem exec_lde_of_notReady {c : Ctx} (hc : (s.fld c).ok = false) (d : RegNo) (raw : Raw) :
    exec (.lde d c raw) s = .next (s.enterFault .fieldNotReady) :=
  finish_of_error (require_bind_of_false hc _ _)

theorem exec_sta_of_inf (hc : s.crv.ok = true) {k : RegNo} (hq : s.a.get k = some .inf) :
    exec (.sta k) s = .next (s.enterFault .infinityEncode) :=
  finish_of_error <| (needCurve_bind hc _).trans (read_bind hq _)

theorem exec_ldv_of_tooLong {raws : List Raw} (h : s.nmax < raws.length) (d : RegNo) (c : Ctx) :
    exec (.ldv d c raws) s = .next (s.enterFault .rangeError) :=
  finish_of_error (require_bind_of_false (decide_eq_false (Nat.not_le.2 h)) _ _)

theorem exec_ldv_of_notReady {c : Ctx} (hc : (s.fld c).ok = false) (d : RegNo) {raws : List Raw}
    (hlen : raws.length ≤ s.nmax) : exec (.ldv d c raws) s = .next (s.enterFault .fieldNotReady) :=
  finish_of_error <| (require_bind (decide_eq_true hlen) _ _).trans (require_bind_of_false hc _ _)

theorem exec_ldg_of_tooLong {qs : List RawPoint} (h : s.nmax < qs.length) (d : RegNo) :
    exec (.ldg d qs) s = .next (s.enterFault .rangeError) :=
  finish_of_error (require_bind_of_false (decide_eq_false (Nat.not_le.2 h)) _ _)

theorem exec_stg_of_inf_mem (hc : s.crv.ok = true) {k : RegNo} {qs : GVec} (hqs : s.g.get k = some qs) (hinf : .inf ∈ qs) :
    exec (.stg k) s = .next (s.enterFault .infinityEncode) :=
  finish_of_error <| (needCurve_bind hc _).trans <| (read_bind hqs _).trans <| by rw [serAll_of_inf_mem _ hinf]; rfl

/-! ## Completions -/

theorem exec_fsetup_of_ok {c : Ctx} (hc : (s.fld c).ok = false) (st : Strat) {m : Raw} (h3 : 3 ≤ m.toNat)
    (hodd : m.toNat % 2 = 1) :
    exec (.fsetup c st m) s = .next ((s.putFld c (.setup st m)).putFlag (okFlag c) true).complete :=
  finish_of_ok <| (require_bind (by rw [hc]; rfl) _ _).trans (require_bind (modulus_check_iff.2 ⟨h3, hodd⟩) _ _)

theorem exec_csetup_of_ok (h0 : s.fld0.ok = true) (h1 : s.fld1.ok = true) (hc : s.crv.ok = false) (a b : Raw) :
    exec (.csetup a b) s = .next (State.putFlag { s with crv := s.curveRecord a b } .curveok true).complete :=
  finish_of_ok <| (require_bind h0 _ _).trans <| (require_bind h1 _ _).trans (require_bind (by rw [hc]; rfl) _ _)

theorem exec_ldainf_of_ok (hc : s.crv.ok = true) (d : RegNo) : exec (.ldainf d) s = .next (s.putA d .inf).complete :=
  finish_of_ok (needCurve_bind hc _)

end

/-! ## The statements -/

/-- Settles O28: the checks in the rule's order, and else the context that `FieldCtx.setup` computes, which is well formed. -/
theorem fsetupResult : Obligations.FsetupResult := by
  unfold Obligations.FsetupResult
  intro s c st m
  obtain ⟨-, hagain, -⟩ := configurationIsWrittenOnce
  refine ⟨hagain s c st m, fun hc hm => exec_fsetup_of_badModulus hc st (by omega),
    fun hc h3 hodd => ?_⟩
  have hwf := FieldCtx.setup_wf st h3 hodd
  have ⟨_, _, hnaiveConsts, hmontConsts⟩ := hwf
  refine ⟨.setup st m, (exec_fsetup_of_ok hc st h3 hodd).trans (by cases c <;> rfl), FieldCtx.setup_ok st m,
    FieldCtx.setup_mod st m, FieldCtx.setup_strat st m, fun hst => ?_, fun hst => ?_⟩
  · exact hnaiveConsts ((FieldCtx.setup_strat st m).trans hst)
  · have hmont := (FieldCtx.setup_strat st m).trans hst
    obtain ⟨hR, hlt, hunit, hK⟩ := hmontConsts hmont
    have hdiv := hwf.montK_eq_div hmont
    rw [FieldCtx.setup_m] at hR hlt hunit hK hdiv
    exact ⟨hR, hlt, hunit, hdiv, hK⟩

/-- Settles O29: the record CSETUP writes holds the reduced coefficients, and a flag compares a stored form with 0, which is the
value's being 0. -/
theorem csetupResult : Obligations.CsetupResult := by
  unfold Obligations.CsetupResult
  intro s rawA rawB hinv
  obtain ⟨-, -, hagain⟩ := configurationIsWrittenOnce
  refine ⟨fun h => exec_csetup_of_notReady h rawA rawB, hagain s rawA rawB, fun h0 h1 hc => ?_⟩
  have hwf : s.fld0.WF := hinv.setup.fld .coord h0
  refine ⟨s.fld0.ofRaw rawA, s.fld0.ofRaw rawB, ?_, hwf.canon_ofRaw rawA, hwf.canon_ofRaw rawB, hwf.val_ofRaw rawA,
    hwf.val_ofRaw rawB⟩
  rw [exec_csetup_of_ok h0 h1 hc, State.curveRecord, hwf.ofRaw_beq_zero, hwf.ofRaw_beq_zero]
  rfl

/-- Settles O30: the loaded element is the reduced value's stored form; the stored bytes spell the element's value, which is below
the modulus. -/
theorem ldeAndSteResults : Obligations.LdeAndSteResults := by
  unfold Obligations.LdeAndSteResults
  intro s hinv
  refine ⟨fun ed c raw => ⟨fun hc => exec_lde_of_notReady hc ed raw, fun hc => ?_⟩, fun es x hx => ?_⟩
  · have hwf := hinv.setup.fld c hc
    exact ⟨_, exec_lde_of_ok hc ed raw, hwf.canon_ofRaw raw, hwf.val_ofRaw raw⟩
  · have hlt : s.valOf x < (s.fld x.ctx).m := (hinv.elem_wf hx).val_lt (hinv.regs.e es x hx).2
    exact ⟨_, exec_ste_of_some hx, be32_length _, beInt_be32 (hlt.trans (s.fld x.ctx).m_lt), hlt⟩

/-- Settles O31: a loaded point is the pair of its reduced coordinates, and only infinity has no encoding. -/
theorem pointTransferResults : Obligations.PointTransferResults := by
  unfold Obligations.PointTransferResults
  intro s hinv hc
  have hwf : s.fld0.WF := (hinv.setup.curve_wf hc).fp
  refine ⟨fun ad q => ?_, exec_ldainf_of_ok hc, fun sa x y hq => exec_sta_of_some hc hq rfl,
    fun sa hq => exec_sta_of_inf hc hq⟩
  exact ⟨_, _, exec_lda_of_ok hc ad q, hwf.canon_ofRaw q.x, hwf.canon_ofRaw q.y, hwf.val_ofRaw q.x, hwf.val_ofRaw q.y⟩

/-- Settles O32: the loaded vector holds the reduced values' stored forms, and the stored bytes are those of the elements' values. -/
theorem vectorTransferResults : Obligations.VectorTransferResults := by
  unfold Obligations.VectorTransferResults
  intro s hinv
  refine ⟨fun vd c raws => ⟨fun hlen => exec_ldv_of_tooLong hlen vd c, fun hlen hc => exec_ldv_of_notReady hc vd hlen,
    fun hlen hc => ?_⟩, fun vs x hx => ?_⟩
  · have hwf := hinv.setup.fld c hc
    refine ⟨_, exec_ldv_of_ok hc vd hlen, fun x hx => ?_, hwf.map_val_ofRaw raws⟩
    obtain ⟨raw, -, rfl⟩ := List.mem_map.1 hx
    exact hwf.canon_ofRaw raw
  · rw [exec_stv_of_some hx, serScalars_eq]
    rfl

/-- Settles O33: the loaded points are the pairs of their reduced coordinates; finite points serialize one after the other, and a
point at infinity anywhere is the fault. -/
theorem generatorTransferResults : Obligations.GeneratorTransferResults := by
  unfold Obligations.GeneratorTransferResults
  intro s hc
  refine ⟨fun gd qs hinv hlen => ?_, fun gd qs hlen => exec_ldg_of_tooLong hlen gd,
    fun gs xys hg => exec_stg_of_some hc hg (serAll_map_pt s.fld0 xys), fun gs qs hg hinf => exec_stg_of_inf_mem hc hg hinf⟩
  have hwf : s.fld0.WF := (hinv.setup.curve_wf hc).fp
  refine ⟨_, exec_ldg_of_ok hc gd hlen, fun p hp => ?_, ?_⟩
  · obtain ⟨q, -, rfl⟩ := List.mem_map.1 hp
    exact pointOfRaw_canon hwf q
  · rw [List.map_map]
    exact List.map_congr_left fun q _ => pointOfRaw_vals hwf q

/-- Settles O27: neither command can fault, and the bytes STS emits are the two words' own. -/
theorem nopAndStsResults : Obligations.NopAndStsResults := by
  unfold Obligations.NopAndStsResults
  intro s
  refine ⟨rfl, ?_⟩
  have hsts : exec .sts s = .next (s.emit s.statusBytes).complete := rfl
  rw [hsts, State.statusBytes_eq]
  rfl

end Sys2Proof.Machine
end

section
/-! PROOFS of the statements on the field unit (41_field.md): powers by both algorithms as powers in the ring of residues, `REDC`
as the value of a stored form, and the result of each field command. -/

namespace Sys2Proof.Machine

namespace FieldCtx.WF

variable {f : FieldCtx}

/-! ## Powers (41_field.md R138, R139) -/

/-- The bit-serial loop appends the low `n` bits of the exponent to the power it starts from. -/
theorem powLoop_spec (h : f.WF) {a : Fe} (e : Nat) : ∀ (n : Nat) {r : Fe}, f.Canon r →
    f.toZ (f.powLoop a e n r) = f.toZ r ^ 2 ^ n * f.toZ a ^ (e % 2 ^ n) := by
  intro n
  induction n with
  | zero => intro r _; simp [powLoop, Nat.mod_one]
  | succ n ih =>
    intro r hr
    have hsq := h.canon_mul hr r
    rw [powLoop, Nat.mod_pow_succ, ← Nat.toNat_testBit]
    cases e.testBit n with
    | false =>
      simp only [Bool.false_eq_true, if_false, Bool.toNat_false, mul_zero, add_zero]
      rw [ih hsq, h.toZ_mul hr, pow_succ]
      ring
    | true =>
      simp only [if_true, Bool.toNat_true, mul_one]
      rw [ih (h.canon_mul hsq a), h.toZ_mul hsq, h.toZ_mul hr, pow_succ, pow_add]
      ring

/-- `fpow` is the power (41_field.md R138). -/
theorem toZ_pow (h : f.WF) (a : Fe) {e : Nat} (he : e < 2 ^ 256) : f.toZ (f.pow a e) = f.toZ a ^ e := by
  rw [pow, h.powLoop_spec e _ h.canon_one, h.toZ_one, one_pow, one_mul]
  exact congrArg _ (Nat.mod_eq_of_lt he)

/-- Entry `d` of the window table is `a^d` (41_field.md R139). -/
theorem powTable_getD (h : f.WF) (a : Fe) {d n : Nat} (hd : d < n) : f.toZ ((f.mulChain a n f.one).getD d f.one) = f.toZ a ^ d := by
  obtain ⟨hlen, hget⟩ := h.mulChain_spec (a := a) n f.one h.canon_one
  have hentry := List.getElem?_eq_getElem (hlen.symm ▸ hd : d < (f.mulChain a n f.one).length)
  rw [List.getD_eq_getElem?_getD, hentry, Option.getD_some, (hget d _ hentry).2, h.toZ_one, one_mul]

theorem sq_spec (h : f.WF) {r : Fe} (hr : f.Canon r) : f.Canon (f.mul r r) ∧ f.toZ (f.mul r r) = f.toZ r ^ 2 :=
  ⟨h.canon_mul hr r, by rw [h.toZ_mul hr, sq]⟩

/-- The five squarings of a window (41_field.md R139). -/
theorem sq_five_spec (h : f.WF) {r : Fe} (hr : f.Canon r) :
    let r2 := f.mul r r
    let r4 := f.mul r2 r2
    let r8 := f.mul r4 r4
    let r16 := f.mul r8 r8
    let r32 := f.mul r16 r16
    f.Canon r32 ∧ f.toZ r32 = f.toZ r ^ 2 ^ Config.powWindow := by
  intro r2 r4 r8 r16 r32
  obtain ⟨c2, v2⟩ : f.Canon r2 ∧ _ := h.sq_spec hr
  obtain ⟨c4, v4⟩ : f.Canon r4 ∧ _ := h.sq_spec c2
  obtain ⟨c8, v8⟩ : f.Canon r8 ∧ _ := h.sq_spec c4
  obtain ⟨c16, v16⟩ : f.Canon r16 ∧ _ := h.sq_spec c8
  obtain ⟨c32, v32⟩ : f.Canon r32 ∧ _ := h.sq_spec c16
  refine ⟨c32, ?_⟩
  rw [v32, v16, v8, v4, v2, Config.powWindow]
  ring

/-- The windowed loop appends the low `n` windows of the exponent to the power it starts from. -/
theorem powwLoop_spec (h : f.WF) (a : Fe) (e : Nat) : ∀ (n : Nat) {r : Fe}, f.Canon r →
    f.toZ (f.powwLoop (f.mulChain a (2 ^ Config.powWindow) f.one) e n r) =
      f.toZ r ^ 2 ^ (Config.powWindow * n) * f.toZ a ^ (e % 2 ^ (Config.powWindow * n)) := by
  intro n
  induction n with
  | zero => intro r _; simp [powwLoop, Nat.mod_one]
  | succ n ih =>
    intro r hr
    obtain ⟨hsq, hsqv⟩ := h.sq_five_spec hr
    have hd : e / 2 ^ (Config.powWindow * n) % 2 ^ Config.powWindow < 2 ^ Config.powWindow := Nat.mod_lt _ (by decide)
    rw [powwLoop, ih (h.canon_mul hsq _), h.toZ_mul hsq, hsqv, h.powTable_getD a hd, Nat.mul_succ, pow_add 2, Nat.mod_mul, pow_add,
      mul_pow, ← pow_mul, ← pow_mul, mul_comm (2 ^ Config.powWindow), mul_comm (2 ^ (Config.powWindow * n)) (_ % _)]
    ring

/-- `fpoww` is the power: 52 windows of 5 bits cover the exponent (41_field.md R139). -/
theorem toZ_poww (h : f.WF) (a : Fe) {e : Nat} (he : e < 2 ^ 256) : f.toZ (f.poww a e) = f.toZ a ^ e := by
  have hcover : e < 2 ^ (Config.powWindow * 52) := he.trans (Nat.pow_lt_pow_right (by decide) (by decide))
  rw [poww, h.powwLoop_spec a e _ h.canon_one, h.toZ_one, one_pow, one_mul, Nat.mod_eq_of_lt hcover]

theorem poww_eq_pow (h : f.WF) (a : Fe) {e : Nat} (he : e < 2 ^ 256) : f.poww a e = f.pow a e :=
  (h.toZ_inj (h.canon_poww a e) (h.canon_pow a e)).1 (by rw [h.toZ_poww a he, h.toZ_pow a he])

theorem val_pow (h : f.WF) (a : Fe) {e : Nat} (he : e < 2 ^ 256) : f.val (f.pow a e) = f.val a ^ e % f.m :=
  h.val_eq_mod_of_toZ (h.canon_pow a e) (by rw [h.toZ_pow a he, Nat.cast_pow]; rfl)

/-- The exponent of the candidate root is a 256-bit number (41_field.md R140). -/
theorem rootExponent_lt (f : FieldCtx) : (f.m + 1) / 4 < 2 ^ 256 := by
  have := f.m_lt
  omega

/-- The candidate root squares back as a stored form exactly when it does as a value (41_field.md R140). -/
theorem sqrt_of_mod_four (h : f.WF) (h3 : f.m % 4 = 3) {a : Fe} (ha : f.Canon a) :
    ∃ r, f.sqrt a = .ok (r, decide (f.val r * f.val r % f.m = f.val a)) ∧ f.Canon r ∧
      f.val r = f.val a ^ ((f.m + 1) / 4) % f.m := by
  have hr := h.canon_pow a ((f.m + 1) / 4)
  have hsquare := h.val_inj (h.canon_mul hr (f.pow a ((f.m + 1) / 4))) ha
  rw [h.val_mul hr, Values.fmul] at hsquare
  refine ⟨_, ?_, hr, h.val_pow a (rootExponent_lt f)⟩
  rw [sqrt, if_pos h3, decide_eq_decide.2 hsquare]
  rfl

/-! ## Reduction and inversion on values (41_field.md R137, R143, R145) -/

theorem val_eq_redc (h : f.WF) (hs : f.strat = .mont) {x : Fe} (hx : f.Canon x) : f.val x = f.redc x.toNat := by
  have ht : x.toNat < f.m * Config.radix := lt_of_lt_of_le hx (Nat.le_mul_of_pos_right _ (by decide))
  obtain ⟨hlt, hcast⟩ := h.redc_spec hs ht
  refine h.val_eq_of_toZ hx hlt ?_
  rw [toZ_eq, hcast]
  simp only [factor, hs]

/-- A factorization of 1 in the ring is one of the values. -/
theorem val_mul_val_mod_eq_one (h : f.WF) {a b : Fe} (e : f.toZ b * f.toZ a = 1) : f.val a * f.val b % f.m = 1 := by
  refine natCast_inj_of_lt (Nat.mod_lt _ h.pos) h.two_le ?_
  rw [ZMod.natCast_mod, Nat.cast_mul, Nat.cast_one, h.toZ_val, h.toZ_val, mul_comm, e]

/-- Under a prime modulus the non-units are the values 0 (41_field.md R137). -/
theorem gcd_val_ne_one_iff (h : f.WF) (hp : Nat.Prime f.m) {a : Fe} (ha : f.Canon a) :
    Nat.gcd (f.val a) f.m ≠ 1 ↔ f.val a = 0 := by
  have hlt := h.val_lt ha
  rw [Nat.gcd_comm]
  refine hp.dvd_iff_not_coprime.symm.trans ?_
  exact ⟨fun hd => Nat.eq_zero_of_dvd_of_lt hd hlt, fun h0 => h0 ▸ dvd_zero _⟩

end FieldCtx.WF

theorem Values.fneg_eq {m a : Nat} (h : a < m) : Values.fneg m a = if a = 0 then 0 else m - a := by
  unfold Values.fneg
  split
  · next h0 => rw [h0, Nat.sub_zero, Nat.mod_self]
  · exact Nat.mod_eq_of_lt (by omega)

/-! ## Results of the field commands -/

section
variable {s : State} {c1 c2 : Ctx} {β : Type}

theorem sameField_bind (h : (s.fld c1).mod = (s.fld c2).mod) (k : Unit → Except Cause β) : (s.sameField c1 c2 >>= k) = k () := by
  rw [sameField_eq_ok.2 h, ok_bind]

theorem sameField_bind_of_ne (h : (s.fld c1).mod ≠ (s.fld c2).mod) (k : Unit → Except Cause β) :
    (s.sameField c1 c2 >>= k) = .error .modulusMismatch := by
  rw [sameField_eq_error.2 ⟨h, rfl⟩, error_bind]

end

/-- A command that completes does not answer with a fault entry: it is counted. -/
theorem complete_ne_enterFault {s u : State} (h : u.cseq = s.cseq) (c : Cause) :
    (Host.Outcome.next u.complete : Result) ≠ .next (s.enterFault c) := by
  intro e
  have hseq : u.cseq + 1 = s.cseq := congrArg State.cseq (Host.Outcome.next.inj e)
  rw [h] at hseq
  simp at hseq

section
variable {s : State} {d k k1 k2 : RegNo} {x y : Elem}

/-- The result of FADD, FSUB and FMUL, for any operation that is `vop` on values (41_field.md R149 to R152). -/
theorem fieldBinary_result {op : FieldCtx → Fe → Fe → Fe} {vop : Nat → Nat → Nat → Nat}
    (hop : ∀ f : FieldCtx, f.WF → ∀ a b, f.Canon a → f.Canon b →
      f.Canon (op f a b) ∧ f.val (op f a b) = vop f.m (f.val a) (f.val b))
    (hi : s.Inv) (hx : s.e.get k1 = some x) (hy : s.e.get k2 = some y) (hm : (s.fld x.ctx).mod = (s.fld y.ctx).mod) :
    ∃ r, fieldBinary op d k1 k2 s = .next (s.putE d ⟨x.ctx, r⟩).complete ∧ (s.fld x.ctx).Canon r ∧
      (s.fld x.ctx).val r = vop (s.fld x.ctx).m (s.valOf x) (s.valOf y) := by
  have hwf := hi.elem_wf hx
  obtain ⟨hconv, hval⟩ := State.convert_spec (hi.elem_wf hy) hwf hm (hi.regs.e _ _ hy).2
  obtain ⟨hcanon, hres⟩ := hop _ hwf _ _ (hi.regs.e _ _ hx).2 hconv
  exact ⟨_, by rw [fieldBinary_of_some op hx hy, if_pos hm], hcanon, by rw [hres, hval]; rfl⟩

theorem fieldBinary_of_mismatch (op : FieldCtx → Fe → Fe → Fe) (hx : s.e.get k1 = some x) (hy : s.e.get k2 = some y)
    (hm : (s.fld x.ctx).mod ≠ (s.fld y.ctx).mod) : fieldBinary op d k1 k2 s = .next (s.enterFault .modulusMismatch) := by
  rw [fieldBinary_of_some op hx hy, if_neg hm]

theorem exec_fneg_of_some (hx : s.e.get k = some x) :
    exec (.fneg d k) s = .next (s.putE d ⟨x.ctx, (s.fld x.ctx).neg x.s⟩).complete :=
  finish_of_ok (read_bind hx _)

theorem exec_fmov_of_some (hx : s.e.get k = some x) : exec (.fmov d k) s = .next (s.putE d x).complete :=
  finish_of_ok (read_bind hx _)

theorem exec_fpow_of_some (hx : s.e.get k = some x) (e : Raw) :
    exec (.fpow d k e) s = .next (s.putE d ⟨x.ctx, (s.fld x.ctx).pow x.s e.toNat⟩).complete :=
  finish_of_ok (read_bind hx _)

theorem exec_fpoww_of_some (hx : s.e.get k = some x) (e : Raw) :
    exec (.fpoww d k e) s = .next (s.putE d ⟨x.ctx, (s.fld x.ctx).poww x.s e.toNat⟩).complete :=
  finish_of_ok (read_bind hx _)

theorem exec_finv_of_ok (hx : s.e.get k = some x) {r : Fe} (hr : (s.fld x.ctx).inv x.s = .ok r) :
    exec (.finv d k) s = .next (s.putE d ⟨x.ctx, r⟩).complete :=
  finish_of_ok <| (read_bind hx _).trans <| by rw [hr]; rfl

theorem exec_finv_of_error (hx : s.e.get k = some x) {c : Cause} (hr : (s.fld x.ctx).inv x.s = .error c) :
    exec (.finv d k) s = .next (s.enterFault c) :=
  finish_of_error <| (read_bind hx _).trans <| by rw [hr]; rfl

theorem exec_fsqrt_of_ok (hx : s.e.get k = some x) {r : Fe × Bool} (hr : (s.fld x.ctx).sqrt x.s = .ok r) :
    exec (.fsqrt d k) s = .next ((s.putE d ⟨x.ctx, r.1⟩).putFlag .sqok r.2).complete :=
  finish_of_ok <| (read_bind hx _).trans <| by rw [hr]; rfl

theorem exec_fsqrt_of_error (hx : s.e.get k = some x) {c : Cause} (hr : (s.fld x.ctx).sqrt x.s = .error c) :
    exec (.fsqrt d k) s = .next (s.enterFault c) :=
  finish_of_error <| (read_bind hx _).trans <| by rw [hr]; rfl

theorem exec_feq_of_some (hx : s.e.get k1 = some x) (hy : s.e.get k2 = some y) (hm : (s.fld x.ctx).mod = (s.fld y.ctx).mod) :
    exec (.feq k1 k2) s = .next (s.putFlag .eq (decide (s.valOf x = s.valOf y))).complete :=
  finish_of_ok (u := s.putFlag .eq (s.valOf x == s.valOf y)) <|
    (read_bind hx _).trans <| (read_bind hy _).trans <| sameField_bind hm _

theorem exec_feq_of_mismatch (hx : s.e.get k1 = some x) (hy : s.e.get k2 = some y)
    (hm : (s.fld x.ctx).mod ≠ (s.fld y.ctx).mod) : exec (.feq k1 k2) s = .next (s.enterFault .modulusMismatch) :=
  finish_of_error <| (read_bind hx _).trans <| (read_bind hy _).trans <| sameField_bind_of_ne hm _

end

/-! ## The statements -/

/-- Settles O25: both are below the modulus, and in the ring both are the stored form over 2^256. -/
theorem montgomeryValueIsRedc : Obligations.MontgomeryValueIsRedc := by
  unfold Obligations.MontgomeryValueIsRedc
  exact fun f x hf hs hx => hf.val_eq_redc hs hx

/-- Settles O35: the second operand keeps its value when it is taken to the first one's context, where the operation is the rule's
on values. -/
theorem faddFsubFmulResults : Obligations.FaddFsubFmulResults := by
  unfold Obligations.FaddFsubFmulResults
  intro s ed es1 es2 x y hi hx hy
  refine ⟨fun hm => ⟨?_, ?_, ?_⟩, fun hm => ⟨?_, ?_, ?_⟩⟩
  · exact fieldBinary_result (fun f hf a b _ _ => ⟨hf.canon_add a b, hf.val_add a b⟩) hi hx hy hm
  · exact fieldBinary_result (fun f hf a b ha hb => ⟨FieldCtx.WF.canon_sub ha hb, hf.val_sub ha hb⟩) hi hx hy hm
  · exact fieldBinary_result (fun f hf a b ha _ => ⟨hf.canon_mul ha b, hf.val_mul ha b⟩) hi hx hy hm
  · exact fieldBinary_of_mismatch FieldCtx.add hx hy hm
  · exact fieldBinary_of_mismatch FieldCtx.sub hx hy hm
  · exact fieldBinary_of_mismatch FieldCtx.mul hx hy hm

/-- Settles O36: on values the negation is `(m - a) mod m`, whose remainder only 0 needs. -/
theorem fnegAndFmovResults : Obligations.FnegAndFmovResults := by
  unfold Obligations.FnegAndFmovResults
  intro s ed es x hi hx
  have hwf := hi.elem_wf hx
  obtain ⟨-, hcanon⟩ := hi.regs.e _ _ hx
  refine ⟨⟨_, exec_fneg_of_some hx, hwf.canon_neg x.s, ?_⟩, exec_fmov_of_some hx⟩
  rw [hwf.val_neg hcanon, Values.fneg_eq (hwf.val_lt hcanon)]
  rfl

/-- Settles O37: `inv` answers by the gcd of value and modulus, and a prime divides no value below it but 0. -/
theorem finvResult : Obligations.FinvResult := by
  unfold Obligations.FinvResult
  intro s ed es x hi hx
  have hwf := hi.elem_wf hx
  have hunit (hg : Nat.gcd (s.valOf x) (s.fld x.ctx).m = 1) := hwf.inv_ok hg
  have hnone (hg : Nat.gcd (s.valOf x) (s.fld x.ctx).m ≠ 1) : exec (.finv ed es) s = .next (s.enterFault .noInverse) :=
    exec_finv_of_error hx (if_neg hg)
  refine ⟨fun hg => ?_, hnone, fun hp => ?_⟩
  · obtain ⟨hr, hcanon, hmul⟩ := hunit hg
    exact ⟨_, exec_finv_of_ok hx hr, hcanon, hwf.val_mul_val_mod_eq_one hmul⟩
  · refine Iff.trans ⟨fun hfault hg => ?_, hnone⟩ (hwf.gcd_val_ne_one_iff hp (hi.regs.e _ _ hx).2)
    exact complete_ne_enterFault (State.putE_cseq ..) _ ((exec_finv_of_ok hx (hunit hg).1).symm.trans hfault)

/-- Settles O39: both algorithms give a canonical stored form of the same power. -/
theorem windowedPowerEqualsBitSerial : Obligations.WindowedPowerEqualsBitSerial := by
  unfold Obligations.WindowedPowerEqualsBitSerial
  refine ⟨fun f a e hf _ he => hf.poww_eq_pow a he, fun s ed es expo hi => ?_⟩
  cases hx : s.e.get es with
  | none =>
    have hunwritten : s.Missing [.e es] := ⟨.e es, List.mem_singleton_self _, by simp [State.written, hx]⟩
    exact (exec_of_missing (i := .fpoww ed es expo) hunwritten trivial nofun).trans
      (exec_of_missing (i := .fpow ed es expo) hunwritten trivial nofun).symm
  | some x => rw [exec_fpoww_of_some hx, exec_fpow_of_some hx, (hi.elem_wf hx).poww_eq_pow x.s expo.isLt]

/-- Settles O38: the bit-serial loop reads the exponent bit by bit, and the windowed algorithm gives the same. -/
theorem fpowAndFpowwResults : Obligations.FpowAndFpowwResults := by
  unfold Obligations.FpowAndFpowwResults
  intro s ed es expo x hi hx
  have hwf := hi.elem_wf hx
  have hpow := And.intro (hwf.canon_pow x.s expo.toNat) (hwf.val_pow x.s expo.isLt)
  refine ⟨⟨_, exec_fpow_of_some hx expo, hpow⟩, ⟨_, exec_fpoww_of_some hx expo, ?_⟩⟩
  rwa [hwf.poww_eq_pow x.s expo.isLt]

/-- Settles O40: the candidate squares back as a stored form exactly when it does as a value. -/
theorem fsqrtResult : Obligations.FsqrtResult := by
  unfold Obligations.FsqrtResult
  intro s ed es x hi hx
  have hwf := hi.elem_wf hx
  obtain ⟨-, hcanon⟩ := hi.regs.e _ _ hx
  refine ⟨fun h3 => ?_, fun h3 => exec_fsqrt_of_error hx (if_neg h3)⟩
  obtain ⟨r, hr, hrcanon, hrval⟩ := hwf.sqrt_of_mod_four h3 hcanon
  exact ⟨r, exec_fsqrt_of_ok hx hr, hrcanon, hrval⟩

/-- Settles O41: moduli first, then values. -/
theorem feqResult : Obligations.FeqResult := by
  unfold Obligations.FeqResult
  intro s es1 es2 x y hx hy
  exact ⟨fun hm => exec_feq_of_some hx hy hm, fun hm => exec_feq_of_mismatch hx hy hm⟩

end Sys2Proof.Machine
end

section
/-! PROOFS of the statements on reduction strategies (41_field.md R147). Contexts of one modulus (`Peers`) take operands of the same
values to results of the same values; each function of the field, curve and inner-product units is one such rule, and each command
is run through them operation by operation in both states. -/

namespace Sys2Proof.Machine

/-! ## Pseudocode that answers alike -/

/-- Two pseudocodes raise the same cause, or give results that are related. -/
inductive Agree {α β : Type} (R : α → β → Prop) : Except Cause α → Except Cause β → Prop
  | ok {x : α} {y : β} (h : R x y) : Agree R (.ok x) (.ok y)
  | error (c : Cause) : Agree R (.error c) (.error c)

section
variable {α β γ δ ε : Type} {R : α → β → Prop} {S : γ → δ → Prop}

theorem Agree.pure {x : α} {y : β} (h : R x y) : Agree R (Pure.pure x) (Pure.pure y) := .ok h

theorem Agree.bind {p : Except Cause α} {q : Except Cause β} {k : α → Except Cause γ} {k' : β → Except Cause δ} (h : Agree R p q)
    (hk : ∀ x y, R x y → Agree S (k x) (k' y)) : Agree S (p >>= k) (q >>= k') := by
  cases h with
  | ok h => exact hk _ _ h
  | error c => exact .error c

/-- The next operation is one computation in both. -/
theorem Agree.step {p q : Except Cause α} {k : α → Except Cause γ} {k' : α → Except Cause δ} (h : p = q)
    (hk : ∀ x, Agree S (k x) (k' x)) : Agree S (p >>= k) (q >>= k') := by
  subst h
  cases p with
  | ok x => exact hk x
  | error c => exact .error c

/-- The next operation is a check with the same outcome in both. -/
theorem Agree.check {b b' : Bool} {c : Cause} {k : Unit → Except Cause γ} {k' : Unit → Except Cause δ} (h : b = b')
    (hk : b = true → Agree S (k ()) (k' ())) : Agree S (require b c >>= k) (require b' c >>= k') := by
  subst h
  cases b with
  | true => exact hk rfl
  | false => exact .error c

theorem forall_left_of_forall₂ {P : α → Prop} (hR : ∀ x y, R x y → P x) {xs : List α} {ys : List β} (h : List.Forall₂ R xs ys) :
    ∀ x ∈ xs, P x :=
  ((List.forall₂_and_left xs ys).1 (h.imp fun x y hxy => And.intro (hR x y hxy) hxy)).1

theorem forall_right_of_forall₂ {P : β → Prop} (hR : ∀ x y, R x y → P y) {xs : List α} {ys : List β} (h : List.Forall₂ R xs ys) :
    ∀ y ∈ ys, P y :=
  forall_left_of_forall₂ (R := flip R) (fun y x => hR x y) h.flip

/-- Entries of related lists are related in a second way if they are so as members of their lists. -/
theorem forall₂_of_mem {T : α → β → Prop} {xs : List α} {ys : List β} (hT : ∀ x ∈ xs, ∀ y ∈ ys, R x y → T x y)
    (h : List.Forall₂ R xs ys) : List.Forall₂ T xs ys := by
  induction h with
  | nil => exact .nil
  | cons hxy _ ih =>
    refine .cons (hT _ List.mem_cons_self _ List.mem_cons_self hxy) (ih fun x hx y hy => ?_)
    exact hT x (List.mem_cons_of_mem _ hx) y (List.mem_cons_of_mem _ hy)

/-- Lists that are related entry by entry have the same image where related entries have. -/
theorem map_eq_map_of_forall₂ {f : α → γ} {g : β → γ} (hR : ∀ x y, R x y → f x = g y) {xs : List α} {ys : List β}
    (h : List.Forall₂ R xs ys) : xs.map f = ys.map g := by
  rw [← List.forall₂_eq_eq_eq, List.forall₂_map_left_iff, List.forall₂_map_right_iff]
  exact h.imp hR

theorem forall₂_map_self {f : ε → α} {g : ε → β} (hfg : ∀ z, R (f z) (g z)) (zs : List ε) :
    List.Forall₂ R (zs.map f) (zs.map g) := by
  rw [List.forall₂_map_left_iff, List.forall₂_map_right_iff, List.forall₂_same]
  exact fun z _ => hfg z

theorem forall₂_zipWith {ζ : Type} {T : ε → ζ → Prop} {op : α → γ → ε} {op' : β → δ → ζ}
    (hop : ∀ x y, R x y → ∀ z w, S z w → T (op x z) (op' y w)) {xs : List α} {ys : List β} (h : List.Forall₂ R xs ys) :
    ∀ {zs : List γ} {ws : List δ}, List.Forall₂ S zs ws → List.Forall₂ T (List.zipWith op xs zs) (List.zipWith op' ys ws) := by
  induction h with
  | nil => intro zs ws _; exact .nil
  | cons hx _ ih =>
    intro zs ws hz
    cases hz with
    | nil => exact .nil
    | cons hz hzs => exact .cons (hop _ _ hx _ _ hz) (ih hzs)

theorem forall₂_slice {xs : List α} {ys : List β} (h : List.Forall₂ R xs ys) (start len : Nat) :
    List.Forall₂ R (slice xs start len) (slice ys start len) :=
  List.forall₂_take len (List.forall₂_drop start h)

theorem rel_getD_of_forall₂ {xs : List α} {ys : List β} (h : List.Forall₂ R xs ys) (n : Nat) {x : α} {y : β} (hxy : R x y) :
    R (xs.getD n x) (ys.getD n y) := by
  induction h generalizing n with
  | nil => exact hxy
  | cons h₁ _ ih =>
    cases n with
    | zero => exact h₁
    | succ n => exact ih n

/-- An entry of related vectors, or `RangeError` past both ends (43_vector.md R230, R234). -/
theorem agree_entry {xs : List α} {ys : List β} (h : List.Forall₂ R xs ys) (n : Nat) : Agree R (entry xs n) (entry ys n) := by
  induction h generalizing n with
  | nil => exact .error _
  | cons h₁ _ ih =>
    cases n with
    | zero => exact .ok h₁
    | succ n => exact ih n

end

/-! ## Field functions under two strategies (41_field.md R132 to R147) -/

/-- Two well-formed contexts of one modulus, whatever their strategies. Each rule below named after a function says that the function
takes related operands to related results. -/
structure FieldCtx.Peers (f h : FieldCtx) : Prop where
  left : f.WF
  right : h.WF
  m : f.m = h.m

/-- Canonical stored forms of one value, each in its context. -/
structure FeRel (f h : FieldCtx) (x y : Fe) : Prop where
  left : f.Canon x
  right : h.Canon y
  val : f.val x = h.val y

theorem FeRel.map_val {f h : FieldCtx} {xs ys : List Fe} (hxs : List.Forall₂ (FeRel f h) xs ys) : xs.map f.val = ys.map h.val :=
  map_eq_map_of_forall₂ (fun _ _ hx => hx.val) hxs

theorem FeRel.forall₂_of_map_val {f h : FieldCtx} {xs ys : List Fe} (hxs : ∀ x ∈ xs, f.Canon x) (hys : ∀ y ∈ ys, h.Canon y)
    (e : xs.map f.val = ys.map h.val) : List.Forall₂ (FeRel f h) xs ys := by
  rw [← List.forall₂_eq_eq_eq, List.forall₂_map_left_iff, List.forall₂_map_right_iff] at e
  exact forall₂_of_mem (fun _ hx _ hy => FeRel.mk (hxs _ hx) (hys _ hy)) e

theorem FeRel.serScalars {f h : FieldCtx} {xs ys : List Fe} (hxs : List.Forall₂ (FeRel f h) xs ys) :
    serScalars f xs = serScalars h ys := by
  rw [serScalars_eq, serScalars_eq, FeRel.map_val hxs]

namespace FieldCtx.Peers

variable {f h : FieldCtx} (F : f.Peers h) {a b a' b' : Fe}
include F

theorem enc {v : Nat} (hv : v < f.m) : FeRel f h (f.enc v) (h.enc v) := by
  have hv' : v < h.m := F.m ▸ hv
  exact ⟨F.left.canon_enc hv, F.right.canon_enc hv', by rw [F.left.val_enc hv, F.right.val_enc hv']⟩

theorem enc_mod (v : Nat) : FeRel f h (f.enc (v % f.m)) (h.enc (v % h.m)) := F.m ▸ F.enc (Nat.mod_lt v F.left.pos)

theorem ofRaw (raw : Raw) : FeRel f h (f.ofRaw raw) (h.ofRaw raw) := F.enc_mod raw.toNat

theorem zero : FeRel f h 0 0 := ⟨F.left.canon_zero, F.right.canon_zero, by rw [val_zero, val_zero]⟩

theorem one : FeRel f h f.one h.one := ⟨F.left.canon_one, F.right.canon_one, by rw [F.left.val_one, F.right.val_one]⟩

theorem add (ha : FeRel f h a a') (hb : FeRel f h b b') : FeRel f h (f.add a b) (h.add a' b') :=
  ⟨F.left.canon_add a b, F.right.canon_add a' b', by rw [F.left.val_add, F.right.val_add, F.m, ha.val, hb.val]⟩

theorem sub (ha : FeRel f h a a') (hb : FeRel f h b b') : FeRel f h (f.sub a b) (h.sub a' b') :=
  ⟨WF.canon_sub ha.left hb.left, WF.canon_sub ha.right hb.right, by
    rw [F.left.val_sub ha.left hb.left, F.right.val_sub ha.right hb.right, F.m, ha.val, hb.val]⟩

theorem mul (ha : FeRel f h a a') (hb : FeRel f h b b') : FeRel f h (f.mul a b) (h.mul a' b') :=
  ⟨F.left.canon_mul ha.left b, F.right.canon_mul ha.right b', by
    rw [F.left.val_mul ha.left, F.right.val_mul ha.right, F.m, ha.val, hb.val]⟩

theorem neg (ha : FeRel f h a a') : FeRel f h (f.neg a) (h.neg a') :=
  ⟨F.left.canon_neg a, F.right.canon_neg a', by rw [F.left.val_neg ha.left, F.right.val_neg ha.right, F.m, ha.val]⟩

theorem pow (ha : FeRel f h a a') {e : Nat} (he : e < 2 ^ 256) : FeRel f h (f.pow a e) (h.pow a' e) :=
  ⟨F.left.canon_pow a e, F.right.canon_pow a' e, by rw [F.left.val_pow a he, F.right.val_pow a' he, F.m, ha.val]⟩

theorem poww (ha : FeRel f h a a') {e : Nat} (he : e < 2 ^ 256) : FeRel f h (f.poww a e) (h.poww a' e) := by
  rw [F.left.poww_eq_pow a he, F.right.poww_eq_pow a' he]
  exact F.pow ha he

/-- Stored forms are equal exactly when values are, so one comparison has one outcome (41_field.md R146). -/
theorem eq_iff (ha : FeRel f h a a') (hb : FeRel f h b b') : a = b ↔ a' = b' := by
  rw [← F.left.val_inj ha.left hb.left, ← F.right.val_inj ha.right hb.right, ha.val, hb.val]

theorem beq_eq (ha : FeRel f h a a') (hb : FeRel f h b b') : (a == b) = (a' == b') := by
  rw [Bool.eq_iff_iff, beq_iff_eq, beq_iff_eq, F.eq_iff ha hb]

theorem inv (ha : FeRel f h a a') : Agree (FeRel f h) (f.inv a) (h.inv a') := by
  unfold FieldCtx.inv
  rw [← ha.val, ← F.m]
  split
  · next hg => exact .ok (F.enc (modinv_spec F.left.two_le f.m_lt hg).1)
  · exact .error _

theorem sqrt (ha : FeRel f h a a') : Agree (fun r r' => FeRel f h r.1 r'.1 ∧ r.2 = r'.2) (f.sqrt a) (h.sqrt a') := by
  have hr := F.pow ha (WF.rootExponent_lt f)
  unfold FieldCtx.sqrt
  rw [← F.m]
  generalize f.pow a ((f.m + 1) / 4) = r at hr
  generalize h.pow a' ((f.m + 1) / 4) = r' at hr
  split
  · exact .ok ⟨hr, F.beq_eq (F.mul hr hr) ha⟩
  · exact .error _

/-! ## Vectors of one context (43_vector.md R212 to R214) -/

theorem mulChain (ha : FeRel f h a a') : ∀ (n : Nat) {cur cur' : Fe}, FeRel f h cur cur' →
    List.Forall₂ (FeRel f h) (f.mulChain a n cur) (h.mulChain a' n cur')
  | 0, _, _, _ => .nil
  | n + 1, _, _, hcur => .cons hcur (mulChain ha n (F.mul hcur ha))

theorem vpowers (ha : FeRel f h a a') (n : Nat) : List.Forall₂ (FeRel f h) (f.vpowers a n) (h.vpowers a' n) :=
  F.mulChain ha n F.one

variable {as bs as' bs' : List Fe}

theorem map_ofRaw (raws : List Raw) : List.Forall₂ (FeRel f h) (raws.map f.ofRaw) (raws.map h.ofRaw) :=
  forall₂_map_self F.ofRaw raws

theorem vadd (ha : List.Forall₂ (FeRel f h) as as') (hb : List.Forall₂ (FeRel f h) bs bs') :
    List.Forall₂ (FeRel f h) (f.vadd as bs) (h.vadd as' bs') :=
  forall₂_zipWith (op := f.add) (op' := h.add) (fun _ _ hx _ _ hy => F.add hx hy) ha hb

theorem vsub (ha : List.Forall₂ (FeRel f h) as as') (hb : List.Forall₂ (FeRel f h) bs bs') :
    List.Forall₂ (FeRel f h) (f.vsub as bs) (h.vsub as' bs') :=
  forall₂_zipWith (op := f.sub) (op' := h.sub) (fun _ _ hx _ _ hy => F.sub hx hy) ha hb

theorem vhad (ha : List.Forall₂ (FeRel f h) as as') (hb : List.Forall₂ (FeRel f h) bs bs') :
    List.Forall₂ (FeRel f h) (f.vhad as bs) (h.vhad as' bs') :=
  forall₂_zipWith (op := f.mul) (op' := h.mul) (fun _ _ hx _ _ hy => F.mul hx hy) ha hb

theorem vscl (ha : FeRel f h a a') (hb : List.Forall₂ (FeRel f h) bs bs') :
    List.Forall₂ (FeRel f h) (f.vscl a bs) (h.vscl a' bs') :=
  List.rel_map (fun _ _ hx => F.mul ha hx) hb

theorem vip (ha : List.Forall₂ (FeRel f h) as as') (hb : List.Forall₂ (FeRel f h) bs bs') :
    FeRel f h (f.vip as bs) (h.vip as' bs') := by
  obtain ⟨hcanon, hval⟩ := F.left.vip_spec (bs := bs) (forall_left_of_forall₂ (fun _ _ hx => hx.left) ha)
  obtain ⟨hcanon', hval'⟩ := F.right.vip_spec (bs := bs') (forall_right_of_forall₂ (fun _ _ hx => hx.right) ha)
  exact ⟨hcanon, hcanon', by rw [hval, hval', F.m, FeRel.map_val ha, FeRel.map_val hb]⟩

theorem foldWitness (ha : FeRel f h a a') (hb : FeRel f h b b') (has : List.Forall₂ (FeRel f h) as as')
    (hbs : List.Forall₂ (FeRel f h) bs bs') :
    List.Forall₂ (FeRel f h) (foldWitness f a b as bs) (foldWitness h a' b' as' bs') := by
  unfold Machine.foldWitness
  refine forall₂_zipWith (fun l l' hl r r' hr => ?_) has hbs
  exact F.add (F.mul ha hl) (F.mul hb hr)

theorem ipasv (ha : List.Forall₂ (FeRel f h) as as') : Agree (List.Forall₂ (FeRel f h)) (ipasv f as) (ipasv h as') := by
  have hmul : Relator.LiftFun (FeRel f h) (Relator.LiftFun (FeRel f h) (FeRel f h)) f.mul h.mul :=
    fun _ _ hx _ _ hy => F.mul hx hy
  have hprod : FeRel f h (as.foldl f.mul f.one) (as'.foldl h.mul h.one) := List.rel_foldl hmul F.one ha
  refine (F.inv hprod).bind fun s0 s0' hs0 => .ok ?_
  refine List.rel_foldl (fun sv sv' hsv x x' hx => ?_) (.cons hs0 .nil) (List.rel_reverse ha)
  exact List.rel_append hsv (List.rel_map (fun _ _ hy => F.mul hy (F.mul hx hx)) hsv)

end FieldCtx.Peers

/-! ## Points -/

/-- Canonical affine points of the same values. -/
inductive AffineRel (f h : FieldCtx) : Affine → Affine → Prop
  | inf : AffineRel f h .inf .inf
  | pt {x y x' y' : Fe} (hx : FeRel f h x x') (hy : FeRel f h y y') : AffineRel f h (.pt x y) (.pt x' y')

/-- Canonical Jacobian points of the same values. -/
structure JacRel (f h : FieldCtx) (P Q : Jac) : Prop where
  left : P.Canon f
  right : Q.Canon h
  vals : P.vals f = Q.vals h

section
variable {f h : FieldCtx} {q q' : Affine} {P P' : Jac}

theorem AffineRel.left (hq : AffineRel f h q q') : q.Canon f := by
  cases hq with
  | inf => rfl
  | pt hx hy => simp [Affine.Canon, Affine.canonical, hx.left, hy.left]

theorem AffineRel.right (hq : AffineRel f h q q') : q'.Canon h := by
  cases hq with
  | inf => rfl
  | pt hx hy => simp [Affine.Canon, Affine.canonical, hx.right, hy.right]

theorem AffineRel.vals (hq : AffineRel f h q q') : q.vals f = q'.vals h := by
  cases hq with
  | inf => rfl
  | pt hx hy => simp only [Affine.vals, hx.val, hy.val]

theorem AffineRel.same (hq : AffineRel f h q q') : sameAffine f h q q' := by
  cases hq with
  | inf => trivial
  | pt hx hy => exact ⟨hx.val, hy.val⟩

theorem AffineRel.of_same (h₁ : q.Canon f) (h₂ : q'.Canon h) (hq : sameAffine f h q q') : AffineRel f h q q' := by
  cases q with
  | inf =>
    cases q' with
    | inf => exact .inf
    | pt x' y' => exact hq.elim
  | pt x y =>
    cases q' with
    | inf => exact hq.elim
    | pt x' y' =>
      simp only [Affine.Canon, Affine.canonical, Bool.and_eq_true, decide_eq_true_eq] at h₁ h₂
      exact .pt ⟨h₁.1, h₂.1, hq.1⟩ ⟨h₁.2, h₂.2, hq.2⟩

theorem AffineRel.forall₂_of_same {qs qs' : List Affine} (h₁ : ∀ q ∈ qs, q.Canon f) (h₂ : ∀ q ∈ qs', q.Canon h)
    (hqs : List.Forall₂ (sameAffine f h) qs qs') : List.Forall₂ (AffineRel f h) qs qs' :=
  forall₂_of_mem (fun q hq q' hq' => .of_same (h₁ q hq) (h₂ q' hq')) hqs

/-- The wire encoding is one of values (20_memory.md R53). -/
theorem AffineRel.ser_eq (hq : AffineRel f h q q') : ser f q = ser h q' := by
  cases hq with
  | inf => rfl
  | pt hx hy => rw [ser, ser, hx.val, hy.val]

theorem AffineRel.serAll_eq {qs qs' : List Affine} (hqs : List.Forall₂ (AffineRel f h) qs qs') : serAll f qs = serAll h qs' := by
  induction hqs with
  | nil => rfl
  | cons hq _ ih => rw [serAll, serAll, hq.ser_eq, ih]

theorem FieldCtx.Peers.pointOfRaw (F : f.Peers h) (pt : RawPoint) : AffineRel f h (pointOfRaw f pt) (pointOfRaw h pt) :=
  .pt (F.ofRaw pt.x) (F.ofRaw pt.y)

theorem FieldCtx.Peers.map_pointOfRaw (F : f.Peers h) (pts : List RawPoint) :
    List.Forall₂ (AffineRel f h) (pts.map (Machine.pointOfRaw f)) (pts.map (Machine.pointOfRaw h)) :=
  forall₂_map_self F.pointOfRaw pts

theorem FieldCtx.Peers.peq_eq (F : f.Peers h) {r r' : Affine} (hq : AffineRel f h q q') (hr : AffineRel f h r r') :
    peq q r = peq q' r' := by
  cases hq with
  | inf => cases hr <;> rfl
  | pt hx hy =>
    cases hr with
    | inf => rfl
    | pt hx' hy' => rw [peq, peq, F.beq_eq hx hx', F.beq_eq hy hy']

theorem JacRel.X (hP : JacRel f h P P') : FeRel f h P.X P'.X := ⟨hP.left.1, hP.right.1, congrArg Values.JacV.X hP.vals⟩

theorem JacRel.Y (hP : JacRel f h P P') : FeRel f h P.Y P'.Y := ⟨hP.left.2.1, hP.right.2.1, congrArg Values.JacV.Y hP.vals⟩

theorem JacRel.Z (hP : JacRel f h P P') : FeRel f h P.Z P'.Z := ⟨hP.left.2.2, hP.right.2.2, congrArg Values.JacV.Z hP.vals⟩

theorem JacRel.same (hP : JacRel f h P P') : sameJac f h P P' := ⟨hP.X.val, hP.Y.val, hP.Z.val⟩

theorem JacRel.of_same (h₁ : P.Canon f) (h₂ : P'.Canon h) (hP : sameJac f h P P') : JacRel f h P P' := by
  obtain ⟨hX, hY, hZ⟩ := hP
  exact ⟨h₁, h₂, by rw [Jac.vals, Jac.vals, hX, hY, hZ]⟩

/-- Results that meet one specification on values are related. -/
theorem JacRel.of_spec {V V' : Values.JacV} (h₁ : P.Canon f ∧ P.vals f = V) (h₂ : P'.Canon h ∧ P'.vals h = V') (e : V = V') :
    JacRel f h P P' :=
  ⟨h₁.1, h₂.1, by rw [h₁.2, h₂.2, e]⟩

end

/-! ## Curve functions under two strategies (42_curve.md R170 to R185, 43_vector.md R222) -/

/-- Two well-formed curves of the same numbers. As above, a rule named after a function is that function's on related operands. -/
structure Curve.Peers (c d : Curve) : Prop where
  left : c.WF
  right : d.WF
  vals : c.vals = d.vals

namespace Curve.Peers

variable {c d : Curve} (C : c.Peers d) {P P' Q Q' : Jac} {q q' : Affine}
include C

theorem fp : c.fp.Peers d.fp := ⟨C.left.fp, C.right.fp, congrArg Values.CurveV.p C.vals⟩

theorem fq : c.fq.Peers d.fq := ⟨C.left.fq, C.right.fq, congrArg Values.CurveV.q C.vals⟩

theorem toJ (hq : AffineRel c.fp d.fp q q') : JacRel c.fp d.fp (c.toJ q) (d.toJ q') :=
  .of_spec (C.left.toJ_spec hq.left) (C.right.toJ_spec hq.right) (by rw [hq.vals])

theorem toA (hP : JacRel c.fp d.fp P P') : Agree (AffineRel c.fp d.fp) (c.toA P) (d.toA P') := by
  have hZ := C.fp.eq_iff hP.Z C.fp.zero
  unfold Curve.toA
  by_cases h0 : P.Z = 0
  · rw [if_pos h0, if_pos (hZ.1 h0)]
    exact .ok .inf
  · rw [if_neg h0, if_neg (mt hZ.2 h0)]
    refine (C.fp.inv hP.Z).bind fun zi zi' hzi => .ok ?_
    have hzi2 := C.fp.mul hzi hzi
    exact .pt (C.fp.mul hP.X hzi2) (C.fp.mul hP.Y (C.fp.mul hzi2 hzi))

theorem oncurve_eq (hq : AffineRel c.fp d.fp q q') : c.oncurve q = d.oncurve q' := by
  rw [Bool.eq_iff_iff, C.left.oncurve_spec hq.left, C.right.oncurve_spec hq.right, C.vals, hq.vals]

theorem pneg (hP : JacRel c.fp d.fp P P') : JacRel c.fp d.fp (c.pneg P) (d.pneg P') :=
  .of_spec (C.left.pneg_spec hP.left) (C.right.pneg_spec hP.right) (by rw [C.vals, hP.vals])

theorem pdbl (hP : JacRel c.fp d.fp P P') : JacRel c.fp d.fp (c.pdbl P) (d.pdbl P') :=
  .of_spec (C.left.pdbl_spec hP.left) (C.right.pdbl_spec hP.right) (by rw [C.vals, hP.vals])

theorem padd (hP : JacRel c.fp d.fp P P') (hQ : JacRel c.fp d.fp Q Q') : JacRel c.fp d.fp (c.padd P Q) (d.padd P' Q') :=
  .of_spec (C.left.padd_spec hP.left hQ.left) (C.right.padd_spec hP.right hQ.right) (by rw [C.vals, hP.vals, hQ.vals])

theorem pmadd (hP : JacRel c.fp d.fp P P') (hq : AffineRel c.fp d.fp q q') : JacRel c.fp d.fp (c.pmadd P q) (d.pmadd P' q') :=
  .of_spec (C.left.pmadd_spec hP.left hq.left) (C.right.pmadd_spec hP.right hq.right) (by rw [C.vals, hP.vals, hq.vals])

theorem pmulRaw (k : Nat) (hP : JacRel c.fp d.fp P P') : JacRel c.fp d.fp (c.pmulRaw k P) (d.pmulRaw k P') :=
  .of_spec (C.left.pmulRaw_spec k hP.left) (C.right.pmulRaw_spec k hP.right) (by rw [C.vals, hP.vals])

theorem pmul (k : Nat) (hP : JacRel c.fp d.fp P P') : JacRel c.fp d.fp (c.pmul k P) (d.pmul k P') :=
  .of_spec (C.left.pmul_spec k hP.left) (C.right.pmul_spec k hP.right) (by rw [C.vals, hP.vals])

theorem msm {qs qs' : List Affine} (hqs : List.Forall₂ (AffineRel c.fp d.fp) qs qs') {xs xs' : List Nat} (hxs : xs = xs') :
    JacRel c.fp d.fp (c.msm qs xs) (d.msm qs' xs') := by
  subst hxs
  refine .of_spec (C.left.msm_spec (forall_left_of_forall₂ (fun _ _ hq => hq.left) hqs) xs)
    (C.right.msm_spec (forall_right_of_forall₂ (fun _ _ hq => hq.right) hqs) xs) ?_
  rw [C.vals, map_eq_map_of_forall₂ (fun _ _ hq => hq.vals) hqs]

/-- GSETUP's two validations have one outcome (42_curve.md R199). -/
theorem generatorOk_eq (hq : AffineRel c.fp d.fp q q') : c.generatorOk q = d.generatorOk q' := by
  rw [generatorOk, generatorOk, C.oncurve_eq hq, C.fq.m, C.fp.beq_eq (C.pmulRaw d.fq.m (C.toJ hq)).Z C.fp.zero]

end Curve.Peers

/-! ## Inner-product functions under two strategies (44_ipa.md R241 to R248) -/

/-- Parsed proofs of the same values. -/
structure ProofRel (c d : Curve) (pf pf' : Proof) : Prop where
  ls : List.Forall₂ (AffineRel c.fp d.fp) pf.ls pf'.ls
  rs : List.Forall₂ (AffineRel c.fp d.fp) pf.rs pf'.rs
  a : FeRel c.fq d.fq pf.a pf'.a
  b : FeRel c.fq d.fq pf.b pf'.b

/-- Prover states of the same values. -/
structure ProverRel (c d : Curve) (st st' : ProverState) : Prop where
  gs : List.Forall₂ (AffineRel c.fp d.fp) st.gs st'.gs
  hs : List.Forall₂ (AffineRel c.fp d.fp) st.hs st'.hs
  a : List.Forall₂ (FeRel c.fq d.fq) st.a st'.a
  b : List.Forall₂ (FeRel c.fq d.fq) st.b st'.b
  P : AffineRel c.fp d.fp st.P st'.P

namespace Curve.Peers

variable {c d : Curve} (C : c.Peers d) (H : Hash) {x y x' y' : Fe} {L R u Q L' R' u' Q' : Affine} {P P' : Jac}
  {gs hs ls rs gs' hs' ls' rs' : List Affine} {as bs as' bs' : List Fe} {pf pf' : Proof} {st st' : ProverState}
include C

theorem chal (hL : AffineRel c.fp d.fp L L') (hQ : AffineRel c.fp d.fp Q Q') (hR : AffineRel c.fp d.fp R R') :
    Agree (FeRel c.fq d.fq) (chal H c L Q R) (chal H d L' Q' R') :=
  .step hL.ser_eq fun _ => .step hQ.ser_eq fun _ => .step hR.ser_eq fun _ => .ok (C.fq.enc_mod _)

theorem roundSum (hx : FeRel c.fq d.fq x x') (hy : FeRel c.fq d.fq y y') (hL : AffineRel c.fp d.fp L L')
    (hR : AffineRel c.fp d.fp R R') : JacRel c.fp d.fp (roundSum c x y L R) (roundSum d x' y' L' R') := by
  rw [Machine.roundSum, Machine.roundSum, (C.fq.mul hx hx).val, (C.fq.mul hy hy).val]
  exact C.padd (C.pmul _ (C.toJ hL)) (C.pmul _ (C.toJ hR))

theorem ipaRound (hP : JacRel c.fp d.fp P P') (hL : AffineRel c.fp d.fp L L') (hR : AffineRel c.fp d.fp R R') :
    Agree (fun r r' => JacRel c.fp d.fp r.1 r'.1 ∧ FeRel c.fq d.fq r.2 r'.2) (ipaRound H c P L R) (ipaRound H d P' L' R') :=
  (C.toA hP).bind fun _ _ hca => (C.chal H hL hca hR).bind fun _ _ hx => (C.fq.inv hx).bind fun _ _ hxi =>
    .ok ⟨C.padd (C.roundSum hx hxi hL hR) hP, hx⟩

theorem ipaRounds (hls : List.Forall₂ (AffineRel c.fp d.fp) ls ls') :
    ∀ {rs rs' : List Affine}, List.Forall₂ (AffineRel c.fp d.fp) rs rs' → ∀ {P P' : Jac}, JacRel c.fp d.fp P P' →
      Agree (fun r r' => JacRel c.fp d.fp r.1 r'.1 ∧ List.Forall₂ (FeRel c.fq d.fq) r.2 r'.2)
        (ipaRounds H c P ls rs) (ipaRounds H d P' ls' rs') := by
  induction hls with
  | nil =>
    intro rs rs' _ P P' hP
    exact .ok ⟨hP, .nil⟩
  | cons hL _ ih =>
    intro rs rs' hrs P P' hP
    cases hrs with
    | nil =>
      exact .ok ⟨hP, .nil⟩
    | cons hR hrs =>
      exact (C.ipaRound H hP hL hR).bind fun _ _ hr => (ih hrs hr.1).bind fun _ _ hrest => .ok ⟨hrest.1, .cons hr.2 hrest.2⟩

theorem ipaVerify (hgs : List.Forall₂ (AffineRel c.fp d.fp) gs gs') (hhs : List.Forall₂ (AffineRel c.fp d.fp) hs hs')
    (hu : AffineRel c.fp d.fp u u') (hQ : AffineRel c.fp d.fp Q Q') (hpf : ProofRel c d pf pf') :
    Agree Eq (ipaVerify H c gs hs u Q pf) (ipaVerify H d gs' hs' u' Q' pf') := by
  refine (C.ipaRounds H hpf.ls hpf.rs (C.toJ hQ)).bind fun r r' hr => (C.fq.ipasv hr.2).bind fun sv sv' hsv => ?_
  have hGs := C.msm hgs (FeRel.map_val hsv)
  have hHs := C.msm hhs (FeRel.map_val (List.rel_reverse hsv))
  dsimp only
  rw [hpf.a.val, hpf.b.val, (C.fq.mul hpf.a hpf.b).val]
  have hrhs := C.padd (C.padd (C.pmul (d.fq.val pf'.a) hGs) (C.pmul (d.fq.val pf'.b) hHs))
    (C.pmul (d.fq.val (d.fq.mul pf'.a pf'.b)) (C.toJ hu))
  exact (C.toA hr.1).bind fun _ _ hleft => (C.toA hrhs).bind fun _ _ hright => .ok (C.fp.peq_eq hleft hright)

theorem foldBase (k l : Nat) (hls : List.Forall₂ (AffineRel c.fp d.fp) ls ls') :
    ∀ {rs rs' : List Affine}, List.Forall₂ (AffineRel c.fp d.fp) rs rs' →
      Agree (List.Forall₂ (AffineRel c.fp d.fp)) (foldBase c k l ls rs) (foldBase d k l ls' rs') := by
  induction hls with
  | nil => intro rs rs' _; exact .ok .nil
  | cons hL _ ih =>
    intro rs rs' hrs
    cases hrs with
    | nil => exact .ok .nil
    | cons hR hrs =>
      exact (C.toA (C.padd (C.pmul k (C.toJ hL)) (C.pmul l (C.toJ hR)))).bind fun _ _ hq => (ih hrs).bind fun _ _ hqs =>
        .ok (.cons hq hqs)

theorem crossPoint (hu : AffineRel c.fp d.fp u u') (hgs : List.Forall₂ (AffineRel c.fp d.fp) gs gs')
    (ha : List.Forall₂ (FeRel c.fq d.fq) as as') (hhs : List.Forall₂ (AffineRel c.fp d.fp) hs hs')
    (hb : List.Forall₂ (FeRel c.fq d.fq) bs bs') (hx : FeRel c.fq d.fq x x') :
    Agree (AffineRel c.fp d.fp) (crossPoint c u gs as hs bs x) (crossPoint d u' gs' as' hs' bs' x') := by
  rw [Machine.crossPoint, Machine.crossPoint, hx.val]
  exact C.toA (C.padd (C.padd (C.msm hgs (FeRel.map_val ha)) (C.msm hhs (FeRel.map_val hb))) (C.pmul _ (C.toJ hu)))

theorem proveRound (hu : AffineRel c.fp d.fp u u') (n : Nat) (hst : ProverRel c d st st') :
    Agree (fun r r' => AffineRel c.fp d.fp r.1 r'.1 ∧ AffineRel c.fp d.fp r.2.1 r'.2.1 ∧ ProverRel c d r.2.2 r'.2.2)
      (proveRound H c u n st) (proveRound H d u' n st') := by
  have half {α : Type} {T : α → α → Prop} {zs ws : List α} (h : List.Forall₂ T zs ws) (start : Nat) := forall₂_slice h start n
  have ha := half hst.a
  have hb := half hst.b
  have hg := half hst.gs
  have hh := half hst.hs
  refine (C.crossPoint hu (hg n) (ha 0) (hh 0) (hb n) (C.fq.vip (ha 0) (hb n))).bind fun L L' hL => ?_
  refine (C.crossPoint hu (hg 0) (ha n) (hh n) (hb 0) (C.fq.vip (ha n) (hb 0))).bind fun R R' hR => ?_
  refine (C.chal H hL hst.P hR).bind fun x x' hx => (C.fq.inv hx).bind fun xi xi' hxi => ?_
  rw [hx.val, hxi.val]
  refine (C.foldBase _ _ (hg 0) (hg n)).bind fun gs gs' hgs => (C.foldBase _ _ (hh 0) (hh n)).bind fun hs hs' hhs => ?_
  refine (C.toA (C.padd (C.roundSum hx hxi hL hR) (C.toJ hst.P))).bind fun P P' hP => ?_
  exact .ok ⟨hL, hR, hgs, hhs, C.fq.foldWitness hx hxi (ha 0) (ha n), C.fq.foldWitness hxi hx (hb 0) (hb n), hP⟩

theorem proveRounds (hu : AffineRel c.fp d.fp u u') : ∀ (k : Nat) {st st' : ProverState}, ProverRel c d st st' →
    Agree (fun r r' => List.Forall₂ (AffineRel c.fp d.fp) r.1 r'.1 ∧ List.Forall₂ (AffineRel c.fp d.fp) r.2.1 r'.2.1 ∧
      ProverRel c d r.2.2 r'.2.2) (proveRounds H c u k st) (proveRounds H d u' k st')
  | 0, _, _, hst => .ok ⟨.nil, .nil, hst⟩
  | k + 1, _, _, hst => (C.proveRound H hu (2 ^ k) hst).bind fun _ _ ⟨hL, hR, hst1⟩ =>
      (proveRounds hu k hst1).bind fun _ _ ⟨hls, hrs, hlast⟩ => .ok ⟨.cons hL hls, .cons hR hrs, hlast⟩

theorem ipaProve (hu : AffineRel c.fp d.fp u u') (k : Nat) (hst : ProverRel c d st st') :
    Agree (ProofRel c d) (ipaProve H c u k st) (ipaProve H d u' k st') :=
  (C.proveRounds H hu k hst).bind fun _ _ ⟨hls, hrs, hlast⟩ =>
    .ok ⟨hls, hrs, rel_getD_of_forall₂ hlast.a 0 C.fq.zero, rel_getD_of_forall₂ hlast.b 0 C.fq.zero⟩

theorem proofParse (p : RawProof) : ProofRel c d (proofParse c p) (proofParse d p) :=
  ⟨C.fp.map_pointOfRaw p.ls, C.fp.map_pointOfRaw p.rs, C.fq.ofRaw p.a, C.fq.ofRaw p.b⟩

omit C in
/-- The bytes of a proof are those of its values (44_ipa.md R248). -/
theorem proofBytes_eq (hpf : ProofRel c d pf pf') : proofBytes c pf = proofBytes d pf' := by
  rw [proofBytes, proofBytes, AffineRel.serAll_eq hpf.ls, AffineRel.serAll_eq hpf.rs, hpf.a.val, hpf.b.val]

end Curve.Peers

end Sys2Proof.Machine
end

section
/-! PROOFS of the statements on reduction strategies (41_field.md R147), continued: the writes that keep two states of the same
values in step, every command run in both, and runs from reset. -/

namespace Sys2Proof.Machine

/-! ## Writes that keep the values the same -/

theorem sameSlot_writeReg {α : Type} {r : α → α → Prop} {rf rf' : RegFile α} (h : ∀ i, sameSlot r (rf.get i) (rf'.get i)) {x y : α}
    (hxy : r x y) (d i : RegNo) : sameSlot r ((writeReg rf d x).get i) ((writeReg rf' d y).get i) := by
  rw [writeReg_get, writeReg_get]
  split
  · exact hxy
  · exact h i

theorem sameSlot_imp {α : Type} {r r' : α → α → Prop} {o o' : Option α} (h : sameSlot r o o')
    (hr : ∀ x ∈ o, ∀ y ∈ o', r x y → r' x y) : sameSlot r' o o' := by
  cases o <;> cases o' <;> simp only [sameSlot] at h ⊢
  exact hr _ rfl _ rfl h

namespace SameValues

variable {s t : State} (hst : SameValues s t)
include hst

theorem complete : SameValues s.complete t.complete :=
  { hst with cseq := congrArg (· + 1) hst.cseq }

theorem enterFault (c : Cause) : SameValues (s.enterFault c) (t.enterFault c) :=
  { hst with
    fseq := hst.cseq
    status := by rw [State.enterFault_status, State.enterFault_status, hst.status] }

theorem putFlag (f : Flag) {b b' : Bool} (hb : b = b') : SameValues (s.putFlag f b) (t.putFlag f b') :=
  { hst with status := by rw [State.putFlag_status, State.putFlag_status, hst.status, hb] }

theorem emit {bs bs' : List Byte} (hbs : bs = bs') : SameValues (s.emit bs) (t.emit bs') :=
  { hst with dout := by rw [State.emit_dout, State.emit_dout, hst.dout, hbs] }

theorem putE {c : Ctx} {x y : Fe} (hxy : FeRel (s.fld c) (t.fld c) x y) (d : RegNo) :
    SameValues (s.putE d ⟨c, x⟩) (t.putE d ⟨c, y⟩) :=
  { hst with e := sameSlot_writeReg (x := ⟨c, x⟩) (y := ⟨c, y⟩) hst.e ⟨rfl, hxy.val⟩ d }

theorem putA {q q' : Affine} (hq : AffineRel s.fld0 t.fld0 q q') (d : RegNo) : SameValues (s.putA d q) (t.putA d q') :=
  { hst with a := sameSlot_writeReg hst.a hq.same d }

theorem putJ {P P' : Jac} (hP : JacRel s.fld0 t.fld0 P P') (d : RegNo) : SameValues (s.putJ d P) (t.putJ d P') :=
  { hst with j := sameSlot_writeReg hst.j hP.same d }

theorem putV {c : Ctx} {xs ys : List Fe} (hxs : List.Forall₂ (FeRel (s.fld c) (t.fld c)) xs ys) (d : RegNo) :
    SameValues (s.putV d ⟨c, xs⟩) (t.putV d ⟨c, ys⟩) :=
  { hst with v := sameSlot_writeReg (x := ⟨c, xs⟩) (y := ⟨c, ys⟩) hst.v ⟨rfl, FeRel.map_val hxs⟩ d }

theorem putG {qs qs' : GVec} (hqs : List.Forall₂ (AffineRel s.fld0 t.fld0) qs qs') (d : RegNo) :
    SameValues (s.putG d qs) (t.putG d qs') :=
  { hst with g := sameSlot_writeReg hst.g (hqs.imp fun _ _ hq => hq.same) d }

theorem putGen (hf : s.fld0.Peers t.fld0) (pt : RawPoint) {ok ok' : Bool} (hok : ok = ok') :
    SameValues (s.putGen pt ok) (t.putGen pt ok') := by
  subst hok
  cases ok with
  | true => exact { hst with genOk := rfl, gen := fun _ => ⟨(hf.ofRaw pt.x).val, (hf.ofRaw pt.y).val⟩ }
  | false => exact { hst with genOk := rfl, gen := nofun }

theorem putCurve (hf : s.fld0.Peers t.fld0) (a b : Raw) :
    SameValues { s with crv := s.curveRecord a b } { t with crv := t.curveRecord a b } :=
  { hst with crvOk := rfl, crv := fun _ => ⟨(hf.ofRaw a).val, (hf.ofRaw b).val⟩ }

end SameValues

/-! ## Two states of the same values under the invariant -/

/-- Two states that keep the invariant and hold the same values. -/
structure State.Peers (s t : State) : Prop where
  left : s.Inv
  right : t.Inv
  same : SameValues s t

/-- A command keeps the invariant of a running block. -/
theorem exec_inv {s t : State} {i : Instr} (hi : s.Inv) (running : s.halted = false) (h : exec i s = .next t) : t.Inv := by
  rcases exec_cases h with ⟨c, rfl⟩ | ⟨u, hu, rfl⟩
  · exact hi.enterFault c
  · exact (hu.inv hi running).complete

theorem SameValues.reset : SameValues State.reset State.reset := by
  refine ⟨fun _ => ⟨rfl, rfl⟩, rfl, nofun, rfl, nofun, ?_, ?_, ?_, ?_, ?_, rfl, rfl, rfl, rfl, rfl, rfl⟩ <;>
  · intro i
    simp only [State.reset, reset_get]
    trivial

/-- Two results that are next states of the same values. -/
def EndsAlike (x y : Result) : Prop := ∃ s' t', x = .next s' ∧ y = .next t' ∧ SameValues s' t'

namespace State.Peers

variable {s t : State} (P : s.Peers t)
include P

theorem finish {p q : Except Cause State} (h : Agree SameValues p q) : EndsAlike (finish s p) (finish t q) := by
  cases h with
  | ok h => exact ⟨_, _, rfl, rfl, h.complete⟩
  | error c => exact ⟨_, _, rfl, rfl, P.same.enterFault c⟩

theorem ok_eq (c : Ctx) : (s.fld c).ok = (t.fld c).ok := (P.same.fld c).1

theorem mod_eq (c : Ctx) : (s.fld c).mod = (t.fld c).mod := (P.same.fld c).2

theorem nmax_eq : s.nmax = t.nmax := by rw [State.nmax, State.nmax, P.same.nmaxLog]

theorem fld {c : Ctx} (hc : (s.fld c).ok = true) : (s.fld c).Peers (t.fld c) :=
  ⟨P.left.setup.fld c hc, P.right.setup.fld c (P.ok_eq c ▸ hc), by rw [FieldCtx.m, FieldCtx.m, P.mod_eq c]⟩

theorem curve (hc : s.crv.ok = true) : s.curve.Peers t.curve := by
  obtain ⟨ha, hb⟩ := P.same.crv hc
  refine ⟨P.left.setup.curve_wf hc, P.right.setup.curve_wf (P.same.crvOk ▸ hc), ?_⟩
  rw [Curve.vals, Curve.vals, curve_fp, curve_fp, curve_fq, curve_fq, curve_crv, curve_crv, ha, hb, FieldCtx.m, FieldCtx.m,
    FieldCtx.m, FieldCtx.m]
  exact congrArg₂ (fun p q : Raw => Values.CurveV.mk p.toNat q.toNat _ _) (P.mod_eq .coord) (P.mod_eq .order)

section
variable {α β : Type} {R : α → β → Prop} {i : RegNo}

omit P in
/-- Reading a register that is written in both states or in neither. -/
theorem read {γ : Type} {r : γ → γ → Prop} {rf rf' : RegFile γ} (h : sameSlot r (rf.get i) (rf'.get i)) {k : γ → Except Cause α}
    {k' : γ → Except Cause β} (hk : ∀ x y, rf.get i = some x → rf'.get i = some y → r x y → Agree R (k x) (k' y)) :
    Agree R (readReg rf i >>= k) (readReg rf' i >>= k') := by
  unfold readReg
  cases hx : rf.get i with
  | none =>
    cases hy : rf'.get i with
    | none => exact .error _
    | some y => rw [hx, hy] at h; exact h.elim
  | some x =>
    cases hy : rf'.get i with
    | none => rw [hx, hy] at h; exact h.elim
    | some y => rw [hx, hy] at h; exact hk x y hx hy h

theorem readE {k : Elem → Except Cause α} {k' : Elem → Except Cause β} (hk : ∀ c x y, (s.fld c).Peers (t.fld c) →
      FeRel (s.fld c) (t.fld c) x y → Agree R (k ⟨c, x⟩) (k' ⟨c, y⟩)) :
    Agree R (readReg s.e i >>= k) (readReg t.e i >>= k') := by
  refine read (P.same.e i) fun ⟨c, x⟩ ⟨c', y⟩ hx hy ⟨hctx, hval⟩ => ?_
  obtain rfl : c = c' := hctx
  obtain ⟨hc, hcanon⟩ := P.left.regs.e i _ hx
  exact hk c x y (P.fld hc) ⟨hcanon, (P.right.regs.e i _ hy).2, hval⟩

theorem readV {k : FVec → Except Cause α} {k' : FVec → Except Cause β} (hk : ∀ c xs ys, (s.fld c).Peers (t.fld c) →
      List.Forall₂ (FeRel (s.fld c) (t.fld c)) xs ys → Agree R (k ⟨c, xs⟩) (k' ⟨c, ys⟩)) :
    Agree R (readReg s.v i >>= k) (readReg t.v i >>= k') := by
  refine read (P.same.v i) fun ⟨c, xs⟩ ⟨c', ys⟩ hx hy ⟨hctx, hval⟩ => ?_
  obtain rfl : c = c' := hctx
  obtain ⟨hc, -, hcanon⟩ := P.left.regs.v i _ hx
  obtain ⟨-, -, hcanon'⟩ := P.right.regs.v i _ hy
  exact hk c xs ys (P.fld hc) (FeRel.forall₂_of_map_val hcanon hcanon' hval)

theorem readA {k : Affine → Except Cause α} {k' : Affine → Except Cause β}
    (hk : ∀ q q', AffineRel s.fld0 t.fld0 q q' → Agree R (k q) (k' q')) :
    Agree R (readReg s.a i >>= k) (readReg t.a i >>= k') :=
  read (P.same.a i) fun q q' hq hq' hsame => hk q q' (.of_same (P.left.regs.a i q hq).2 (P.right.regs.a i q' hq').2 hsame)

theorem readJ {k : Jac → Except Cause α} {k' : Jac → Except Cause β}
    (hk : ∀ p p', JacRel s.fld0 t.fld0 p p' → Agree R (k p) (k' p')) :
    Agree R (readReg s.j i >>= k) (readReg t.j i >>= k') :=
  read (P.same.j i) fun p p' hp hp' hsame => hk p p' (.of_same (P.left.regs.j i p hp).2 (P.right.regs.j i p' hp').2 hsame)

theorem readG {k : GVec → Except Cause α} {k' : GVec → Except Cause β}
    (hk : ∀ qs qs', List.Forall₂ (AffineRel s.fld0 t.fld0) qs qs' → Agree R (k qs) (k' qs')) :
    Agree R (readReg s.g i >>= k) (readReg t.g i >>= k') := by
  refine read (P.same.g i) fun qs qs' hq hq' hsame => hk qs qs' ?_
  obtain ⟨-, -, hcanon⟩ := P.left.regs.g i _ hq
  obtain ⟨-, -, hcanon'⟩ := P.right.regs.g i _ hq'
  exact AffineRel.forall₂_of_same (fun q h => (hcanon q h).2) (fun q h => (hcanon' q h).2) hsame

theorem needCurve {k : Unit → Except Cause α} {k' : Unit → Except Cause β} (hk : s.curve.Peers t.curve → Agree R (k ()) (k' ())) :
    Agree R (s.needCurve >>= k) (t.needCurve >>= k') :=
  .check P.same.crvOk fun hc => hk (P.curve hc)

theorem sameField {c1 c2 : Ctx} {k : Unit → Except Cause α} {k' : Unit → Except Cause β}
    (hk : (s.fld c1).mod = (s.fld c2).mod → Agree R (k ()) (k' ())) :
    Agree R (s.sameField c1 c2 >>= k) (t.sameField c1 c2 >>= k') :=
  .check (by rw [P.mod_eq, P.mod_eq]) fun hm => hk (beq_iff_eq.1 hm)

end

/-- An operand taken to another context of the same modulus (41_field.md R149). -/
theorem convert {src dst : Ctx} (hsrc : (s.fld src).Peers (t.fld src)) (hdst : (s.fld dst).Peers (t.fld dst))
    (hm : (s.fld dst).mod = (s.fld src).mod) {x y : Fe} (hxy : FeRel (s.fld src) (t.fld src) x y) :
    FeRel (s.fld dst) (t.fld dst) (s.convert src dst x) (t.convert src dst y) := by
  have hm' : (t.fld dst).mod = (t.fld src).mod := by rw [← P.mod_eq, ← P.mod_eq, hm]
  obtain ⟨hcanon, hval⟩ := State.convert_spec hsrc.left hdst.left hm hxy.left
  obtain ⟨hcanon', hval'⟩ := State.convert_spec hsrc.right hdst.right hm' hxy.right
  exact ⟨hcanon, hcanon', by rw [hval, hval', hxy.val]⟩

theorem map_convert {src dst : Ctx} (hsrc : (s.fld src).Peers (t.fld src)) (hdst : (s.fld dst).Peers (t.fld dst))
    (hm : (s.fld dst).mod = (s.fld src).mod) {xs ys : List Fe} (hxs : List.Forall₂ (FeRel (s.fld src) (t.fld src)) xs ys) :
    List.Forall₂ (FeRel (s.fld dst) (t.fld dst)) (xs.map (s.convert src dst)) (ys.map (t.convert src dst)) :=
  List.rel_map (fun _ _ hx => P.convert hsrc hdst hm hx) hxs

/-- The two source vectors of a command (43_vector.md R211). -/
theorem vecPair {α β : Type} {R : α → β → Prop} {i j : RegNo} {k : FVec × List Fe → Except Cause α}
    {k' : FVec × List Fe → Except Cause β} (hk : ∀ c xs ys zs ws, (s.fld c).Peers (t.fld c) →
      List.Forall₂ (FeRel (s.fld c) (t.fld c)) xs ys → List.Forall₂ (FeRel (s.fld c) (t.fld c)) zs ws →
      Agree R (k (⟨c, xs⟩, zs)) (k' (⟨c, ys⟩, ws))) :
    Agree R (s.vecPair i j >>= k) (t.vecPair i j >>= k') := by
  refine Agree.bind (R := fun r r' => ∃ c xs ys zs ws, r = (⟨c, xs⟩, zs) ∧ r' = (⟨c, ys⟩, ws) ∧ (s.fld c).Peers (t.fld c) ∧
    List.Forall₂ (FeRel (s.fld c) (t.fld c)) xs ys ∧ List.Forall₂ (FeRel (s.fld c) (t.fld c)) zs ws) ?_ ?_
  · refine P.readV fun c xs ys F hxs => P.readV fun c' zs ws F' hzs => P.sameField fun hm => ?_
    refine .check (by rw [hxs.length_eq, hzs.length_eq]) fun _ => .pure ?_
    exact ⟨c, xs, ys, _, _, rfl, rfl, F, hxs, P.map_convert F' F hm hzs⟩
  · rintro _ _ ⟨c, xs, ys, zs, ws, rfl, rfl, F, hxs, hzs⟩
    exact hk c xs ys zs ws F hxs hzs

/-- A fresh context set up alike but for the strategy: no register and no record stands on it yet. -/
theorem putFld {c : Ctx} (fresh : (s.fld c).ok = false) {f h : FieldCtx} (hfh : f.sameField h) :
    SameValues (s.putFld c f) (t.putFld c h) := by
  have hst := P.same
  have fresh' : (t.fld c).ok = false := P.ok_eq c ▸ fresh
  have hs {k : Ctx} (hk : (s.fld k).ok = true) : (s.putFld c f).fld k = s.fld k := fld_putFld_of_ok fresh hk f
  have ht {k : Ctx} (hk : (t.fld k).ok = true) : (t.putFld c h).fld k = t.fld k := fld_putFld_of_ok fresh' hk h
  have hs0 (hc : s.crv.ok = true) : (s.putFld c f).fld0 = s.fld0 := hs (k := .coord) (P.left.setup.crv hc).1
  have ht0 (hc : t.crv.ok = true) : (t.putFld c h).fld0 = t.fld0 := ht (k := .coord) (P.right.setup.crv hc).1
  constructor
  case fld =>
    intro k
    by_cases e : k = c
    · subst e
      rwa [putFld_fld_same, putFld_fld_same]
    · rw [putFld_fld_other s e, putFld_fld_other t e]
      exact hst.fld k
  case crv =>
    rw [putFld_crv, putFld_crv]
    intro hc
    rw [hs0 hc, ht0 (hst.crvOk ▸ hc)]
    exact hst.crv hc
  case gen =>
    rw [putFld_gen, putFld_gen]
    intro hg
    rw [hs0 (P.left.setup.gen hg).1, ht0 (P.right.setup.gen (hst.genOk ▸ hg)).1]
    exact hst.gen hg
  case e =>
    intro i
    rw [putFld_e, putFld_e]
    refine sameSlot_imp (hst.e i) fun x hx y hy hxy => ?_
    rw [valOf, valOf, hs (P.left.regs.e i x hx).1, ht (P.right.regs.e i y hy).1]
    exact hxy
  case v =>
    intro i
    rw [putFld_v, putFld_v]
    refine sameSlot_imp (hst.v i) fun x hx y hy hxy => ?_
    rw [hs (P.left.regs.v i x hx).1, ht (P.right.regs.v i y hy).1]
    exact hxy
  case a =>
    intro i
    rw [putFld_a, putFld_a]
    refine sameSlot_imp (hst.a i) fun q hq q' hq' hqq => ?_
    rwa [hs0 (P.left.regs.a i q hq).1, ht0 (P.right.regs.a i q' hq').1]
  case j =>
    intro i
    rw [putFld_j, putFld_j]
    refine sameSlot_imp (hst.j i) fun p hp p' hp' hpp => ?_
    rwa [hs0 (P.left.regs.j i p hp).1, ht0 (P.right.regs.j i p' hp').1]
  case g =>
    intro i
    rw [putFld_g, putFld_g]
    refine sameSlot_imp (hst.g i) fun qs hqs qs' hqs' hsame => ?_
    rwa [hs0 (P.left.regs.g i qs hqs).1, ht0 (P.right.regs.g i qs' hqs').1]
  all_goals simp only [putFld_crv, putFld_gen, putFld_cseq, putFld_fseq, putFld_status, putFld_dout, putFld_cmdIn,
    putFld_nmaxLog, hst.crvOk, hst.genOk, hst.cseq, hst.fseq, hst.status, hst.dout, hst.cmdIn, hst.nmaxLog]

/-! ## Every command in both states -/

theorem endsAlike_fsetup (c : Ctx) (st st' : Strat) (m : Raw) : EndsAlike (execFsetup c st m s) (execFsetup c st' m t) :=
  P.finish <| .check (by rw [P.ok_eq]) fun hfresh => .check rfl fun _ => .pure <| by
    rw [Bool.not_eq_true'] at hfresh
    refine (P.putFld hfresh ?_).putFlag _ rfl
    exact ⟨by rw [FieldCtx.setup_ok, FieldCtx.setup_ok], by rw [FieldCtx.setup_mod, FieldCtx.setup_mod]⟩

theorem endsAlike_fieldBinary {op : FieldCtx → Fe → Fe → Fe} (hop : ∀ {f h : FieldCtx}, f.Peers h → ∀ {a a' b b'}, FeRel f h a a' →
      FeRel f h b b' → FeRel f h (op f a b) (op h a' b')) (d k1 k2 : RegNo) :
    EndsAlike (fieldBinary op d k1 k2 s) (fieldBinary op d k1 k2 t) :=
  P.finish <| P.readE fun _ _ _ F hx => P.readE fun _ _ _ F' hy => P.sameField fun hm => .pure <|
    P.same.putE (hop F hx (P.convert F' F hm hy)) d

theorem endsAlike_vecBinary {op : FieldCtx → List Fe → List Fe → List Fe} (hop : ∀ {f h : FieldCtx}, f.Peers h → ∀ {as as' bs bs'},
      List.Forall₂ (FeRel f h) as as' → List.Forall₂ (FeRel f h) bs bs' → List.Forall₂ (FeRel f h) (op f as bs) (op h as' bs'))
    (d k1 k2 : RegNo) : EndsAlike (vecBinary op d k1 k2 s) (vecBinary op d k1 k2 t) :=
  P.finish <| P.vecPair fun _ _ _ _ _ F hxs hys => .pure <| P.same.putV (hop F hxs hys) d

theorem endsAlike_ipavfy (gs hs au aP : RegNo) (pf : RawProof) :
    EndsAlike (execIpavfy gs hs au aP pf s) (execIpavfy gs hs au aP pf t) :=
  P.finish <| .check (by rw [P.nmax_eq]) fun _ => P.needCurve fun C => P.readG fun _ _ hgs => P.readG fun _ _ hhs =>
    P.readA fun _ _ hu => P.readA fun _ _ hP => .check (by rw [hgs.length_eq, hhs.length_eq]) fun _ =>
      .check (by rw [hgs.length_eq]) fun _ => .check (by rw [hgs.length_eq]) fun _ =>
        (C.ipaVerify _ hgs hhs hu hP (C.proofParse pf)).bind fun _ _ hv => .pure <| P.same.putFlag _ hv

theorem endsAlike_ipaprv (gs hs au aP va vb : RegNo) :
    EndsAlike (execIpaprv gs hs au aP va vb s) (execIpaprv gs hs au aP va vb t) :=
  P.finish <| P.needCurve fun C => P.readG fun _ _ hgs => P.readG fun _ _ hhs => P.readA fun _ _ hu => P.readA fun _ _ hP =>
    P.readV fun _ _ _ Fa ha => P.readV fun _ _ _ Fb hb => P.sameField fun hma => P.sameField fun hmb =>
      .check (by rw [hgs.length_eq, hhs.length_eq, ha.length_eq, hb.length_eq]) fun _ =>
        .check (by rw [hgs.length_eq]) fun _ => by
          rw [hgs.length_eq]
          have hwa := P.map_convert (dst := .order) Fa C.fq hma.symm ha
          have hwb := P.map_convert (dst := .order) Fb C.fq hmb.symm hb
          exact Agree.bind (C.ipaProve _ hu _ ⟨hgs, hhs, hwa, hwb, hP⟩) fun _ _ hpf =>
            .step (Curve.Peers.proofBytes_eq hpf) fun _ => .pure <| P.same.emit rfl

/-- One command in two states of the same values. -/
theorem endsAlike_exec (i : Instr) : EndsAlike (exec i s) (exec i t) := by
  have hst := P.same
  cases i with
  | nop => exact P.finish (.ok hst)
  | sts => exact P.finish (.ok (hst.emit (by rw [statusBytes, statusBytes, hst.status, hst.cseq])))
  | fsetup c st m => exact P.endsAlike_fsetup c st st m
  | csetup a b =>
    exact P.finish <| .check (P.ok_eq .coord) fun h0 => .check (P.ok_eq .order) fun _ =>
      .check (by rw [hst.crvOk]) fun _ => .pure <| (hst.putCurve (P.fld (c := .coord) h0) a b).putFlag _ rfl
  | gsetup pt =>
    exact P.finish <| P.needCurve fun C => .pure <|
      have hok := C.generatorOk_eq (C.fp.pointOfRaw pt)
      (hst.putGen C.fp pt hok).putFlag _ hok
  | agen d =>
    exact P.finish <| P.needCurve fun C => .check hst.genOk fun hg => .pure <| by
      obtain ⟨-, hx, hy⟩ := P.left.setup.gen hg
      obtain ⟨-, hx', hy'⟩ := P.right.setup.gen (hst.genOk ▸ hg)
      obtain ⟨hvx, hvy⟩ := hst.gen hg
      exact hst.putA (.pt ⟨hx, hx', hvx⟩ ⟨hy, hy', hvy⟩) d
  | lde d c raw => exact P.finish <| .check (P.ok_eq c) fun hc => .pure <| hst.putE ((P.fld hc).ofRaw raw) d
  | ste => exact P.finish <| P.readE fun _ _ _ _ hx => .pure <| hst.emit (congrArg be32 hx.val)
  | lda d pt => exact P.finish <| P.needCurve fun C => .pure <| hst.putA (C.fp.pointOfRaw pt) d
  | ldainf d => exact P.finish <| P.needCurve fun _ => .pure <| hst.putA .inf d
  | sta => exact P.finish <| P.needCurve fun _ => P.readA fun _ _ hq => .step hq.ser_eq fun _ => .pure <| hst.emit rfl
  | ldv d c raws =>
    exact P.finish <| .check (by rw [P.nmax_eq]) fun _ => .check (P.ok_eq c) fun hc => .pure <|
      hst.putV ((P.fld hc).map_ofRaw raws) d
  | stv => exact P.finish <| P.readV fun _ _ _ _ hxs => .pure <| hst.emit (FeRel.serScalars hxs)
  | ldg d pts =>
    exact P.finish <| .check (by rw [P.nmax_eq]) fun _ => P.needCurve fun C => .pure <| hst.putG (C.fp.map_pointOfRaw pts) d
  | stg =>
    exact P.finish <| P.needCurve fun _ => P.readG fun _ _ hqs => .step (AffineRel.serAll_eq hqs) fun _ => .pure <| hst.emit rfl
  | fadd d k1 k2 => exact P.endsAlike_fieldBinary (fun F _ _ _ _ => F.add) d k1 k2
  | fsub d k1 k2 => exact P.endsAlike_fieldBinary (fun F _ _ _ _ => F.sub) d k1 k2
  | fmul d k1 k2 => exact P.endsAlike_fieldBinary (fun F _ _ _ _ => F.mul) d k1 k2
  | fneg d => exact P.finish <| P.readE fun _ _ _ F hx => .pure <| hst.putE (F.neg hx) d
  | finv d => exact P.finish <| P.readE fun _ _ _ F hx => (F.inv hx).bind fun _ _ hr => .pure <| hst.putE hr d
  | fpow d k e => exact P.finish <| P.readE fun _ _ _ F hx => .pure <| hst.putE (F.pow hx e.isLt) d
  | fpoww d k e => exact P.finish <| P.readE fun _ _ _ F hx => .pure <| hst.putE (F.poww hx e.isLt) d
  | fsqrt d =>
    exact P.finish <| P.readE fun _ _ _ F hx => (F.sqrt hx).bind fun _ _ hr => .pure <| (hst.putE hr.1 d).putFlag _ hr.2
  | feq =>
    exact P.finish <| P.readE fun _ _ _ _ hx => P.readE fun _ _ _ _ hy => P.sameField fun _ => .pure <|
      hst.putFlag _ (by rw [valOf, valOf, valOf, valOf, hx.val, hy.val])
  | fmov d => exact P.finish <| P.readE fun _ _ _ _ hx => .pure <| hst.putE hx d
  | pchk => exact P.finish <| P.needCurve fun C => P.readA fun _ _ hq => .pure <| hst.putFlag _ (C.oncurve_eq hq)
  | peq =>
    exact P.finish <| P.needCurve fun C => P.readA fun _ _ hq => P.readA fun _ _ hr => .pure <|
      hst.putFlag _ (C.fp.peq_eq hq hr)
  | ptoj d => exact P.finish <| P.needCurve fun C => P.readA fun _ _ hq => .pure <| hst.putJ (C.toJ hq) d
  | ptoa d =>
    exact P.finish <| P.needCurve fun C => P.readJ fun _ _ hp => (C.toA hp).bind fun _ _ hq => .pure <| hst.putA hq d
  | padd d =>
    exact P.finish <| P.needCurve fun C => P.readJ fun _ _ hp => P.readJ fun _ _ hq => .pure <| hst.putJ (C.padd hp hq) d
  | pmadd d =>
    exact P.finish <| P.needCurve fun C => P.readJ fun _ _ hp => P.readA fun _ _ hq => .pure <| hst.putJ (C.pmadd hp hq) d
  | pdbl d => exact P.finish <| P.needCurve fun C => P.readJ fun _ _ hp => .pure <| hst.putJ (C.pdbl hp) d
  | pneg d => exact P.finish <| P.needCurve fun C => P.readJ fun _ _ hp => .pure <| hst.putJ (C.pneg hp) d
  | pmul d =>
    exact P.finish <| P.needCurve fun C => P.readE fun _ _ _ _ hk => P.readJ fun _ _ hp => .pure <| by
      rw [valOf, valOf, hk.val]
      exact hst.putJ (C.pmul _ hp) d
  | vadd d k1 k2 => exact P.endsAlike_vecBinary (fun F _ _ _ _ => F.vadd) d k1 k2
  | vsub d k1 k2 => exact P.endsAlike_vecBinary (fun F _ _ _ _ => F.vsub) d k1 k2
  | vhad d k1 k2 => exact P.endsAlike_vecBinary (fun F _ _ _ _ => F.vhad) d k1 k2
  | vscl d =>
    exact P.finish <| P.readV fun _ _ _ F hxs => P.readE fun _ _ _ F' hk => P.sameField fun hm => .pure <|
      hst.putV (F.vscl (P.convert F' F hm hk) hxs) d
  | vip d => exact P.finish <| P.vecPair fun _ _ _ _ _ F hxs hys => .pure <| hst.putE (F.vip hxs hys) d
  | vslice d k start len =>
    exact P.finish <| P.readV fun _ _ _ _ hxs => .check (by rw [hxs.length_eq]) fun _ => .pure <|
      hst.putV (forall₂_slice hxs start.val len.val) d
  | vpow d k n =>
    exact P.finish <| .check (by rw [P.nmax_eq]) fun _ => P.readE fun _ _ _ F hk => .pure <| hst.putV (F.vpowers hk n.val) d
  | vget d k n =>
    exact P.finish <| P.readV fun _ _ _ _ hxs => (agree_entry hxs n.val).bind fun _ _ hx => .pure <| hst.putE hx d
  | vrev d => exact P.finish <| P.readV fun _ _ _ _ hxs => .pure <| hst.putV (List.rel_reverse hxs) d
  | gmsm d =>
    exact P.finish <| P.needCurve fun C => P.readG fun _ _ hqs => P.readV fun _ _ _ _ hxs =>
      .check (by rw [hqs.length_eq, hxs.length_eq]) fun _ => .pure <| hst.putJ (C.msm hqs (FeRel.map_val hxs)) d
  | gslice d k start len =>
    exact P.finish <| P.needCurve fun _ => P.readG fun _ _ hqs => .check (by rw [hqs.length_eq]) fun _ => .pure <|
      hst.putG (forall₂_slice hqs start.val len.val) d
  | gget d k n =>
    exact P.finish <| P.needCurve fun _ => P.readG fun _ _ hqs => (agree_entry hqs n.val).bind fun _ _ hq => .pure <|
      hst.putA hq d
  | ipach d =>
    exact P.finish <| P.needCurve fun C => P.readA fun _ _ hL => P.readA fun _ _ hQ => P.readA fun _ _ hR =>
      (C.chal _ hL hQ hR).bind fun _ _ hx => .pure <| hst.putE (c := .order) hx d
  | ipasv d =>
    exact P.finish <| P.readV fun _ _ _ F hxs => .check (by rw [hxs.length_eq, P.nmax_eq]) fun _ =>
      (F.ipasv hxs).bind fun _ _ hsv => .pure <| hst.putV hsv d
  | ipavfy gs hs au aP pf => exact P.endsAlike_ipavfy gs hs au aP pf
  | ipaprv gs hs au aP va vb => exact P.endsAlike_ipaprv gs hs au aP va vb

/-- The same, whatever strategy an FSETUP names. -/
theorem endsAlike_of_sameButStrat {i i' : Instr} (hi : SameButStrat i i') : EndsAlike (exec i s) (exec i' t) := by
  obtain rfl | ⟨c, st, st', m, rfl, rfl⟩ := hi
  · exact P.endsAlike_exec i
  · exact P.endsAlike_fsetup c st st' m

/-- Runs that differ in strategies alone keep in step: they halt together, and every command keeps the invariant. -/
theorem sameValues_runCommands {is is' : List Instr} (his : List.Forall₂ SameButStrat is is') :
    SameValues (runCommands is s) (runCommands is' t) := by
  induction his generalizing s t with
  | nil => exact P.same
  | cons hi _ ih =>
    have hhalted : s.halted = t.halted := by rw [halted, halted, flag, flag, P.same.status]
    unfold runCommands
    rw [← hhalted]
    cases hrun : s.halted with
    | true => exact P.same
    | false =>
      obtain ⟨s', t', hs, ht, hst⟩ := P.endsAlike_of_sameButStrat hi
      simp only [hs, ht, Bool.false_eq_true, if_false]
      exact ih ⟨exec_inv P.left hrun hs, exec_inv P.right (hhalted ▸ hrun) ht, hst⟩

end State.Peers

/-! ## The statements -/

/-- Settles O23: every operation of a command's pseudocode, under peers of its contexts, gives the same fault or results of the same
values. -/
theorem strategiesAreInterchangeable : Obligations.StrategiesAreInterchangeable := by
  unfold Obligations.StrategiesAreInterchangeable
  exact fun s t i i' hs ht hst hi => (State.Peers.mk hs ht hst).endsAlike_of_sameButStrat hi

/-- Settles O24: the reset state holds the same values as itself, and every command of a running block keeps the invariant. -/
theorem runsAreBlindToStrategies : Obligations.RunsAreBlindToStrategies := by
  unfold Obligations.RunsAreBlindToStrategies
  intro is is' his
  exact (State.Peers.mk resetMeetsTheInvariant resetMeetsTheInvariant SameValues.reset).sameValues_runCommands his

end Sys2Proof.Machine
end

section
/-! PROOFS of the statement on the recoding of a scalar (42_curve.md R183): one step of the recoding, and the digits of the loop. -/

namespace Sys2Proof.Machine

/-! ## The recoding of a scalar (42_curve.md R183) -/

/-- What the recoding goes on with after the digit of `k` (42_curve.md R183). -/
def wnafRest (k : Nat) : Nat := ((k : Int) - wnafDigit k).toNat / 2

theorem wnafLoop_zero (fuel : Nat) : wnafLoop fuel 0 = [] := by cases fuel <;> rfl

theorem wnafLoop_succ (fuel : Nat) {k : Nat} (hk : k ≠ 0) :
    wnafLoop (fuel + 1) k = wnafDigit k :: wnafLoop fuel (wnafRest k) := by
  rw [wnafLoop, if_neg hk, wnafRest]

theorem wnafDigit_of_even {k : Nat} (hk : k % 2 = 0) : wnafDigit k = 0 := if_neg (by omega)

/-- The digit of an odd number is the odd number nearest to 0 that leaves a multiple of 32. -/
theorem wnafDigit_of_odd {k : Nat} (hk : k % 2 = 1) : wnafDigit k % 2 = 1 ∧ ((k : Int) - wnafDigit k) % 32 = 0 := by
  rw [wnafDigit, if_pos hk]
  simp only [Config.wnafWindow]
  split_ifs <;> omega

theorem wnafDigit_le (k : Nat) : wnafDigit k ≤ k := by
  unfold wnafDigit
  simp only [Config.wnafWindow]
  split_ifs <;> omega

/-- The digit and what is left spell the number. -/
theorem wnafDigit_add_rest (k : Nat) : wnafDigit k + 2 * (wnafRest k : Int) = k := by
  have hle := wnafDigit_le k
  unfold wnafRest
  rcases Nat.mod_two_eq_zero_or_one k with hk | hk
  · rw [wnafDigit_of_even hk] at hle ⊢
    omega
  · obtain ⟨-, h32⟩ := wnafDigit_of_odd hk
    omega

/-- What an odd number leaves is a multiple of 16: the next four digits are 0. -/
theorem wnafRest_of_odd {k : Nat} (hk : k % 2 = 1) : 16 ∣ wnafRest k := by
  have hsplit := wnafDigit_add_rest k
  obtain ⟨-, h32⟩ := wnafDigit_of_odd hk
  omega

/-- The bound that one more digit halves. It holds although a negative digit adds to the number: from 32 on the bound is a multiple
of 32 itself, and below 16 the digit is the number. -/
theorem wnafRest_le {n k : Nat} (hk : k ≤ 2 ^ (n + 1)) : wnafRest k ≤ 2 ^ n := by
  have hsplit := wnafDigit_add_rest k
  rcases Nat.mod_two_eq_zero_or_one k with heven | hodd
  · rw [wnafDigit_of_even heven] at hsplit
    omega
  · obtain ⟨-, h32⟩ := wnafDigit_of_odd hodd
    obtain ⟨hlow, -⟩ := wnafDigit_range k
    by_cases hn : n < 4
    · interval_cases n <;> omega
    · have hbound : 32 ∣ 2 ^ (n + 1) := pow_dvd_pow 2 (show 5 ≤ n + 1 by omega)
      omega

theorem wnafLoop_length_le : ∀ fuel k : Nat, (wnafLoop fuel k).length ≤ fuel
  | 0, _ => Nat.le_refl 0
  | fuel + 1, k => by
    by_cases hk : k = 0
    · simp [hk, wnafLoop_zero]
    · rw [wnafLoop_succ fuel hk, List.length_cons]
      exact Nat.succ_le_succ (wnafLoop_length_le fuel _)

/-- One digit more than the bound's exponent is enough to spell the number. -/
theorem wnafLoop_spells : ∀ {n k : Nat}, k ≤ 2 ^ n → (wnafLoop (n + 1) k).foldr (fun t acc => t + 2 * acc) 0 = (k : Int) := by
  intro n
  induction n with
  | zero => decide
  | succ n ih =>
    intro k hk
    by_cases h0 : k = 0
    · simp [h0, wnafLoop_zero]
    · rw [wnafLoop_succ _ h0, List.foldr_cons, ih (wnafRest_le hk), wnafDigit_add_rest]

/-- The digits of a multiple of 2^j begin with `j` zeros. -/
theorem wnafLoop_getD_of_dvd : ∀ {j i fuel k : Nat}, 2 ^ j ∣ k → i < j → (wnafLoop fuel k).getD i 0 = 0 := by
  intro j
  induction j with
  | zero => intro i fuel k _ hi; omega
  | succ j ih =>
    intro i fuel k hdvd hi
    by_cases hk : k = 0
    · simp [hk, wnafLoop_zero]
    cases fuel with
    | zero => rfl
    | succ fuel =>
      have heven : k % 2 = 0 := Nat.mod_eq_zero_of_dvd ((Dvd.intro_left _ (pow_succ 2 j).symm).trans hdvd)
      rw [wnafLoop_succ fuel hk]
      cases i with
      | zero => exact wnafDigit_of_even heven
      | succ i =>
        refine ih ?_ (Nat.lt_of_succ_lt_succ hi)
        have hhalf : k = wnafRest k * 2 := by
          have hsplit := wnafDigit_add_rest k
          rw [wnafDigit_of_even heven] at hsplit
          omega
        rw [hhalf, pow_succ] at hdvd
        exact Nat.dvd_of_mul_dvd_mul_right two_pos hdvd

/-- A non-zero digit is odd, and the four digits after it are 0. -/
theorem wnafLoop_nonadjacent : ∀ {fuel k i : Nat} {t : Int}, (wnafLoop fuel k)[i]? = some t → t ≠ 0 →
    t % 2 = 1 ∧ ∀ j, i < j → j ≤ i + 4 → (wnafLoop fuel k).getD j 0 = 0 := by
  intro fuel
  induction fuel with
  | zero => intro k i t h; cases h
  | succ fuel ih =>
    intro k i t h ht
    by_cases hk : k = 0
    · rw [hk, wnafLoop_zero] at h
      cases h
    rw [wnafLoop_succ fuel hk] at h ⊢
    cases i with
    | succ i =>
      obtain ⟨hodd, hzeros⟩ := ih (List.getElem?_cons_succ ▸ h) ht
      refine ⟨hodd, fun j hij hj => ?_⟩
      obtain ⟨j, rfl⟩ := Nat.exists_eq_add_one_of_ne_zero (Nat.ne_of_gt (Nat.zero_lt_of_lt hij))
      exact hzeros j (by omega) (by omega)
    | zero =>
      obtain rfl : wnafDigit k = t := by simpa using h
      have hodd : k % 2 = 1 := Nat.mod_two_ne_zero.1 (mt wnafDigit_of_even ht)
      refine ⟨(wnafDigit_of_odd hodd).1, fun j hj hj4 => ?_⟩
      obtain ⟨j, rfl⟩ := Nat.exists_eq_add_one_of_ne_zero (Nat.ne_of_gt hj)
      exact wnafLoop_getD_of_dvd (j := 4) (wnafRest_of_odd hodd) (by omega)

/-- Settles O46: the loop's digits spell its number, and a non-zero digit leaves a multiple of 32. -/
theorem wnafSpellsTheScalar : Obligations.WnafSpellsTheScalar := by
  unfold Obligations.WnafSpellsTheScalar
  refine ⟨wnafLoop_zero _, fun k hk => ⟨wnafLoop_spells hk.le, wnafLoop_length_le _ _, fun i t hi ht => ?_⟩⟩
  obtain ⟨hlow, hhigh⟩ := wnaf_range k t (List.mem_of_getElem? hi)
  obtain ⟨hodd, hzeros⟩ := wnafLoop_nonadjacent hi ht
  exact ⟨hodd, hlow, hhigh, hzeros⟩

end Sys2Proof.Machine
end

section
/-! PROOFS of the statements on the results of the curve commands (42_curve.md R190 to R200): what each command completes with, and
the values of its result by the specification lemma of its function. -/

namespace Sys2Proof.Machine

/-! ## Completions (42_curve.md R190 to R200) -/

section
variable {s : State} {d k k1 k2 : RegNo} {P P1 P2 : Jac} {Q Q1 Q2 : Affine}

theorem exec_pchk_of_some (hc : s.crv.ok = true) (hq : s.a.get k = some Q) :
    exec (.pchk k) s = .next (s.putFlag .onc (s.curve.oncurve Q)).complete :=
  finish_of_ok <| (needCurve_bind hc _).trans (read_bind hq _)

theorem exec_peq_of_some (hc : s.crv.ok = true) (hq1 : s.a.get k1 = some Q1) (hq2 : s.a.get k2 = some Q2) :
    exec (.peq k1 k2) s = .next (s.putFlag .eq (peq Q1 Q2)).complete :=
  finish_of_ok <| (needCurve_bind hc _).trans <| (read_bind hq1 _).trans (read_bind hq2 _)

theorem exec_ptoj_of_some (hc : s.crv.ok = true) (hq : s.a.get k = some Q) :
    exec (.ptoj d k) s = .next (s.putJ d (s.curve.toJ Q)).complete :=
  finish_of_ok <| (needCurve_bind hc _).trans (read_bind hq _)

theorem exec_ptoa_of_ok (hc : s.crv.ok = true) (hp : s.j.get k = some P) (hq : s.curve.toA P = .ok Q) :
    exec (.ptoa d k) s = .next (s.putA d Q).complete :=
  finish_of_ok <| (needCurve_bind hc _).trans <| (read_bind hp _).trans <| by rw [hq]; rfl

theorem exec_ptoa_of_error (hc : s.crv.ok = true) (hp : s.j.get k = some P) {c : Cause} (hq : s.curve.toA P = .error c) :
    exec (.ptoa d k) s = .next (s.enterFault c) :=
  finish_of_error <| (needCurve_bind hc _).trans <| (read_bind hp _).trans <| by rw [hq]; rfl

theorem exec_pneg_of_some (hc : s.crv.ok = true) (hp : s.j.get k = some P) :
    exec (.pneg d k) s = .next (s.putJ d (s.curve.pneg P)).complete :=
  finish_of_ok <| (needCurve_bind hc _).trans (read_bind hp _)

theorem exec_pdbl_of_some (hc : s.crv.ok = true) (hp : s.j.get k = some P) :
    exec (.pdbl d k) s = .next (s.putJ d (s.curve.pdbl P)).complete :=
  finish_of_ok <| (needCurve_bind hc _).trans (read_bind hp _)

theorem exec_padd_of_some (hc : s.crv.ok = true) (hp1 : s.j.get k1 = some P1) (hp2 : s.j.get k2 = some P2) :
    exec (.padd d k1 k2) s = .next (s.putJ d (s.curve.padd P1 P2)).complete :=
  finish_of_ok <| (needCurve_bind hc _).trans <| (read_bind hp1 _).trans (read_bind hp2 _)

theorem exec_pmadd_of_some (hc : s.crv.ok = true) (hp : s.j.get k1 = some P) (hq : s.a.get k2 = some Q) :
    exec (.pmadd d k1 k2) s = .next (s.putJ d (s.curve.pmadd P Q)).complete :=
  finish_of_ok <| (needCurve_bind hc _).trans <| (read_bind hp _).trans (read_bind hq _)

theorem exec_pmul_of_some (hc : s.crv.ok = true) {x : Elem} (hx : s.e.get k1 = some x) (hp : s.j.get k2 = some P) :
    exec (.pmul d k1 k2) s = .next (s.putJ d (s.curve.pmul (s.valOf x) P)).complete :=
  finish_of_ok <| (needCurve_bind hc _).trans <| (read_bind hx _).trans (read_bind hp _)

theorem exec_gsetup_of_ok (hc : s.crv.ok = true) (q : RawPoint) {b : Bool}
    (hb : s.curve.generatorOk (pointOfRaw s.fld0 q) = b) :
    exec (.gsetup q) s = .next ((s.putGen q b).putFlag .genok b).complete :=
  hb ▸ finish_of_ok (needCurve_bind hc _)

theorem exec_agen_of_ok (hc : s.crv.ok = true) (hg : s.gen.ok = true) :
    exec (.agen d) s = .next (s.putA d (.pt s.gen.x s.gen.y)).complete :=
  finish_of_ok <| (needCurve_bind hc _).trans (require_bind hg _ _)

theorem exec_agen_of_none (hc : s.crv.ok = true) (hg : s.gen.ok = false) :
    exec (.agen d) s = .next (s.enterFault .noGenerator) :=
  finish_of_error <| (needCurve_bind hc _).trans (require_bind_of_false hg _ _)

end

/-! ## Points as values (42_curve.md R172, R174, R178) -/

theorem canon_pt_iff {f : FieldCtx} {x y : Fe} : (Affine.pt x y).Canon f ↔ f.Canon x ∧ f.Canon y := by
  simp [Affine.Canon, Affine.canonical]

theorem FieldCtx.WF.peq_eq_decide {f : FieldCtx} (h : f.WF) {Q1 Q2 : Affine} (h1 : Q1.Canon f) (h2 : Q2.Canon f) :
    peq Q1 Q2 = decide (Q1.vals f = Q2.vals f) := by
  cases Q1 <;> cases Q2
  case pt.pt x1 y1 x2 y2 =>
    obtain ⟨hx1, hy1⟩ := canon_pt_iff.1 h1
    obtain ⟨hx2, hy2⟩ := canon_pt_iff.1 h2
    simp [peq, Affine.vals, h.val_inj hx1 hx2, h.val_inj hy1 hy2, Bool.beq_eq_decide_eq]
  all_goals rfl

theorem Jac.eq_of_vals {f : FieldCtx} (h : f.WF) {P1 P2 : Jac} (h1 : P1.Canon f) (h2 : P2.Canon f) (e : P1.vals f = P2.vals f) :
    P1 = P2 := by
  obtain ⟨hX1, hY1, hZ1⟩ := h1
  obtain ⟨hX2, hY2, hZ2⟩ := h2
  obtain ⟨eX, eY, eZ⟩ := Values.JacV.mk.inj e
  exact Jac.mk.injEq .. ▸ ⟨(h.val_inj hX1 hX2).1 eX, (h.val_inj hY1 hY2).1 eY, (h.val_inj hZ1 hZ2).1 eZ⟩

theorem Values.fmul_one_right {m a : Nat} (h : a < m) : Values.fmul m a 1 = a := by
  rw [Values.fmul, Nat.mul_one, Nat.mod_eq_of_lt h]

/-- With `Z2 = 1` the products by powers of `Z2` fall away (42_curve.md R178). At two infinities the two formulas give different
triples (log entry 24). -/
theorem Values.pmadd_eq_padd {c : CurveV} (hone : 1 < c.p) {P : JacV} (hX : P.X < c.p) (hY : P.Y < c.p) (hZ : P.Z < c.p)
    {Q : AffV} (hPQ : P.Z ≠ 0 ∨ Q ≠ none) : Values.pmadd c P Q = Values.padd c P (Values.toJ Q) := by
  cases Q with
  | none =>
    have hP : P.Z ≠ 0 := hPQ.resolve_right (not_not.2 rfl)
    simp [Values.pmadd, Values.padd, Values.toJ, Values.infJ, hP]
  | some xy =>
    obtain ⟨x, y⟩ := xy
    simp only [Values.pmadd, Values.padd, Values.toJ, fmul_one_right hone, fmul_one_right hX, fmul_one_right hY, fmul_one_right hZ,
      one_ne_zero, if_false]

namespace Curve

variable {c : Curve}

theorem WF.one_ne_zero (h : c.WF) : c.fp.one ≠ 0 := fun e => by
  have hone := h.fp.val_one
  rw [e, FieldCtx.val_zero] at hone
  cases hone

theorem toA_of_Z_eq_zero (c : Curve) {P : Jac} (h0 : P.Z = 0) : c.toA P = .ok .inf := if_pos h0

/-- `toA` by an inverse of `Z` among the naturals below the modulus (42_curve.md R172). -/
theorem WF.toA_of_unit (h : c.WF) {P : Jac} (hP : P.Canon c.fp) (h0 : P.Z ≠ 0) (hg : Nat.gcd (c.fp.val P.Z) c.fp.m = 1) :
    ∃ (x y : Fe) (zi : Nat), c.toA P = .ok (.pt x y) ∧ c.fp.Canon x ∧ c.fp.Canon y ∧ zi < c.fp.m ∧
      c.fp.val P.Z * zi % c.fp.m = 1 ∧ c.fp.val x = c.fp.val P.X * zi ^ 2 % c.fp.m ∧
      c.fp.val y = c.fp.val P.Y * zi ^ 3 % c.fp.m := by
  have : NeZero c.fp.m := ⟨h.fp.pos.ne'⟩
  rcases h.toA_cases hP with ⟨hz, -⟩ | ⟨-, x, y, zi, hQ, hx, hy, hzi, ex, ey⟩ | ⟨-, hg', -⟩
  · exact absurd hz h0
  · refine ⟨x, y, zi.val, hQ, hx, hy, zi.val_lt, ?_, ?_, ?_⟩
    · refine FieldCtx.natCast_inj_of_lt (Nat.mod_lt _ h.fp.pos) h.fp.two_le ?_
      rw [ZMod.natCast_mod, Nat.cast_mul, ZMod.natCast_zmod_val, mul_comm, Nat.cast_one]
      exact hzi
    · refine h.fp.val_eq_mod_of_toZ hx ?_
      rw [ex, Nat.cast_mul, Nat.cast_pow, ZMod.natCast_zmod_val, h.fp.toZ_val]
    · refine h.fp.val_eq_mod_of_toZ hy ?_
      rw [ey, Nat.cast_mul, Nat.cast_pow, ZMod.natCast_zmod_val, h.fp.toZ_val]
  · exact absurd hg hg'

theorem toA_of_nonunit (c : Curve) {P : Jac} (h0 : P.Z ≠ 0) (hg : Nat.gcd (c.fp.val P.Z) c.fp.m ≠ 1) :
    c.toA P = .error .noInverse := by
  rw [toA, if_neg h0, FieldCtx.inv, if_neg hg, error_bind]

/-- The law of R172: the embedding has `Z = 1`, whose inverse is 1. -/
theorem WF.toA_toJ (h : c.WF) {Q : Affine} (hQ : Q.Canon c.fp) : c.toA (c.toJ Q) = .ok Q := by
  cases Q with
  | inf => exact c.toA_of_Z_eq_zero rfl
  | pt x y =>
    obtain ⟨hx, hy⟩ := canon_pt_iff.1 hQ
    rcases h.toA_cases (h.toJ_spec hQ).1 with ⟨h0, -⟩ | ⟨-, x', y', zi, e, hx', hy', hzi, ex, ey⟩ | ⟨-, hg, -⟩
    · exact absurd h0 h.one_ne_zero
    · simp only [toJ, h.fp.toZ_one, mul_one] at hzi ex ey
      rw [hzi, one_pow, mul_one, h.fp.toZ_inj hx' hx] at ex
      rw [hzi, one_pow, mul_one, h.fp.toZ_inj hy' hy] at ey
      rw [e, ex, ey]
    · simp [toJ, h.fp.val_one] at hg

theorem WF.pmadd_vals_eq_padd (h : c.WF) {P : Jac} (hP : P.Canon c.fp) {Q : Affine} (hQ : Q.Canon c.fp)
    (hPQ : P.Z ≠ 0 ∨ Q ≠ .inf) :
    (c.pmadd P Q).vals c.fp = Values.padd c.vals (P.vals c.fp) (Values.toJ (Q.vals c.fp)) := by
  rw [(h.pmadd_spec hP hQ).2]
  refine Values.pmadd_eq_padd (c := c.vals) h.fp.two_le (h.fp.val_lt hP.1) (h.fp.val_lt hP.2.1) (h.fp.val_lt hP.2.2) (hPQ.imp ?_ ?_)
  · exact mt (h.Z_eq_zero hP).2
  · cases Q <;> simp [Affine.vals]

/-! ## Scalar multiplication by 0, 1 and 2 (42_curve.md R184, R185) -/

theorem pmulRaw_of_zero_or_inf (c : Curve) {k : Nat} {P : Jac} (h : k = 0 ∨ P.Z = 0) : c.pmulRaw k P = c.infJ := if_pos h

theorem pdbl_infJ (c : Curve) : c.pdbl c.infJ = c.infJ := if_pos rfl

theorem infJ_padd (c : Curve) (P : Jac) : c.padd c.infJ P = P := if_pos rfl

/-- The first digit 1 of a scan gives the first entry of the table. -/
theorem mulStep_infJ_one (c : Curve) (P : Jac) : c.mulStep (c.oddTable P) c.infJ 1 = P := by
  have htab : (c.oddTable P).getD ((1 : Int).toNat / 2) c.infJ = P := rfl
  rw [mulStep, pdbl_infJ, if_pos one_pos, infJ_padd, htab]

theorem mulStep_zero (c : Curve) (tab : List Jac) (P : Jac) : c.mulStep tab P 0 = c.pdbl P := rfl

theorem pmulRaw_one (c : Curve) {P : Jac} (hP : P.Z ≠ 0) : c.pmulRaw 1 P = P := by
  have hdigits : (wnaf 1).reverse = [1] := rfl
  rw [pmulRaw, if_neg (not_or.2 ⟨by decide, hP⟩), hdigits, List.foldl_cons, mulStep_infJ_one, List.foldl_nil]

theorem pmulRaw_two (c : Curve) {P : Jac} (hP : P.Z ≠ 0) : c.pmulRaw 2 P = c.pdbl P := by
  have hdigits : (wnaf 2).reverse = [1, 0] := rfl
  rw [pmulRaw, if_neg (not_or.2 ⟨by decide, hP⟩), hdigits, List.foldl_cons, mulStep_infJ_one,
    List.foldl_cons, mulStep_zero, List.foldl_nil]

/-- GSETUP's two validations on values (42_curve.md R199). -/
theorem WF.generatorOk_iff (h : c.WF) {Q : Affine} (hQ : Q.Canon c.fp) :
    c.generatorOk Q = true ↔ Values.oncurve c.vals (Q.vals c.fp) ∧
      (Values.pmulRaw c.vals c.fq.m (Values.toJ (Q.vals c.fp))).Z = 0 := by
  obtain ⟨hJ, hJv⟩ := h.toJ_spec hQ
  obtain ⟨hR, hRv⟩ := h.pmulRaw_spec c.fq.m hJ
  rw [generatorOk, Bool.and_eq_true, beq_iff_eq, h.oncurve_spec hQ, h.Z_eq_zero hR, hRv, hJv]

end Curve

/-! ## The statements -/

/-- Settles O42: the equation is tested on stored forms, whose equality is that of values. -/
theorem pchkAndPeqResults : Obligations.PchkAndPeqResults := by
  unfold Obligations.PchkAndPeqResults
  intro s hi hc
  have hwf := hi.setup.curve_wf hc
  refine ⟨fun sa Q hQ => ⟨_, exec_pchk_of_some hc hQ, hwf.oncurve_spec (hi.regs.a _ _ hQ).2⟩, fun sa1 sa2 Q1 Q2 hQ1 hQ2 => ?_⟩
  rw [exec_peq_of_some hc hQ1 hQ2, hwf.fp.peq_eq_decide (hi.regs.a _ _ hQ1).2 (hi.regs.a _ _ hQ2).2]
  rfl

/-- Settles O43: `toA` in its three cases, and its law on embedded points. -/
theorem ptojAndPtoaResults : Obligations.PtojAndPtoaResults := by
  unfold Obligations.PtojAndPtoaResults
  intro s hi hc
  have hwf := hi.setup.curve_wf hc
  refine ⟨fun jd sa Q hQ => ⟨_, exec_ptoj_of_some hc hQ, hwf.toJ_spec (hi.regs.a _ _ hQ).2⟩,
    fun ad js P hP => ⟨fun h0 => ?_, fun h0 hg => ?_, fun h0 hg => ?_⟩, fun jd sa ad Q hQ => ?_⟩
  · exact exec_ptoa_of_ok hc hP (s.curve.toA_of_Z_eq_zero h0)
  · obtain ⟨x, y, zi, hQ, hspec⟩ := hwf.toA_of_unit (hi.regs.j _ _ hP).2 h0 hg
    exact ⟨x, y, zi, exec_ptoa_of_ok hc hP hQ, hspec⟩
  · exact exec_ptoa_of_error hc hP (s.curve.toA_of_nonunit h0 hg)
  · have hback : s.curve.toA (s.curve.toJ Q) = .ok Q := hwf.toA_toJ (hi.regs.a _ _ hQ).2
    exact ⟨_, _, exec_ptoj_of_some hc hQ,
      exec_ptoa_of_ok (s := (s.putJ jd (s.curve.toJ Q)).complete) hc (writeReg_get_same ..) hback, writeReg_get_same ..⟩

/-- Settles O44: both functions follow their rule on values. -/
theorem pnegAndPdblResults : Obligations.PnegAndPdblResults := by
  unfold Obligations.PnegAndPdblResults
  intro s jd js P hi hc hP
  have hwf := hi.setup.curve_wf hc
  obtain ⟨-, hcanon⟩ := hi.regs.j _ _ hP
  exact ⟨⟨_, exec_pneg_of_some hc hP, hwf.pneg_spec hcanon⟩, ⟨_, exec_pdbl_of_some hc hP, hwf.pdbl_spec hcanon⟩⟩

/-- Settles O45: both functions follow their rule on values, and the rules agree where `Z2 = 1`. -/
theorem paddAndPmaddResults : Obligations.PaddAndPmaddResults := by
  unfold Obligations.PaddAndPmaddResults
  intro s jd js1 P hi hc hP
  have hwf := hi.setup.curve_wf hc
  obtain ⟨-, hcanon⟩ := hi.regs.j _ _ hP
  refine ⟨fun js2 Q hQ => ⟨_, exec_padd_of_some hc hP hQ, hwf.padd_spec hcanon (hi.regs.j _ _ hQ).2⟩, fun sa2 Q hQ => ?_⟩
  obtain ⟨-, hcanonQ⟩ := hi.regs.a _ _ hQ
  obtain ⟨hR, hRv⟩ := hwf.pmadd_spec hcanon hcanonQ
  exact ⟨_, exec_pmadd_of_some hc hP hQ, hR, hRv, hwf.pmadd_vals_eq_padd hcanon hcanonQ⟩

/-- Settles O47: the scan follows its rule on values, and the digits of 0, 1 and 2 are none, 1, and 0 then 1. -/
theorem pmulResult : Obligations.PmulResult := by
  unfold Obligations.PmulResult
  intro s jd es js k P hi hc hk hP
  have hwf := hi.setup.curve_wf hc
  obtain ⟨-, hcanon⟩ := hi.regs.j _ _ hP
  obtain ⟨hR, hRv⟩ := hwf.pmul_spec (s.valOf k) hcanon
  have hraw {n : Nat} (hn : s.valOf k % s.fld1.m = n) : s.curve.pmul (s.valOf k) P = s.curve.pmulRaw n P := by
    rw [Curve.pmul, State.curve_fq, hn]
  refine ⟨_, exec_pmul_of_some hc hk hP, hR, hRv, fun h0 => ?_, fun h1 hZ => ?_, fun h2 hZ => ?_⟩
  · rw [hraw rfl, s.curve.pmulRaw_of_zero_or_inf h0]
    exact hwf.infJ_spec.2
  · rw [hraw h1, s.curve.pmulRaw_one hZ]
  · rw [hraw h2, s.curve.pmulRaw_two hZ]
    exact (hwf.pdbl_spec hcanon).2

/-- Settles O49: the outcome of the two validations is both what GSETUP writes and what it stores by. -/
theorem gsetupAndAgenResults : Obligations.GsetupAndAgenResults := by
  unfold Obligations.GsetupAndAgenResults
  intro s hi hc
  have hwf := hi.setup.curve_wf hc
  have hfp : s.fld0.WF := hwf.fp
  refine ⟨fun q => ?_, fun ad => ⟨exec_agen_of_ok hc, exec_agen_of_none hc⟩⟩
  obtain ⟨b, hb⟩ : ∃ b, s.curve.generatorOk (pointOfRaw s.fld0 q) = b := ⟨_, rfl⟩
  refine ⟨s.fld0.ofRaw q.x, s.fld0.ofRaw q.y, b, ?_, hfp.canon_ofRaw q.x, hfp.canon_ofRaw q.y, hfp.val_ofRaw q.x,
    hfp.val_ofRaw q.y, ?_⟩
  · rw [exec_gsetup_of_ok hc q hb]
    cases b <;> rfl
  · rw [← hb]
    exact hwf.generatorOk_iff (pointOfRaw_canon hfp q)

end Sys2Proof.Machine
end

section
/-! PROOFS of the statement on the group of the curve (42_curve.md R186). A triple with `Z` not 0 represents the point whose
coordinates times the powers of `Z` it stores. Each curve function then follows the group's own formulas, and the scan of a scalar's
digits evaluates them at 2. -/

namespace Sys2Proof.Machine

/-! ## Stored residues (41_field.md R130, R145) -/

/-- A canonical stored form of a residue. -/
def FieldCtx.Stores (f : FieldCtx) (x : Fe) (u : ZMod f.m) : Prop := f.Canon x ∧ f.toZ x = u

namespace FieldCtx.Stores

variable {f : FieldCtx} {x y : Fe} {u v : ZMod f.m}

theorem of_canon (hx : f.Canon x) : f.Stores x (f.toZ x) := ⟨hx, rfl⟩

theorem congr (hx : f.Stores x u) (e : u = v) : f.Stores x v := e ▸ hx

theorem zero (h : f.WF) : f.Stores 0 0 := ⟨h.canon_zero, f.toZ_zero⟩

theorem one (h : f.WF) : f.Stores f.one 1 := ⟨h.canon_one, h.toZ_one⟩

theorem small (h : f.WF) (n : Nat) : f.Stores (f.small n) n := ⟨h.canon_small n, h.toZ_small n⟩

theorem add (h : f.WF) (hx : f.Stores x u) (hy : f.Stores y v) : f.Stores (f.add x y) (u + v) :=
  ⟨h.canon_add x y, by rw [h.toZ_add, hx.2, hy.2]⟩

theorem sub (hx : f.Stores x u) (hy : f.Stores y v) : f.Stores (f.sub x y) (u - v) :=
  ⟨WF.canon_sub hx.1 hy.1, by rw [WF.toZ_sub hx.1 hy.1, hx.2, hy.2]⟩

theorem neg (h : f.WF) (hx : f.Stores x u) : f.Stores (f.neg x) (-u) := ⟨h.canon_neg x, by rw [h.toZ_neg hx.1, hx.2]⟩

theorem mul (h : f.WF) (hx : f.Stores x u) (hy : f.Stores y v) : f.Stores (f.mul x y) (u * v) :=
  ⟨h.canon_mul hx.1 y, by rw [h.toZ_mul hx.1, hx.2, hy.2]⟩

/-- Two stored forms are equal exactly when their residues are. -/
theorem eq_iff (h : f.WF) (hx : f.Stores x u) (hy : f.Stores y v) : x = y ↔ u = v := by
  rw [← hx.2, ← hy.2, h.toZ_inj hx.1 hy.1]

theorem eq_zero_iff (h : f.WF) (hx : f.Stores x u) : x = 0 ↔ u = 0 := hx.eq_iff h (zero h)

end FieldCtx.Stores

/-- A triple of stored forms of three residues. -/
structure Jac.Stores (f : FieldCtx) (P : Jac) (X Y Z : ZMod f.m) : Prop where
  X : f.Stores P.X X
  Y : f.Stores P.Y Y
  Z : f.Stores P.Z Z

namespace Jac.Stores

variable {f : FieldCtx} {P : Jac} {X Y Z X' Y' Z' : ZMod f.m}

theorem of_canon (hP : P.Canon f) : P.Stores f (f.toZ P.X) (f.toZ P.Y) (f.toZ P.Z) :=
  ⟨.of_canon hP.1, .of_canon hP.2.1, .of_canon hP.2.2⟩

theorem canon (hP : P.Stores f X Y Z) : P.Canon f := ⟨hP.X.1, hP.Y.1, hP.Z.1⟩

theorem congr (hP : P.Stores f X Y Z) (eX : X = X') (eY : Y = Y') (eZ : Z = Z') : P.Stores f X' Y' Z' :=
  ⟨hP.X.congr eX, hP.Y.congr eY, hP.Z.congr eZ⟩

end Jac.Stores

namespace Curve

variable {c : Curve}

/-! ## The formulas in the ring of residues (42_curve.md R176, R177) -/

theorem infJ_stores (h : c.WF) : c.infJ.Stores c.fp 0 1 0 := ⟨.zero h.fp, .one h.fp, .zero h.fp⟩

theorem pneg_stores (h : c.WF) {P : Jac} {X Y Z : ZMod c.fp.m} (hP : P.Stores c.fp X Y Z) : (c.pneg P).Stores c.fp X (-Y) Z :=
  ⟨hP.X, hP.Y.neg h.fp, hP.Z⟩

/-- The term in `A`, or its absence when `A` is 0 (42_curve.md R180). -/
theorem addA_stores (h : c.WF) {x y : Fe} {u v : ZMod c.fp.m} (hx : c.fp.Stores x u) (hy : c.fp.Stores y v) :
    c.fp.Stores (if c.crv.azero then x else c.fp.add x (c.fp.mul c.crv.a y)) (u + c.fp.toZ c.crv.a * v) := by
  cases hz : c.crv.azero with
  | false => exact hx.add h.fp (.mul h.fp (.of_canon h.a) hy)
  | true =>
    have ha : c.crv.a = 0 := beq_iff_eq.1 (h.azero ▸ hz)
    rw [if_pos rfl, ha, FieldCtx.toZ_zero, zero_mul, add_zero]
    exact hx

theorem pdbl_of_Z_eq_zero {P : Jac} (h0 : P.Z = 0) : c.pdbl P = c.infJ := if_pos h0

/-- The doubling formulas, with `S` and `M` of R176. -/
theorem pdbl_stores (h : c.WF) {P : Jac} {X Y Z S M : ZMod c.fp.m} (hP : P.Stores c.fp X Y Z) (h0 : Z ≠ 0)
    (hS : 4 * (X * Y ^ 2) = S) (hM : 3 * X ^ 2 + c.fp.toZ c.crv.a * Z ^ 4 = M) :
    (c.pdbl P).Stores c.fp (M ^ 2 - 2 * S) (M * (S - (M ^ 2 - 2 * S)) - 8 * Y ^ 4) (2 * (Y * Z)) := by
  have f := h.fp
  obtain ⟨hX, hY, hZ⟩ := hP
  have hyy := hY.mul f hY
  have hzz := hZ.mul f hZ
  have hs : c.fp.Stores _ S := ((FieldCtx.Stores.small f 4).mul f (hX.mul f hyy)).congr (by rw [← hS]; push_cast; ring)
  have hm : c.fp.Stores _ M :=
    (addA_stores h ((FieldCtx.Stores.small f 3).mul f (hX.mul f hX)) (hzz.mul f hzz)).congr (by rw [← hM]; push_cast; ring)
  have hx3 := (hm.mul f hm).sub (hs.add f hs)
  have hy3 := (hm.mul f (hs.sub hx3)).sub ((FieldCtx.Stores.small f 8).mul f (hyy.mul f hyy))
  have hz3 := (FieldCtx.Stores.small f 2).mul f (hY.mul f hZ)
  rw [pdbl, if_neg (mt (hZ.eq_zero_iff f).1 h0)]
  exact Jac.Stores.congr ⟨hx3, hy3, hz3⟩ (by ring) (by push_cast; ring) (by push_cast; ring)

/-- The addition formulas on different `U1` and `U2`, with `H` and `R` of R177. -/
theorem addTail_stores (h : c.WF) (P : Jac) {u1 u2 s1 s2 zz : Fe} {U S U2 S2 ZZ H R : ZMod c.fp.m} (hu1 : c.fp.Stores u1 U)
    (hu2 : c.fp.Stores u2 U2) (hs1 : c.fp.Stores s1 S) (hs2 : c.fp.Stores s2 S2) (hzz : c.fp.Stores zz ZZ) (hne : U ≠ U2)
    (hH : U2 - U = H) (hR : S2 - S = R) :
    (c.addTail P u1 u2 s1 s2 zz).Stores c.fp (R ^ 2 - H ^ 3 - 2 * (U * H ^ 2))
      (R * (U * H ^ 2 - (R ^ 2 - H ^ 3 - 2 * (U * H ^ 2))) - S * H ^ 3) (H * ZZ) := by
  have f := h.fp
  have hh : c.fp.Stores _ H := (hu2.sub hu1).congr hH
  have hr : c.fp.Stores _ R := (hs2.sub hs1).congr hR
  have hhh := hh.mul f hh
  have hhhh := hh.mul f hhh
  have hv := hu1.mul f hhh
  have hx3 := ((hr.mul f hr).sub hhhh).sub (hv.add f hv)
  have hy3 := (hr.mul f (hv.sub hx3)).sub (hs1.mul f hhhh)
  have hz3 := hh.mul f hzz
  rw [addTail, if_neg (mt (hu1.eq_iff f hu2).1 hne)]
  exact Jac.Stores.congr ⟨hx3, hy3, hz3⟩ (by ring) (by ring) rfl

/-- Unless both operands are infinity, the mixed addition is the addition of the embedded point (42_curve.md R178). -/
theorem pmadd_eq_padd (h : c.WF) {P : Jac} (hP : P.Canon c.fp) {Q : Affine} (hQ : Q.Canon c.fp) (hPQ : P.Z ≠ 0 ∨ Q ≠ .inf) :
    c.pmadd P Q = c.padd P (c.toJ Q) := by
  obtain ⟨hJ, hJv⟩ := h.toJ_spec hQ
  obtain ⟨hR, hRv⟩ := h.padd_spec hP hJ
  refine Jac.eq_of_vals h.fp (h.pmadd_spec hP hQ).1 hR ?_
  rw [h.pmadd_vals_eq_padd hP hQ hPQ, hRv, hJv]

/-! ## Points of the group (42_curve.md R186) -/

@[simp] theorem weierstrass_a₁ (c : Curve) : c.weierstrass.a₁ = 0 := rfl
@[simp] theorem weierstrass_a₂ (c : Curve) : c.weierstrass.a₂ = 0 := rfl
@[simp] theorem weierstrass_a₃ (c : Curve) : c.weierstrass.a₃ = 0 := rfl
@[simp] theorem weierstrass_a₄ (c : Curve) : c.weierstrass.a₄ = c.fp.toZ c.crv.a := rfl
@[simp] theorem weierstrass_a₆ (c : Curve) : c.weierstrass.a₆ = c.fp.toZ c.crv.b := rfl

theorem weierstrass_Δ (c : Curve) : c.weierstrass.Δ = -16 * (4 * c.fp.toZ c.crv.a ^ 3 + 27 * c.fp.toZ c.crv.b ^ 2) := by
  simp only [WeierstrassCurve.Δ, WeierstrassCurve.b₂, WeierstrassCurve.b₄, WeierstrassCurve.b₆, WeierstrassCurve.b₈,
    weierstrass_a₁, weierstrass_a₂, weierstrass_a₃, weierstrass_a₄, weierstrass_a₆]
  ring

theorem equation_of_oncurve (h : c.WF) {x y : Fe} (hQ : (Affine.pt x y).Canon c.fp) (hon : c.oncurve (.pt x y) = true) :
    c.weierstrass.Equation (c.fp.toZ x) (c.fp.toZ y) := by
  have hcast := congrArg (Nat.cast : Nat → ZMod c.fp.m) ((h.oncurve_spec hQ).1 hon)
  simp only [vals, Values.fmul, Values.fadd, ZMod.natCast_mod, Nat.cast_mul, Nat.cast_add, h.fp.toZ_val] at hcast
  rw [WeierstrassCurve.Affine.equation_iff, weierstrass_a₁, weierstrass_a₂, weierstrass_a₃, weierstrass_a₄, weierstrass_a₆]
  linear_combination hcast

/-- A canonical triple that stores the coordinates of a point of the group times the powers of a `Z` not 0; for the point at
infinity, any canonical triple with `Z = 0` (42_curve.md R170). -/
def Represents (c : Curve) (P : Jac) : c.weierstrass.Point → Prop
  | .zero => P.Canon c.fp ∧ P.Z = 0
  | .some x y _ => ∃ z, z ≠ 0 ∧ P.Stores c.fp (x * z ^ 2) (y * z ^ 3) z

theorem represents_zero_iff {P : Jac} : c.Represents P 0 ↔ P.Canon c.fp ∧ P.Z = 0 := Iff.rfl

theorem infJ_represents (h : c.WF) : c.Represents c.infJ 0 := represents_zero_iff.2 ⟨h.infJ_spec.1, rfl⟩

theorem Represents.canon {P : Jac} {pt : c.weierstrass.Point} (hP : c.Represents P pt) : P.Canon c.fp := by
  cases pt with
  | zero => exact hP.1
  | some x y hxy =>
    obtain ⟨z, -, hS⟩ := hP
    exact hS.canon

/-- Infinity alone is represented with `Z = 0`. -/
theorem Represents.Z_eq_zero_iff (h : c.WF) {P : Jac} {pt : c.weierstrass.Point} (hP : c.Represents P pt) : P.Z = 0 ↔ pt = 0 := by
  cases pt with
  | zero => exact iff_of_true hP.2 rfl
  | some x y hxy =>
    obtain ⟨z, hz, hS⟩ := hP
    exact iff_of_false (mt (hS.Z.eq_zero_iff h.fp).1 hz) (WeierstrassCurve.Affine.Point.some_ne_zero hxy)

theorem jacStandsFor_iff {P : Jac} {Q : Affine} (hQ : c.toA P = .ok Q) {pt : c.weierstrass.Point} :
    c.JacStandsFor P pt ↔ c.StandsFor Q pt := by
  simp [JacStandsFor, hQ]

section
variable [Fact (Nat.Prime c.fp.m)]

/-- Over a prime field `toA` cannot fault: every `Z` but 0 has an inverse (42_curve.md R172). -/
theorem toA_of_prime (h : c.WF) {P : Jac} (hP : P.Canon c.fp) (h0 : P.Z ≠ 0) :
    ∃ x y, c.toA P = .ok (.pt x y) ∧ c.fp.toZ P.X = c.fp.toZ x * c.fp.toZ P.Z ^ 2 ∧
      c.fp.toZ P.Y = c.fp.toZ y * c.fp.toZ P.Z ^ 3 := by
  rcases h.toA_cases hP with ⟨hz, -⟩ | ⟨-, x, y, zi, e, -, -, hzi, ex, ey⟩ | ⟨-, hg, -⟩
  · exact absurd hz h0
  · refine ⟨x, y, e, ?_, ?_⟩
    · rw [ex, mul_assoc, ← mul_pow, hzi, one_pow, mul_one]
    · rw [ey, mul_assoc, ← mul_pow, hzi, one_pow, mul_one]
  · rw [h.fp.gcd_val_ne_one_iff Fact.out hP.2.2, h.fp.val_eq_zero hP.2.2] at hg
    exact absurd hg h0

/-- Over a prime field a canonical triple represents the point that its affine image stands for. -/
theorem represents_iff (h : c.WF) {P : Jac} (hP : P.Canon c.fp) {pt : c.weierstrass.Point} :
    c.Represents P pt ↔ c.JacStandsFor P pt := by
  by_cases h0 : P.Z = 0
  · rw [jacStandsFor_iff (c.toA_of_Z_eq_zero h0)]
    cases pt with
    | zero => exact iff_of_true ⟨hP, h0⟩ rfl
    | some x y hxy =>
      refine iff_of_false (fun hR => ?_) fun ⟨_, _, e, _⟩ => nomatch e
      exact WeierstrassCurve.Affine.Point.some_ne_zero hxy ((hR.Z_eq_zero_iff h).1 h0)
  · obtain ⟨x', y', hQ, eX, eY⟩ := toA_of_prime h hP h0
    rw [jacStandsFor_iff hQ]
    cases pt with
    | zero => exact iff_of_false (fun hR => h0 hR.2) fun e => nomatch e
    | some x y hxy =>
      constructor
      · rintro ⟨z, hz, hS⟩
        rw [hS.X.2, hS.Z.2] at eX
        rw [hS.Y.2, hS.Z.2] at eY
        exact ⟨x', y', rfl, (mul_right_cancel₀ (pow_ne_zero 2 hz) eX).symm, (mul_right_cancel₀ (pow_ne_zero 3 hz) eY).symm⟩
      · rintro ⟨_, _, e, rfl, rfl⟩
        cases e
        exact ⟨_, mt (h.fp.toZ_eq_zero hP.2.2).1 h0, (Jac.Stores.of_canon hP).congr eX eY rfl⟩

/-- The discriminant loses only a factor that is a power of 2, a unit modulo an odd number. -/
theorem weierstrass_Δ_ne_zero (h : c.WF) (hdisc : 4 * c.fp.toZ c.crv.a ^ 3 + 27 * c.fp.toZ c.crv.b ^ 2 ≠ 0) :
    c.weierstrass.Δ ≠ 0 := by
  have htwo : (2 : ZMod c.fp.m) ≠ 0 := fun e => by
    have hdvd := (ZMod.natCast_eq_zero_iff 2 c.fp.m).1 (by exact_mod_cast e)
    have hle := Nat.le_of_dvd two_pos hdvd
    have hge := h.fp.1
    omega
  rw [weierstrass_Δ, show (-16 : ZMod c.fp.m) = -2 ^ 4 by norm_num]
  exact mul_ne_zero (neg_ne_zero.2 (pow_ne_zero 4 htwo)) hdisc

/-- On a curve of nonzero discriminant a pair that satisfies the equation stands for a point of the group. -/
theorem standsFor_of_oncurve (h : c.WF) (hdisc : 4 * c.fp.toZ c.crv.a ^ 3 + 27 * c.fp.toZ c.crv.b ^ 2 ≠ 0) {Q : Affine}
    (hQ : Q.Canon c.fp) (hon : c.oncurve Q = true) : ∃ pt, c.StandsFor Q pt := by
  cases Q with
  | inf => cases hon
  | pt x y =>
    have hnonsing := (WeierstrassCurve.Affine.equation_iff_nonsingular_of_Δ_ne_zero (weierstrass_Δ_ne_zero h hdisc)).1
      (equation_of_oncurve h hQ hon)
    exact ⟨.some _ _ hnonsing, x, y, rfl, rfl, rfl⟩

theorem toJ_represents (h : c.WF) {Q : Affine} (hQ : Q.Canon c.fp) {pt : c.weierstrass.Point} (hpt : c.StandsFor Q pt) :
    c.Represents (c.toJ Q) pt :=
  (represents_iff h (h.toJ_spec hQ).1).2 ((jacStandsFor_iff (h.toA_toJ hQ)).2 hpt)

theorem pneg_represents (h : c.WF) {P : Jac} {pt : c.weierstrass.Point} (hP : c.Represents P pt) :
    c.Represents (c.pneg P) (-pt) := by
  cases pt with
  | zero => exact represents_zero_iff.2 ⟨(h.pneg_spec hP.1).1, hP.2⟩
  | some x y hxy =>
    obtain ⟨z, hz, hS⟩ := hP
    refine ⟨z, hz, (pneg_stores h hS).congr rfl ?_ rfl⟩
    simp only [WeierstrassCurve.Affine.negY, weierstrass_a₁, weierstrass_a₃]
    ring

/-- The chord or tangent of slope `l` through two points gives their sum. -/
theorem represents_add_of_stores {R : Jac} {x₁ y₁ x₂ y₂ l z : ZMod c.fp.m} {h₁ : c.weierstrass.Nonsingular x₁ y₁}
    {h₂ : c.weierstrass.Nonsingular x₂ y₂} (hne : ¬ (x₁ = x₂ ∧ y₁ = c.weierstrass.negY x₂ y₂))
    (hl : c.weierstrass.slope x₁ x₂ y₁ y₂ = l) (hz : z ≠ 0)
    (hR : R.Stores c.fp ((l ^ 2 - x₁ - x₂) * z ^ 2) ((l * (x₁ - (l ^ 2 - x₁ - x₂)) - y₁) * z ^ 3) z) :
    c.Represents R (.some x₁ y₁ h₁ + .some x₂ y₂ h₂) := by
  rw [WeierstrassCurve.Affine.Point.add_some hne]
  refine ⟨z, hz, hR.congr ?_ ?_ rfl⟩
  all_goals
    simp only [hl, WeierstrassCurve.Affine.addX, WeierstrassCurve.Affine.addY, WeierstrassCurve.Affine.negAddY,
      WeierstrassCurve.Affine.negY, weierstrass_a₁, weierstrass_a₂, weierstrass_a₃]
    ring

/-- The doubling formulas follow the tangent: its slope times the new `Z` is `M`. -/
theorem pdbl_represents (h : c.WF) {P : Jac} {pt : c.weierstrass.Point} (hP : c.Represents P pt) :
    c.Represents (c.pdbl P) (pt + pt) := by
  cases pt with
  | zero =>
    rw [pdbl_of_Z_eq_zero hP.2]
    exact infJ_represents h
  | some x y hxy =>
    obtain ⟨z, hz, hS⟩ := hP
    have hneg : c.weierstrass.negY x y = -y := by simp [WeierstrassCurve.Affine.negY]
    by_cases hy : 2 * y = 0
    · have hyneg : y = c.weierstrass.negY x y := by rw [hneg]; linear_combination hy
      have hdbl := pdbl_stores h hS hz rfl rfl
      rw [WeierstrassCurve.Affine.Point.add_self_of_Y_eq hyneg]
      refine represents_zero_iff.2 ⟨hdbl.canon, (hdbl.Z.eq_zero_iff h.fp).2 ?_⟩
      linear_combination z ^ 4 * hy
    · have hyneg : y ≠ c.weierstrass.negY x y := by
        rw [hneg]
        exact fun e => hy (by linear_combination e)
      have hslope : c.weierstrass.slope x x y y = (3 * x ^ 2 + c.fp.toZ c.crv.a) / (2 * y) := by
        rw [WeierstrassCurve.Affine.slope_of_Y_ne rfl hyneg, hneg]
        simp only [weierstrass_a₁, weierstrass_a₂, weierstrass_a₄]
        ring_nf
      have hnum := div_mul_cancel₀ (3 * x ^ 2 + c.fp.toZ c.crv.a) hy
      rw [← hslope] at hnum
      have hdbl := pdbl_stores h hS hz (S := x * (2 * (y * z ^ 4)) ^ 2)
        (M := c.weierstrass.slope x x y y * (2 * (y * z ^ 4))) (by ring) (by linear_combination -z ^ 4 * hnum)
      refine represents_add_of_stores (z := 2 * (y * z ^ 4)) (fun e => hyneg e.2) rfl ?_ (hdbl.congr ?_ ?_ ?_)
      · rw [← mul_assoc]
        exact mul_ne_zero hy (pow_ne_zero 4 hz)
      all_goals ring

/-- The addition formulas follow the chord: its slope times the new `Z` is `R`. -/
theorem padd_represents (h : c.WF) {P P' : Jac} {pt pt' : c.weierstrass.Point} (hP : c.Represents P pt)
    (hP' : c.Represents P' pt') : c.Represents (c.padd P P') (pt + pt') := by
  have f := h.fp
  by_cases h0 : P.Z = 0
  · rw [(hP.Z_eq_zero_iff h).1 h0, zero_add, padd, if_pos h0]
    exact hP'
  by_cases h0' : P'.Z = 0
  · rw [(hP'.Z_eq_zero_iff h).1 h0', add_zero, padd, if_neg h0, if_pos h0']
    exact hP
  have hdbl := pdbl_represents h hP
  rw [padd, if_neg h0, if_neg h0']
  cases pt with
  | zero => exact absurd hP.2 h0
  | some x y hxy =>
  cases pt' with
  | zero => exact absurd hP'.2 h0'
  | some x' y' hxy' =>
  obtain ⟨z, hz, hS⟩ := hP
  obtain ⟨z', hz', hS'⟩ := hP'
  have hscale : z * z' ≠ 0 := mul_ne_zero hz hz'
  have hzz := hS.Z.mul f hS.Z
  have hzz' := hS'.Z.mul f hS'.Z
  have hu : c.fp.Stores _ (x * (z * z') ^ 2) := (hS.X.mul f hzz').congr (by ring)
  have hu' : c.fp.Stores _ (x' * (z * z') ^ 2) := (hS'.X.mul f hzz).congr (by ring)
  have hs : c.fp.Stores _ (y * (z * z') ^ 3) := (hS.Y.mul f (hS'.Z.mul f hzz')).congr (by ring)
  have hs' : c.fp.Stores _ (y' * (z * z') ^ 3) := (hS'.Y.mul f (hS.Z.mul f hzz)).congr (by ring)
  by_cases hx : x = x'
  · subst hx
    by_cases hy : y = y'
    · subst hy
      rw [addTail, if_pos ((hu.eq_iff f hu').2 rfl), if_pos ((hs.eq_iff f hs').2 rfl)]
      exact hdbl
    · have hyneg := (WeierstrassCurve.Affine.Y_eq_of_X_eq hxy.1 hxy'.1 rfl).resolve_left hy
      have hdiff := mt (hs.eq_iff f hs').1 (mt (mul_right_cancel₀ (pow_ne_zero 3 hscale)) hy)
      rw [addTail, if_pos ((hu.eq_iff f hu').2 rfl), if_neg hdiff, WeierstrassCurve.Affine.Point.add_of_Y_eq rfl hyneg]
      exact infJ_represents h
  · have hchord : x' - x ≠ 0 := sub_ne_zero.2 (Ne.symm hx)
    have hnum : c.weierstrass.slope x x' y y' * (x' - x) = y' - y := by
      rw [WeierstrassCurve.Affine.slope_of_X_ne hx, ← neg_sub x' x, ← neg_sub y' y, neg_div_neg_eq, div_mul_cancel₀ _ hchord]
    have hsum := addTail_stores h P hu hu' hs hs' (hS.Z.mul f hS'.Z) (mt (mul_right_cancel₀ (pow_ne_zero 2 hscale)) hx)
      (H := (x' - x) * (z * z') ^ 2) (R := c.weierstrass.slope x x' y y' * ((x' - x) * (z * z') ^ 3))
      (by ring) (by linear_combination -(z * z') ^ 3 * hnum)
    refine represents_add_of_stores (z := (x' - x) * (z * z') ^ 3) (fun e => hx e.1) rfl
      (mul_ne_zero hchord (pow_ne_zero 3 hscale)) (hsum.congr ?_ ?_ ?_)
    all_goals ring

theorem pmadd_represents (h : c.WF) {P : Jac} {Q : Affine} {pt pt' : c.weierstrass.Point} (hP : c.Represents P pt)
    (hQ : Q.Canon c.fp) (hpt' : c.StandsFor Q pt') : c.Represents (c.pmadd P Q) (pt + pt') := by
  have hJ := toJ_represents h hQ hpt'
  by_cases hPQ : P.Z ≠ 0 ∨ Q ≠ .inf
  · rw [pmadd_eq_padd h hP.canon hQ hPQ]
    exact padd_represents h hP hJ
  · obtain ⟨-, hQinf⟩ := not_or.1 hPQ
    obtain rfl := not_not.1 hQinf
    rw [(hJ.Z_eq_zero_iff h).1 rfl, add_zero]
    exact hP

/-! ## Scalar multiplication (42_curve.md R181, R184, R186) -/

/-- Entry `k` after the `i`-th of the table of odd multiples. -/
theorem oddChain_represents (h : c.WF) {P : Jac} {pt : c.weierstrass.Point} (hP : c.Represents P pt) :
    ∀ {n i k : Nat} {cur : Jac}, c.Represents cur ((2 * i + 1) • pt) → k < n →
      c.Represents ((c.oddChain (c.pdbl P) n cur).getD k c.infJ) ((2 * (i + k) + 1) • pt) := by
  intro n
  induction n with
  | zero => intro i k cur _ hk; cases hk
  | succ n ih =>
    intro i k cur hcur hk
    cases k with
    | zero => exact hcur
    | succ k =>
      have hnext : c.Represents (c.padd cur (c.pdbl P)) ((2 * (i + 1) + 1) • pt) := by
        have hsum := padd_represents h hcur (pdbl_represents h hP)
        rwa [← two_nsmul, ← add_nsmul, show 2 * i + 1 + 2 = 2 * (i + 1) + 1 by ring] at hsum
      have hentry := ih hnext (Nat.lt_of_succ_lt_succ hk)
      rwa [show i + 1 + k = i + (k + 1) by ring] at hentry

theorem oddTable_represents (h : c.WF) {P : Jac} {pt : c.weierstrass.Point} (hP : c.Represents P pt) {k : Nat} (hk : k < 8) :
    c.Represents ((c.oddTable P).getD k c.infJ) ((2 * k + 1) • pt) := by
  have hfirst : c.Represents P ((2 * 0 + 1) • pt) := by rwa [Nat.mul_zero, Nat.zero_add, one_nsmul]
  have hentry := oddChain_represents h hP hfirst hk
  rwa [Nat.zero_add] at hentry

/-- One digit of the scan doubles and adds the digit's multiple. -/
theorem mulStep_represents (h : c.WF) {P acc : Jac} {pt sum : c.weierstrass.Point} (hP : c.Represents P pt)
    (hacc : c.Represents acc sum) {t : Int} (hodd : t ≠ 0 → t % 2 = 1) (hlow : -15 ≤ t) (hhigh : t ≤ 15) :
    c.Represents (c.mulStep (c.oddTable P) acc t) (t • pt + (2 : Int) • sum) := by
  have hdbl := pdbl_represents h hacc
  rw [← two_zsmul] at hdbl
  rw [add_comm, mulStep]
  by_cases hpos : 0 < t
  · obtain ⟨n, rfl⟩ : ∃ n : Nat, t = 2 * n + 1 := ⟨t.toNat / 2, by have := hodd hpos.ne'; omega⟩
    have hentry := oddTable_represents h hP (k := n) (by omega)
    rw [if_pos hpos, show (2 * (n : Int) + 1).toNat / 2 = n by omega]
    exact padd_represents h hdbl (by exact_mod_cast hentry)
  · by_cases hneg : t < 0
    · obtain ⟨n, rfl⟩ : ∃ n : Nat, t = -(2 * n + 1) := ⟨(-t).toNat / 2, by have := hodd hneg.ne; omega⟩
      have hentry := pneg_represents h (oddTable_represents h hP (k := n) (by omega))
      rw [if_neg hpos, if_pos hneg, show (-(-(2 * (n : Int) + 1))).toNat / 2 = n by omega, neg_zsmul]
      exact padd_represents h hdbl (by exact_mod_cast hentry)
    · rw [if_neg hpos, if_neg hneg, show t = 0 by omega, zero_zsmul, add_zero]
      exact hdbl

/-- The scan from the most significant digit evaluates the digits at 2. -/
theorem mulScan_represents (h : c.WF) {P : Jac} {pt : c.weierstrass.Point} (hP : c.Represents P pt) :
    ∀ {ds : List Int}, (∀ t ∈ ds, (t ≠ 0 → t % 2 = 1) ∧ -15 ≤ t ∧ t ≤ 15) →
      c.Represents (ds.reverse.foldl (c.mulStep (c.oddTable P)) c.infJ) (ds.foldr (fun t acc => t + 2 * acc) 0 • pt) := by
  intro ds
  induction ds with
  | nil =>
    intro _
    rw [List.foldr_nil, zero_zsmul]
    exact infJ_represents h
  | cons t ds ih =>
    intro hds
    obtain ⟨hodd, hlow, hhigh⟩ := hds t List.mem_cons_self
    have hrest := ih fun t' ht' => hds t' (List.mem_cons_of_mem t ht')
    rw [List.reverse_cons, List.foldl_append, List.foldr_cons, add_zsmul, mul_zsmul]
    exact mulStep_represents h hP hrest hodd hlow hhigh

/-- The digits spell the scalar, so the scan gives its multiple. -/
theorem pmulRaw_represents (h : c.WF) {P : Jac} {pt : c.weierstrass.Point} (hP : c.Represents P pt) {k : Nat} (hk : k < 2 ^ 256) :
    c.Represents (c.pmulRaw k P) (k • pt) := by
  by_cases h0 : k = 0 ∨ P.Z = 0
  · have hzero : k • pt = 0 := by
      rcases h0 with rfl | hZ
      · exact zero_nsmul pt
      · rw [(hP.Z_eq_zero_iff h).1 hZ, nsmul_zero]
    rw [c.pmulRaw_of_zero_or_inf h0, hzero]
    exact infJ_represents h
  · obtain ⟨hspells, -, hdigits⟩ := wnafSpellsTheScalar.2 k hk
    have hscan := mulScan_represents h hP (ds := wnaf k) fun t ht => by
      obtain ⟨i, hi⟩ := List.mem_iff_getElem?.1 ht
      exact ⟨fun h0 => (hdigits i t hi h0).1, wnaf_range k t ht⟩
    rw [hspells, natCast_zsmul] at hscan
    rwa [pmulRaw, if_neg h0]

end

end Curve

/-! ## The statement -/

/-- Settles O48: a canonical triple represents what its affine image stands for, and every function follows the group on what is
represented. -/
theorem curveFunctionsAreTheGroup : Obligations.CurveFunctionsAreTheGroup := by
  unfold Obligations.CurveFunctionsAreTheGroup
  intro c _ h hdisc
  have stands {R : Jac} {pt : c.weierstrass.Point} (hR : c.Represents R pt) : c.JacStandsFor R pt :=
    (Curve.represents_iff h hR.canon).1 hR
  refine ⟨fun Q hQ hon => ?_, fun P pt hcanon hP => ?_⟩
  · obtain ⟨pt, hpt⟩ := Curve.standsFor_of_oncurve h hdisc hQ hon
    exact ⟨pt, hpt, stands (Curve.toJ_represents h hQ hpt)⟩
  have hP := (Curve.represents_iff h hcanon).2 hP
  refine ⟨stands (Curve.pdbl_represents h hP), stands (Curve.pneg_represents h hP),
    fun k hk => stands (Curve.pmulRaw_represents h hP hk), fun P' pt' hcanon' hP' => ?_, fun Q pt' hQ hpt' => ?_⟩
  · exact stands (Curve.padd_represents h hP ((Curve.represents_iff h hcanon').2 hP'))
  · exact stands (Curve.pmadd_represents h hP hQ hpt')

end Sys2Proof.Machine
end


section
/-! PROOFS of the statements on the results of the vector commands (43_vector.md R223 to R234): what each command completes with or
faults by, and the values of its result by the specification lemma of its function. -/

namespace Sys2Proof.Machine

/-! ## Vectors as values (43_vector.md R211 to R216) -/

/-- A vector keeps its values when it is taken to a context of the same modulus (41_field.md R149). -/
theorem State.map_convert_spec {s : State} {src dst : Ctx} (h1 : (s.fld src).WF) (h2 : (s.fld dst).WF)
    (hm : (s.fld dst).mod = (s.fld src).mod) {xs : List Fe} (hxs : ∀ x ∈ xs, (s.fld src).Canon x) :
    (∀ y ∈ xs.map (s.convert src dst), (s.fld dst).Canon y) ∧
      (xs.map (s.convert src dst)).map (s.fld dst).val = xs.map (s.fld src).val := by
  refine ⟨List.forall_mem_map.2 fun x hx => (State.convert_spec h1 h2 hm (hxs x hx)).1, ?_⟩
  rw [List.map_map]
  exact List.map_congr_left fun x hx => (State.convert_spec h1 h2 hm (hxs x hx)).2

/-- `vpowers` gives the powers from the power 0 on (43_vector.md R214). -/
theorem FieldCtx.WF.map_val_vpowers {f : FieldCtx} (h : f.WF) (k : Fe) (n : Nat) :
    (f.vpowers k n).map f.val = (List.range n).map fun i => f.val k ^ i % f.m := by
  refine List.ext_getElem (by simp [h.length_vpowers]) fun i hi _ => ?_
  rw [List.length_map] at hi
  obtain ⟨hcanon, hpow⟩ := (h.mulChain_spec n f.one h.canon_one).2 i _ (List.getElem?_eq_getElem hi)
  rw [List.getElem_map, List.getElem_map, List.getElem_range]
  refine h.val_eq_mod_of_toZ hcanon ?_
  rw [hpow, h.toZ_one, one_mul, Nat.cast_pow, h.toZ_val]

/-- `slice` inside the vector: entry `i` is the vector's entry `start + i` (43_vector.md R215). -/
theorem slice_spec {α : Type} {xs : List α} {start len : Nat} (h : start + len ≤ xs.length) :
    (slice xs start len).length = len ∧ ∀ i, i < len → (slice xs start len)[i]? = xs[start + i]? := by
  refine ⟨?_, fun i hi => ?_⟩
  · rw [slice, List.length_take, List.length_drop]
    omega
  · rw [slice, List.getElem?_take_of_lt hi, List.getElem?_drop]

/-- `rev`: entry `i` is the vector's entry `length - 1 - i` (43_vector.md R216). -/
theorem rev_spec {α : Type} (xs : List α) :
    (rev xs).length = xs.length ∧ ∀ i, i < xs.length → (rev xs)[i]? = xs[xs.length - 1 - i]? :=
  ⟨List.length_reverse, fun _ hi => List.getElem?_reverse hi⟩

theorem entry_bind {α β : Type} {xs : List α} {n : Nat} {x : α} (h : xs[n]? = some x) (k : α → Except Cause β) :
    (entry xs n >>= k) = k x := by
  rw [entry_eq_ok.2 h, ok_bind]

theorem entry_bind_of_past {α β : Type} {xs : List α} {n : Nat} (h : xs.length ≤ n) (k : α → Except Cause β) :
    (entry xs n >>= k) = .error .rangeError := by
  rw [entry_eq_error.2 ⟨h, rfl⟩, error_bind]

/-! ## Two source vectors (43_vector.md R211, R223 to R225, R227) -/

section
variable {s : State} {d k1 k2 : RegNo} {x y : FVec}

/-- VADD, VSUB and VHAD are one shape. -/
theorem exec_eq_vecBinary {i : Instr} (hi : i ∈ [Instr.vadd d k1 k2, .vsub d k1 k2, .vhad d k1 k2]) :
    ∃ op, exec i s = vecBinary op d k1 k2 s := by
  simp only [List.mem_cons, List.not_mem_nil, or_false] at hi
  rcases hi with rfl | rfl | rfl
  · exact ⟨FieldCtx.vadd, rfl⟩
  · exact ⟨FieldCtx.vsub, rfl⟩
  · exact ⟨FieldCtx.vhad, rfl⟩

variable (hx : s.v.get k1 = some x) (hy : s.v.get k2 = some y)
include hx hy

theorem vecBinary_of_mismatch (op : FieldCtx → List Fe → List Fe → List Fe) (hm : (s.fld x.ctx).mod ≠ (s.fld y.ctx).mod) :
    vecBinary op d k1 k2 s = .next (s.enterFault .modulusMismatch) := by
  rw [vecBinary_of_some op hx hy, if_neg hm]

theorem exec_vip_of_mismatch (hm : (s.fld x.ctx).mod ≠ (s.fld y.ctx).mod) :
    exec (.vip d k1 k2) s = .next (s.enterFault .modulusMismatch) :=
  finish_of_error <| by rw [vecPair_of_some hx hy, if_neg hm, error_bind]

variable (hm : (s.fld x.ctx).mod = (s.fld y.ctx).mod)
include hm

theorem vecBinary_of_length_ne (op : FieldCtx → List Fe → List Fe → List Fe) (hlen : x.elems.length ≠ y.elems.length) :
    vecBinary op d k1 k2 s = .next (s.enterFault .lengthMismatch) := by
  rw [vecBinary_of_some op hx hy, if_pos hm, if_neg hlen]

theorem exec_vip_of_length_ne (hlen : x.elems.length ≠ y.elems.length) :
    exec (.vip d k1 k2) s = .next (s.enterFault .lengthMismatch) :=
  finish_of_error <| by rw [vecPair_of_some hx hy, if_pos hm, if_neg hlen, error_bind]

variable (hlen : x.elems.length = y.elems.length)
include hlen

theorem exec_vip_of_ok : exec (.vip d k1 k2) s =
    .next (s.putE d ⟨x.ctx, (s.fld x.ctx).vip x.elems (y.elems.map (s.convert y.ctx x.ctx))⟩).complete :=
  finish_of_ok <| by rw [vecPair_of_some hx hy, if_pos hm, if_pos hlen]; rfl

/-- The result of VADD, VSUB and VHAD, for any operation that is `vop` on values, entry by entry. -/
theorem vecBinary_result {op : FieldCtx → List Fe → List Fe → List Fe} {vop : Nat → Nat → Nat → Nat}
    (hop : ∀ f : FieldCtx, f.WF → ∀ as bs : List Fe, (∀ a ∈ as, f.Canon a) → (∀ b ∈ bs, f.Canon b) →
      (∀ r ∈ op f as bs, f.Canon r) ∧ (op f as bs).map f.val = List.zipWith (vop f.m) (as.map f.val) (bs.map f.val))
    (hi : s.Inv) :
    ∃ rs, vecBinary op d k1 k2 s = .next (s.putV d ⟨x.ctx, rs⟩).complete ∧ (∀ r ∈ rs, (s.fld x.ctx).Canon r) ∧
      rs.map (s.fld x.ctx).val =
        List.zipWith (vop (s.fld x.ctx).m) (x.elems.map (s.fld x.ctx).val) (y.elems.map (s.fld y.ctx).val) := by
  obtain ⟨-, -, hxc⟩ := hi.regs.v _ _ hx
  obtain ⟨-, -, hyc⟩ := hi.regs.v _ _ hy
  obtain ⟨hconv, hval⟩ := State.map_convert_spec (hi.vec_wf hy) (hi.vec_wf hx) hm hyc
  obtain ⟨hcanon, hres⟩ := hop _ (hi.vec_wf hx) _ _ hxc hconv
  exact ⟨_, by rw [vecBinary_of_some op hx hy, if_pos hm, if_pos hlen], hcanon, by rw [hres, hval]⟩

end

/-! ## Scaling, powers, slices, elements and reversal (43_vector.md R226, R228 to R231) -/

section
variable {s : State} {d k k1 k2 : RegNo} {x : FVec} {c : Elem}

theorem exec_vscl_of_ok (hx : s.v.get k1 = some x) (hc : s.e.get k2 = some c) (hm : (s.fld x.ctx).mod = (s.fld c.ctx).mod) :
    exec (.vscl d k1 k2) s =
      .next (s.putV d ⟨x.ctx, (s.fld x.ctx).vscl (s.convert c.ctx x.ctx c.s) x.elems⟩).complete :=
  finish_of_ok <| (read_bind hx _).trans <| (read_bind hc _).trans <| sameField_bind hm _

theorem exec_vscl_of_mismatch (hx : s.v.get k1 = some x) (hc : s.e.get k2 = some c)
    (hm : (s.fld x.ctx).mod ≠ (s.fld c.ctx).mod) : exec (.vscl d k1 k2) s = .next (s.enterFault .modulusMismatch) :=
  finish_of_error <| (read_bind hx _).trans <| (read_bind hc _).trans <| sameField_bind_of_ne hm _

theorem exec_vpow_of_ok {n : Fin 4096} (hn : n.val ≤ s.nmax) (hc : s.e.get k = some c) :
    exec (.vpow d k n) s = .next (s.putV d ⟨c.ctx, (s.fld c.ctx).vpowers c.s n.val⟩).complete :=
  finish_of_ok <| (require_bind (decide_eq_true hn) _ _).trans (read_bind hc _)

theorem exec_vpow_of_tooLong {n : Fin 4096} (hn : s.nmax < n.val) :
    exec (.vpow d k n) s = .next (s.enterFault .rangeError) :=
  finish_of_error <| require_bind_of_false (decide_eq_false (Nat.not_le.2 hn)) _ _

variable (hx : s.v.get k = some x)
include hx

theorem exec_vslice_of_ok {start len : Fin 65536} (h : start.val + len.val ≤ x.elems.length) :
    exec (.vslice d k start len) s = .next (s.putV d ⟨x.ctx, slice x.elems start.val len.val⟩).complete :=
  finish_of_ok <| (read_bind hx _).trans (require_bind (decide_eq_true h) _ _)

theorem exec_vslice_of_past {start len : Fin 65536} (h : x.elems.length < start.val + len.val) :
    exec (.vslice d k start len) s = .next (s.enterFault .rangeError) :=
  finish_of_error <| (read_bind hx _).trans (require_bind_of_false (decide_eq_false (Nat.not_le.2 h)) _ _)

theorem exec_vget_of_some {n : Fin 4096} {y : Fe} (hy : x.elems[n.val]? = some y) :
    exec (.vget d k n) s = .next (s.putE d ⟨x.ctx, y⟩).complete :=
  finish_of_ok <| (read_bind hx _).trans (entry_bind hy _)

theorem exec_vget_of_past {n : Fin 4096} (h : x.elems.length ≤ n.val) :
    exec (.vget d k n) s = .next (s.enterFault .rangeError) :=
  finish_of_error <| (read_bind hx _).trans (entry_bind_of_past h _)

theorem exec_vrev_of_some : exec (.vrev d k) s = .next (s.putV d ⟨x.ctx, rev x.elems⟩).complete :=
  finish_of_ok (read_bind hx _)

end

/-! ## Vectors of points (43_vector.md R232 to R234) -/

section
variable {s : State} {d k k1 k2 : RegNo} {qs : GVec} {x : FVec} (hc : s.crv.ok = true)
include hc

theorem exec_gmsm_of_ok (hqs : s.g.get k1 = some qs) (hx : s.v.get k2 = some x) (hlen : qs.length = x.elems.length) :
    exec (.gmsm d k1 k2) s = .next (s.putJ d (s.curve.msm qs (x.elems.map (s.fld x.ctx).val))).complete :=
  finish_of_ok <| (needCurve_bind hc _).trans <| (read_bind hqs _).trans <| (read_bind hx _).trans <|
    require_bind (beq_iff_eq.2 hlen) _ _

theorem exec_gmsm_of_length_ne (hqs : s.g.get k1 = some qs) (hx : s.v.get k2 = some x) (hlen : qs.length ≠ x.elems.length) :
    exec (.gmsm d k1 k2) s = .next (s.enterFault .lengthMismatch) :=
  finish_of_error <| (needCurve_bind hc _).trans <| (read_bind hqs _).trans <| (read_bind hx _).trans <|
    require_bind_of_false (beq_eq_false_iff_ne.2 hlen) _ _

variable (hqs : s.g.get k = some qs)
include hqs

theorem exec_gslice_of_ok {start len : Fin 65536} (h : start.val + len.val ≤ qs.length) :
    exec (.gslice d k start len) s = .next (s.putG d (slice qs start.val len.val)).complete :=
  finish_of_ok <| (needCurve_bind hc _).trans <| (read_bind hqs _).trans (require_bind (decide_eq_true h) _ _)

theorem exec_gslice_of_past {start len : Fin 65536} (h : qs.length < start.val + len.val) :
    exec (.gslice d k start len) s = .next (s.enterFault .rangeError) :=
  finish_of_error <| (needCurve_bind hc _).trans <| (read_bind hqs _).trans <|
    require_bind_of_false (decide_eq_false (Nat.not_le.2 h)) _ _

theorem exec_gget_of_some {n : Fin 4096} {q : Affine} (hq : qs[n.val]? = some q) :
    exec (.gget d k n) s = .next (s.putA d q).complete :=
  finish_of_ok <| (needCurve_bind hc _).trans <| (read_bind hqs _).trans (entry_bind hq _)

theorem exec_gget_of_past {n : Fin 4096} (h : qs.length ≤ n.val) :
    exec (.gget d k n) s = .next (s.enterFault .rangeError) :=
  finish_of_error <| (needCurve_bind hc _).trans <| (read_bind hqs _).trans (entry_bind_of_past h _)

end

/-! ## The statements -/

/-- Settles O50: the second vector keeps its values when it is taken to the first one's context, where each operation is the rule's
on values, entry by entry. -/
theorem vaddVsubVhadResults : Obligations.VaddVsubVhadResults := by
  unfold Obligations.VaddVsubVhadResults
  intro s vd vs1 vs2 x y hinv hx hy
  refine ⟨fun hm i hi => ?_, fun hm hlen i hi => ?_, fun hm hlen p hp => ?_⟩
  · obtain ⟨op, hop⟩ := exec_eq_vecBinary hi
    exact hop.trans (vecBinary_of_mismatch hx hy op hm)
  · obtain ⟨op, hop⟩ := exec_eq_vecBinary hi
    exact hop.trans (vecBinary_of_length_ne hx hy hm op hlen)
  · simp only [List.mem_cons, List.not_mem_nil, or_false] at hp
    rcases hp with rfl | rfl | rfl
    · exact vecBinary_result hx hy hm hlen (fun _ hf _ _ ha hb => hf.vadd_spec ha hb) hinv
    · exact vecBinary_result hx hy hm hlen (fun _ hf _ _ ha hb => hf.vsub_spec ha hb) hinv
    · exact vecBinary_result hx hy hm hlen (fun _ hf _ _ ha hb => hf.vhad_spec ha hb) hinv

/-- Settles O51: the scalar, or the second vector, keeps its values in the vector's context, where the functions follow their rule on
values. -/
theorem vsclAndVipResults : Obligations.VsclAndVipResults := by
  unfold Obligations.VsclAndVipResults
  intro s vs1 x hi hx
  have hwf := hi.vec_wf hx
  obtain ⟨-, -, hxc⟩ := hi.regs.v _ _ hx
  refine ⟨fun vd es k hk => ⟨exec_vscl_of_mismatch hx hk, fun hm => ?_⟩,
    fun ed vs2 y hy => ⟨exec_vip_of_mismatch hx hy, exec_vip_of_length_ne hx hy, fun hm hlen => ?_⟩⟩
  · obtain ⟨-, hkc⟩ := hi.regs.e _ _ hk
    obtain ⟨hconv, hval⟩ := State.convert_spec (hi.elem_wf hk) hwf hm hkc
    obtain ⟨hcanon, hres⟩ := hwf.vscl_spec hconv x.elems
    refine ⟨_, exec_vscl_of_ok hx hk hm, hcanon, ?_⟩
    rw [hres, hval, List.map_map]
    rfl
  · obtain ⟨-, -, hyc⟩ := hi.regs.v _ _ hy
    obtain ⟨-, hval⟩ := State.map_convert_spec (hi.vec_wf hy) hwf hm hyc
    obtain ⟨hcanon, hres⟩ := hwf.vip_spec (bs := y.elems.map (s.convert y.ctx x.ctx)) hxc
    exact ⟨_, exec_vip_of_ok hx hy hm hlen, hcanon, by rw [hres, hval]⟩

/-- Settles O52: the entries of a slice and of a reversed vector, and the range checks before them. -/
theorem vsliceVgetVrevResults : Obligations.VsliceVgetVrevResults := by
  unfold Obligations.VsliceVgetVrevResults
  intro s vs x hx
  exact ⟨fun vd start len => ⟨fun h => ⟨_, exec_vslice_of_ok hx h, slice_spec h⟩, exec_vslice_of_past hx⟩,
    fun ed idx => ⟨fun y hy => exec_vget_of_some hx hy, exec_vget_of_past hx⟩,
    fun vd => ⟨_, exec_vrev_of_some hx, rev_spec x.elems⟩⟩

/-- Settles O53: the chain of products from 1 on is the sequence of powers. -/
theorem vpowResult : Obligations.VpowResult := by
  unfold Obligations.VpowResult
  intro s vd es n k hi hk
  have hwf := hi.elem_wf hk
  exact ⟨fun hn => ⟨_, exec_vpow_of_ok hn hk, hwf.canon_vpowers k.s n.val, hwf.map_val_vpowers k.s n.val⟩,
    exec_vpow_of_tooLong⟩

/-- Settles O54: the commitment follows its rule on values, and slices and entries of points are those of any vector. -/
theorem gmsmGsliceGgetResults : Obligations.GmsmGsliceGgetResults := by
  unfold Obligations.GmsmGsliceGgetResults
  intro s gs qs hi hc hqs
  have hwf := hi.setup.curve_wf hc
  obtain ⟨-, -, hpoints⟩ := hi.regs.g _ _ hqs
  exact ⟨fun jd vs x hx => ⟨fun hlen => ⟨_, exec_gmsm_of_ok hc hqs hx hlen, hwf.msm_spec (fun q hq => (hpoints q hq).2) _⟩,
      exec_gmsm_of_length_ne hc hqs hx⟩,
    fun gd start len => ⟨fun h => ⟨_, exec_gslice_of_ok hc hqs h, slice_spec h⟩, exec_gslice_of_past hc hqs⟩,
    fun ad idx => ⟨fun q hq => exec_gget_of_some hc hqs hq, exec_gget_of_past hc hqs⟩⟩

end Sys2Proof.Machine
end

section
/-! PROOFS of the statements on the results of the inner-product commands (44_ipa.md R241 to R253): what each command completes with
or faults by, the coefficient vector entry by entry, and the length of a proof's bytes. -/

namespace Sys2Proof.Machine

/-! ## Challenges and rounds (44_ipa.md R241, R242, R244) -/

section
variable {H : Hash} {c : Curve} {L Q R : Affine} {x : Fe}

theorem chal_of_pt (H : Hash) (c : Curve) (xL yL xC yC xR yR : Fe) :
    chal H c (.pt xL yL) (.pt xC yC) (.pt xR yR) =
      .ok (c.fq.enc (beInt (H (([xL, yL, xC, yC, xR, yR].map c.fp.val).map be32).flatten).toList % c.fq.m)) := by
  simp [chal, ser]

theorem chal_of_inf (H : Hash) (c : Curve) (h : L = .inf ∨ Q = .inf ∨ R = .inf) : chal H c L Q R = .error .infinityEncode := by
  cases L with
  | inf => rfl
  | pt xL yL =>
    cases Q with
    | inf => rfl
    | pt xQ yQ =>
      obtain rfl : R = .inf := by simpa using h
      rfl

/-- Only finite points have a challenge. -/
theorem finite_of_chal (h : chal H c L Q R = .ok x) : L ≠ .inf ∧ R ≠ .inf := by
  constructor <;> rintro rfl
  · rw [chal_of_inf H c (.inl rfl)] at h
    cases h
  · rw [chal_of_inf H c (.inr (.inr rfl))] at h
    cases h

/-- What a round computes, step by step (44_ipa.md R244). -/
theorem ipaRound_of_ok {P : Jac} {xi : Fe} (hQ : c.toA P = .ok Q) (hx : chal H c L Q R = .ok x) (hxi : c.fq.inv x = .ok xi) :
    ipaRound H c P L R = .ok (c.padd (roundSum c x xi L R) P, x) := by
  rw [ipaRound, hQ, ok_bind, hx, ok_bind, hxi, ok_bind]

theorem eq_modinv_of_inv {f : FieldCtx} {a r : Fe} (h : f.inv a = .ok r) : r = f.enc (modinv (f.val a) f.m) := by
  unfold FieldCtx.inv at h
  split at h
  · cases h; rfl
  · cases h

end

/-- What a prover round that answers has computed, in the order of 44_ipa.md R246. -/
theorem proveRound_eq_ok {H : Hash} {c : Curve} {u L R : Affine} {h : Nat} {st st' : ProverState}
    (e : proveRound H c u h st = .ok (L, R, st')) : ∃ x xi,
      crossPoint c u (slice st.gs h h) (slice st.a 0 h) (slice st.hs 0 h) (slice st.b h h)
        (c.fq.vip (slice st.a 0 h) (slice st.b h h)) = .ok L ∧
      crossPoint c u (slice st.gs 0 h) (slice st.a h h) (slice st.hs h h) (slice st.b 0 h)
        (c.fq.vip (slice st.a h h) (slice st.b 0 h)) = .ok R ∧
      chal H c L st.P R = .ok x ∧ c.fq.inv x = .ok xi ∧
      foldBase c (c.fq.val xi) (c.fq.val x) (slice st.gs 0 h) (slice st.gs h h) = .ok st'.gs ∧
      foldBase c (c.fq.val x) (c.fq.val xi) (slice st.hs 0 h) (slice st.hs h h) = .ok st'.hs ∧
      c.toA (c.padd (roundSum c x xi L R) (c.toJ st.P)) = .ok st'.P ∧
      st'.a = foldWitness c.fq x xi (slice st.a 0 h) (slice st.a h h) ∧
      st'.b = foldWitness c.fq xi x (slice st.b 0 h) (slice st.b h h) := by
  unfold proveRound at e
  simp only [bind_eq_ok] at e
  obtain ⟨L', hL, R', hR, x, hx, xi, hxi, gs, hgs, hs, hhs, P, hP, e⟩ := e
  cases e
  exact ⟨x, xi, hL, hR, hx, hxi, hgs, hhs, hP, rfl, rfl⟩

/-- The rounds of a prover that answers: none, or one and then the rest (44_ipa.md R247). -/
theorem proveRounds_succ_eq_ok {H : Hash} {c : Curve} {u : Affine} {k : Nat} {st last : ProverState} {ls rs : List Affine}
    (e : proveRounds H c u (k + 1) st = .ok (ls, rs, last)) : ∃ L R st1 ls1 rs1, proveRound H c u (2 ^ k) st = .ok (L, R, st1) ∧
      proveRounds H c u k st1 = .ok (ls1, rs1, last) ∧ ls = L :: ls1 ∧ rs = R :: rs1 := by
  obtain ⟨⟨L, R, st1⟩, hround, e⟩ := bind_eq_ok.1 e
  obtain ⟨⟨ls1, rs1, last1⟩, hrest, e⟩ := bind_eq_ok.1 e
  cases e
  exact ⟨L, R, st1, ls1, rs1, hround, hrest, rfl, rfl⟩

/-- `k` rounds give `k` pairs of points, none of them infinity: each has entered a challenge. -/
theorem proveRounds_finite {H : Hash} {c : Curve} {u : Affine} {k : Nat} {st last : ProverState} {ls rs : List Affine}
    (e : proveRounds H c u k st = .ok (ls, rs, last)) :
    (ls.length = k ∧ ∀ q ∈ ls, q ≠ .inf) ∧ rs.length = k ∧ ∀ q ∈ rs, q ≠ .inf := by
  induction k generalizing st ls rs with
  | zero =>
    cases e
    simp
  | succ k ih =>
    obtain ⟨L, R, st1, ls1, rs1, hround, hrest, rfl, rfl⟩ := proveRounds_succ_eq_ok e
    obtain ⟨x, xi, -, -, hx, -⟩ := proveRound_eq_ok hround
    obtain ⟨hL, hR⟩ := finite_of_chal hx
    obtain ⟨⟨hls, hlsFin⟩, hrs, hrsFin⟩ := ih hrest
    exact ⟨⟨congrArg (· + 1) hls, List.forall_mem_cons.2 ⟨hL, hlsFin⟩⟩, congrArg (· + 1) hrs, List.forall_mem_cons.2 ⟨hR, hrsFin⟩⟩

/-- What the prover answers: the points of its rounds and the two elements they leave (44_ipa.md R247). -/
theorem ipaProve_eq_ok {H : Hash} {c : Curve} {u : Affine} {k : Nat} {st : ProverState} {pf : Proof}
    (e : ipaProve H c u k st = .ok pf) : ∃ last, proveRounds H c u k st = .ok (pf.ls, pf.rs, last) ∧
      pf.a = last.a.getD 0 0 ∧ pf.b = last.b.getD 0 0 := by
  obtain ⟨⟨ls, rs, last⟩, hrounds, e⟩ := bind_eq_ok.1 e
  cases e
  exact ⟨last, hrounds, rfl, rfl⟩

/-- A proof that the prover answers serializes to 64 bytes a point and 64 for its two scalars (44_ipa.md R248). -/
theorem proofBytes_of_ipaProve {H : Hash} {c : Curve} {u : Affine} {k : Nat} {st : ProverState} {pf : Proof}
    (e : ipaProve H c u k st = .ok pf) : ∃ bytes, proofBytes c pf = .ok bytes ∧ bytes.length = 128 * k + 64 := by
  obtain ⟨last, hrounds, -, -⟩ := ipaProve_eq_ok e
  obtain ⟨⟨hls, hlsFin⟩, hrs, hrsFin⟩ := proveRounds_finite hrounds
  obtain ⟨bl, hbl, hblLen⟩ := serAll_of_finite (f := c.fp) hlsFin
  obtain ⟨br, hbr, hbrLen⟩ := serAll_of_finite (f := c.fp) hrsFin
  refine ⟨_, by rw [proofBytes, hbl, ok_bind, hbr, ok_bind], ?_⟩
  rw [List.length_append, List.length_append, List.length_append, hblLen, hbrLen, hls, hrs, be32_length, be32_length]
  omega

/-! ## The coefficient vector (44_ipa.md R243) -/

/-- The coefficients of the challenges `xs` from entry 0 on: the first challenge doubles last. -/
def svFrom (f : FieldCtx) (s0 : Fe) (xs : List Fe) : List Fe := xs.foldr (fun x sv => svDouble f sv x) [s0]

@[simp] theorem svFrom_nil (f : FieldCtx) (s0 : Fe) : svFrom f s0 [] = [s0] := rfl

@[simp] theorem svFrom_cons (f : FieldCtx) (s0 x : Fe) (xs : List Fe) :
    svFrom f s0 (x :: xs) = svDouble f (svFrom f s0 xs) x := rfl

theorem ipasv_eq (f : FieldCtx) (xs : List Fe) :
    ipasv f xs = f.inv (xs.foldl f.mul f.one) >>= fun s0 => .ok (svFrom f s0 xs) := by
  simp only [ipasv, svFrom, List.foldl_reverse]

theorem length_svFrom (f : FieldCtx) (s0 : Fe) (xs : List Fe) : (svFrom f s0 xs).length = 2 ^ xs.length := by
  rw [svFrom, ← List.foldl_reverse, length_foldl_svDouble, List.length_reverse, List.length_singleton, Nat.one_mul]

theorem svFrom_getD_zero (f : FieldCtx) (s0 d : Fe) (xs : List Fe) : (svFrom f s0 xs).getD 0 d = s0 := by
  induction xs with
  | nil => rfl
  | cons x xs ih =>
    have hpos : 0 < (svFrom f s0 xs).length := by rw [length_svFrom]; exact Nat.two_pow_pos _
    rw [svFrom_cons, svDouble, List.getD_append _ _ _ _ hpos, ih]

namespace FieldCtx.WF

variable {f : FieldCtx} (h : f.WF)
include h

theorem canon_svFrom {s0 : Fe} (h0 : f.Canon s0) (xs : List Fe) : ∀ y ∈ svFrom f s0 xs, f.Canon y := by
  rw [svFrom, ← List.foldl_reverse]
  exact h.canon_foldl_svDouble _ (by simpa using h0)

/-- The product of the challenges (44_ipa.md R243). -/
theorem foldl_mul_spec (xs : List Fe) {acc : Fe} (hacc : f.Canon acc) :
    f.Canon (xs.foldl f.mul acc) ∧ f.toZ (xs.foldl f.mul acc) = f.toZ acc * (xs.map f.toZ).prod := by
  induction xs generalizing acc with
  | nil => simpa using hacc
  | cons x xs ih =>
    obtain ⟨hcanon, hprod⟩ := ih (h.canon_mul hacc x)
    refine ⟨hcanon, ?_⟩
    rw [List.foldl_cons, hprod, h.toZ_mul hacc, List.map_cons, List.prod_cons, mul_assoc]

theorem val_foldl_mul (xs : List Fe) : f.val (xs.foldl f.mul f.one) = (xs.map f.val).prod % f.m := by
  obtain ⟨hcanon, hprod⟩ := h.foldl_mul_spec xs h.canon_one
  refine h.val_eq_mod_of_toZ hcanon ?_
  rw [hprod, h.toZ_one, one_mul, Nat.cast_list_prod, List.map_map]
  rfl

/-- A doubling by `x` multiplies by the square of `x`. -/
theorem val_mul_square {x y : Fe} (hx : f.Canon x) (hy : f.Canon y) :
    f.val (f.mul y (f.mul x x)) = f.val y * f.val x ^ 2 % f.m := by
  rw [h.val_mul hy, h.val_mul hx, Values.fmul, Values.fmul, Nat.mul_mod_mod, sq]

/-- Every entry but entry 0 is the entry without the highest bit of its index, times the square of that bit's challenge. -/
theorem val_svFrom_getD {s0 : Fe} (h0 : f.Canon s0) {xs : List Fe} (hxs : ∀ x ∈ xs, f.Canon x) {j : Nat} (hj : 1 ≤ j)
    (hlt : j < 2 ^ xs.length) :
    f.val ((svFrom f s0 xs).getD j 0) = f.val ((svFrom f s0 xs).getD (j - 2 ^ Nat.log2 j) 0) *
      (xs.map f.val).getD (xs.length - 1 - Nat.log2 j) 0 ^ 2 % f.m := by
  induction xs with
  | nil => exact absurd hlt (Nat.not_lt.2 hj)
  | cons x xs ih =>
    have hlen := length_svFrom f s0 xs
    have hbit := Nat.log2_self_le (Nat.one_le_iff_ne_zero.1 hj)
    have hpos := Nat.two_pow_pos (Nat.log2 j)
    obtain ⟨hx, hxs⟩ := List.forall_mem_cons.1 hxs
    rw [svFrom_cons, svDouble]
    rw [List.length_cons] at hlt
    by_cases hlow : j < 2 ^ xs.length
    · have hlog : Nat.log2 j < xs.length := (Nat.log2_lt (Nat.one_le_iff_ne_zero.1 hj)).2 hlow
      rw [List.getD_append _ _ _ _ (by omega), List.getD_append _ _ _ _ (by omega), ih hxs hlow, List.length_cons, List.map_cons,
        show xs.length + 1 - 1 - Nat.log2 j = (xs.length - 1 - Nat.log2 j) + 1 by omega, List.getD_cons_succ]
    · have hlog : Nat.log2 j = xs.length :=
        (Nat.log2_eq_iff (Nat.one_le_iff_ne_zero.1 hj)).2 ⟨Nat.le_of_not_lt hlow, hlt⟩
      have hrest : j - 2 ^ xs.length < (svFrom f s0 xs).length := by rw [hlen]; rw [pow_succ] at hlt; omega
      have hentry := h.canon_svFrom h0 xs _ (List.getElem_mem hrest)
      rw [List.getD_append_right _ _ _ _ (by omega), hlen, hlog, List.getD_append _ _ _ _ hrest,
        List.getD_eq_getElem _ _ (by simpa using hrest), List.getElem_map, h.val_mul_square hx hentry,
        List.getD_eq_getElem _ _ hrest, List.length_cons, show xs.length + 1 - 1 - xs.length = 0 by omega]
      rfl

end FieldCtx.WF

/-- No challenges give the one coefficient 1 (44_ipa.md R243). -/
theorem FieldCtx.WF.ipasv_nil {f : FieldCtx} (h : f.WF) : ipasv f [] = .ok [f.one] := by
  obtain ⟨hr, hcanon, hinv⟩ := h.inv_ok (a := f.one) (by rw [h.val_one, Nat.gcd_one_left])
  have hone : f.enc (modinv (f.val f.one) f.m) = f.one := by
    rw [← h.toZ_inj hcanon h.canon_one, h.toZ_one]
    rwa [h.toZ_one, mul_one] at hinv
  rw [hone] at hr
  rw [ipasv_eq, List.foldl_nil, hr, ok_bind, svFrom_nil]

/-! ## Completions and faults (44_ipa.md R250 to R253) -/

theorem isPow2_iff {n : Nat} : isPow2 n = true ↔ ∃ k, n = 2 ^ k := by
  rw [isPow2, Bool.and_eq_true, bne_iff_ne, beq_iff_eq]
  refine ⟨fun h => ⟨_, h.2.symm⟩, ?_⟩
  rintro ⟨k, rfl⟩
  exact ⟨(Nat.two_pow_pos k).ne', by rw [Nat.log2_two_pow]⟩

theorem isPow2_two_pow (k : Nat) : isPow2 (2 ^ k) = true := isPow2_iff.2 ⟨k, rfl⟩

section
variable {s : State} {d k k1 k2 k3 : RegNo} {L Q R : Affine} {x : FVec}

theorem exec_ipach_eq (hc : s.crv.ok = true) (hL : s.a.get k1 = some L) (hQ : s.a.get k2 = some Q) (hR : s.a.get k3 = some R) :
    exec (.ipach d k1 k2 k3) s = finish s (chal Config.hash256 s.curve L Q R >>= fun r => .ok (s.putE d ⟨.order, r⟩)) :=
  congrArg (finish s) <| (needCurve_bind hc _).trans <| (read_bind hL _).trans <| (read_bind hQ _).trans (read_bind hR _)

/-- Everything IPASV does once its source is written (44_ipa.md R251). -/
theorem exec_ipasv_eq (hx : s.v.get k = some x) : exec (.ipasv d k) s =
    if 2 ^ x.elems.length ≤ s.nmax then
      finish s (ipasv (s.fld x.ctx) x.elems >>= fun sv => .ok (s.putV d ⟨x.ctx, sv⟩))
    else .next (s.enterFault .rangeError) := by
  split
  · next h => exact congrArg (finish s) <| (read_bind hx _).trans (require_bind (decide_eq_true h) _ _)
  · next h => exact finish_of_error <| (read_bind hx _).trans (require_bind_of_false (decide_eq_false h) _ _)

end

section
variable {s : State} {gs hs au aP va vb : RegNo} {pf : RawProof} {gsv hsv : GVec} {u P : Affine} {a b : FVec} (H : Hash)
  (hc : s.crv.ok = true) (hg : s.g.get gs = some gsv) (hh : s.g.get hs = some hsv) (hu : s.a.get au = some u)
  (hP : s.a.get aP = some P)
include hc hg hh hu hP

/-- Everything IPAVFY does on a proof in range once its sources are written (44_ipa.md R252). -/
theorem ipavfyWith_eq (hk : 2 ^ pf.ls.length ≤ s.nmax) : ipavfyWith H gs hs au aP pf s =
    if gsv.length = hsv.length then
      if isPow2 gsv.length = true then
        if 2 ^ pf.ls.length = gsv.length then
          finish s (ipaVerify H s.curve gsv hsv u P (proofParse s.curve pf) >>= fun valid => .ok (s.putFlag .vfy valid))
        else .next (s.enterFault .lengthMismatch)
      else .next (s.enterFault .notPowerOfTwo)
    else .next (s.enterFault .lengthMismatch) := by
  have hreads : ipavfyWith H gs hs au aP pf s = finish s (do
      require (gsv.length == hsv.length) .lengthMismatch
      require (isPow2 gsv.length) .notPowerOfTwo
      require (2 ^ pf.ls.length == gsv.length) .lengthMismatch
      let valid ← ipaVerify H s.curve gsv hsv u P (proofParse s.curve pf)
      return s.putFlag .vfy valid) :=
    congrArg (finish s) <| (require_bind (decide_eq_true hk) _ _).trans <| (needCurve_bind hc _).trans <|
      (read_bind hg _).trans <| (read_bind hh _).trans <| (read_bind hu _).trans (read_bind hP _)
  rw [hreads]
  split
  · next hsame =>
    rw [require_bind (beq_iff_eq.2 hsame)]
    split
    · next hpow =>
      rw [require_bind hpow]
      split
      · next hlen =>
        rw [require_bind (beq_iff_eq.2 hlen)]
        rfl
      · next hlen => exact finish_of_error (require_bind_of_false (beq_eq_false_iff_ne.2 hlen) _ _)
    · next hpow => exact finish_of_error (require_bind_of_false (Bool.eq_false_iff.2 hpow) _ _)
  · next hsame => exact finish_of_error (require_bind_of_false (beq_eq_false_iff_ne.2 hsame) _ _)

/-- What IPAPRV hands to the prover: the witness vectors are taken to the order field (41_field.md R149). -/
def State.proverState (s : State) (gsv hsv : GVec) (P : Affine) (a b : FVec) : ProverState :=
  { gs := gsv, hs := hsv, a := a.elems.map (s.convert a.ctx .order), b := b.elems.map (s.convert b.ctx .order), P := P }

variable (ha : s.v.get va = some a) (hb : s.v.get vb = some b)
include ha hb

/-- Everything IPAPRV does once its sources are written (44_ipa.md R253). -/
theorem ipaprvWith_eq : ipaprvWith H gs hs au aP va vb s =
    if (s.fld a.ctx).mod = s.fld1.mod ∧ (s.fld b.ctx).mod = s.fld1.mod then
      if gsv.length = hsv.length ∧ gsv.length = a.elems.length ∧ gsv.length = b.elems.length then
        if isPow2 gsv.length = true then
          finish s (ipaProve H s.curve u (Nat.log2 gsv.length) (s.proverState gsv hsv P a b) >>= fun pf =>
            proofBytes s.curve pf >>= fun bytes => .ok (s.emit bytes))
        else .next (s.enterFault .notPowerOfTwo)
      else .next (s.enterFault .lengthMismatch)
    else .next (s.enterFault .modulusMismatch) := by
  have hreads : ipaprvWith H gs hs au aP va vb s = finish s (do
      s.sameField a.ctx .order
      s.sameField b.ctx .order
      require (gsv.length == hsv.length && gsv.length == a.elems.length && gsv.length == b.elems.length) .lengthMismatch
      require (isPow2 gsv.length) .notPowerOfTwo
      let pf ← ipaProve H s.curve u (Nat.log2 gsv.length) (s.proverState gsv hsv P a b)
      let bytes ← proofBytes s.curve pf
      return s.emit bytes) :=
    congrArg (finish s) <| (needCurve_bind hc _).trans <| (read_bind hg _).trans <| (read_bind hh _).trans <|
      (read_bind hu _).trans <| (read_bind hP _).trans <| (read_bind ha _).trans (read_bind hb _)
  rw [hreads]
  split
  · next hmod =>
    obtain ⟨hma, hmb⟩ := hmod
    rw [sameField_bind (c2 := .order) hma, sameField_bind (c2 := .order) hmb]
    split
    · next hlen =>
      rw [require_bind (by simpa [and_assoc] using hlen)]
      split
      · next hpow =>
        rw [require_bind hpow]
        rfl
      · next hpow => exact finish_of_error (require_bind_of_false (Bool.eq_false_iff.2 hpow) _ _)
    · next hlen => exact finish_of_error (require_bind_of_false (Bool.eq_false_iff.2 (by simpa [and_assoc] using hlen)) _ _)
  · next hmod =>
    by_cases hma : (s.fld a.ctx).mod = s.fld1.mod
    · rw [sameField_bind (c2 := .order) hma]
      exact finish_of_error (sameField_bind_of_ne (c2 := .order) (fun hmb => hmod ⟨hma, hmb⟩) _)
    · exact finish_of_error (sameField_bind_of_ne (c2 := .order) hma _)

end

/-! ## The verifier without rounds (44_ipa.md R245) -/

theorem peq_iff {Q R : Affine} : peq Q R = true ↔ Q = R := by
  cases Q <;> cases R <;> simp [peq]

/-- Over a prime field every canonical triple has an affine image. -/
theorem Curve.exists_toA {c : Curve} [Fact (Nat.Prime c.fp.m)] (h : c.WF) {P : Jac} (hP : P.Canon c.fp) : ∃ Q, c.toA P = .ok Q := by
  by_cases h0 : P.Z = 0
  · exact ⟨_, c.toA_of_Z_eq_zero h0⟩
  · obtain ⟨x, y, hQ, -, -⟩ := Curve.toA_of_prime h hP h0
    exact ⟨_, hQ⟩

/-- Without rounds the one coefficient is 1, and `P` is compared with the affine image of the right-hand side. -/
theorem ipaVerify_of_no_rounds (H : Hash) {c : Curve} (h : c.WF) {g k u P Q : Affine} (hP : P.Canon c.fp) {a b : Fe}
    (hQ : c.toA (c.padd (c.padd (c.pmul (c.fq.val a) (c.msm [g] [1])) (c.pmul (c.fq.val b) (c.msm [k] [1])))
      (c.pmul (c.fq.val (c.fq.mul a b)) (c.toJ u))) = .ok Q) :
    ipaVerify H c [g] [k] u P ⟨[], [], a, b⟩ = .ok (decide (Q = P)) := by
  have hpeq : peq P Q = decide (Q = P) := by rw [Bool.eq_iff_iff, peq_iff, decide_eq_true_eq, eq_comm]
  have hone : [c.fq.one].map c.fq.val = [1] := congrArg (· :: []) h.fq.val_one
  simp only [ipaVerify, ipaRounds, ok_bind, h.fq.ipasv_nil, rev, List.reverse_singleton, hone, hQ, h.toA_toJ hP, hpeq]

/-! ## The statements -/

/-- Settles O55: the three points' bytes are the six coordinates' in order, and only a point at infinity has none. -/
theorem ipachResult : Obligations.IpachResult := by
  unfold Obligations.IpachResult
  intro s ed aL aC aR L C R hi hc hL hC hR
  have hfq := (hi.setup.curve_wf hc).fq
  rw [exec_ipach_eq hc hL hC hR]
  refine ⟨fun hinf => ?_, ?_⟩
  · rw [chal_of_inf _ _ hinf, error_bind, finish_error]
  · rintro xL yL xC yC xR yR rfl rfl rfl
    have hlt := Nat.mod_lt (beInt (Config.hash256 (([xL, yL, xC, yC, xR, yR].map s.fld0.val).map be32).flatten).toList) hfq.pos
    exact ⟨_, by rw [chal_of_pt, ok_bind]; rfl, hfq.canon_enc hlt, hfq.val_enc hlt⟩

/-- Settles O56: the product of the challenges is the value that is inverted, and the doublings give the entries in turn. -/
theorem ipasvResult : Obligations.IpasvResult := by
  unfold Obligations.IpasvResult
  intro s vd vs x hi hx
  have hf := hi.vec_wf hx
  obtain ⟨-, -, hxc⟩ := hi.regs.v _ _ hx
  obtain ⟨hprodc, -⟩ := hf.foldl_mul_spec x.elems hf.canon_one
  have hprod := hf.val_foldl_mul x.elems
  have hgcd : Nat.gcd ((s.fld x.ctx).val (x.elems.foldl (s.fld x.ctx).mul (s.fld x.ctx).one)) (s.fld x.ctx).m =
      Nat.gcd (x.elems.map (s.fld x.ctx).val).prod (s.fld x.ctx).m := by
    rw [hprod, ← Nat.gcd_rec, Nat.gcd_comm]
  dsimp only
  rw [List.length_map, exec_ipasv_eq hx, ← hgcd]
  refine ⟨fun hk => if_neg (Nat.not_le.2 hk), fun hk hne => ?_, fun hk hone => ?_⟩
  · rw [if_pos hk, ipasv_eq, FieldCtx.inv, if_neg hne]
    rfl
  · obtain ⟨hinv, h0, hmul⟩ := hf.inv_ok hone
    refine ⟨_, by rw [if_pos hk, ipasv_eq, hinv]; rfl, length_svFrom .., hf.canon_svFrom h0 _, ?_,
      fun j hj hlt => hf.val_svFrom_getD h0 hxc hj hlt⟩
    rw [svFrom_getD_zero, Nat.mul_comm, ← Nat.mod_mul_mod, ← hprod]
    exact hf.val_mul_val_mod_eq_one hmul

/-- Settles O57: the checks in order, then the verifier's answer; without rounds that is the comparison with the affine image of the
right-hand side, which exists over a prime field. -/
theorem ipavfyResult : Obligations.IpavfyResult := by
  unfold Obligations.IpavfyResult
  intro s gs hs au aP pf gsv hsv u P hi hc hk hg hh hu hP
  have hexec : exec (.ipavfy gs hs au aP pf) s = _ := ipavfyWith_eq Config.hash256 hc hg hh hu hP hk
  have hwf := hi.setup.curve_wf hc
  rw [hexec]
  refine ⟨fun hne => if_neg hne, fun hsame hpow => ?_, fun k hgk hhk hne => ?_, fun hglen hhlen => ?_, ?_⟩
  · rw [if_pos hsame, if_neg fun h => (isPow2_iff.1 h).elim hpow]
  · rw [hgk, hhk, if_pos rfl, if_pos (isPow2_two_pow k), if_neg fun h => hne (Nat.pow_right_injective le_rfl h).symm]
  · rw [hglen, hhlen, if_pos rfl, if_pos (isPow2_two_pow _), if_pos rfl]
    exact ⟨fun b hb => by rw [hb]; rfl, fun c hc => by rw [hc]; rfl⟩
  · rintro g h hp rfl rfl hls hrs
    have : Fact (Nat.Prime s.curve.fp.m) := ⟨hp⟩
    obtain ⟨-, -, hgc⟩ := hi.regs.g _ _ hg
    obtain ⟨-, -, hhc⟩ := hi.regs.g _ _ hh
    have hval := hwf.fq.val_mul (hwf.fq.canon_ofRaw pf.a) (s.curve.fq.ofRaw pf.b)
    rw [Values.fmul, hwf.fq.val_ofRaw, hwf.fq.val_ofRaw, ← Nat.mul_mod] at hval
    obtain ⟨Q, hQ⟩ := Curve.exists_toA hwf (hwf.padd_spec (hwf.padd_spec
      (hwf.pmul_spec (pf.a.toNat % s.fld1.m) (hwf.msm_spec (fun q hq => (hgc q hq).2) [1]).1).1
      (hwf.pmul_spec (pf.b.toNat % s.fld1.m) (hwf.msm_spec (fun q hq => (hhc q hq).2) [1]).1).1).1
      (hwf.pmul_spec (pf.a.toNat * pf.b.toNat % s.fld1.m) (hwf.toJ_spec (hi.regs.a _ _ hu).2).1).1).1
    refine ⟨Q, ?_, hQ⟩
    have hverify : ipaVerify Config.hash256 s.curve [g] [h] u P (proofParse s.curve pf) = .ok (decide (Q = P)) := by
      rw [proofParse, hls, hrs]
      refine ipaVerify_of_no_rounds _ hwf (hi.regs.a _ _ hP).2 ?_
      rw [hval, hwf.fq.val_ofRaw, hwf.fq.val_ofRaw]
      exact hQ
    rw [hls, hverify]
    rfl

/-- Settles O58: the checks in order, then the bytes of the prover's proof, whose points have all entered a challenge and so have an
encoding. -/
theorem ipaprvResult : Obligations.IpaprvResult := by
  unfold Obligations.IpaprvResult
  intro s gs hs au aP va vb gsv hsv u P a b hi hc hg hh hu hP ha hb
  have hexec : exec (.ipaprv gs hs au aP va vb) s = _ := ipaprvWith_eq Config.hash256 hc hg hh hu hP ha hb
  have hwf := hi.setup.curve_wf hc
  obtain ⟨-, -, hac⟩ := hi.regs.v _ _ ha
  obtain ⟨-, -, hbc⟩ := hi.regs.v _ _ hb
  rw [hexec]
  refine ⟨fun hne => if_neg (not_and_or.2 hne), fun hma hmb => ?_⟩
  rw [if_pos ⟨hma, hmb⟩]
  obtain ⟨-, hav⟩ := State.map_convert_spec (dst := .order) (hi.vec_wf ha) hwf.fq hma.symm hac
  obtain ⟨-, hbv⟩ := State.map_convert_spec (dst := .order) (hi.vec_wf hb) hwf.fq hmb.symm hbc
  refine ⟨fun hne => if_neg hne, fun hgh hga hgb => ?_⟩
  rw [if_pos ⟨hgh, hga, hgb⟩]
  refine ⟨fun hpow => if_neg fun h => (isPow2_iff.1 h).elim hpow, fun k hk => ?_, fun hone => ?_⟩
  · rw [hk, if_pos (isPow2_two_pow k), Nat.log2_two_pow, State.proverState]
    refine ⟨_, _, hav, hbv, fun c hpr => by rw [hpr]; rfl, fun pf hpr => ?_⟩
    obtain ⟨bytes, hbytes, hlen⟩ := proofBytes_of_ipaProve hpr
    exact ⟨bytes, hbytes, hlen, by rw [hpr, ok_bind, hbytes]; rfl⟩
  · obtain ⟨x, hx⟩ := List.length_eq_one_iff.1 (hga.symm.trans hone)
    obtain ⟨y, hy⟩ := List.length_eq_one_iff.1 (hgb.symm.trans hone)
    simp only [hx, hy, List.map_cons, List.map_nil, List.cons.injEq, and_true] at hav hbv
    rw [show gsv.length = 2 ^ 0 from hone, if_pos (isPow2_two_pow 0), Nat.log2_two_pow, State.proverState, hx, hy,
      List.getD_cons_zero, List.getD_cons_zero, ← hav, ← hbv]
    rfl

/-- Settles O59: the verifier's commitment `toJ P` has the affine image `P`, so both hash the same points and invert the same
challenge. -/
theorem proverRoundIsTheVerifierRound : Obligations.ProverRoundIsTheVerifierRound := by
  unfold Obligations.ProverRoundIsTheVerifierRound
  intro H c u h st st' L R hwf hP e
  obtain ⟨x, xi, -, -, hx, hxi, -, -, hP', ha, hb⟩ := proveRound_eq_ok e
  rw [eq_modinv_of_inv hxi] at ha hb
  exact ⟨_, x, hx, ipaRound_of_ok (hwf.toA_toJ hP) hx hxi, hP', ha, hb⟩

end Sys2Proof.Machine
end

section
/-! PROOFS of the statement on the completeness of the inner-product argument (44_ipa.md R249), part 1: the argument in a module
over a commutative ring. A round folds both halves of every vector into one, which moves the commitment by the squares of the
challenge; the coefficient vector undoes all folds of the bases at once. -/

namespace Sys2Proof.Machine

section
variable {R M : Type} [CommRing R] [AddCommGroup M] [Module R M]

/-! ## Linear combinations (43_vector.md R213, R222) -/

/-- The sum of the products of scalars and vectors at the same index; of two vectors of scalars, the inner product. -/
def combination (as : List R) (gs : List M) : M := (List.zipWith (· • ·) as gs).sum

/-- `x * l + y * r` at every index of two halves (44_ipa.md R246). -/
def foldHalves (x y : R) (ls rs : List M) : List M := List.zipWith (fun l r => x • l + y • r) ls rs

@[simp] theorem combination_nil_left (gs : List M) : combination ([] : List R) gs = 0 := rfl

@[simp] theorem combination_nil_right (as : List R) : combination as ([] : List M) = 0 := by simp [combination]

@[simp] theorem combination_cons (a : R) (as : List R) (g : M) (gs : List M) :
    combination (a :: as) (g :: gs) = a • g + combination as gs := by
  simp [combination]

theorem combination_append {as : List R} {gs : List M} (h : as.length = gs.length) (bs : List R) (ks : List M) :
    combination (as ++ bs) (gs ++ ks) = combination as gs + combination bs ks := by
  rw [combination, List.zipWith_append h, List.sum_append]
  rfl

theorem combination_map_mul (x : R) (as : List R) (gs : List M) :
    combination (as.map (· * x)) gs = x • combination as gs := by
  induction as generalizing gs with
  | nil => simp
  | cons a as ih =>
    cases gs with
    | nil => simp
    | cons g gs => rw [List.map_cons, combination_cons, combination_cons, ih, smul_add, mul_comm, mul_smul]

theorem combination_foldHalves_right (x y : R) (as : List R) {ls rs : List M} (h : ls.length = rs.length) :
    combination as (foldHalves x y ls rs) = x • combination as ls + y • combination as rs := by
  induction as generalizing ls rs with
  | nil => simp
  | cons a as ih =>
    match ls, rs, h with
    | [], [], _ => simp [foldHalves]
    | l :: ls, r :: rs, h =>
      have hrest := ih (Nat.succ.inj h)
      rw [foldHalves] at hrest ⊢
      rw [List.zipWith_cons_cons, combination_cons, combination_cons, combination_cons, hrest]
      module

theorem combination_foldHalves_left (x y : R) {as bs : List R} (h : as.length = bs.length) (gs : List M) :
    combination (foldHalves x y as bs) gs = x • combination as gs + y • combination bs gs := by
  induction gs generalizing as bs with
  | nil => simp
  | cons g gs ih =>
    match as, bs, h with
    | [], [], _ => simp [foldHalves]
    | a :: as, b :: bs, h =>
      have hrest := ih (Nat.succ.inj h)
      rw [foldHalves] at hrest ⊢
      rw [List.zipWith_cons_cons, combination_cons, combination_cons, combination_cons, hrest]
      module

theorem length_foldHalves {n : Nat} (x y : R) {ls rs : List M} (hl : ls.length = n) (hr : rs.length = n) :
    (foldHalves x y ls rs).length = n := by
  simp [foldHalves, hl, hr]

/-! ## Halves (43_vector.md R215) -/

theorem slice_append_slice {α : Type} {xs : List α} {n : Nat} (h : xs.length = 2 * n) : slice xs 0 n ++ slice xs n n = xs := by
  rw [slice, slice, List.drop_zero, List.take_of_length_le (l := xs.drop n) (by rw [List.length_drop]; omega),
    List.take_append_drop]

theorem length_slice_low {α : Type} {xs : List α} {n : Nat} (h : xs.length = 2 * n) : (slice xs 0 n).length = n :=
  (slice_spec (by omega)).1

theorem length_slice_high {α : Type} {xs : List α} {n : Nat} (h : xs.length = 2 * n) : (slice xs n n).length = n :=
  (slice_spec (by omega)).1

theorem combination_halves {n : Nat} {as : List R} {gs : List M} (ha : as.length = 2 * n) (hg : gs.length = 2 * n) :
    combination as gs = combination (slice as 0 n) (slice gs 0 n) + combination (slice as n n) (slice gs n n) := by
  rw [← combination_append ((length_slice_low ha).trans (length_slice_low hg).symm), slice_append_slice ha, slice_append_slice hg]

end

/-! ## One round (44_ipa.md R246) -/

/-- What a commitment opens to: the two bases and the two witness vectors. -/
structure Opening (R M : Type) where
  gs : List M
  hs : List M
  a : List R
  b : List R

namespace Opening

variable {R M : Type} [CommRing R] [AddCommGroup M] [Module R M]

/-- `Comm(a, b, <a, b>)` (44_ipa.md R249). -/
def commit (o : Opening R M) (u : M) : M := combination o.a o.gs + combination o.b o.hs + combination o.a o.b • u

/-- The point `L` of a round on halves of length `n`. -/
def left (o : Opening R M) (n : Nat) (u : M) : M :=
  combination (slice o.a 0 n) (slice o.gs n n) + combination (slice o.b n n) (slice o.hs 0 n) +
    combination (slice o.a 0 n) (slice o.b n n) • u

/-- The point `R` of a round on halves of length `n`. -/
def right (o : Opening R M) (n : Nat) (u : M) : M :=
  combination (slice o.a n n) (slice o.gs 0 n) + combination (slice o.b 0 n) (slice o.hs n n) +
    combination (slice o.a n n) (slice o.b 0 n) • u

/-- The folded bases and witness vectors of a round with the challenge `x`. -/
def fold (o : Opening R M) (n : Nat) (x : Rˣ) : Opening R M where
  gs := foldHalves (↑x⁻¹ : R) (x : R) (slice o.gs 0 n) (slice o.gs n n)
  hs := foldHalves (x : R) (↑x⁻¹ : R) (slice o.hs 0 n) (slice o.hs n n)
  a := foldHalves (x : R) (↑x⁻¹ : R) (slice o.a 0 n) (slice o.a n n)
  b := foldHalves (↑x⁻¹ : R) (x : R) (slice o.b 0 n) (slice o.b n n)

/-- All four vectors have `n` entries. -/
structure OfLength (o : Opening R M) (n : Nat) : Prop where
  gs : o.gs.length = n
  hs : o.hs.length = n
  a : o.a.length = n
  b : o.b.length = n

variable {o : Opening R M} {n : Nat}

theorem OfLength.fold (ho : o.OfLength (2 * n)) (x : Rˣ) : (o.fold n x).OfLength n where
  gs := length_foldHalves _ _ (length_slice_low ho.gs) (length_slice_high ho.gs)
  hs := length_foldHalves _ _ (length_slice_low ho.hs) (length_slice_high ho.hs)
  a := length_foldHalves _ _ (length_slice_low ho.a) (length_slice_high ho.a)
  b := length_foldHalves _ _ (length_slice_low ho.b) (length_slice_high ho.b)

/-- The key step of the argument: the folded opening's commitment is `x^2 * L + x^-2 * R` plus the old one (44_ipa.md R246). -/
theorem commit_fold (ho : o.OfLength (2 * n)) (u : M) (x : Rˣ) :
    (o.fold n x).commit u = ((x : R) ^ 2 • o.left n u + (↑x⁻¹ : R) ^ 2 • o.right n u) + o.commit u := by
  have hg := (length_slice_low ho.gs).trans (length_slice_high ho.gs).symm
  have hh := (length_slice_low ho.hs).trans (length_slice_high ho.hs).symm
  have ha := (length_slice_low ho.a).trans (length_slice_high ho.a).symm
  have hb := (length_slice_low ho.b).trans (length_slice_high ho.b).symm
  have hx : (x : R) * (↑x⁻¹ : R) = 1 := x.mul_inv
  rw [commit, commit, left, right, combination_halves ho.a ho.gs, combination_halves ho.b ho.hs, combination_halves ho.a ho.b]
  simp only [Opening.fold, combination_foldHalves_left _ _ ha, combination_foldHalves_left _ _ hb,
    combination_foldHalves_right _ _ _ hg, combination_foldHalves_right _ _ _ hh, combination_foldHalves_right _ _ _ hb,
    smul_eq_mul]
  generalize (x : R) = y at hx ⊢
  generalize (↑x⁻¹ : R) = z at hx ⊢
  -- Scalar by scalar the two sides differ by a multiple of `y * z = 1`.
  match_scalars <;> grind

end Opening

/-! ## All rounds (44_ipa.md R243, R245) -/

section
variable {R M : Type} [CommRing R] [AddCommGroup M] [Module R M]

/-- The verifier's coefficients of some challenges: every product of challenges and inverses, the first challenge's inverse in the
lower half (44_ipa.md R243). -/
def coefficients : List Rˣ → List R
  | [] => [1]
  | x :: xs => (coefficients xs).map (· * (↑x⁻¹ : R)) ++ (coefficients xs).map (· * (x : R))

theorem length_coefficients (xs : List Rˣ) : (coefficients xs).length = 2 ^ xs.length := by
  induction xs with
  | nil => rfl
  | cons x xs ih =>
    rw [coefficients, List.length_append, List.length_map, List.length_map, ih, List.length_cons, pow_succ, Nat.mul_two]

section
variable (x : Rˣ) (xs : List Rˣ) {ls rs : List M} (hl : ls.length = 2 ^ xs.length) (hr : rs.length = 2 ^ xs.length)
include hl hr

/-- Against a base, the coefficients of one more challenge are those of the rest against the folded base. -/
theorem combination_coefficients_cons : combination (coefficients (x :: xs)) (ls ++ rs) =
    combination (coefficients xs) (foldHalves (↑x⁻¹ : R) (x : R) ls rs) := by
  rw [coefficients, combination_append (by rw [List.length_map, length_coefficients, hl]), combination_map_mul,
    combination_map_mul, combination_foldHalves_right _ _ _ (hl.trans hr.symm)]

/-- The same for the reversed coefficients and a base folded the other way round. -/
theorem combination_reverse_coefficients_cons : combination (coefficients (x :: xs)).reverse (ls ++ rs) =
    combination (coefficients xs).reverse (foldHalves (x : R) (↑x⁻¹ : R) ls rs) := by
  rw [coefficients, List.reverse_append, ← List.map_reverse, ← List.map_reverse,
    combination_append (by rw [List.length_map, List.length_reverse, length_coefficients, hl]), combination_map_mul,
    combination_map_mul, combination_foldHalves_right _ _ _ (hl.trans hr.symm)]

end

namespace Opening

/-- The opening after the rounds of some challenges, from length `2 ^ xs.length` down to 1 (44_ipa.md R247). -/
def foldAll : List Rˣ → Opening R M → Opening R M
  | [], o => o
  | x :: xs, o => foldAll xs (o.fold (2 ^ xs.length) x)

/-- After all rounds each base is one element, its combination with the coefficients or their reverse. -/
theorem foldAll_eq (xs : List Rˣ) {o : Opening R M} (ho : o.OfLength (2 ^ xs.length)) : ∃ a b, o.foldAll xs =
    { gs := [combination (coefficients xs) o.gs], hs := [combination (coefficients xs).reverse o.hs], a := [a], b := [b] } := by
  induction xs generalizing o with
  | nil =>
    obtain ⟨gs, hs, as, bs⟩ := o
    obtain ⟨hg, hh, ha, hb⟩ := ho
    obtain ⟨g, rfl⟩ := List.length_eq_one_iff.1 hg
    obtain ⟨h, rfl⟩ := List.length_eq_one_iff.1 hh
    obtain ⟨a, rfl⟩ := List.length_eq_one_iff.1 ha
    obtain ⟨b, rfl⟩ := List.length_eq_one_iff.1 hb
    exact ⟨a, b, by simp [foldAll, coefficients]⟩
  | cons x xs ih =>
    have ho' : o.OfLength (2 * 2 ^ xs.length) := by rwa [List.length_cons, pow_succ, Nat.mul_comm] at ho
    obtain ⟨a, b, hfold⟩ := ih (ho'.fold x)
    have hgs := combination_coefficients_cons x xs (length_slice_low ho'.gs) (length_slice_high ho'.gs)
    have hhs := combination_reverse_coefficients_cons x xs (length_slice_low ho'.hs) (length_slice_high ho'.hs)
    rw [slice_append_slice ho'.gs] at hgs
    rw [slice_append_slice ho'.hs] at hhs
    refine ⟨a, b, ?_⟩
    rw [foldAll, hfold, hgs, hhs]
    rfl

theorem commit_singleton (g h u : M) (a b : R) :
    (⟨[g], [h], [a], [b]⟩ : Opening R M).commit u = a • g + b • h + (a * b) • u := by
  simp [commit]

end Opening

end

end Sys2Proof.Machine
end

section
/-! PROOFS of the statement on the completeness of the inner-product argument (44_ipa.md R249), part 2: the functions of the
prover and the verifier compute the argument of part 1, with scalars the residues modulo `q` and vectors the elements of a module
over them that maps to the group of the curve. -/

namespace Sys2Proof.Machine

/-! ## Elements of the order field -/

/-- A canonical stored form of a unit. -/
abbrev FieldCtx.StoresUnit (f : FieldCtx) (x : Fe) (w : (ZMod f.m)ˣ) : Prop := f.Stores x (w : ZMod f.m)

namespace FieldCtx.WF

variable {f : FieldCtx} (h : f.WF)
include h

theorem stores_vipFrom {as bs : List Fe} {us vs : List (ZMod f.m)} (ha : List.Forall₂ f.Stores as us)
    (hb : List.Forall₂ f.Stores bs vs) {acc : Fe} {t : ZMod f.m} (hacc : f.Stores acc t) :
    f.Stores (f.vipFrom acc as bs) (t + combination us vs) := by
  induction ha generalizing bs vs acc t with
  | nil => simpa [vipFrom] using hacc
  | cons hx _ ih =>
    cases hb with
    | nil => simpa [vipFrom] using hacc
    | cons hy hbs =>
      rw [combination_cons, smul_eq_mul, ← add_assoc]
      exact ih hbs (hacc.add h (hx.mul h hy))

/-- `vip` is the inner product (43_vector.md R213). -/
theorem stores_vip {as bs : List Fe} {us vs : List (ZMod f.m)} (ha : List.Forall₂ f.Stores as us)
    (hb : List.Forall₂ f.Stores bs vs) : f.Stores (f.vip as bs) (combination us vs) :=
  (h.stores_vipFrom ha hb (.zero h)).congr (zero_add _)

theorem stores_foldWitness {x y : Fe} {u v : ZMod f.m} (hx : f.Stores x u) (hy : f.Stores y v) {ls rs : List Fe}
    {us vs : List (ZMod f.m)} (hl : List.Forall₂ f.Stores ls us) (hr : List.Forall₂ f.Stores rs vs) :
    List.Forall₂ f.Stores (foldWitness f x y ls rs) (foldHalves u v us vs) := by
  refine forall₂_zipWith (fun l u' hl r v' hr => ?_) hl hr
  rw [smul_eq_mul, smul_eq_mul]
  exact (hx.mul h hl).add h (hy.mul h hr)

/-- `finv` answers on units alone, with the inverse (41_field.md R137). -/
theorem exists_unit_of_inv {x xi : Fe} (hx : f.Canon x) (e : f.inv x = .ok xi) :
    ∃ u : (ZMod f.m)ˣ, f.Stores x u ∧ f.Stores xi (↑u⁻¹ : ZMod f.m) := by
  rcases h.inv_cases x with ⟨r, hr, hcanon, hmul⟩ | ⟨herr, -⟩
  · obtain rfl : r = xi := Except.ok.inj (hr.symm.trans e)
    exact ⟨⟨f.toZ x, f.toZ r, (mul_comm _ _).trans hmul, hmul⟩, .of_canon hx, .of_canon hcanon⟩
  · rw [herr] at e
    cases e

theorem inv_of_unit {x : Fe} {u : (ZMod f.m)ˣ} (hx : f.Stores x u) : ∃ xi, f.inv x = .ok xi ∧ f.Stores xi (↑u⁻¹ : ZMod f.m) := by
  have hcop : Nat.gcd (f.val x) f.m = 1 := (ZMod.isUnit_iff_coprime (f.val x) f.m).1 (by rw [h.toZ_val, hx.2]; exact u.isUnit)
  obtain ⟨hinv, hcanon, hmul⟩ := h.inv_ok hcop
  exact ⟨_, hinv, hcanon, Units.eq_inv_of_mul_eq_one_left (by rw [← hx.2, mul_comm]; exact hmul)⟩

theorem stores_foldl_mul {xs : List Fe} {us : List (ZMod f.m)ˣ} (hxs : List.Forall₂ f.StoresUnit xs us) :
    f.StoresUnit (xs.foldl f.mul f.one) us.prod := by
  obtain ⟨hcanon, hprod⟩ := h.foldl_mul_spec xs h.canon_one
  refine ⟨hcanon, ?_⟩
  rw [hprod, h.toZ_one, one_mul, map_eq_map_of_forall₂ (g := Units.val) (fun _ _ hx => hx.2) hxs]
  exact (map_list_prod (Units.coeHom (ZMod f.m)) us).symm

/-- The doublings from an entry 0 give that entry times the coefficients and the product of the challenges. -/
theorem stores_svFrom {xs : List Fe} {us : List (ZMod f.m)ˣ} (hxs : List.Forall₂ f.StoresUnit xs us)
    {s0 : Fe} {t : ZMod f.m} (h0 : f.Stores s0 t) :
    List.Forall₂ f.Stores (svFrom f s0 xs) ((coefficients us).map (· * (t * (us.prod : (ZMod f.m)ˣ)))) := by
  induction hxs with
  | nil => simpa [coefficients] using h0
  | @cons x u xs us hx _ ih =>
    have hu : (u : ZMod f.m) * (↑u⁻¹ : ZMod f.m) = 1 := u.mul_inv
    rw [List.forall₂_map_right_iff] at ih
    rw [svFrom_cons, svDouble, coefficients, List.map_append, List.map_map, List.map_map, List.prod_cons, Units.val_mul]
    refine List.rel_append ?_ ?_
    · rw [List.forall₂_map_right_iff]
      refine ih.imp fun y v hy => hy.congr ?_
      simp only [Function.comp]
      linear_combination (-(v * (t * (us.prod : (ZMod f.m)ˣ)))) * hu
    · rw [List.forall₂_map_left_iff, List.forall₂_map_right_iff]
      refine ih.imp fun y v hy => (hy.mul h (hx.mul h hx)).congr ?_
      simp only [Function.comp]
      ring

/-- `ipasv` of units gives their coefficients (44_ipa.md R243). -/
theorem ipasv_of_units {xs : List Fe} {us : List (ZMod f.m)ˣ} (hxs : List.Forall₂ f.StoresUnit xs us) :
    ∃ sv, ipasv f xs = .ok sv ∧ List.Forall₂ f.Stores sv (coefficients us) := by
  obtain ⟨s0, hinv, h0⟩ := h.inv_of_unit (h.stores_foldl_mul hxs)
  refine ⟨_, by rw [ipasv_eq, hinv, ok_bind], ?_⟩
  have hsv := h.stores_svFrom hxs h0
  simpa using hsv

end FieldCtx.WF

/-! ## Points and elements of the module -/

namespace Curve

variable {c : Curve} [Fact (Nat.Prime c.fp.m)] {T : Type} [AddCommGroup T] [Module (ZMod c.fq.m) T]

/-- A canonical affine point that stands for the image of an element. -/
def Shows (c : Curve) [Fact (Nat.Prime c.fp.m)] {T : Type} [AddCommGroup T] (φ : T →+ c.weierstrass.Point) (Q : Affine)
    (g : T) : Prop :=
  Q.Canon c.fp ∧ c.StandsFor Q (φ g)

variable {φ : T →+ c.weierstrass.Point} (h : c.WF)
include h

omit [Module (ZMod c.fq.m) T] in
theorem Shows.toJ {Q : Affine} {g : T} (hQ : c.Shows φ Q g) : c.Represents (c.toJ Q) (φ g) := toJ_represents h hQ.1 hQ.2

omit [Module (ZMod c.fq.m) T] in
theorem shows_of_toA {P : Jac} {Q : Affine} {g : T} (hP : c.Represents P (φ g)) (e : c.toA P = .ok Q) : c.Shows φ Q g :=
  ⟨h.toA_canon hP.canon e, (jacStandsFor_iff e).1 ((represents_iff h hP.canon).1 hP)⟩

omit [Module (ZMod c.fq.m) T] in
/-- One canonical affine point stands for a point of the group. -/
theorem toA_of_shows {P : Jac} {Q : Affine} {g : T} (hP : c.Represents P (φ g)) (hQ : c.Shows φ Q g) : c.toA P = .ok Q := by
  obtain ⟨Q', hQ', hstands'⟩ := (represents_iff h hP.canon).1 hP
  have hcanon' := h.toA_canon hP.canon hQ'
  obtain ⟨hcanon, hstands⟩ := hQ
  rw [hQ']
  generalize φ g = pt at hstands hstands'
  cases pt with
  | zero => rw [show Q' = .inf from hstands', show Q = .inf from hstands]
  | some x y hxy =>
    obtain ⟨x1, y1, rfl, hx1, hy1⟩ := hstands
    obtain ⟨x2, y2, rfl, hx2, hy2⟩ := hstands'
    obtain ⟨hcx1, hcy1⟩ := canon_pt_iff.1 hcanon
    obtain ⟨hcx2, hcy2⟩ := canon_pt_iff.1 hcanon'
    rw [(h.fp.toZ_inj hcx2 hcx1).1 (hx2.trans hx1.symm), (h.fp.toZ_inj hcy2 hcy1).1 (hy2.trans hy1.symm)]

omit [Module (ZMod c.fq.m) T] in
theorem padd_represents_add {P P' : Jac} {g g' : T} (hP : c.Represents P (φ g)) (hP' : c.Represents P' (φ g')) :
    c.Represents (c.padd P P') (φ (g + g')) := by
  rw [map_add]
  exact padd_represents h hP hP'

/-- `pmul` by a stored scalar is the module's multiple: reducing the scalar modulo `q` changes nothing (42_curve.md R185). -/
theorem pmul_represents_smul {P : Jac} {g : T} (hP : c.Represents P (φ g)) {x : Fe} {u : ZMod c.fq.m} (hx : c.fq.Stores x u) :
    c.Represents (c.pmul (c.fq.val x) P) (φ (u • g)) := by
  have hmul := pmulRaw_represents h hP ((Nat.mod_lt (c.fq.val x) h.fq.pos).trans c.fq.m_lt)
  rwa [← map_nsmul, ← Nat.cast_smul_eq_nsmul (ZMod c.fq.m), ZMod.natCast_mod, h.fq.toZ_val, hx.2] at hmul

theorem msmFrom_represents {qs : List Affine} {gs : List T} (hqs : List.Forall₂ (c.Shows φ) qs gs) {as : List Fe}
    {us : List (ZMod c.fq.m)} (has : List.Forall₂ c.fq.Stores as us) {acc : Jac} {t : T} (hacc : c.Represents acc (φ t)) :
    c.Represents (c.msmFrom acc qs (as.map c.fq.val)) (φ (t + combination us gs)) := by
  induction hqs generalizing as us acc t with
  | nil => simpa [msmFrom] using hacc
  | cons hq _ ih =>
    cases has with
    | nil => simpa [msmFrom] using hacc
    | cons hx has =>
      rw [combination_cons, ← add_assoc]
      exact ih has (padd_represents_add h hacc (pmul_represents_smul h (hq.toJ h) hx))

/-- The vector commitment is the linear combination (43_vector.md R222). -/
theorem msm_represents {qs : List Affine} {gs : List T} (hqs : List.Forall₂ (c.Shows φ) qs gs) {as : List Fe}
    {us : List (ZMod c.fq.m)} (has : List.Forall₂ c.fq.Stores as us) :
    c.Represents (c.msm qs (as.map c.fq.val)) (φ (combination us gs)) := by
  have hzero : c.Represents c.infJ (φ (0 : T)) := by
    rw [map_zero]
    exact infJ_represents h
  have hsum := msmFrom_represents h hqs has hzero
  rwa [zero_add] at hsum

/-! ## The prover's and the verifier's functions (44_ipa.md R244 to R247) -/

variable {H : Hash} {uA : Affine} {u : T} {x xi : Fe} {w : (ZMod c.fq.m)ˣ}

theorem shows_crossPoint (hu : c.Shows φ uA u) {qs rs : List Affine} {gs hs : List T} (hqs : List.Forall₂ (c.Shows φ) qs gs)
    (hrs : List.Forall₂ (c.Shows φ) rs hs) {as bs : List Fe} {a b : List (ZMod c.fq.m)} (has : List.Forall₂ c.fq.Stores as a)
    (hbs : List.Forall₂ c.fq.Stores bs b) {as' bs' : List Fe} {a' b' : List (ZMod c.fq.m)} (has' : List.Forall₂ c.fq.Stores as' a')
    (hbs' : List.Forall₂ c.fq.Stores bs' b') {Q : Affine} (e : crossPoint c uA qs as rs bs (c.fq.vip as' bs') = .ok Q) :
    c.Shows φ Q (combination a gs + combination b hs + combination a' b' • u) :=
  shows_of_toA h (padd_represents_add h (padd_represents_add h (msm_represents h hqs has) (msm_represents h hrs hbs))
    (pmul_represents_smul h (hu.toJ h) (h.fq.stores_vip has' hbs'))) e

theorem shows_foldBase {y : Fe} {v v' : ZMod c.fq.m} (hx : c.fq.Stores x v) (hy : c.fq.Stores y v')
    {ls rs : List Affine} {gs ks : List T} (hl : List.Forall₂ (c.Shows φ) ls gs) (hr : List.Forall₂ (c.Shows φ) rs ks)
    {qs : List Affine} (e : foldBase c (c.fq.val x) (c.fq.val y) ls rs = .ok qs) :
    List.Forall₂ (c.Shows φ) qs (foldHalves v v' gs ks) := by
  induction hl generalizing rs ks qs with
  | nil =>
    cases e
    exact .nil
  | cons hl _ ih =>
    cases hr with
    | nil =>
      cases e
      exact .nil
    | cons hr hrs =>
      obtain ⟨q, hq, e⟩ := bind_eq_ok.1 e
      obtain ⟨qs', hqs, e⟩ := bind_eq_ok.1 e
      cases e
      exact .cons (shows_of_toA h (padd_represents_add h (pmul_represents_smul h (hl.toJ h) hx)
        (pmul_represents_smul h (hr.toJ h) hy)) hq) (ih hrs hqs)

theorem roundSum_represents {L R : Affine} {l r : T} (hL : c.Shows φ L l) (hR : c.Shows φ R r) (hx : c.fq.Stores x w)
    (hxi : c.fq.Stores xi (↑w⁻¹ : ZMod c.fq.m)) :
    c.Represents (roundSum c x xi L R) (φ ((w : ZMod c.fq.m) ^ 2 • l + (↑w⁻¹ : ZMod c.fq.m) ^ 2 • r)) := by
  rw [sq, sq]
  exact padd_represents_add h (pmul_represents_smul h (hL.toJ h) (hx.mul h.fq hx))
    (pmul_represents_smul h (hR.toJ h) (hxi.mul h.fq hxi))

/-- A prover's state holds an opening, and its point shows the opening's commitment. -/
structure Holds (c : Curve) [Fact (Nat.Prime c.fp.m)] {T : Type} [AddCommGroup T] [Module (ZMod c.fq.m) T]
    (φ : T →+ c.weierstrass.Point) (u : T) (st : ProverState) (o : Opening (ZMod c.fq.m) T) : Prop where
  gs : List.Forall₂ (c.Shows φ) st.gs o.gs
  hs : List.Forall₂ (c.Shows φ) st.hs o.hs
  a : List.Forall₂ c.fq.Stores st.a o.a
  b : List.Forall₂ c.fq.Stores st.b o.b
  P : c.Shows φ st.P (o.commit u)

/-- One round: the prover folds the opening by a unit challenge, and the verifier's running commitment, from any triple for the old
commitment, becomes one for the new commitment with the same challenge. -/
theorem proveRound_holds {n : Nat} {st st' : ProverState} {o : Opening (ZMod c.fq.m) T} (hu : c.Shows φ uA u)
    (hst : c.Holds φ u st o) (ho : o.OfLength (2 * n)) {L R : Affine} (e : proveRound H c uA n st = .ok (L, R, st')) :
    L.Canon c.fp ∧ R.Canon c.fp ∧ ∃ (x : Fe) (w : (ZMod c.fq.m)ˣ), c.fq.Stores x w ∧ c.Holds φ u st' (o.fold n w) ∧
      ∀ C : Jac, c.Represents C (φ (o.commit u)) →
        ∃ C', ipaRound H c C L R = .ok (C', x) ∧ c.Represents C' (φ ((o.fold n w).commit u)) := by
  obtain ⟨x, xi, hL, hR, hx, hxi, hgs, hhs, hP, ha, hb⟩ := proveRound_eq_ok e
  obtain ⟨w, hw, hwi⟩ := h.fq.exists_unit_of_inv (canon_chal h.fq hx) hxi
  have g0 := forall₂_slice hst.gs 0 n
  have g1 := forall₂_slice hst.gs n n
  have h0 := forall₂_slice hst.hs 0 n
  have h1 := forall₂_slice hst.hs n n
  have a0 := forall₂_slice hst.a 0 n
  have a1 := forall₂_slice hst.a n n
  have b0 := forall₂_slice hst.b 0 n
  have b1 := forall₂_slice hst.b n n
  have hLshows : c.Shows φ L (o.left n u) := shows_crossPoint h hu g1 h0 a0 b1 a0 b1 hL
  have hRshows : c.Shows φ R (o.right n u) := shows_crossPoint h hu g0 h1 a1 b0 a1 b0 hR
  have hnext {C : Jac} (hC : c.Represents C (φ (o.commit u))) :
      c.Represents (c.padd (roundSum c x xi L R) C) (φ ((o.fold n w).commit u)) := by
    rw [Opening.commit_fold ho]
    exact padd_represents_add h (roundSum_represents h hLshows hRshows hw hwi) hC
  refine ⟨hLshows.1, hRshows.1, x, w, hw, ⟨?_, ?_, ?_, ?_, ?_⟩, fun C hC => ?_⟩
  · exact shows_foldBase h hwi hw g0 g1 hgs
  · exact shows_foldBase h hw hwi h0 h1 hhs
  · rw [ha]
    exact h.fq.stores_foldWitness hw hwi a0 a1
  · rw [hb]
    exact h.fq.stores_foldWitness hwi hw b0 b1
  · exact shows_of_toA h (hnext (hst.P.toJ h)) hP
  · exact ⟨_, ipaRound_of_ok (toA_of_shows h hC hst.P) hx hxi, hnext hC⟩

/-- All rounds, by the round above. -/
theorem proveRounds_holds {k : Nat} {st last : ProverState} {o : Opening (ZMod c.fq.m) T} (hu : c.Shows φ uA u)
    (hst : c.Holds φ u st o) (ho : o.OfLength (2 ^ k)) {ls rs : List Affine} (e : proveRounds H c uA k st = .ok (ls, rs, last)) :
    (∀ q ∈ ls, q.Canon c.fp) ∧ (∀ q ∈ rs, q.Canon c.fp) ∧ ∃ (xs : List Fe) (ws : List (ZMod c.fq.m)ˣ),
      List.Forall₂ c.fq.StoresUnit xs ws ∧ ws.length = k ∧ c.Holds φ u last (o.foldAll ws) ∧
      ∀ C : Jac, c.Represents C (φ (o.commit u)) →
        ∃ C', ipaRounds H c C ls rs = .ok (C', xs) ∧ c.Represents C' (φ ((o.foldAll ws).commit u)) := by
  induction k generalizing st o ls rs with
  | zero =>
    cases e
    exact ⟨by simp, by simp, [], [], .nil, rfl, hst, fun C hC => ⟨C, rfl, hC⟩⟩
  | succ k ih =>
    obtain ⟨L, R, st1, ls1, rs1, hround, hrest, rfl, rfl⟩ := proveRounds_succ_eq_ok e
    have ho' : o.OfLength (2 * 2 ^ k) := by rwa [pow_succ, Nat.mul_comm] at ho
    obtain ⟨hL, hR, x, w, hx, hst1, hverify⟩ := proveRound_holds h hu hst ho' hround
    obtain ⟨hls, hrs, xs, ws, hxs, hlen, hlast, hverifyRest⟩ := ih hst1 (ho'.fold w) hrest
    have hfold : o.foldAll (w :: ws) = (o.fold (2 ^ k) w).foldAll ws := by rw [Opening.foldAll, hlen]
    refine ⟨List.forall_mem_cons.2 ⟨hL, hls⟩, List.forall_mem_cons.2 ⟨hR, hrs⟩, x :: xs, w :: ws, .cons hx hxs,
      congrArg (· + 1) hlen, hfold ▸ hlast, fun C hC => ?_⟩
    obtain ⟨C1, hC1, hrep1⟩ := hverify C hC
    obtain ⟨C2, hC2, hrep2⟩ := hverifyRest C1 hrep1
    exact ⟨C2, by simp only [ipaRounds, hC1, ok_bind, hC2], hfold ▸ hrep2⟩

/-- Completeness (44_ipa.md R249): the proof that the prover answers from an opening of `P` is valid, and its data are canonical. -/
theorem ipaVerify_of_ipaProve {k : Nat} {st : ProverState} {o : Opening (ZMod c.fq.m) T} (hu : c.Shows φ uA u)
    (hst : c.Holds φ u st o) (ho : o.OfLength (2 ^ k)) {pf : Proof} (e : ipaProve H c uA k st = .ok pf) :
    ipaVerify H c st.gs st.hs uA st.P pf = .ok true ∧ (∀ q ∈ pf.ls, q.Canon c.fp) ∧ (∀ q ∈ pf.rs, q.Canon c.fp) ∧
      c.fq.Canon pf.a ∧ c.fq.Canon pf.b := by
  obtain ⟨last, hrounds, hpa, hpb⟩ := ipaProve_eq_ok e
  obtain ⟨hls, hrs, xs, ws, hxs, rfl, hlast, hverify⟩ := proveRounds_holds h hu hst ho hrounds
  obtain ⟨C, hC, hrep⟩ := hverify _ (hst.P.toJ h)
  obtain ⟨a, b, hfold⟩ := Opening.foldAll_eq ws ho
  rw [hfold] at hlast hrep
  have ha : c.fq.Stores pf.a a := by
    rw [hpa]
    exact rel_getD_of_forall₂ hlast.a 0 (.zero h.fq)
  have hb : c.fq.Stores pf.b b := by
    rw [hpb]
    exact rel_getD_of_forall₂ hlast.b 0 (.zero h.fq)
  obtain ⟨sv, hsv, hcoeffs⟩ := h.fq.ipasv_of_units hxs
  have hG := msm_represents h hst.gs hcoeffs
  have hH := msm_represents h hst.hs (List.rel_reverse hcoeffs)
  have hrhs := padd_represents_add h (padd_represents_add h (pmul_represents_smul h hG ha) (pmul_represents_smul h hH hb))
    (pmul_represents_smul h (hu.toJ h) (ha.mul h.fq hb))
  rw [Opening.commit_singleton] at hrep
  obtain ⟨Q, hQ⟩ := exists_toA h hrep.canon
  have hQ' := toA_of_shows h hrhs (shows_of_toA h hrep hQ)
  refine ⟨?_, hls, hrs, ha.1, hb.1⟩
  simp only [ipaVerify, hC, ok_bind, hsv, hQ, rev, hQ', peq_iff.2 rfl]

end Curve

end Sys2Proof.Machine
end

section
/-! PROOFS of the statement on the completeness of the inner-product argument (44_ipa.md R249), part 3: the emitted bytes are a
payload that parses to the prover's proof, and the points of order dividing `q` are the module of part 2. -/

namespace Sys2Proof.Machine

/-! ## The emitted bytes as payload words (20_memory.md R52 to R54, R63) -/

theorem beBytes_add (m n v : Nat) : beBytes (m + n) v = beBytes m (v / 256 ^ n) ++ beBytes n v := by
  induction m with
  | zero => simp [beBytes]
  | succ m ih =>
    rw [Nat.succ_add, beBytes, beBytes, ih, Nat.div_div_eq_div_mul, ← pow_add, Nat.add_comm n m]
    rfl

/-- The bytes of a word are the four low bytes of any natural it was made of. -/
theorem wordBytes_ofNat (v : Nat) : wordBytes (BitVec.ofNat 32 v) = beBytes 4 v := by
  rw [← beBytes_toNat, BitVec.toNat_ofNat]
  simp only [beBytes, List.cons.injEq, and_true, ← BitVec.toNat_inj, BitVec.toNat_ofNat]
  omega

theorem flatMap_wordBytes_natWords (n v : Nat) : (natWords n v).flatMap wordBytes = beBytes (4 * n) v := by
  induction n with
  | zero => rfl
  | succ n ih =>
    have hpow : 256 ^ (4 * n) = 2 ^ (32 * n) := by
      rw [show 256 = 2 ^ 8 from rfl, ← pow_mul, ← Nat.mul_assoc]
    rw [natWords, List.flatMap_cons, ih, wordBytes_ofNat, Nat.mul_succ, Nat.add_comm, beBytes_add, hpow]

/-- The eight words of a 256-bit natural carry its wire encoding. -/
theorem flatMap_wordBytes_words256 {v : Nat} (h : v < 2 ^ 256) : (words256 (BitVec.ofNat 256 v)).flatMap wordBytes = be32 v := by
  rw [words256, BitVec.toNat_ofNat, Nat.mod_eq_of_lt h, flatMap_wordBytes_natWords]
  rfl

/-- The payload value of an element. -/
def FieldCtx.raw (f : FieldCtx) (x : Fe) : Raw := BitVec.ofNat 256 (f.val x)

/-- The payload point of a finite point; infinity has none and gives some point. -/
def rawOfPoint (f : FieldCtx) : Affine → RawPoint
  | .inf => ⟨0, 0⟩
  | .pt x y => ⟨f.raw x, f.raw y⟩

/-- The payload proof of a proof. -/
def Proof.raw (c : Curve) (pf : Proof) : RawProof where
  ls := pf.ls.map (rawOfPoint c.fp)
  rs := pf.rs.map (rawOfPoint c.fp)
  a := c.fq.raw pf.a
  b := c.fq.raw pf.b

section
variable {f : FieldCtx} (h : f.WF)
include h

theorem ofRaw_raw {x : Fe} (hx : f.Canon x) : f.ofRaw (f.raw x) = x := by
  have hlt := h.val_lt hx
  rw [← h.val_inj (h.canon_ofRaw _) hx, h.val_ofRaw, FieldCtx.raw, f.toNat_ofNat_lt hlt, Nat.mod_eq_of_lt hlt]

theorem wordBytes_raw {x : Fe} (hx : f.Canon x) : (words256 (f.raw x)).flatMap wordBytes = be32 (f.val x) :=
  flatMap_wordBytes_words256 ((h.val_lt hx).trans f.m_lt)

theorem pointOfRaw_rawOfPoint {q : Affine} (hq : q.Canon f) (hfin : q ≠ .inf) : pointOfRaw f (rawOfPoint f q) = q := by
  cases q with
  | inf => exact absurd rfl hfin
  | pt x y =>
    obtain ⟨hx, hy⟩ := canon_pt_iff.1 hq
    rw [rawOfPoint, pointOfRaw, ofRaw_raw h hx, ofRaw_raw h hy]

theorem ser_eq_rawOfPoint {q : Affine} (hq : q.Canon f) (hfin : q ≠ .inf) :
    ser f q = .ok ((wordsPoint (rawOfPoint f q)).flatMap wordBytes) := by
  cases q with
  | inf => exact absurd rfl hfin
  | pt x y =>
    obtain ⟨hx, hy⟩ := canon_pt_iff.1 hq
    rw [ser, rawOfPoint, wordsPoint, List.flatMap_append, wordBytes_raw h hx, wordBytes_raw h hy]

theorem map_pointOfRaw_rawOfPoint {qs : List Affine} (hqs : ∀ q ∈ qs, q.Canon f) (hfin : ∀ q ∈ qs, q ≠ .inf) :
    (qs.map (rawOfPoint f)).map (pointOfRaw f) = qs := by
  rw [List.map_map]
  exact (List.map_congr_left (g := id) fun q hq => pointOfRaw_rawOfPoint h (hqs q hq) (hfin q hq)).trans (List.map_id qs)

theorem serAll_eq_rawOfPoint {qs : List Affine} (hqs : ∀ q ∈ qs, q.Canon f) (hfin : ∀ q ∈ qs, q ≠ .inf) :
    serAll f qs = .ok (((qs.map (rawOfPoint f)).flatMap wordsPoint).flatMap wordBytes) := by
  induction qs with
  | nil => rfl
  | cons q qs ih =>
    obtain ⟨hq, hqs⟩ := List.forall_mem_cons.1 hqs
    obtain ⟨hqfin, hfin⟩ := List.forall_mem_cons.1 hfin
    rw [serAll, ser_eq_rawOfPoint h hq hqfin, ok_bind, ih hqs hfin, ok_bind, List.map_cons, List.flatMap_cons, List.flatMap_append]

end

/-- A proof of canonical data and finite points: what the prover answers (44_ipa.md R247). -/
structure Proof.Canonical (c : Curve) (pf : Proof) : Prop where
  ls : ∀ q ∈ pf.ls, q.Canon c.fp
  rs : ∀ q ∈ pf.rs, q.Canon c.fp
  lsFinite : ∀ q ∈ pf.ls, q ≠ .inf
  rsFinite : ∀ q ∈ pf.rs, q ≠ .inf
  a : c.fq.Canon pf.a
  b : c.fq.Canon pf.b

theorem Proof.Canonical.proofParse_raw {c : Curve} (h : c.WF) {pf : Proof} (hpf : pf.Canonical c) :
    proofParse c (pf.raw c) = pf := by
  simp only [proofParse, Proof.raw, map_pointOfRaw_rawOfPoint h.fp hpf.ls hpf.lsFinite,
    map_pointOfRaw_rawOfPoint h.fp hpf.rs hpf.rsFinite, ofRaw_raw h.fq hpf.a, ofRaw_raw h.fq hpf.b]

theorem Proof.Canonical.proofBytes_eq {c : Curve} (h : c.WF) {pf : Proof} (hpf : pf.Canonical c) :
    proofBytes c pf = .ok (proofWordBytes (pf.raw c)) := by
  simp only [proofBytes, serAll_eq_rawOfPoint h.fp hpf.ls hpf.lsFinite, serAll_eq_rawOfPoint h.fp hpf.rs hpf.rsFinite, ok_bind,
    proofWordBytes, wordsProof, Proof.raw, List.flatMap_append, wordBytes_raw h.fq hpf.a, wordBytes_raw h.fq hpf.b]

/-! ## Points of order dividing `q` (42_curve.md R199) -/

theorem exists_forall₂ {α β : Type} {P : α → β → Prop} {xs : List α} (h : ∀ x ∈ xs, ∃ y, P x y) : ∃ ys, List.Forall₂ P xs ys := by
  induction xs with
  | nil => exact ⟨[], .nil⟩
  | cons x xs ih =>
    obtain ⟨⟨y, hy⟩, hxs⟩ := List.forall_mem_cons.1 h
    obtain ⟨ys, hys⟩ := ih hxs
    exact ⟨y :: ys, .cons hy hys⟩

/-- The points whose multiple by `q` is infinity. -/
abbrev Curve.OrderDividesQ (c : Curve) [Fact (Nat.Prime c.fp.m)] : AddSubgroup c.weierstrass.Point :=
  AddSubgroup.torsionBy c.weierstrass.Point (c.fq.m : ℤ)

/-- A base point that GSETUP would accept stands for a point of order dividing `q`. -/
theorem Curve.exists_shows_of_generatorOk {c : Curve} [Fact (Nat.Prime c.fp.m)] (h : c.WF)
    (hdisc : 4 * c.fp.toZ c.crv.a ^ 3 + 27 * c.fp.toZ c.crv.b ^ 2 ≠ 0) {Q : Affine} (hQ : Q.Canon c.fp)
    (hok : c.generatorOk Q = true) : ∃ g : c.OrderDividesQ, c.Shows c.OrderDividesQ.subtype Q g := by
  obtain ⟨hon, horder⟩ := (Bool.and_eq_true _ _).mp hok
  obtain ⟨pt, hpt⟩ := Curve.standsFor_of_oncurve h hdisc hQ hon
  have hmul := Curve.pmulRaw_represents h (Curve.toJ_represents h hQ hpt) c.fq.m_lt
  exact ⟨⟨pt, AddSubgroup.torsionBy.nsmul_iff.2 ((hmul.Z_eq_zero_iff h).1 (beq_iff_eq.1 horder))⟩, hQ, hpt⟩

/-- The premises of completeness (44_ipa.md R249): base points that GSETUP would accept, four vectors of length 2^k, and the
commitment of the witness vectors and their inner product. -/
structure ProverState.Committed (c : Curve) (u : Affine) (k : Nat) (st : ProverState) : Prop where
  base : ∀ Q ∈ u :: (st.gs ++ st.hs), Q.Canon c.fp ∧ c.generatorOk Q = true
  a : ∀ x ∈ st.a, c.fq.Canon x
  b : ∀ x ∈ st.b, c.fq.Canon x
  gsLength : st.gs.length = 2 ^ k
  hsLength : st.hs.length = 2 ^ k
  aLength : st.a.length = 2 ^ k
  bLength : st.b.length = 2 ^ k
  P : crossPoint c u st.gs st.a st.hs st.b (c.fq.vip st.a st.b) = .ok st.P

/-- Completeness of the prover and the verifier on a curve: the points of order dividing `q` are a module over the residues modulo
`q`, in which a committed prover state holds an opening. -/
theorem ProverState.Committed.ipaVerify_of_ipaProve {c : Curve} [Fact (Nat.Prime c.fp.m)] (h : c.WF)
    (hdisc : 4 * c.fp.toZ c.crv.a ^ 3 + 27 * c.fp.toZ c.crv.b ^ 2 ≠ 0) {u : Affine} {k : Nat} {st : ProverState}
    (hst : st.Committed c u k) {H : Hash} {pf : Proof} (e : ipaProve H c u k st = .ok pf) :
    ipaVerify H c st.gs st.hs u st.P pf = .ok true ∧ pf.Canonical c ∧ pf.ls.length = k ∧ pf.rs.length = k := by
  let := AddSubgroup.torsionBy.zmodModule (A := c.weierstrass.Point) (n := c.fq.m)
  have stores {xs : List Fe} (hxs : ∀ x ∈ xs, c.fq.Canon x) : List.Forall₂ c.fq.Stores xs (xs.map c.fq.toZ) :=
    List.forall₂_map_right_iff.2 (List.forall₂_same.2 fun x hx => .of_canon (hxs x hx))
  obtain ⟨hbase, ha, hb, hgl, hhl, hal, hbl, hP⟩ := hst
  have shown {Q : Affine} (hQ : Q ∈ u :: (st.gs ++ st.hs)) :=
    Curve.exists_shows_of_generatorOk h hdisc (hbase Q hQ).1 (hbase Q hQ).2
  obtain ⟨v, hv⟩ := shown List.mem_cons_self
  obtain ⟨gs, hgs⟩ := exists_forall₂ fun Q hQ => shown (List.mem_cons_of_mem _ (List.mem_append_left _ hQ))
  obtain ⟨hs, hhs⟩ := exists_forall₂ fun Q hQ => shown (List.mem_cons_of_mem _ (List.mem_append_right _ hQ))
  have hopen : c.Holds c.OrderDividesQ.subtype v st ⟨gs, hs, st.a.map c.fq.toZ, st.b.map c.fq.toZ⟩ :=
    ⟨hgs, hhs, stores ha, stores hb, Curve.shows_crossPoint h hv hgs hhs (stores ha) (stores hb) (stores ha) (stores hb) hP⟩
  obtain ⟨hvalid, hls, hrs, hpa, hpb⟩ := Curve.ipaVerify_of_ipaProve h hv hopen
    ⟨hgs.length_eq.symm.trans hgl, hhs.length_eq.symm.trans hhl, (List.length_map _).trans hal, (List.length_map _).trans hbl⟩ e
  obtain ⟨last, hrounds, -, -⟩ := ipaProve_eq_ok e
  obtain ⟨⟨hlslen, hlsfin⟩, hrslen, hrsfin⟩ := proveRounds_finite hrounds
  exact ⟨hvalid, ⟨hls, hrs, hlsfin, hrsfin, hpa, hpb⟩, hlslen, hrslen⟩

/-! ## The commands -/

section
variable {H : Hash} {s t : State} {gs hs au aP va vb : RegNo} {gsv hsv : GVec} {u P : Affine} {a b : FVec}

theorem enterFault_not_counted {c : Cause} (h : (Host.Outcome.next (s.enterFault c) : Result) = .next t) : t.cseq ≠ s.cseq + 1 := by
  cases h
  simp

/-- What an IPAPRV that completes has checked, and what it emits. -/
theorem ipaprvWith_completed (hc : s.crv.ok = true) (hg : s.g.get gs = some gsv) (hh : s.g.get hs = some hsv)
    (hu : s.a.get au = some u) (hP : s.a.get aP = some P) (ha : s.v.get va = some a) (hb : s.v.get vb = some b)
    (e : ipaprvWith H gs hs au aP va vb s = .next t) (hseq : t.cseq = s.cseq + 1) :
    ((s.fld a.ctx).mod = s.fld1.mod ∧ (s.fld b.ctx).mod = s.fld1.mod) ∧
    (gsv.length = hsv.length ∧ gsv.length = a.elems.length ∧ gsv.length = b.elems.length) ∧
    ∃ k pf bytes, gsv.length = 2 ^ k ∧
      ipaProve H s.curve u k (s.proverState gsv hsv P a b) = .ok pf ∧ proofBytes s.curve pf = .ok bytes ∧
      t = (s.emit bytes).complete := by
  rw [ipaprvWith_eq H hc hg hh hu hP ha hb] at e
  split at e
  case isFalse => exact absurd hseq (enterFault_not_counted e)
  case isTrue hmod =>
    split at e
    case isFalse => exact absurd hseq (enterFault_not_counted e)
    case isTrue hlen =>
      split at e
      case isFalse => exact absurd hseq (enterFault_not_counted e)
      case isTrue hpow =>
        obtain ⟨k, hk⟩ := isPow2_iff.1 hpow
        rw [hk, Nat.log2_two_pow] at e
        rcases finish_eq_next.1 e with ⟨v, hv, rfl⟩ | ⟨c, -, rfl⟩
        · obtain ⟨pf, hpf, hv⟩ := bind_eq_ok.1 hv
          obtain ⟨bytes, hbytes, hv⟩ := bind_eq_ok.1 hv
          cases hv
          exact ⟨hmod, hlen, k, pf, bytes, hk, hpf, hbytes, rfl⟩
        · exact absurd hseq (enterFault_not_counted rfl)

/-- A state that holds the premises of completeness hands the prover a committed state: the witness vectors keep their values when
they are taken to the order field. -/
theorem State.Inv.committed (hi : s.Inv) (hc : s.crv.ok = true) (hg : s.g.get gs = some gsv) (hh : s.g.get hs = some hsv)
    (hu : s.a.get au = some u) (ha : s.v.get va = some a) (hb : s.v.get vb = some b)
    (hbase : ∀ Q ∈ u :: (gsv ++ hsv), s.curve.generatorOk Q = true)
    (hcommit : s.curve.toA (s.curve.padd
      (s.curve.padd (s.curve.msm gsv (a.elems.map (s.fld a.ctx).val)) (s.curve.msm hsv (b.elems.map (s.fld b.ctx).val)))
      (s.curve.pmul (Values.vip s.fld1.m (a.elems.map (s.fld a.ctx).val) (b.elems.map (s.fld b.ctx).val)) (s.curve.toJ u))) =
      .ok P)
    (hma : (s.fld a.ctx).mod = s.fld1.mod) (hmb : (s.fld b.ctx).mod = s.fld1.mod) {k : Nat} (hgk : gsv.length = 2 ^ k)
    (hhk : hsv.length = 2 ^ k) (hak : a.elems.length = 2 ^ k) (hbk : b.elems.length = 2 ^ k) :
    (s.proverState gsv hsv P a b).Committed s.curve u k := by
  have hfq := (hi.setup.curve_wf hc).fq
  obtain ⟨-, -, hgc⟩ := hi.regs.g _ _ hg
  obtain ⟨-, -, hhc⟩ := hi.regs.g _ _ hh
  obtain ⟨-, huc⟩ := hi.regs.a _ _ hu
  obtain ⟨-, -, hac⟩ := hi.regs.v _ _ ha
  obtain ⟨-, -, hbc⟩ := hi.regs.v _ _ hb
  obtain ⟨hac', hav⟩ := State.map_convert_spec (dst := .order) (hi.vec_wf ha) hfq hma.symm hac
  obtain ⟨hbc', hbv⟩ := State.map_convert_spec (dst := .order) (hi.vec_wf hb) hfq hmb.symm hbc
  refine ⟨fun Q hQ => ⟨?_, hbase Q hQ⟩, hac', hbc', hgk, hhk, (List.length_map _).trans hak, (List.length_map _).trans hbk, ?_⟩
  · rcases List.mem_cons.1 hQ with rfl | hQ
    · exact huc
    · exact (List.mem_append.1 hQ).elim (fun hQ => (hgc Q hQ).2) fun hQ => (hhc Q hQ).2
  · rw [← hav, ← hbv] at hcommit
    rw [crossPoint, (hfq.vip_spec (as := (s.proverState gsv hsv P a b).a) hac').2]
    exact hcommit

/-- An IPAVFY whose checks hold and whose verifier answers valid raises `VFY`. -/
theorem ipavfyWith_valid (hc : s.crv.ok = true) (hg : s.g.get gs = some gsv) (hh : s.g.get hs = some hsv) (hu : s.a.get au = some u)
    (hP : s.a.get aP = some P) {pf : RawProof} (hk : 2 ^ pf.ls.length ≤ s.nmax) (hgk : gsv.length = 2 ^ pf.ls.length)
    (hhk : hsv.length = 2 ^ pf.ls.length) (hvalid : ipaVerify H s.curve gsv hsv u P (proofParse s.curve pf) = .ok true) :
    ipavfyWith H gs hs au aP pf s = .next (s.putFlag .vfy true).complete := by
  rw [ipavfyWith_eq H hc hg hh hu hP hk, hgk, hhk, if_pos rfl, if_pos (isPow2_two_pow _), if_pos rfl, hvalid]
  rfl

end

/-! ## The statement -/

/-- Settles O60: the sources of an IPAPRV that completes hold an opening of `P` in the module of points of order dividing `q`, so
the verifier accepts the prover's proof, which is what the emitted bytes parse to. -/
theorem emittedProofVerifies : Obligations.EmittedProofVerifies := by
  unfold Obligations.EmittedProofVerifies
  intro H s t gs hs au aP va vb gsv hsv u P a b hi hc hp hdisc hg hh hu hP ha hb hbase hcommit e hseq
  have hwf := hi.setup.curve_wf hc
  have : Fact (Nat.Prime s.curve.fp.m) := ⟨hp⟩
  obtain ⟨⟨hma, hmb⟩, ⟨hgh, hga, hgb⟩, k, pf, bytes, hk, hprove, hbytes, rfl⟩ := ipaprvWith_completed hc hg hh hu hP ha hb e hseq
  have hcommitted := hi.committed hc hg hh hu ha hb hbase hcommit hma hmb hk (hgh.symm.trans hk) (hga.symm.trans hk)
    (hgb.symm.trans hk)
  obtain ⟨hvalid, hpf, hls, hrs⟩ := hcommitted.ipaVerify_of_ipaProve hwf hdisc hprove
  have hlslen : (pf.raw s.curve).ls.length = k := (List.length_map _).trans hls
  have hrslen : (pf.raw s.curve).rs.length = k := (List.length_map _).trans hrs
  obtain ⟨-, hgmax, -⟩ := hi.regs.g _ _ hg
  have hkmax : 2 ^ k ≤ s.nmax := hk ▸ hgmax
  have hklog : k ≤ s.nmaxLog.val := (Nat.pow_le_pow_iff_right (by decide)).1 hkmax
  obtain rfl : proofWordBytes (pf.raw s.curve) = bytes := Except.ok.inj ((hpf.proofBytes_eq hwf).symm.trans hbytes)
  have hverified := ipavfyWith_valid (s := (s.emit (proofWordBytes (pf.raw s.curve))).complete) (H := H) hc hg hh hu hP
    (hlslen ▸ hkmax) (hlslen ▸ hk) (hlslen ▸ hgh ▸ hk) ((congrArg _ (hpf.proofParse_raw hwf)).trans hvalid)
  exact ⟨_, _, RawProof.wf_iff.2 ⟨hlslen.trans hrslen.symm, by have := s.nmaxLog.isLt; omega⟩, rfl, hverified, rfl,
    State.flag_putFlag_same ..⟩

end Sys2Proof.Machine
end

section
/-! PROOFS of the statements on faults and on the end of a run (60_exceptions.md): what fault entry writes, what a completed command
leaves of the fault record, which causes each command's pseudocode can raise (`Answers`), and where a run over a finite stream
stops. -/

namespace Sys2Proof.Machine

/-! ## Fault entry and completion (R274, R275) -/

/-- Fault entry writes bits 23:16, 8 and 3 of the status word and no bit of this mask. -/
theorem enterFault_status_and_mask (s : State) (c : Cause) :
    (s.enterFault c).status &&& 0xFF00FE00#32 = s.status &&& 0xFF00FE00#32 := by
  rw [State.enterFault_status, setFlag_and_mask _ _ _ (by decide), setFlag_and_mask _ _ _ (by decide),
    setFcode_and_mask _ _ (by decide)]

/-- The state after fault entry tells its cause. -/
theorem enterFault_inj {s : State} {c d : Cause} : s.enterFault c = s.enterFault d ↔ c = d := by
  refine ⟨fun h => ?_, congrArg _⟩
  rw [← Cause.code_inj, ← State.fcode_enterFault s c, h, State.fcode_enterFault]

/-- No completed command writes `FAULT`. -/
theorem fault_notMem_flags (i : Instr) : Flag.fault ∉ i.flags := by
  cases i with
  | fsetup c => cases c <;> simp [Instr.flags]
  | _ => simp [Instr.flags]

namespace Effect

variable {s u : State} {i : Instr}

theorem cseq (h : Effect s i u) : u.cseq = s.cseq := by cases h <;> simp

theorem fcode (h : Effect s i u) : getFcode u.status = getFcode s.status := by cases h <;> simp

end Effect

/-! ## Causes of the pseudocode (R272) -/

/-- Pseudocode whose answers have a property and whose causes are all listed. -/
def Answers {α : Type} (Q : α → Prop) (cs : List Cause) : Except Cause α → Prop
  | .ok x => Q x
  | .error c => c ∈ cs

/-- A function that raises listed causes only. -/
abbrev RaisesOnly {α : Type} (cs : List Cause) (r : Except Cause α) : Prop := Answers (fun _ => True) cs r

section
variable {α β : Type} {s : State} {P : α → Prop} {Q : β → Prop} {cs ds : List Cause}

/-! ### Rules: one per operation -/

theorem Answers.pure {y : β} (h : Q y) : Answers Q cs (Pure.pure y) := h

theorem Answers.bind {r : Except Cause α} {k : α → Except Cause β} (hr : Answers P ds r)
    (hk : ∀ x, r = .ok x → Answers Q cs (k x)) (hsub : ds ⊆ cs := by simp [Instr.causes]) : Answers Q cs (r >>= k) := by
  cases r with
  | ok x => exact hk x rfl
  | error c => exact hsub hr

theorem raisesOnly_of_error {r : Except Cause α} {c : Cause} (h : ∀ d, r = .error d → d = c) : RaisesOnly [c] r := by
  cases r with
  | ok x => trivial
  | error d => exact List.mem_singleton.2 (h d rfl)

theorem raisesOnly_require (b : Bool) (c : Cause) : RaisesOnly [c] (require b c) :=
  raisesOnly_of_error fun _ h => (require_eq_error.1 h).2.symm

theorem raisesOnly_readReg (rf : RegFile α) (i : RegNo) : RaisesOnly [.unwrittenRegister] (readReg rf i) :=
  raisesOnly_of_error fun _ h => (readReg_eq_error.1 h).2

theorem raisesOnly_entry (xs : List α) (n : Nat) : RaisesOnly [.rangeError] (entry xs n) :=
  raisesOnly_of_error fun _ h => (entry_eq_error.1 h).2

theorem Answers.require {b : Bool} {c : Cause} {k : Unit → Except Cause β} (hk : Answers Q cs (k ()))
    (hsub : [c] ⊆ cs := by simp [Instr.causes]) : Answers Q cs (require b c >>= k) :=
  .bind (raisesOnly_require b c) (fun _ _ => hk) hsub

theorem Answers.needCurve {k : Unit → Except Cause β} (hk : s.crv.ok = true → Answers Q cs (k ()))
    (hsub : [.curveNotReady] ⊆ cs := by simp [Instr.causes]) : Answers Q cs (s.needCurve >>= k) :=
  .bind (raisesOnly_require _ _) (fun _ hx => hk (needCurve_eq_ok.1 hx)) hsub

theorem Answers.sameField {c1 c2 : Ctx} {k : Unit → Except Cause β} (hk : Answers Q cs (k ()))
    (hsub : [.modulusMismatch] ⊆ cs := by simp [Instr.causes]) : Answers Q cs (s.sameField c1 c2 >>= k) :=
  .require hk hsub

theorem Answers.read {rf : RegFile α} {i : RegNo} {k : α → Except Cause β} (hk : ∀ x, rf.get i = some x → Answers Q cs (k x))
    (hsub : [.unwrittenRegister] ⊆ cs := by simp [Instr.causes]) : Answers Q cs (readReg rf i >>= k) :=
  .bind (raisesOnly_readReg rf i) (fun x hx => hk x (readReg_eq_ok.1 hx)) hsub

end

/-! ### Field and curve functions -/

theorem raisesOnly_inv (f : FieldCtx) (a : Fe) : RaisesOnly [.noInverse] (f.inv a) := by
  unfold FieldCtx.inv
  split
  · trivial
  · exact List.mem_singleton_self _

theorem raisesOnly_sqrt (f : FieldCtx) (a : Fe) : RaisesOnly [.sqrtUnimplemented] (f.sqrt a) := by
  unfold FieldCtx.sqrt
  split
  · trivial
  · exact List.mem_singleton_self _

theorem raisesOnly_toA (c : Curve) (P : Jac) : RaisesOnly [.noInverse] (c.toA P) := by
  unfold Curve.toA
  split
  · trivial
  · exact .bind (raisesOnly_inv ..) fun _ _ => trivial

theorem raisesOnly_ser (f : FieldCtx) (q : Affine) : RaisesOnly [.infinityEncode] (ser f q) :=
  raisesOnly_of_error fun _ h => (ser_eq_error.1 h).2

theorem raisesOnly_serAll (f : FieldCtx) (qs : List Affine) : RaisesOnly [.infinityEncode] (serAll f qs) := by
  induction qs with
  | nil => trivial
  | cons q qs ih => exact .bind (raisesOnly_ser f q) fun _ _ => .bind ih fun _ _ => trivial

theorem raisesOnly_vecPair (s : State) (i k : RegNo) :
    RaisesOnly [.unwrittenRegister, .modulusMismatch, .lengthMismatch] (s.vecPair i k) :=
  .read fun _ _ => .read fun _ _ => .sameField <| .require <| .pure trivial

/-! ### Inner-product functions (44_ipa.md R242 to R248) -/

section
variable (H : Hash) (c : Curve)

theorem raisesOnly_chal (L C R : Affine) : RaisesOnly [.infinityEncode] (chal H c L C R) :=
  .bind (raisesOnly_ser ..) fun _ _ => .bind (raisesOnly_ser ..) fun _ _ => .bind (raisesOnly_ser ..) fun _ _ => trivial

theorem raisesOnly_ipasv (f : FieldCtx) (xs : List Fe) : RaisesOnly [.noInverse] (ipasv f xs) :=
  .bind (raisesOnly_inv ..) fun _ _ => trivial

theorem raisesOnly_ipaRound (C : Jac) (L R : Affine) : RaisesOnly [.infinityEncode, .noInverse] (ipaRound H c C L R) :=
  .bind (raisesOnly_toA ..) fun _ _ => .bind (raisesOnly_chal ..) fun _ _ => .bind (raisesOnly_inv ..) fun _ _ => trivial

theorem raisesOnly_ipaRounds (ls rs : List Affine) (C : Jac) :
    RaisesOnly [.infinityEncode, .noInverse] (ipaRounds H c C ls rs) := by
  induction ls generalizing rs C with
  | nil => trivial
  | cons L ls ih =>
    cases rs with
    | nil => trivial
    | cons R rs => exact .bind (raisesOnly_ipaRound ..) fun _ _ => .bind (ih rs _) fun _ _ => trivial

theorem raisesOnly_ipaVerify (gs hs : List Affine) (u P : Affine) (pf : Proof) :
    RaisesOnly [.infinityEncode, .noInverse] (ipaVerify H c gs hs u P pf) :=
  .bind (raisesOnly_ipaRounds ..) fun _ _ => .bind (raisesOnly_ipasv ..) fun _ _ =>
    .bind (raisesOnly_toA ..) fun _ _ => .bind (raisesOnly_toA ..) fun _ _ => trivial

theorem raisesOnly_foldBase (x y : Nat) (ls rs : List Affine) : RaisesOnly [.noInverse] (foldBase c x y ls rs) := by
  induction ls generalizing rs with
  | nil => trivial
  | cons l ls ih =>
    cases rs with
    | nil => trivial
    | cons r rs => exact .bind (raisesOnly_toA ..) fun _ _ => .bind (ih rs) fun _ _ => trivial

theorem raisesOnly_proveRound (u : Affine) (h : Nat) (st : ProverState) :
    RaisesOnly [.infinityEncode, .noInverse] (proveRound H c u h st) :=
  .bind (raisesOnly_toA ..) fun _ _ => .bind (raisesOnly_toA ..) fun _ _ => .bind (raisesOnly_chal ..) fun _ _ =>
    .bind (raisesOnly_inv ..) fun _ _ => .bind (raisesOnly_foldBase ..) fun _ _ => .bind (raisesOnly_foldBase ..) fun _ _ =>
      .bind (raisesOnly_toA ..) fun _ _ => trivial

theorem raisesOnly_proveRounds (u : Affine) (k : Nat) (st : ProverState) :
    RaisesOnly [.infinityEncode, .noInverse] (proveRounds H c u k st) := by
  induction k generalizing st with
  | zero => trivial
  | succ k ih => exact .bind (raisesOnly_proveRound ..) fun _ _ => .bind (ih _) fun _ _ => trivial

theorem raisesOnly_ipaProve (u : Affine) (k : Nat) (st : ProverState) :
    RaisesOnly [.infinityEncode, .noInverse] (ipaProve H c u k st) :=
  .bind (raisesOnly_proveRounds ..) fun _ _ => trivial

theorem raisesOnly_proofBytes (pf : Proof) : RaisesOnly [.infinityEncode] (proofBytes c pf) :=
  .bind (raisesOnly_serAll ..) fun _ _ => .bind (raisesOnly_serAll ..) fun _ _ => trivial

end

/-! ### Every command -/

/-- A command's result is fault entry for a listed cause or for none. -/
def FaultsOnlyBy (s : State) (cs : List Cause) (x : Result) : Prop := ∀ c, x = .next (s.enterFault c) → c ∈ cs

/-- A command faults by the causes of its pseudocode: its answers leave `CSEQ` as it was, so a completion, which counts it, is no
fault entry. -/
theorem FaultsOnlyBy.finish {s : State} {cs : List Cause} {r : Except Cause State} (h : Answers (·.cseq = s.cseq) cs r) :
    FaultsOnlyBy s cs (Machine.finish s r) := by
  intro c hc
  cases r with
  | ok u => exact absurd hc (complete_ne_enterFault h c)
  | error d => exact enterFault_inj.1 (Host.Outcome.next.inj hc) ▸ h

/-- The table of R272: each command's pseudocode, operation by operation. -/
theorem exec_faultsOnlyBy (s : State) (i : Instr) : FaultsOnlyBy s i.causes (exec i s) := by
  cases i with
  | nop => exact .finish (.pure rfl)
  | sts => exact .finish (.pure (State.emit_cseq ..))
  | fsetup => exact .finish <| .require <| .require <| .pure (State.putFld_cseq ..)
  | csetup => exact .finish <| .require <| .require <| .require <| .pure rfl
  | lde => exact .finish <| .require <| .pure rfl
  | ldv => exact .finish <| .require <| .require <| .pure rfl
  | ldg => exact .finish <| .require <| .needCurve fun _ => .pure rfl
  | lda | ldainf => exact .finish <| .needCurve fun _ => .pure rfl
  | gsetup => exact .finish <| .needCurve fun _ => .pure (State.putGen_cseq ..)
  | agen => exact .finish <| .needCurve fun _ => .require <| .pure rfl
  | ste | stv | fneg | fpow | fpoww | fmov | vrev => exact .finish <| .read fun _ _ => .pure rfl
  | sta => exact .finish <| .needCurve fun _ => .read fun _ _ => .bind (raisesOnly_ser ..) fun _ _ => .pure rfl
  | stg => exact .finish <| .needCurve fun _ => .read fun _ _ => .bind (raisesOnly_serAll ..) fun _ _ => .pure rfl
  | fadd | fsub | fmul | feq | vscl => exact .finish <| .read fun _ _ => .read fun _ _ => .sameField <| .pure rfl
  | finv => exact .finish <| .read fun _ _ => .bind (raisesOnly_inv ..) fun _ _ => .pure rfl
  | fsqrt => exact .finish <| .read fun _ _ => .bind (raisesOnly_sqrt ..) fun _ _ => .pure rfl
  | pchk | ptoj | pdbl | pneg => exact .finish <| .needCurve fun _ => .read fun _ _ => .pure rfl
  | padd | pmadd | pmul | peq => exact .finish <| .needCurve fun _ => .read fun _ _ => .read fun _ _ => .pure rfl
  | ptoa => exact .finish <| .needCurve fun _ => .read fun _ _ => .bind (raisesOnly_toA ..) fun _ _ => .pure rfl
  | vadd | vsub | vhad | vip => exact .finish <| .bind (raisesOnly_vecPair ..) fun _ _ => .pure rfl
  | vslice => exact .finish <| .read fun _ _ => .require <| .pure rfl
  | vget => exact .finish <| .read fun _ _ => .bind (raisesOnly_entry ..) fun _ _ => .pure rfl
  | vpow => exact .finish <| .require <| .read fun _ _ => .pure rfl
  | gmsm => exact .finish <| .needCurve fun _ => .read fun _ _ => .read fun _ _ => .require <| .pure rfl
  | gslice => exact .finish <| .needCurve fun _ => .read fun _ _ => .require <| .pure rfl
  | gget => exact .finish <| .needCurve fun _ => .read fun _ _ => .bind (raisesOnly_entry ..) fun _ _ => .pure rfl
  | ipach =>
    exact .finish <| .needCurve fun _ => .read fun _ _ => .read fun _ _ => .read fun _ _ =>
      .bind (raisesOnly_chal ..) fun _ _ => .pure rfl
  | ipasv => exact .finish <| .read fun _ _ => .require <| .bind (raisesOnly_ipasv ..) fun _ _ => .pure rfl
  | ipavfy =>
    exact .finish <| .require <| .needCurve fun _ => .read fun _ _ => .read fun _ _ => .read fun _ _ => .read fun _ _ =>
      .require <| .require <| .require <| .bind (raisesOnly_ipaVerify ..) fun _ _ => .pure rfl
  | ipaprv =>
    exact .finish <| .needCurve fun _ => .read fun _ _ => .read fun _ _ => .read fun _ _ => .read fun _ _ => .read fun _ _ =>
      .read fun _ _ => .sameField <| .sameField <| .require <| .require <| .bind (raisesOnly_ipaProve ..) fun _ _ =>
        .bind (raisesOnly_proofBytes ..) fun _ _ => .pure rfl

/-- Under a prime `p` every triple a register holds has an affine image, so PTOA is left with its first two checks. -/
theorem exec_ptoa_faultsOnlyBy {s : State} (hi : s.Inv) (hp : Nat.Prime s.fld0.m) (d k : RegNo) :
    FaultsOnlyBy s [.curveNotReady, .unwrittenRegister] (exec (.ptoa d k) s) :=
  .finish <| .needCurve fun hc => .read fun _ hx => by
    have : Fact (Nat.Prime s.curve.fp.m) := ⟨hp⟩
    obtain ⟨Q, hQ⟩ := Curve.exists_toA (hi.setup.curve_wf hc) (hi.regs.j _ _ hx).2
    rw [hQ]
    exact .pure rfl

/-! ## A step takes words (R277, 20_memory.md R51) -/

theorem exec_cmdIn {s t : State} {i : Instr} (h : exec i s = .next t) : t.cmdIn = s.cmdIn := by
  rcases exec_cases h with ⟨c, rfl⟩ | ⟨u, hu, rfl⟩
  · rfl
  · exact hu.cmdIn

/-- A step takes a word at least, and leaves the words behind those it takes. -/
theorem step_cmdIn {s t : State} (h : step s = .next t) : ∃ w rest, s.cmdIn = w :: rest ∧ t.cmdIn <:+ rest := by
  obtain ⟨w, rest, hcmd, hcase⟩ := step_cases h
  refine ⟨w, rest, hcmd, ?_⟩
  rcases hcase with ⟨-, rfl⟩ | ⟨-, -, rfl⟩ | ⟨-, -, rfl⟩ | ⟨-, o, i, rest', -, -, hdecode, hexec⟩
  · exact List.suffix_rfl
  · exact List.suffix_rfl
  · exact List.suffix_rfl
  · obtain ⟨_, _, _, hwords, -, -, -, rfl⟩ := decode_eq_ok.1 hdecode
    obtain ⟨rfl, rfl⟩ := List.cons.inj hwords
    rw [exec_cmdIn hexec]
    exact List.drop_suffix _ _

/-- Everything that keeps the block from a step: no word is left, or the payload of the next command is incomplete (20_memory.md
R57). -/
theorem step_stuck_cases {s : State} (h : ∀ t, step s ≠ .next t) :
    s.cmdIn = [] ∨ s.halted = false ∧ s.cmdIn ≠ [] ∧ step s = .fault .awaitingPayload := by
  cases hcmd : s.cmdIn with
  | nil => exact .inl rfl
  | cons w ws =>
    cases hh : s.halted with
    | true => exact absurd (step_of_halted hh hcmd) (h _)
    | false =>
      refine .inr ⟨rfl, List.cons_ne_nil _ _, ?_⟩
      cases ho : checkHeader w with
      | error err => exact absurd (step_of_illegal hh hcmd ho) (h _)
      | ok o =>
        cases hr : o.outOfRange s.nmax w with
        | true => exact absurd (step_of_outOfRange hh hcmd ho hr) (h _)
        | false =>
          refine step_of_incomplete hh hcmd ho hr (Nat.lt_of_not_le fun hlen => ?_)
          obtain ⟨t, ht⟩ := exec_next (build w ws o) { s with cmdIn := ws.drop (o.payloadWords w) }
          exact h t ((step_of_decode hh hcmd ho hr (decode_eq_ok.2 ⟨w, ws, o, rfl, ho, hlen, rfl, rfl⟩)).trans ht)

/-! ## Runs over a finite stream (R277, R285) -/

theorem runSteps_succ_of_next {n : Nat} {s t : State} (h : step s = .next t) : runSteps (n + 1) s = runSteps n t := by
  simp only [runSteps, h]

theorem runSteps_of_stuck {n : Nat} {s : State} (h : ∀ t, step s ≠ .next t) : runSteps n s = s := by
  cases n with
  | zero => rfl
  | succ n =>
    simp only [runSteps]
    split
    · next t ht => exact absurd ht (h t)
    · rfl
    · rfl

/-- With as much fuel as there are words, a run takes words from the front until the block has no step. -/
theorem runSteps_stops (n : Nat) (s : State) (hn : s.cmdIn.length ≤ n) :
    (runSteps n s).cmdIn <:+ s.cmdIn ∧ ∀ t, step (runSteps n s) ≠ .next t := by
  by_cases h : ∀ t, step s ≠ .next t
  · rw [runSteps_of_stuck h]
    exact ⟨List.suffix_rfl, h⟩
  · push Not at h
    obtain ⟨t, ht⟩ := h
    obtain ⟨w, rest, hcmd, hsuffix⟩ := step_cmdIn ht
    rw [hcmd] at hn ⊢
    cases n with
    | zero => cases hn
    | succ n =>
      have hlen : t.cmdIn.length ≤ n := hsuffix.length_le.trans (Nat.le_of_succ_le_succ hn)
      obtain ⟨htaken, hstop⟩ := runSteps_stops n t hlen
      rw [runSteps_succ_of_next ht]
      exact ⟨(htaken.trans hsuffix).trans (List.suffix_cons _ _), hstop⟩

/-- A halted block discards word after word. -/
theorem runSteps_of_halted (ws : List Word) {s : State} (hh : s.halted = true) (hcmd : s.cmdIn = ws) :
    runSteps ws.length s = { s with cmdIn := [] } := by
  induction ws generalizing s with
  | nil => exact congrArg (fun ws => { s with cmdIn := ws }) hcmd
  | cons w ws ih => exact (runSteps_succ_of_next (step_of_halted hh hcmd)).trans (ih (s := { s with cmdIn := ws }) hh rfl)

theorem halted_hostMove_reset (s : State) : (s.hostMove .reset).halted = false := by
  simp [State.hostMove, State.halted, State.flag, getFlag]

/-! ### How a run ended -/

section
variable {s : State}

theorem runEnd_of_halted (hh : s.halted = true) : s.runEnd = .fault := by
  rw [State.runEnd, if_pos hh]

theorem runEnd_of_empty (hh : s.halted = false) (hcmd : s.cmdIn = []) : s.runEnd = .complete := by
  rw [State.runEnd, hh, hcmd]
  rfl

theorem runEnd_of_words (hh : s.halted = false) (hcmd : s.cmdIn ≠ []) : s.runEnd = .stuck := by
  obtain ⟨w, rest, hcmd⟩ := List.exists_cons_of_ne_nil hcmd
  rw [State.runEnd, hh, hcmd]
  rfl

end

/-! ## The statements -/

/-- Settles O12: the bits that fault entry writes, and the masks it leaves alone. -/
theorem faultEntryWritesOnlyTheRecord : Obligations.FaultEntryWritesOnlyTheRecord := by
  unfold Obligations.FaultEntryWritesOnlyTheRecord
  intro s c
  exact ⟨rfl, State.fcode_enterFault s c, State.halted_enterFault s c, State.vfy_enterFault s c,
    fun _ hfault hvfy => State.flag_enterFault_other s c hfault hvfy, enterFault_status_and_mask s c,
    State.halted_enterFault s c⟩

/-- Settles O13: a command has a next state, and no effect touches `CSEQ` or the fault record. -/
theorem commandsFaultPreciselyOrComplete : Obligations.CommandsFaultPreciselyOrComplete := by
  unfold Obligations.CommandsFaultPreciselyOrComplete
  intro i s
  obtain ⟨t, ht⟩ := exec_next i s
  rcases exec_cases ht with ⟨c, rfl⟩ | ⟨u, hu, rfl⟩
  · exact .inl ⟨c, ht⟩
  · exact .inr ⟨_, ht, congrArg (· + 1) hu.cseq, hu.fseq, hu.flag_other (fault_notMem_flags i), hu.fcode⟩

/-- Settles O14, by the causes of each command's pseudocode. -/
theorem commandsRaiseOnlyListedCauses : Obligations.CommandsRaiseOnlyListedCauses := by
  unfold Obligations.CommandsRaiseOnlyListedCauses
  refine ⟨fun i s => exec_faultsOnlyBy s i, fun d k s hi hp h => ?_⟩
  exact absurd (exec_ptoa_faultsOnlyBy hi hp d k _ h) (by decide)

/-- Settles O6: of the cases of a step only the first is open to a halted block. -/
theorem haltedBlockDiscardsEveryWord : Obligations.HaltedBlockDiscardsEveryWord := by
  unfold Obligations.HaltedBlockDiscardsEveryWord
  intro s hh
  refine ⟨fun t h => ?_, fun ws => runSteps_of_halted (s.cmdIn ++ ws) (s := s.offer ws) hh rfl, halted_hostMove_reset s⟩
  obtain ⟨w, rest, hcmd, -⟩ := step_cmdIn h
  exact ⟨rest, hcmd ▸ List.suffix_cons _ _, Host.Outcome.next.inj (h.symm.trans (step_of_halted hh hcmd))⟩

/-- Settles O11: the run stops where the block has no step, and a halted block has one while a word is left. -/
theorem everyRunEnds : Obligations.EveryRunEnds := by
  unfold Obligations.EveryRunEnds
  intro s ws
  obtain ⟨htaken, hstop⟩ : (s.runWords ws).cmdIn <:+ s.cmdIn ++ ws ∧ ∀ t, step (s.runWords ws) ≠ .next t :=
    runSteps_stops _ (s.offer ws) le_rfl
  refine ⟨htaken, ?_⟩
  rcases step_stuck_cases hstop with hcmd | ⟨running, hcmd, hwait⟩
  · cases hh : (s.runWords ws).halted with
    | true =>
      rw [runEnd_of_halted hh]
      exact ⟨rfl, hcmd⟩
    | false =>
      rw [runEnd_of_empty hh hcmd]
      exact ⟨rfl, hcmd⟩
  · rw [runEnd_of_words running hcmd]
    exact ⟨running, hwait⟩

end Sys2Proof.Machine
end

section
/-! PROOFS of the statement on hazards (70_reset_and_hazards.md R302): a command that needs the curve looks for it before it reads a
register, and only the range check of a header stands before that. -/

namespace Sys2Proof.Machine

/-! ## The curve before CSETUP (42_curve.md, before R190) -/

section
variable {s : State}

/-- Pseudocode behind the check for the curve is not run: its register reads do not matter. -/
theorem needCurve_bind_of_notReady {β : Type} (h : s.crv.ok = false) (k : Unit → Except Cause β) :
    (s.needCurve >>= k) = .error .curveNotReady :=
  require_bind_of_false h _ _

theorem exec_ldg_of_notReady (h : s.crv.ok = false) (d : RegNo) {qs : List RawPoint} (hlen : qs.length ≤ s.nmax) :
    exec (.ldg d qs) s = .next (s.enterFault .curveNotReady) :=
  finish_of_error <| (require_bind (decide_eq_true hlen) _ _).trans (needCurve_bind_of_notReady h _)

theorem exec_ipavfy_of_notReady (h : s.crv.ok = false) (gs hs au aP : RegNo) {pf : RawProof}
    (hlen : 2 ^ pf.ls.length ≤ s.nmax) :
    exec (.ipavfy gs hs au aP pf) s = .next (s.enterFault .curveNotReady) :=
  finish_of_error <| (require_bind (decide_eq_true hlen) _ _).trans (needCurve_bind_of_notReady h _)

end

/-- A command in range that needs the curve faults at its check for it (60_exceptions.md R273). -/
theorem exec_of_curveNotReady {s : State} {i : Instr} (hi : i.needsCurve = true) (hr : i.inRange s.nmax)
    (h : s.crv.ok = false) : exec i s = .next (s.enterFault .curveNotReady) := by
  cases i with
  | ldg d qs => exact exec_ldg_of_notReady h d hr
  | ipavfy gs hs au aP pf => exact exec_ipavfy_of_notReady h gs hs au aP hr
  | lda | ldainf | sta | stg | pchk | ptoj | ptoa | padd | pmadd | pdbl | pneg | pmul | peq | gsetup | agen | gmsm | gslice
  | gget | ipach | ipaprv => exact finish_of_error (needCurve_bind_of_notReady h _)
  | nop | fsetup | csetup | sts | lde | ste | ldv | stv | fadd | fsub | fmul | fneg | finv | fpow | fpoww | fsqrt | feq | fmov
  | vadd | vsub | vhad | vscl | vip | vslice | vpow | vget | vrev | ipasv => exact absurd hi Bool.false_ne_true

/-! ## The statement -/

/-- Settles O16: of each command's pseudocode the check for the curve comes first, but for the range checks of LDG and IPAVFY. -/
theorem curveCommandsNeedTheCurve : Obligations.CurveCommandsNeedTheCurve := by
  unfold Obligations.CurveCommandsNeedTheCurve
  intro i s hi hr h
  exact exec_of_curveNotReady hi hr h

end Sys2Proof.Machine
end
